-- ==== Sys2Proof/Word.lean ====
section
/-! DEFINITION. The word types of the DCP and their plainest arithmetic: bytes, half-words, 52-bit words, instruction
addresses, main memory addresses, and the exclusive OR of the low bits of a bit vector (parity). -/

namespace Sys2Proof

/-- An 8-bit register (10_state.md R20). -/
abbrev Byte := BitVec 8

/-- A 24-bit half-word: a register column, half of a word, an instruction (R20, R121). -/
abbrev Half := BitVec 24

/-- A 52-bit word: parity bit 51, tag bits 50 to 48, bytes 0 to 5 in bits 47 to 0 (R85, R87). -/
abbrev Word := BitVec 52

/-- A 16-bit instruction address in the format of IA-1 : IA-0 (R38). -/
abbrev InstrAddr := BitVec 16

/-- A 20-bit main memory word address (R39, R83). -/
abbrev SysAddr := BitVec 20

/-- The exclusive OR of bits 0 to n-1 of `v`. -/
def xorLow {w : Nat} (v : BitVec w) : Nat → Bool
  | 0 => false
  | n + 1 => Bool.xor (v.getLsbD n) (xorLow v n)

/-- `parity52` of R90: true exactly when all 52 bits hold an odd number of ones. -/
def oddParity (v : Word) : Bool := xorLow v 52

/-- The word with bit 51 set to the generated odd parity, NOT XOR of bits 50 to 0 (R90). -/
def withParity (v : Word) : Word :=
  BitVec.ofBool (!(xorLow v 51)) ++ v.extractLsb' 0 51

/-- The first value when the condition holds, else the second. -/
def pick {w : Nat} (c : Bool) (a b : BitVec w) : BitVec w := if c then a else b

end Sys2Proof
end

