-- ==== Sys2Proof/Syntax.lean ====
section
/-! DEFINITION. The instruction set: one constructor for each row of the opcode table (30_encoding.md R145 to R147).
Fields keep the manual's names: `a` what the A field holds beyond the fixed bits of the row, `b` and `c` the B and C
fields as they stand, so that no bit of an instruction is lost. -/

namespace Sys2Proof

/-- The instructions of the DCP. -/
inductive Instr where
  /-- IDLE: hold until Initialize (R201). -/
  | idle (b c : Byte)
  /-- BKP: stop or branch on breakpoint; `a` is the breakpoint code, b:c the branch address (R206). -/
  | bkp (a : BitVec 3) (b c : Byte)
  /-- AWI: adapter write; a bit 1: AC from b, a bit 0: AI from c (R202). -/
  | awi (a : BitVec 2) (b c : Byte)
  /-- AWRR: adapter interrogate; a as in `awi` (R203). -/
  | awrr (a : BitVec 2) (b c : Byte)
  /-- MSKW: set cluster mask register (R211). -/
  | mskw (b c : Byte)
  /-- MSKR: read cluster mask register (R212). -/
  | mskr (b c : Byte)
  /-- NOP_00011_01x: OP 00011 A 01x, a one-unit no-op under D11 (R147). -/
  | nop00011 (a : BitVec 1) (b c : Byte)
  /-- SHFT: shift MA right; b the literal, c the control bits (R207). -/
  | shft (b c : Byte)
  /-- HEYU: set system interrupt (R209). -/
  | heyu (b c : Byte)
  /-- ARWN: adapter read when attention needed (R221). -/
  | arwn (b c : Byte)
  /-- ARIN: adapter read if needed (R222). -/
  | arin (b c : Byte)
  /-- DBYZ: decrement Y, branch if Y is zero (R223). -/
  | dbyz (b c : Byte)
  /-- DBYN: decrement Y, branch if Y is non-zero (R224). -/
  | dbyn (b c : Byte)
  /-- BRAN: branch if system attention needed (R226). -/
  | bran (b c : Byte)
  /-- GOTO: conditional branch, `a` the condition (R228). -/
  | goto (a : BitVec 3) (b c : Byte)
  /-- GOX: conditional branch relative with X (R229). -/
  | gox (a : BitVec 3) (b c : Byte)
  /-- GOI: conditional branch relative indirect (R230). -/
  | goi (a : BitVec 3) (b c : Byte)
  /-- MOVE: move half-word (R241). -/
  | move (b c : Byte)
  /-- LMRI: local memory read, indirect address (R243). -/
  | lmri (b c : Byte)
  /-- SMRD: scratchpad memory read (R246). -/
  | smrd (b c : Byte)
  /-- LMRD: local memory read, direct address b:c (R248). -/
  | lmrd (b c : Byte)
  /-- MOVE_alias_01000_100: OP 01000 A 100, executes as MOVE (R147). -/
  | move01000 (b c : Byte)
  /-- LMWI: local memory write, indirect address (R250). -/
  | lmwi (b c : Byte)
  /-- SMWD: scratchpad memory write (R252). -/
  | smwd (b c : Byte)
  /-- LMWD: local memory write, direct address b:c (R254). -/
  | lmwd (b c : Byte)
  /-- MOVE_alias_01001_0x0: OP 01001 A 0x0, executes as MOVE; `a` is the x (R147). -/
  | move01001 (a : BitVec 1) (b c : Byte)
  /-- MMR: main memory read (R256). -/
  | mmr (b c : Byte)
  /-- MMR_alias_01001_011: OP 01001 A 011, executes as MMR (R147). -/
  | mmr01001 (b c : Byte)
  /-- MMWU: main memory write unconditional (R257). -/
  | mmwu (b c : Byte)
  /-- MMWR: main memory write-read unconditional (R258). -/
  | mmwr (b c : Byte)
  /-- MMWP: main memory protected write (R260). -/
  | mmwp (b c : Byte)
  /-- MWRP: main memory write-read protected (R262). -/
  | mwrp (b c : Byte)
  /-- HAD: half-word add; `a` is not significant (R271, R147). -/
  | had (a : BitVec 2) (b c : Byte)
  /-- HSB: half-word subtract (R275, R147). -/
  | hsb (a : BitVec 2) (b c : Byte)
  /-- HADB: half-word add, literal in b (R273, R147). -/
  | hadb (a : BitVec 2) (b c : Byte)
  /-- HSBB: half-word subtract, literal in b (R277, R147). -/
  | hsbb (a : BitVec 2) (b c : Byte)
  /-- TRAN: translate, `a` the translation code (R279, R280). -/
  | tran (a : BitVec 3) (b c : Byte)
  /-- PARY: parity, `a` the sense (R283). -/
  | pary (a : BitVec 1) (b c : Byte)
  /-- LEO_alias_01111: OP 01111 with A from 010 to 111, executes as LEO with that A (R147). -/
  | leo01111 (a : BitVec 3) (b c : Byte)
  /-- SUB: subtract (R296). -/
  | sub (a : BitVec 3) (b c : Byte)
  /-- LOR: logical OR (R305). -/
  | lor (a : BitVec 3) (b c : Byte)
  /-- LORB: logical OR, literal in b (R306). -/
  | lorb (a : BitVec 3) (b c : Byte)
  /-- LORC: logical OR, literal in c (R307). -/
  | lorc (a : BitVec 3) (b c : Byte)
  /-- LAOM: logical AND-OR MA, literal in c (R303). -/
  | laom (a : BitVec 3) (b c : Byte)
  /-- LAN: logical AND (R300). -/
  | lan (a : BitVec 3) (b c : Byte)
  /-- LANB: logical AND, literal in b (R301). -/
  | lanb (a : BitVec 3) (b c : Byte)
  /-- LANC: logical AND, literal in c (R302). -/
  | lanc (a : BitVec 3) (b c : Byte)
  /-- SUBB: subtract, literal in b (R297). -/
  | subb (a : BitVec 3) (b c : Byte)
  /-- LEO: logical exclusive OR (R309). -/
  | leo (a : BitVec 3) (b c : Byte)
  /-- LEOB: logical exclusive OR, literal in b (R310). -/
  | leob (a : BitVec 3) (b c : Byte)
  /-- LEOC: logical exclusive OR, literal in c (R311). -/
  | leoc (a : BitVec 3) (b c : Byte)
  /-- SUBC: subtract, literal in c (R298). -/
  | subc (a : BitVec 3) (b c : Byte)
  /-- ADD: add (R292). -/
  | add (a : BitVec 3) (b c : Byte)
  /-- ADDB: add, literal in b (R293). -/
  | addb (a : BitVec 3) (b c : Byte)
  /-- ADDC: add, literal in c (R294). -/
  | addc (a : BitVec 3) (b c : Byte)
  /-- UNDEF_00000: undefined code OP 00000 with A not 000, acts like IDLE (R146). -/
  | undef00000 (a : BitVec 3) (b c : Byte)
  /-- UNDEF_00011_11x: undefined code OP 00011 A 11x (R146). -/
  | undef00011 (a : BitVec 1) (b c : Byte)
  /-- UNDEF_00100: undefined code OP 00100 with A 101, 110 or 111; `a` is its low two bits (R146). -/
  | undef00100 (a : BitVec 2) (b c : Byte)
  /-- UNDEF_01010: undefined code OP 01010 (R146). -/
  | undef01010 (a : BitVec 3) (b c : Byte)
  /-- UNDEF_01011: undefined code OP 01011 (R146). -/
  | undef01011 (a : BitVec 3) (b c : Byte)
deriving DecidableEq, Repr

end Sys2Proof
end

