-- ==== Sys2Proof/WellFormed.lean ====
section
/-! DEFINITION. Well-formed instructions. The rows of the opcode table overlap in three places (IDLE lies in the row of
undefined codes OP 00000, BRAN in the row of OP 00100, PARY in the row of OP 01111); a term of the wider row that is in
truth a word of the narrower one is not well formed (30_encoding.md R145, R146, R147). -/

namespace Sys2Proof

/-- The constraints on the A field that the opcode map R145 puts on the overlapping rows. -/
def Instr.wellFormed : Instr → Bool
  | .undef00000 a _ _ => a != 0
  | .undef00100 a _ _ => a != 0
  | .leo01111 a _ _ => 2 ≤ a.toNat
  | .idle _ _ => true
  | .bkp _ _ _ => true
  | .awi _ _ _ => true
  | .awrr _ _ _ => true
  | .mskw _ _ => true
  | .mskr _ _ => true
  | .nop00011 _ _ _ => true
  | .shft _ _ => true
  | .heyu _ _ => true
  | .arwn _ _ => true
  | .arin _ _ => true
  | .dbyz _ _ => true
  | .dbyn _ _ => true
  | .bran _ _ => true
  | .goto _ _ _ => true
  | .gox _ _ _ => true
  | .goi _ _ _ => true
  | .move _ _ => true
  | .lmri _ _ => true
  | .smrd _ _ => true
  | .lmrd _ _ => true
  | .move01000 _ _ => true
  | .lmwi _ _ => true
  | .smwd _ _ => true
  | .lmwd _ _ => true
  | .move01001 _ _ _ => true
  | .mmr _ _ => true
  | .mmr01001 _ _ => true
  | .mmwu _ _ => true
  | .mmwr _ _ => true
  | .mmwp _ _ => true
  | .mwrp _ _ => true
  | .had _ _ _ => true
  | .hsb _ _ _ => true
  | .hadb _ _ _ => true
  | .hsbb _ _ _ => true
  | .tran _ _ _ => true
  | .pary _ _ _ => true
  | .sub _ _ _ => true
  | .lor _ _ _ => true
  | .lorb _ _ _ => true
  | .lorc _ _ _ => true
  | .laom _ _ _ => true
  | .lan _ _ _ => true
  | .lanb _ _ _ => true
  | .lanc _ _ _ => true
  | .subb _ _ _ => true
  | .leo _ _ _ => true
  | .leob _ _ _ => true
  | .leoc _ _ _ => true
  | .subc _ _ _ => true
  | .add _ _ _ => true
  | .addb _ _ _ => true
  | .addc _ _ _ => true
  | .undef00011 _ _ _ => true
  | .undef01010 _ _ _ => true
  | .undef01011 _ _ _ => true

end Sys2Proof
end

