-- ==== Sys2Proof/Decode.lean ====
section
/-! DEFINITION. Decoding and encoding of the 24-bit instruction (30_encoding.md R121, R145 to R147). Every 24-bit word
decodes: the undefined codes are instructions of their own, which act like IDLE (R146). Only a byte sequence that is too
short for an instruction is rejected, by name. -/

namespace Sys2Proof

/-- Why a byte sequence is no instruction. -/
inductive DecodeError where
  /-- Fewer than the three bytes of an instruction (R121, R150). Safe: nothing is read. -/
  | truncated
deriving DecidableEq, Repr

/-- The OP field, bits 23 to 19 (R121). -/
def opField (w : Half) : BitVec 5 := w.extractLsb' 19 5

/-- The A field, bits 18 to 16 (R121). -/
def aField (w : Half) : BitVec 3 := w.extractLsb' 16 3

/-- The B field, bits 15 to 8 (R121). -/
def bField (w : Half) : Byte := w.extractLsb' 8 8

/-- The C field, bits 7 to 0 (R121). -/
def cField (w : Half) : Byte := w.extractLsb' 0 8

/-- The four fields put together (R121). -/
def fields (op : BitVec 5) (a : BitVec 3) (b c : Byte) : Half := op ++ a ++ b ++ c

/-- The low two bits of the A field. -/
def aLow2 (a : BitVec 3) : BitVec 2 := a.extractLsb' 0 2

/-- Bit 0 of the A field. -/
def aLow1 (a : BitVec 3) : BitVec 1 := a.extractLsb' 0 1

/-- The opcode map R145: rows OP, columns A. -/
def decodeFields (op : BitVec 5) (a : BitVec 3) (b c : Byte) : Instr :=
  match op.toNat with
  | 0 => match a.toNat with
    | 0 => .idle b c
    | _ => .undef00000 a b c
  | 1 => .bkp a b c
  | 2 => match a.toNat with
    | 0 | 1 | 2 | 3 => .awi (aLow2 a) b c
    | _ => .awrr (aLow2 a) b c
  | 3 => match a.toNat with
    | 0 => .mskw b c
    | 1 => .mskr b c
    | 2 | 3 => .nop00011 (aLow1 a) b c
    | 4 => .shft b c
    | 5 => .heyu b c
    | _ => .undef00011 (aLow1 a) b c
  | 4 => match a.toNat with
    | 0 => .arwn b c
    | 1 => .arin b c
    | 2 => .dbyz b c
    | 3 => .dbyn b c
    | 4 => .bran b c
    | _ => .undef00100 (aLow2 a) b c
  | 5 => .goto a b c
  | 6 => .gox a b c
  | 7 => .goi a b c
  | 8 => match a.toNat with
    | 0 => .move b c
    | 1 => .lmri b c
    | 2 => .smrd b c
    | 3 => .lmrd b c
    | 4 => .move01000 b c
    | 5 => .lmwi b c
    | 6 => .smwd b c
    | _ => .lmwd b c
  | 9 => match a.toNat with
    | 0 | 2 => .move01001 (a.extractLsb' 1 1) b c
    | 1 => .mmr b c
    | 3 => .mmr01001 b c
    | 4 => .mmwu b c
    | 5 => .mmwr b c
    | 6 => .mmwp b c
    | _ => .mwrp b c
  | 10 => .undef01010 a b c
  | 11 => .undef01011 a b c
  | 12 => match a.toNat with
    | 0 | 1 | 2 | 3 => .had (aLow2 a) b c
    | _ => .hsb (aLow2 a) b c
  | 13 => match a.toNat with
    | 0 | 1 | 2 | 3 => .hadb (aLow2 a) b c
    | _ => .hsbb (aLow2 a) b c
  | 14 => .tran a b c
  | 15 => match a.toNat with
    | 0 | 1 => .pary (aLow1 a) b c
    | _ => .leo01111 a b c
  | 16 => .sub a b c
  | 17 => .lor a b c
  | 18 => .lorb a b c
  | 19 => .lorc a b c
  | 20 => .laom a b c
  | 21 => .lan a b c
  | 22 => .lanb a b c
  | 23 => .lanc a b c
  | 24 => .subb a b c
  | 25 => .leo a b c
  | 26 => .leob a b c
  | 27 => .leoc a b c
  | 28 => .subc a b c
  | 29 => .add a b c
  | 30 => .addb a b c
  | _ => .addc a b c

/-- The decoder: total on 24-bit words. -/
def decode (w : Half) : Instr := decodeFields (opField w) (aField w) (bField w) (cField w)

/-- An instruction from bytes in the order of the machine, most significant first (R121, R150), with what follows it. -/
def decodeBytes : List Byte → Except DecodeError (Instr × List Byte)
  | b0 :: b1 :: b2 :: rest => .ok (decode (b0 ++ b1 ++ b2), rest)
  | _ => .error .truncated

/-- The instruction word of an instruction: OP and A from the row of the opcode map R145. -/
def encode : Instr → Half
  | .idle b c => fields 0 0#3 b c
  | .bkp a b c => fields 1 a b c
  | .awi a b c => fields 2 (0#1 ++ a) b c
  | .awrr a b c => fields 2 (1#1 ++ a) b c
  | .mskw b c => fields 3 0#3 b c
  | .mskr b c => fields 3 1#3 b c
  | .nop00011 a b c => fields 3 (1#2 ++ a) b c
  | .shft b c => fields 3 4#3 b c
  | .heyu b c => fields 3 5#3 b c
  | .arwn b c => fields 4 0#3 b c
  | .arin b c => fields 4 1#3 b c
  | .dbyz b c => fields 4 2#3 b c
  | .dbyn b c => fields 4 3#3 b c
  | .bran b c => fields 4 4#3 b c
  | .goto a b c => fields 5 a b c
  | .gox a b c => fields 6 a b c
  | .goi a b c => fields 7 a b c
  | .move b c => fields 8 0#3 b c
  | .lmri b c => fields 8 1#3 b c
  | .smrd b c => fields 8 2#3 b c
  | .lmrd b c => fields 8 3#3 b c
  | .move01000 b c => fields 8 4#3 b c
  | .lmwi b c => fields 8 5#3 b c
  | .smwd b c => fields 8 6#3 b c
  | .lmwd b c => fields 8 7#3 b c
  | .move01001 a b c => fields 9 (0#1 ++ a ++ 0#1) b c
  | .mmr b c => fields 9 1#3 b c
  | .mmr01001 b c => fields 9 3#3 b c
  | .mmwu b c => fields 9 4#3 b c
  | .mmwr b c => fields 9 5#3 b c
  | .mmwp b c => fields 9 6#3 b c
  | .mwrp b c => fields 9 7#3 b c
  | .had a b c => fields 12 (0#1 ++ a) b c
  | .hsb a b c => fields 12 (1#1 ++ a) b c
  | .hadb a b c => fields 13 (0#1 ++ a) b c
  | .hsbb a b c => fields 13 (1#1 ++ a) b c
  | .tran a b c => fields 14 a b c
  | .pary a b c => fields 15 (0#2 ++ a) b c
  | .leo01111 a b c => fields 15 a b c
  | .sub a b c => fields 16 a b c
  | .lor a b c => fields 17 a b c
  | .lorb a b c => fields 18 a b c
  | .lorc a b c => fields 19 a b c
  | .laom a b c => fields 20 a b c
  | .lan a b c => fields 21 a b c
  | .lanb a b c => fields 22 a b c
  | .lanc a b c => fields 23 a b c
  | .subb a b c => fields 24 a b c
  | .leo a b c => fields 25 a b c
  | .leob a b c => fields 26 a b c
  | .leoc a b c => fields 27 a b c
  | .subc a b c => fields 28 a b c
  | .add a b c => fields 29 a b c
  | .addb a b c => fields 30 a b c
  | .addc a b c => fields 31 a b c
  | .undef00000 a b c => fields 0 a b c
  | .undef00011 a b c => fields 3 (3#2 ++ a) b c
  | .undef00100 a b c => fields 4 (1#1 ++ a) b c
  | .undef01010 a b c => fields 10 a b c
  | .undef01011 a b c => fields 11 a b c

/-- The three bytes of an instruction, OP : A first (R121). -/
def encodeBytes (i : Instr) : List Byte :=
  let w := encode i
  [w.extractLsb' 16 8, w.extractLsb' 8 8, w.extractLsb' 0 8]

/-- The decoder on an instruction given as a number, numbered as the opcode table numbers its bits: bit 0 is the least
significant bit of the one 24-bit word. -/
def decodeTableWord (nbits w : Nat) : Option Instr :=
  some (decode (BitVec.ofNat 24 (w % 2 ^ nbits)))

end Sys2Proof
end

