-- ==== Sys2Proof/Config.lean ====
section
/-! DEFINITION. What an implementation fixes (92_eei_decisions.md section 1), as plain data held in the state so that a
statement about every state holds for every choice, and the free values: constants without a body that no proof can
evaluate. -/

namespace Sys2Proof

/-- The main system the DCP serves (00_scope.md R9). -/
inductive Mainframe where
  | b6700
  | b5700
deriving DecidableEq, Repr

/-- What OP 00011 with A = 010 or 011 does (parameter `UNDEF_00011`, D11). -/
inductive Undef00011 where
  | noop
  | idle
deriving DecidableEq, Repr

/-- Which of the two exchanges of every cluster this DCP uses (61_adapter_cluster.md R408, R423). -/
inductive Exchange where
  | one
  | two
deriving DecidableEq, Repr

/-- The parameters of 92_eei_decisions.md section 1, and one parameter for each of three points on which rules of the spec disagree
and 90_conflicts.md is silent (logs 15, 36, 68). No step changes them. -/
structure Config where
  /-- `HOST`. -/
  mainframe : Mainframe
  /-- `LM_MODULES` (D8): word a of local memory exists when a < 4096 * lmModules. -/
  lmModules : Fin 5
  /-- `TRANSLATOR_PRESENT` (D27). -/
  translatorPresent : Bool
  /-- `TAG_BYTE_ALIGN` = right (D4): the tag field moves in the low four bits of a byte. False: in the high four. -/
  tagAlignRight : Bool
  /-- `MM_PROTECT_BIT` (D9). -/
  mmProtectBit : Fin 51
  /-- The complement of `MM_valid` (D22): ranges [first, last] of main memory addresses that do not exist. -/
  mmHoles : List (Nat × Nat)
  /-- `FAULT_INSTR_A` (D6). -/
  faultInstrA : BitVec 3
  /-- `HALT_FAULT_CODE` (D7). -/
  haltFaultCode : BitVec 5
  /-- `LAOM_CF1_INCLUDES_MA` (D13). -/
  laomIncludesMa : Bool
  /-- `UNDEF_00011` (D11). -/
  undef00011 : Undef00011
  /-- `BOOT_DATA_DEST` (D18): the byte address that receives the fourth byte of a bootstrap group. An indirect designation is
  refused (log 64). -/
  bootDataDest : Byte
  /-- The exchange of the clusters that is this DCP's (R423, MR bits 6 and 5). -/
  exchange : Exchange
  /-- SMRD with its source and its destination in one scratchpad word raises the invalid operator fault, as R246 says. False: it does
  not, the line of R508's table on SMRD read to the letter (log 15). -/
  smrdSameWordFaults : Bool
  /-- At the adapter cluster error of AWI and AWRR the registers AC and AI are those before the instruction, as R360, R364 and the
  ruling D29 say. False: they hold the literals, or zeros once the write was accepted, the corner cases that R202 and R203 derive (log
  36). -/
  clusterErrorPrecise : Bool
  /-- BRAN tests CAN beside SAN, as the table of R385 says. False: it tests SAN alone, as R226 says (log 68). -/
  branTestsCan : Bool
deriving DecidableEq, Repr

/-- The protect bit of the installation (D9 gives no default, so the number is a free value; log 6). -/
opaque Config.openProtectBit : Fin 51

/-- Which rows a double write to the MA column leaves (U10; log 16): the n-th free half-word. -/
opaque Config.freeHalf : Nat → Half

/-- What W holds when it is touched during a main memory access with I22 = 1 (U9; log 18). -/
opaque Config.freeWord : Nat → Word

/-- The zero flag where the manual gives no single result (LAOM to several rows, U20; log 17). -/
opaque Config.freeBit : Nat → Bool

/-- Which MA row LAOM ORs into a memory byte (U20; log 17). -/
opaque Config.freeRow : Nat → Fin 3

/-- What an undefined write or interrogate code leaves in the 56 bits of an adapter word (U21; log 19). -/
opaque Config.freeAdapterWord : Nat → BitVec 56

/-- What an undefined interrogate code answers on the nine information lines (U21; log 19). -/
opaque Config.freeInfo : Nat → BitVec 9

/-- `CLUSTER_PICK` (D15; log 20): the position, in the list of waiting unmasked clusters, of the one that is read. It may
depend on the cluster group in AA bits 7 and 6 and on the cluster scan counter. -/
opaque Config.clusterPick : Nat → BitVec 2 → BitVec 2 → List Nat → Nat

/-- Which of several waiting adapters a cluster presents when its maintenance register inhibits the positional priority
(R423; log 43). -/
opaque Config.adapterPick : Nat → List Nat → Nat

/-- Which of several clusters that call the cluster display panel services (R477 names none; log 44): a position in the list
of their numbers. -/
opaque Config.panelPick : Nat → List Nat → Nat

/-- What the D bus holds when the data display shows it in operating mode (R469 does not say what the bus carries; log 63). -/
opaque Config.dBus : Nat → Half

/-- What the tag display shows in operating mode (R460, R469 name no source for it; log 63). -/
opaque Config.tagLights : Nat → BitVec 4

/-- What the parameters promise of each other: a B 5700 installation has local memory (00_scope.md R9). -/
def Config.wf (c : Config) : Bool := decide (c.mainframe = .b6700) || decide (1 ≤ c.lmModules.val)

/-- The default of every parameter that has one (92_eei_decisions.md section 1; log 5). Of the three disagreements SMRD follows R246
(log 15), the adapter cluster error R360, R364 and D29 (log 36), BRAN R226 (log 68). -/
def Config.default : Config where
  mainframe := .b6700
  lmModules := 1
  translatorPresent := true
  tagAlignRight := true
  mmProtectBit := Config.openProtectBit
  mmHoles := []
  faultInstrA := 0
  haltFaultCode := 0
  laomIncludesMa := true
  undef00011 := .noop
  bootDataDest := 0x09
  exchange := .one
  smrdSameWordFaults := true
  clusterErrorPrecise := true
  branTestsCan := false

end Sys2Proof
end

