-- ==== Sys2Proof/Machine/State.lean ====
section
/-! DEFINITION. The state of the machine as plain data: the DCP's registers, flip-flops and memories (10_state.md), the
adapter clusters (61_adapter_cluster.md R434), the panels (62_display_panels.md), what the host sees, and the inputs that
the other agents are about to make. State.reset is the state after the Reset event (R55, R490). -/

namespace Sys2Proof.Machine

/-- Why the machine stops. -/
inductive Fault where
  /-- Raised by the cycle when RUN is off and no other agent has an action waiting (R184; R185: "if RUN = 0 then
  refuse"). Safe: the hardware does nothing either until the host, the operator or another agent acts. -/
  | stopped
deriving DecidableEq, Repr

/-- Why the model has no meaning for what it is asked to do. Every one but `notModelled` is a treatment `refuse` of
93_implementation_defined.md for which that file gives no effect; all are safe, since nothing is concluded. -/
inductive Refusal where
  /-- Raised by the dispatcher for an instruction that has no meaning yet. -/
  | notModelled (mnemonic : String)
  /-- U1: Y or D used as an indirect address while its bits 7, 6 are 01. Raised by the operand decoders. -/
  | indirectTwice
  /-- U3: a W byte address whose bits 5 to 3 are not 111. Raised by the byte operand decoder. -/
  | wByteAddress
  /-- U4: a W byte address in a group 2 instruction or in HAD, HADB, HSB, HSBB. Raised by the half-word operand
  decoder. -/
  | wByteInHalf
  /-- U5: HAD, HADB, HSB or HSBB with a scratchpad half-word address whose low bits are an improper code. Raised by the
  half-word operand decoder. -/
  | improperHalfCode
  /-- U14: TRAN with a translation code reserved for the main system in use. Raised by TRAN. -/
  | reservedTranslation
  /-- U16: MMWR, MMWP or MWRP on a B 5700. Raised by those three. -/
  | notOnB5700
deriving DecidableEq, Repr

/-- The five kinds of main memory data access (R49, R264). -/
inductive AccessKind where
  | read
  | write
  | writeRead
  | protectedWrite
  | protectedWriteRead
deriving DecidableEq, Repr

/-- A main memory data access that was ordered and has not completed (R49). Its address is in BA. `granted` is false in
the phase the panel shows as MCYN and true in the phase it shows as MACC (R48). -/
structure Access where
  kind : AccessKind
  data : Word
  granted : Bool
deriving DecidableEq, Repr

/-- A scan order (R367, R374). -/
inductive Order where
  | initialise
  | setAttention
  | halt
deriving DecidableEq, Repr

/-- An information word sent on the scan bus and whether its parity is good (R370). -/
structure ScanWord where
  bits : BitVec 48
  parityOk : Bool
deriving DecidableEq, Repr

/-- The signals the DCP last returned on the scan bus (R368 to R370): ready, scan access obtained, scan transmission error,
and the information word that answers a scan-in order. -/
structure ScanReply where
  ready : Bool
  accessObtained : Bool
  transmissionError : Bool
  word : Option ScanWord
deriving DecidableEq, Repr

/-- HOLD P-L/OFF/STOP ON FAULT (R462). -/
inductive HoldSwitch where
  | off
  | holdPL
  | stopOnFault
deriving DecidableEq, Repr

/-- STOP IMMED/OFF/STOP ON FETCH (R464). -/
inductive StopSwitch where
  | off
  | immediate
  | onFetch
deriving DecidableEq, Repr

/-- The breakpoint control switch (R465). -/
inductive BkpSwitch where
  | off
  | stop
  | branch
deriving DecidableEq, Repr

/-- A breakpoint code switch (R465). -/
inductive CodeSwitch where
  | off
  | zero
  | one
deriving DecidableEq, Repr

/-- DISPLAY TYPE (R470). -/
inductive DisplayType where
  | pRight
  | reg
  | smLeft
  | smRight
deriving DecidableEq, Repr

/-- The switches of the DCP display panel (R54, R461). -/
structure Panel where
  onLine : Bool
  hold : HoldSwitch
  stop : StopSwitch
  bkp : BkpSwitch
  code2 : CodeSwitch
  code1 : CodeSwitch
  code0 : CodeSwitch
  displayType : DisplayType
  displayAddress : BitVec 3
deriving DecidableEq, Repr

/-- The state of a cluster interface register (Table 5-1, R406). -/
inductive CirState where
  | notOccupied
  | forDcp
  | forCluster
  | masterCleared
deriving DecidableEq, Repr

/-- The cluster interface register CIR (R406). -/
structure Cir where
  cs : CirState
  ad : BitVec 4
  cc : BitVec 5
  dc : BitVec 9
deriving DecidableEq, Repr

/-- The Access Confirm register of a cluster (R405). -/
structure Confirm where
  ad : BitVec 4
  occupied : Bool
  timer : Bool
deriving DecidableEq, Repr

/-- The unit the crosspoint register designates (R408). -/
inductive Crosspoint where
  | none
  | dcp1
  | dcp2
  | display
deriving DecidableEq, Repr

/-- One adapter position of a cluster: whether an adapter is fitted there (R9 `N_ADAPTERS`), the ten fields of its 56-bit memory
word (R409 to R420), its input and output leads (R421, R422) and the interrupt causes recorded for it (R434). -/
structure Adapter where
  fitted : Bool
  c1 : BitVec 11
  /-- C1 is filled (R418, Buffer Overflow): a received character stands there and has not been moved to C2 yet. No code reaches
  it. -/
  c1Full : Bool
  c2 : BitVec 10
  bt : BitVec 7
  ty : BitVec 6
  sc : BitVec 2
  sa : BitVec 3
  bc : BitVec 3
  bi : BitVec 4
  ct : BitVec 2
  pt : BitVec 8
  ir : BitVec 10
  out : BitVec 6
  dataPresent : Bool
  byteRequest : Bool
  control : Bool
  timer : Bool
  /-- The interrupt C to F of the last three seconds, the wait that ID BUFF shows (R417, R418). -/
  idBuff : Option (BitVec 4)
  /-- How many sync characters have been edited since Initiate Receive mode began, two at most (Table 5-5, R414). -/
  syncs : BitVec 2
deriving DecidableEq, Repr

/-- An adapter cluster (R434). -/
structure Cluster where
  present : Bool
  adapters : Vector Adapter 16
  mr : BitVec 7
  /-- The Single Step Translation flip-flop (R423). -/
  singleStep : Bool
  cir : Cir
  confirm : Confirm
  xp : Crosspoint
  /-- The unit XP designates has sent an interrogate and has not finished: the answer is still to be read (R404, R408). -/
  engaged : Bool
  rt : BitVec 26
deriving DecidableEq, Repr

/-- DISPLAY STATE CONTROL of the cluster display panel (R477). -/
inductive DisplayState where
  | interrogate
  | clusterWrite
  | attention
  | localMode
  | wrd
  | auxiliary
  | exchangeBus
  | exchangeControl
deriving DecidableEq, Repr

/-- The cluster display panel (R476). -/
structure ClusterPanel where
  aaf : Byte
  acf : BitVec 5
  aif : BitVec 9
  /-- SC1F and SC0F, which the spec does not explain; nothing in the model sets them (log 44). -/
  scf : BitVec 2
  enable : Bool
  state : DisplayState
deriving DecidableEq, Repr

/-- What an operator does at the DCP display panel (R461, R466 to R469). -/
inductive PanelAct where
  | switches (p : Panel)
  | pulse
  /-- The CLEAR button; `accessReached`: a pending write had already reached memory (R490, log 1). -/
  | clear (accessReached : Bool)
  /-- Set or reset bit k of P-L. -/
  | bitPL (k : Fin 24) (v : Bool)
  /-- Set or reset bit k of the register column or SM half-word on the data display. -/
  | bitData (k : Fin 24) (v : Bool)
  /-- Set or reset bit k of the tag field on the tag display. -/
  | bitTag (k : Fin 4) (v : Bool)
  | bitCM (k : Fin 16) (v : Bool)
  | execute (v : Bool)
  | bootstrap (v : Bool)
deriving DecidableEq, Repr

/-- What happens on the line side of an adapter (R434). -/
inductive LineEvent where
  /-- The adapter switching matrix has brought a complete character to C1 (R411); it moves on to C2 where C2 is empty (R412). -/
  | received (c : BitVec 9)
  /-- The cluster moves a character that has waited in C1 to C2, which is empty by now (R411, R412). -/
  | c1ToC2
  /-- C2 has been shifted to C1 for transmission (R432 Byte Request). -/
  | transmitted
  /-- A status change sets BI (R417, R418). -/
  | status (bi : BitVec 4)
  /-- The cluster carries a command on: 011 to 010, 101 to 100, 110 to 011 (R416). -/
  | advance
  /-- The program timer expires (R420). -/
  | timerExpired
  /-- The three seconds of ID BUFF are over (R417, R418). -/
  | idBuffEnd
  /-- The input leads (R421). -/
  | inputLeads (v : BitVec 10)
  /-- The output leads (R422). -/
  | outputLeads (v : BitVec 6)
  /-- The fields that only the line side works with (R411, R413, R415, R419). -/
  | lineSide (c1 : BitVec 11) (bt : BitVec 7) (sc : BitVec 2) (sa : BitVec 3) (ct : BitVec 2)
deriving DecidableEq, Repr

/-- What is done at the cluster display panel (R476, R477). -/
inductive ClusterPanelAct where
  | setRegisters (aaf : Byte) (acf : BitVec 5) (aif : BitVec 9)
  | clearRegisters
  | setEnable (v : Bool)
  | setState (d : DisplayState)
  /-- TRANSFER CONTROL at STEP, or one round at RUN. -/
  | operate
deriving DecidableEq, Repr

/-- One action of an agent (R390). -/
inductive Input where
  /-- The DCP's own step. -/
  | dcp
  /-- System master clear (R490); `accessReached`: a pending write had already reached memory. -/
  | masterClear (accessReached : Bool)
  /-- A scan-out order of a B 6700: function code, information word, parity good (R367). -/
  | scanOut (code : BitVec 3) (word : BitVec 48) (parityOk : Bool)
  /-- A scan-in order (R370). -/
  | scanIn
  /-- A dialled order of a B 5700 (R374). -/
  | dial (o : Order)
  /-- The pending main memory access is granted, the panel's MACC (R48). -/
  | mmGrant
  /-- The pending main memory access completes (R264 MMComplete). -/
  | mmComplete
  /-- Another user of main memory writes a word (R98). -/
  | hostWrite (a : SysAddr) (v : Word)
  /-- The multiplexor clears its DCP Attention Needed flip-flop (R388). -/
  | hostClearAttention
  /-- Time passes, in units of 200 ns (R365, R500). -/
  | elapse (units : Nat)
  /-- A byte arrives at the bootstrap source (R496). -/
  | bootByte (v : Byte)
  | panel (act : PanelAct)
  /-- The cluster's own scan (R434). -/
  | clusterScan (k : BitVec 4)
  | line (k : BitVec 4) (a : BitVec 4) (e : LineEvent)
  /-- The second DCP of a shared cluster writes to it or reads it (R391, R408); `awrr`: it stays designated for the responsive
  read (R404). -/
  | otherWrite (k : BitVec 4) (ad : BitVec 4) (cc : BitVec 5) (dc : BitVec 9) (awrr : Bool)
  | otherRead (k : BitVec 4)
  /-- The second DCP raises CLR to a cluster, which may occur at any time (R401); the spec says when only for this DCP (D33, log
  45). -/
  | otherClear (k : BitVec 4)
  | clusterPanel (act : ClusterPanelAct)
deriving DecidableEq, Repr

/-- The environment as far as the machine can see it. -/
structure Env where
  panel : Panel
  clusterPanel : ClusterPanel
  /-- The DCP Attention Needed flip-flop of the multiplexor (R388). -/
  hostAttention : Bool
  scanReply : ScanReply
  /-- Bytes waiting at the bootstrap source (R496). -/
  bootIn : List Byte
  /-- For each coming main memory access, whether the memory reports an error it detected (R92, D22); none when the list
  is empty. -/
  mmErrors : List Bool
  /-- For each coming read exchange with a cluster, whether the cluster fails to release its information (R360); none when the
  list is empty. -/
  exchangeFails : List Bool
  /-- What the agents do next; the DCP steps when the list is empty. -/
  inputs : List Input
deriving DecidableEq, Repr

/-- The machine. -/
structure State where
  /-- The parameters of the installation. -/
  cfg : Config
  aa : Byte
  ac : Byte
  ai : Byte
  d : Byte
  y : Byte
  x : Byte
  ma2 : Byte
  ma1 : Byte
  ma0 : Byte
  cf : Byte
  ia1 : Byte
  ia0 : Byte
  w : Word
  p : Word
  ba : SysAddr
  cm : BitVec 16
  sm : Vector Word 8
  run : Bool
  ex : Bool
  flt : Bool
  bstm : Bool
  pypc : Bool
  pywc : Bool
  scm : Bool
  /-- The sequence count SC.D : SC.C : SC.B : SC.A, the bytes of a bootstrap group already taken, in plain binary (the coding is the
  model's choice, log 51). -/
  seq : BitVec 4
  pending : Option Access
  /-- The cluster that still has to take the word of a released AWI (R50). -/
  adapterWrite : Option (BitVec 4)
  /-- The 2-bit cluster scan counter (R51). The spec does not say whether there is one or one for each group (N17); the model
  has one (log 20). -/
  scanCounter : BitVec 2
  /-- Units since the CAN condition of R365 began, the attention timer. -/
  canTimer : Nat
  /-- Units since I23 became one (R365). -/
  sanTimer : Nat
  /-- The stored order of a B 5700 (R53). -/
  stored : Option Order
  /-- The model's own: FLT was set by a Halt and P-L holds no fault instruction yet (R373, D7). -/
  haltFault : Bool
  /-- The model's own: the instruction in P-L is held by a cluster (R181). -/
  clusterWait : Bool
  /-- Local memory as cells (8 * word + byte, value), byte 6 the tag field, strictly rising, no zero. -/
  lm : List Host.Cell
  /-- Main memory in the same form. -/
  mm : List Host.Cell
  clusters : Vector Cluster 16
  env : Env
  /-- The model's own: how many free values have been drawn. -/
  free : Nat
deriving DecidableEq, Repr

/-- All switches off and on line (R54). -/
def Panel.normal : Panel where
  onLine := true
  hold := .off
  stop := .off
  bkp := .off
  code2 := .off
  code1 := .off
  code0 := .off
  displayType := .reg
  displayAddress := 0

/-- An adapter whose word holds zeros and that has recorded no interrupt (R435; the zeros are the model's, log 4). -/
def Adapter.cleared : Adapter where
  fitted := true
  c1 := 0
  c1Full := false
  c2 := 0
  bt := 0
  ty := 0
  sc := 0
  sa := 0
  bc := 0
  bi := 0
  ct := 0
  pt := 0
  ir := 0
  out := 0
  dataPresent := false
  byteRequest := false
  control := false
  timer := false
  idBuff := none
  syncs := 0

/-- A fitted cluster with sixteen adapters after CLR: CS = 11 (R406, R435). That MR, RT, the single step flip-flop and the
crosspoint are among the control flip-flops that CLR clears is the model's reading, and so is that AD, CC and DC of CIR and the
Access Confirm register hold zero then (log 4). -/
def Cluster.cleared : Cluster where
  present := true
  adapters := Vector.replicate 16 Adapter.cleared
  mr := 0
  singleStep := false
  cir := { cs := .masterCleared, ad := 0, cc := 0, dc := 0 }
  confirm := { ad := 0, occupied := false, timer := false }
  xp := .none
  engaged := false
  rt := 0

/-- The environment at rest. The spec gives no initial value for what the host side holds, the DCP Attention Needed flip-flop of the
multiplexor (R388) and the last reply on the scan bus (R368 to R370): off, no signal and no word are the model's choice (log 70). So
are the registers of the cluster display panel (log 44) and the two display switches (log 49). -/
def Env.quiet : Env where
  panel := Panel.normal
  clusterPanel := { aaf := 0, acf := 0, aif := 0, scf := 0, enable := false, state := .localMode }
  hostAttention := false
  scanReply := { ready := false, accessObtained := false, transmissionError := false, word := none }
  bootIn := []
  mmErrors := []
  exchangeFails := []
  inputs := []

/-- The state after the Reset event (R55, R490), with the model's value zero for what the spec leaves unspecified: SM
(log 2), LM and MM (log 3), the adapter words (log 4), and its values for the host's flip-flop and the scan bus reply (log
70). -/
def State.reset : State where
  cfg := Config.default
  aa := 0
  ac := 0
  ai := 0
  d := 0
  y := 0
  x := 0
  ma2 := 0
  ma1 := 0
  ma0 := 0
  cf := 0
  ia1 := 0
  ia0 := 0
  w := 0
  p := 0
  ba := 0
  cm := 0
  sm := Vector.replicate 8 0
  run := false
  ex := false
  flt := false
  bstm := false
  pypc := false
  pywc := false
  scm := false
  seq := 0
  pending := none
  adapterWrite := none
  scanCounter := 0
  canTimer := 0
  sanTimer := 0
  stored := none
  haltFault := false
  clusterWait := false
  lm := []
  mm := []
  clusters := Vector.replicate 16 Cluster.cleared
  env := Env.quiet
  free := 0

end Sys2Proof.Machine
end

