-- ==== Sys2Proof/Machine/Bits.lean ====
section
/-! DEFINITION. Fields of half-words, words and registers: which bits are byte 0, the L half, the tag field, a flip-flop
of CF (10_state.md R20, R27; 20_memory.md R85, R87). -/

namespace Sys2Proof.Machine

/-- The L half of a word, bits 47 to 24 (R40, R85). -/
def wordLeft (w : Word) : Half := w.extractLsb' 24 24

/-- The R half of a word, bits 23 to 0 (R40, R85). -/
def wordRight (w : Word) : Half := w.extractLsb' 0 24

/-- The tag field of a word with its parity bit, bits 51 to 48 (R87). -/
def wordTag (w : Word) : BitVec 4 := w.extractLsb' 48 4

/-- A word from its tag field and its halves. -/
def makeWord (t : BitVec 4) (l r : Half) : Word := t ++ l ++ r

/-- The word with another L half. -/
def putLeft (w : Word) (h : Half) : Word := makeWord (wordTag w) h (wordRight w)

/-- The word with another R half. -/
def putRight (w : Word) (h : Half) : Word := makeWord (wordTag w) (wordLeft w) h

/-- The word with another tag field. -/
def putTag (w : Word) (t : BitVec 4) : Word := makeWord t (wordLeft w) (wordRight w)

/-- Row 2 of a half-word, bits 23 to 16 (R20). -/
def row2 (h : Half) : Byte := h.extractLsb' 16 8

/-- Row 1 of a half-word, bits 15 to 8 (R20). -/
def row1 (h : Half) : Byte := h.extractLsb' 8 8

/-- Row 0 of a half-word, bits 7 to 0 (R20). -/
def row0 (h : Half) : Byte := h.extractLsb' 0 8

/-- A half-word from its rows, row 2 first (R20). -/
def rows (r2 r1 r0 : Byte) : Half := r2 ++ r1 ++ r0

/-- The rows that `sel` selects from `new`, the others from `old` (R131, R135). -/
def selectRows (sel : BitVec 3) (new old : Half) : Half :=
  rows (pick (sel.getLsbD 2) (row2 new) (row2 old)) (pick (sel.getLsbD 1) (row1 new) (row1 old))
    (pick (sel.getLsbD 0) (row0 new) (row0 old))

/-- One row of a half-word. -/
def rowOf (h : Half) (r : Fin 3) : Byte :=
  match r.val with
  | 2 => row2 h
  | 1 => row1 h
  | _ => row0 h

/-- The half-word with one row replaced. -/
def putRow (h : Half) (r : Fin 3) (v : Byte) : Half :=
  match r.val with
  | 2 => rows v (row1 h) (row0 h)
  | 1 => rows (row2 h) v (row0 h)
  | _ => rows (row2 h) (row1 h) v

/-- The row that byte n of a word (0 to 5) occupies in its half-word (R20, R136). -/
def byteRow (n : BitVec 3) : Fin 3 :=
  match n.toNat with
  | 0 | 3 => 2
  | 1 | 4 => 1
  | _ => 0

/-- Whether byte n of a word lies in the R half (R85). -/
def byteInRight (n : BitVec 3) : Bool := 3 ≤ n.toNat

/-- Byte n of a word, n = 0 to 5, bits 47-8n to 40-8n (R85). -/
def wordByte (w : Word) (n : BitVec 3) : Byte :=
  rowOf (if byteInRight n then wordRight w else wordLeft w) (byteRow n)

/-- The word with byte n replaced. -/
def putByte (w : Word) (n : BitVec 3) (v : Byte) : Word :=
  if byteInRight n then putRight w (putRow (wordRight w) (byteRow n) v)
  else putLeft w (putRow (wordLeft w) (byteRow n) v)

/-- The byte with bit k set to b. -/
def setBit (v : Byte) (k : Nat) (b : Bool) : Byte :=
  (v &&& ~~~(1#8 <<< k)) ||| ((BitVec.ofBool b).setWidth 8 <<< k)

/-- Bit k of a bit vector replaced, at any width. -/
def putBitAt {w : Nat} (v : BitVec w) (k : Nat) (b : Bool) : BitVec w :=
  (v &&& ~~~(1#w <<< k)) ||| ((BitVec.ofBool b).setWidth w <<< k)

/-- CF0 is bit 0 of CF (R28). -/
def cf0 (s : State) : Bool := s.cf.getLsbD 0

/-- CF1 is bit 1 of CF (R29). -/
def cf1 (s : State) : Bool := s.cf.getLsbD 1

/-- I18, the internal carry, is bit 2 of CF (R31). -/
def i18 (s : State) : Bool := s.cf.getLsbD 2

/-- I19, fault control, is bit 3 of CF (R32). -/
def i19 (s : State) : Bool := s.cf.getLsbD 3

/-- I20, IA counted, is bit 4 of CF (R33). -/
def i20 (s : State) : Bool := s.cf.getLsbD 4

/-- I21, the ninth bit of AI, is bit 5 of CF (R34). -/
def i21 (s : State) : Bool := s.cf.getLsbD 5

/-- I22, the main memory interlock, is bit 6 of CF (R35). -/
def i22 (s : State) : Bool := s.cf.getLsbD 6

/-- I23, system attention needed, is bit 7 of CF (R36). -/
def i23 (s : State) : Bool := s.cf.getLsbD 7

/-- CF with CF0 and CF1 replaced. -/
def withFlags (cf : Byte) (carry zero : Bool) : Byte := setBit (setBit cf 0 carry) 1 zero

end Sys2Proof.Machine
end

