-- ==== Sys2Proof/Machine/Memory.lean ====
section
/-! DEFINITION. Local and main memory: lists of (address, byte) cells in one canonical form, and the access of whole words
(20_memory.md R82 to R85). Word a has the cells 8a + b: b = 0 to 5 its bytes, b = 6 its tag field. -/

namespace Sys2Proof.Machine

/-- A memory: cells with strictly rising addresses, none equal to what an unlisted address reads as. -/
abbrev Memory := List Host.Cell

/-- What an unlisted cell reads as (the spec leaves it open, R55, R491; log 3). -/
def unlisted (_ : Nat) : Byte := 0

/-- The cell at an address. -/
def cellRead : Memory → Nat → Byte
  | [], a => unlisted a
  | (k, v) :: m, a => if k = a then v else cellRead m a

/-- A cell put in front, unless it equals what an unlisted address reads as. -/
def cellCons (a : Nat) (v : Byte) (m : Memory) : Memory := if v = unlisted a then m else (a, v) :: m

/-- The memory with one cell written, in canonical form. -/
def cellWrite : Memory → Nat → Byte → Memory
  | [], a, v => cellCons a v []
  | (k, u) :: m, a, v =>
    if a < k then cellCons a v ((k, u) :: m)
    else if a = k then cellCons a v m
    else (k, u) :: cellWrite m a v

/-- The first address of a memory lies above k. -/
def startsAbove (k : Nat) : Memory → Bool
  | [] => true
  | (j, _) :: _ => k < j

/-- A cell of a memory of `words` words: not the unlisted value, in range, no eighth byte, a tag field of four bits. -/
def cellWf (words : Nat) (c : Host.Cell) : Bool :=
  c.2 != unlisted c.1 && c.1 < 8 * words && c.1 % 8 != 7 && (c.1 % 8 != 6 || c.2.toNat < 16)

/-- The canonical form of a memory of `words` words. -/
def Memory.wf (words : Nat) : Memory → Bool
  | [] => true
  | c :: m => cellWf words c && startsAbove c.1 m && Memory.wf words m

/-- The words local memory can hold at most (four modules of 4096, R45). -/
def lmCapacity : Nat := 16384

/-- The words main memory can hold at most (R83). -/
def mmCapacity : Nat := 1048576

/-- The 52-bit word at word address a (R84, R85). -/
def memRead (m : Memory) (a : Nat) : Word :=
  (cellRead m (8 * a + 6)).setWidth 4 ++
    (rows (cellRead m (8 * a)) (cellRead m (8 * a + 1)) (cellRead m (8 * a + 2)) ++
      rows (cellRead m (8 * a + 3)) (cellRead m (8 * a + 4)) (cellRead m (8 * a + 5)))

/-- The six bytes of a word written, its tag field left alone (the 48-bit word of a B 5700, R88). -/
def memWrite48 (m : Memory) (a : Nat) (v : Word) : Memory :=
  let l := wordLeft v
  let r := wordRight v
  cellWrite (cellWrite (cellWrite (cellWrite (cellWrite (cellWrite m (8 * a) (row2 l)) (8 * a + 1) (row1 l))
    (8 * a + 2) (row0 l)) (8 * a + 3) (row2 r)) (8 * a + 4) (row1 r)) (8 * a + 5) (row0 r)

/-- The whole 52-bit word written (R84). -/
def memWrite (m : Memory) (a : Nat) (v : Word) : Memory :=
  cellWrite (memWrite48 m a v) (8 * a + 6) ((wordTag v).setWidth 8)

/-- A local memory word exists (R82, D8). -/
def lmExists (s : State) (a : BitVec 14) : Bool := a.toNat < 4096 * s.cfg.lmModules.val

/-- `MM_valid` (R92, D22). -/
def mmValid (s : State) (a : SysAddr) : Bool :=
  !(s.cfg.mmHoles.any fun h => h.1 ≤ a.toNat && a.toNat ≤ h.2)

/-- The main memory address of a data access: MA bits 19 to 0, on a B 5700 bits 14 to 0 (R83). -/
def hostAddress (m : Mainframe) (a : SysAddr) : SysAddr :=
  match m with
  | .b6700 => a
  | .b5700 => (a.extractLsb' 0 15).setWidth 20

/-- A data word as W receives it from main memory: on a B 5700 tag 000 and generated parity (R88, D10). -/
def dataFromHost (m : Mainframe) (v : Word) : Word :=
  match m with
  | .b6700 => v
  | .b5700 => withParity (makeWord 0 (wordLeft v) (wordRight v))

/-- An instruction word as P receives it from main memory: on a B 5700 tag 110 and generated parity (R88). -/
def instrFromHost (m : Mainframe) (v : Word) : Word :=
  match m with
  | .b6700 => v
  | .b5700 => withParity (makeWord 6 (wordLeft v) (wordRight v))

/-- A word stored into main memory: on a B 5700 only its 48 bits (R88, D10). -/
def hostStore (c : Mainframe) (m : Memory) (a : SysAddr) (v : Word) : Memory :=
  match c with
  | .b6700 => memWrite m a.toNat v
  | .b5700 => memWrite48 m a.toNat v

end Sys2Proof.Machine
end

