-- ==== Sys2Proof/Machine/Ops.lean ====
section
/-! DEFINITION. The named operations over registers and memories: register columns, the instruction address, how an
instruction ends (release, a fetch ordered, a branch taken), the start of an instruction, main memory accesses and their
completion, taking a fault and the Initialize order (40_cycle.md, 43_group2.md R264, 60_exceptions.md). -/

namespace Sys2Proof.Machine

/-- A step's outcome. -/
abbrev Result := Host.Outcome State Fault Refusal

/-! ### Registers -/

/-- MA-2 : MA-1 : MA-0 (R37). -/
def ma (s : State) : Half := rows s.ma2 s.ma1 s.ma0

/-- MA loaded with a half-word. -/
def setMA (s : State) (h : Half) : State := { s with ma2 := row2 h, ma1 := row1 h, ma0 := row0 h }

/-- IA-1 : IA-0 (R38). -/
def ia (s : State) : InstrAddr := s.ia1 ++ s.ia0

/-- The high byte of an instruction address, as IA-1 holds it. -/
def iaHigh (v : InstrAddr) : Byte := v.extractLsb' 8 8

/-- The low byte of an instruction address, as IA-0 holds it. -/
def iaLow (v : InstrAddr) : Byte := v.extractLsb' 0 8

/-- I15, the memory select (R38). -/
def i15 (s : State) : Bool := s.ia1.getLsbD 7

/-- I00, the half-word select (R38). -/
def i00 (s : State) : Bool := s.ia0.getLsbD 0

/-- The instruction word address in IA, bits 14 to 1 (R38). -/
def iaWord (s : State) : BitVec 14 := (ia s).extractLsb' 1 14

/-- P-L, the instruction being executed (R40). -/
def pLeft (s : State) : Half := wordLeft s.p

/-- Scratchpad word k (R43). -/
def smWord (s : State) (k : BitVec 3) : Word := s.sm[k.toNat]'(k.isLt)

/-- Scratchpad word k replaced. -/
def setSM (s : State) (k : BitVec 3) (v : Word) : State := { s with sm := s.sm.set k.toNat v k.isLt }

/-- A register column as a half-word; columns 000 and 111 name no register and read zeros (R20, R131, R144). -/
def column (s : State) (c : BitVec 3) : Half :=
  match c.toNat with
  | 1 => rows s.aa s.ac s.ai
  | 2 => rows s.d s.y s.x
  | 3 => rows s.ma2 s.ma1 s.ma0
  | 4 => rows s.cf s.ia1 s.ia0
  | 5 => wordLeft s.w
  | 6 => wordRight s.w
  | _ => 0

/-- A whole register column loaded; columns 000 and 111 store nothing (R131, R144). Loading AI leaves I21 alone (R23). -/
def setColumn (s : State) (c : BitVec 3) (h : Half) : State :=
  match c.toNat with
  | 1 => { s with aa := row2 h, ac := row1 h, ai := row0 h }
  | 2 => { s with d := row2 h, y := row1 h, x := row0 h }
  | 3 => { s with ma2 := row2 h, ma1 := row1 h, ma0 := row0 h }
  | 4 => { s with cf := row2 h, ia1 := row1 h, ia0 := row0 h }
  | 5 => { s with w := putLeft s.w h }
  | 6 => { s with w := putRight s.w h }
  | _ => s

/-- The selected rows of a register column loaded (R131, R135). -/
def setRows (s : State) (c sel : BitVec 3) (h : Half) : State := setColumn s c (selectRows sel h (column s c))

/-! ### The panel switches the cycle looks at -/

/-- HOLD P-L is on (R462). -/
def holdPL (s : State) : Bool := decide (s.env.panel.hold = .holdPL)

/-- STOP ON FAULT is on (R462). -/
def stopOnFault (s : State) : Bool := decide (s.env.panel.hold = .stopOnFault)

/-- STOP IMMED is on (R464). -/
def stopImmediate (s : State) : Bool := decide (s.env.panel.stop = .immediate)

/-- STOP ON FETCH is on (R464). -/
def stopOnFetch (s : State) : Bool := decide (s.env.panel.stop = .onFetch)

/-! ### How an instruction starts and ends -/

/-- An instruction word enters P and its first instruction starts: L passed over when I00 is one (R176), IA counted up as
a 16-bit number (R177, R179), EX and I20 set (R177). -/
def startInstruction (s : State) (v : Word) : State :=
  { s with
    p := pick (i00 s) (putLeft v (wordRight v)) v
    ia1 := iaHigh (ia s + 1)
    ia0 := iaLow (ia s + 1)
    ex := true
    cf := setBit s.cf 4 true
    pypc := false }

/-- The R instruction follows the L instruction that ends now: IA names its slot (R180, R185), and neither HOLD P-L nor
bootstrap mode forbids the transfer (R462, D38). -/
def transfers (s : State) : Bool := !holdPL s && !s.bstm && i00 s

/-- The end of an instruction that neither branches nor names IA as its destination (R177, R180, R185). With HOLD P-L
nothing moves and EX is not reset (R462); that I20 then keeps its value too, also one just stored into CF, is the model's choice
(log 52). The stop switches clear RUN (R464, D37). -/
def release (s : State) : State :=
  { s with
    p := pick (transfers s) (putLeft s.p (wordRight s.p)) s.p
    ia1 := pick (transfers s) (iaHigh (ia s + 1)) s.ia1
    ia0 := pick (transfers s) (iaLow (ia s + 1)) s.ia0
    ex := holdPL s || transfers s
    cf := pick (holdPL s) s.cf (setBit s.cf 4 (transfers s))
    run := s.run && !stopImmediate s && !(transfers s && stopOnFetch s)
    clusterWait := false }

/-- The end of an instruction that named IA-1 or IA-0 as its destination: a fetch at the new IA follows (R178). I20 with HOLD P-L is
as in `release` (log 52). -/
def releaseFetch (s : State) : State :=
  { s with
    ex := holdPL s
    cf := pick (holdPL s) s.cf (setBit s.cf 4 false)
    run := s.run && !stopImmediate s
    clusterWait := false }

/-- A taken branch: IA loaded, CF0 and CF1 cleared, bootstrap mode ended, a fetch ordered (R178, R185, R498). I20 with HOLD P-L is
as in `release` (log 52). -/
def branchTo (s : State) (target : InstrAddr) : State :=
  { s with
    ia1 := iaHigh target
    ia0 := iaLow target
    ex := holdPL s
    cf := pick (holdPL s) (withFlags s.cf false false) (setBit (withFlags s.cf false false) 4 false)
    bstm := false
    seq := 0
    run := s.run && !stopImmediate s
    clusterWait := false }

/-- The end of an instruction whose destination does or does not order a fetch. -/
def finish (fetch : Bool) (s : State) : State := if fetch then releaseFetch s else release s

/-! ### The address of a fetch -/

/-- The instruction base address, bits 20 to 1 of SM(0)-L (R173). -/
def ibaOf (s : State) : SysAddr := (wordLeft (smWord s 0)).extractLsb' 1 20

/-- The main memory address of a fetch: IBA plus the word address in IA, 20 bits, on a B 5700 its low 15 (R173). -/
def fetchAddress (s : State) : SysAddr :=
  hostAddress s.cfg.mainframe (ibaOf s + (iaWord s).setWidth 20)

/-! ### Main memory data accesses -/

/-- The access loads W (R264). -/
def AccessKind.reads : AccessKind → Bool
  | .read | .writeRead | .protectedWriteRead => true
  | .write | .protectedWrite => false

/-- The access writes memory, if nothing denies it (R264). -/
def AccessKind.writes : AccessKind → Bool
  | .read => false
  | .write | .writeRead | .protectedWrite | .protectedWriteRead => true

/-- The access looks at the protect bit (R264). -/
def AccessKind.isProtected : AccessKind → Bool
  | .protectedWrite | .protectedWriteRead => true
  | .read | .write | .writeRead => false

/-- Whether the memory reports a detected error on the next access (R92, D22). -/
def nextError (s : State) : Bool := s.env.mmErrors.headD false

/-- The environment with that report used up. -/
def errorTaken (e : Env) : Env := { e with mmErrors := e.mmErrors.tail }

/-- The causes of a fault interrupt (Table 2-6, R352). -/
inductive Cause where
  | lmAddress
  | lmParity
  | clusterError
  | mmProtected
  | mmAddress
  | mmParity
  | mmDetected
  | invalidOperator
  | tag
  | fetchAddress
  | fetchParity
  | fetchDetected
  | timeOut
deriving DecidableEq, Repr

/-- The access of `acc` to an existing word is denied by the protect bit (R94, R264). -/
def accessDenied (s : State) (acc : Access) : Bool :=
  acc.kind.isProtected && (memRead s.mm s.ba.toNat).getLsbD s.cfg.mmProtectBit.val

/-- MMComplete without its fault: the pending access leaves the machine, memory is written and W loaded as R264 says. -/
def accessEffect (s : State) (acc : Access) : State :=
  let old := memRead s.mm s.ba.toNat
  { s with
    pending := none
    env := errorTaken s.env
    mm := if mmValid s s.ba && acc.kind.writes && !accessDenied s acc then hostStore s.cfg.mainframe s.mm s.ba acc.data
          else s.mm
    w := if mmValid s s.ba && acc.kind.reads then dataFromHost s.cfg.mainframe old else s.w }

/-- The fault of MMComplete, by the priority of R357: address invalid, memory-detected error, parity of the word loaded,
protected write denied. -/
def accessFault (s : State) (acc : Access) : Option Cause :=
  if !mmValid s s.ba then some .mmAddress
  else if nextError s then some .mmDetected
  else if acc.kind.reads && !oddParity (dataFromHost s.cfg.mainframe (memRead s.mm s.ba.toNat)) then some .mmParity
  else if accessDenied s acc then some .mmProtected
  else none

/-- MMComplete (R264): the state after the pending access, and the fault it found. -/
def completeAccess (s : State) : State × Option Cause :=
  match s.pending with
  | none => (s, none)
  | some acc => (accessEffect s acc, accessFault s acc)

/-! ### Taking a fault -/

/-- The five-bit code of a cause; two causes have one code for a program in local memory and another for one in main
memory (Table 2-6, R352). -/
def Cause.code (lm : Bool) : Cause → BitVec 5
  | .lmAddress => 1
  | .lmParity => 2
  | .clusterError => 3
  | .mmProtected => 4
  | .mmAddress => 5
  | .mmParity => 6
  | .mmDetected => 7
  | .invalidOperator => if lm then 8 else 12
  | .tag => if lm then 8 else 12
  | .fetchAddress => if lm then 9 else 13
  | .fetchParity => if lm then 10 else 14
  | .fetchDetected => 15
  | .timeOut => 11

/-- The priority of a cause (R357, D28): execution faults above fetch faults; address invalid, memory-detected error,
parity, code-produced, in this order; the time-out below the other execution faults. R357 does not rank protected write
denied against the invalid operator, nor the cluster error against either (log 28). -/
def Cause.rank : Cause → Nat
  | .lmAddress | .mmAddress => 15
  | .mmDetected => 14
  | .lmParity | .mmParity => 13
  | .mmProtected | .invalidOperator => 12
  | .clusterError => 11
  | .timeOut => 10
  | .fetchAddress => 4
  | .fetchDetected => 3
  | .fetchParity => 2
  | .tag => 1

/-- Of two simultaneous causes the one that is taken (R357). Of two causes of one rank, which R357 leaves unordered, the one
already found at the access is taken: protected write denied before the invalid operator (log 28). -/
def higher (found : Option Cause) (c : Cause) : Cause :=
  match found with
  | none => c
  | some f => if c.rank ≤ f.rank then f else c

/-- The fault instruction made by the hardware (R353). -/
def faultInstr (a : BitVec 3) (m : Bool) (code : BitVec 5) : Half :=
  1#5 ++ a ++ BitVec.ofBool m ++ 0#7 ++ 0#3 ++ code

/-- The branch address B:C of the instruction in P-L (R128). -/
def pBranchAddress (s : State) : InstrAddr := (pLeft s).extractLsb' 0 16

/-- The scratchpad word whose R half saves MA: 1 for the out of control fault, else 0 (R355). -/
def faultSaveWord (s : State) : BitVec 3 := if (pLeft s).extractLsb' 0 5 = 16#5 then 1 else 0

/-- The fault instruction in P-L is executed: MA saved in SM(0)-R or SM(1)-R, the I column in MA, IA at the branch
address, I19 set, CF0, CF1, I20 cleared, EX, FLT and BSTM off (R355). -/
def executeFault (s : State) : State :=
  { s with
    sm := s.sm.set (faultSaveWord s).toNat (putRight (smWord s (faultSaveWord s)) (ma s)) (faultSaveWord s).isLt
    ma2 := s.cf
    ma1 := s.ia1
    ma0 := s.ia0
    ia1 := iaHigh (pBranchAddress s)
    ia0 := iaLow (pBranchAddress s)
    cf := setBit (setBit (withFlags s.cf false false) 3 true) 4 false
    ex := false
    flt := false
    bstm := false
    seq := 0
    haltFault := false
    clusterWait := false }

/-- CF as a fault condition finds it: I20 shows the state of EX at that time (R186, R354), so it is zero between
instructions also where a stop has left it on. With EX set by hand at the panel I20 is zero and stays zero, since IA was not
counted up then, which I20 also indicates (R354, R497): the model's choice (log 31). -/
def cfNoted (s : State) : Byte := pick s.ex s.cf (setBit s.cf 4 false)

/-- The fault instruction is put into P-L and FLT is set: the definitive address when I19 is zero, out of control when it
is one (R353, R356). I20 shows EX (R354). It replaces a fault instruction that waits in P-L with FLT on, that of a Halt or, at a
time-out, another one, on which the spec is silent (log 32). -/
def placeFault (s : State) (c : Cause) : State :=
  { s with
    p := putLeft s.p
      (if i19 s then faultInstr s.cfg.faultInstrA false 16 else faultInstr s.cfg.faultInstrA (i15 s) (c.code (i15 s)))
    cf := cfNoted s
    flt := true
    haltFault := false
    clusterWait := false }

/-- The fault stops the DCP before its instruction is executed: out of control while the program runs from main memory
(R356, D19), or STOP ON FAULT (R366). -/
def faultStops (s : State) : Bool := (i19 s && !i15 s) || stopOnFault s

/-- The fault entry once no access is pending (R352): the fault instruction is placed, and executed unless the DCP stops
or is stopped. STOP IMMED stops it after the instruction or the fetch that met the condition, before the fault instruction
(D37), and at a condition that the timer or a completing access finds too, where no instruction or fetch has ended: the model's
choice (log 30). -/
def enterFault (s : State) (c : Cause) : State :=
  if faultStops s then { placeFault s c with run := false, ex := true }
  else if s.run && !stopImmediate s then executeFault (placeFault s c)
  else { placeFault s c with run := false }

/-- `raise Fault(n)` (R352). HOLD P-L ignores the condition (R366), and STOP IMMED then stops the DCP as after any instruction
(R464, D37), also at a condition of the timer or of a completing access: the model's choice (log 30). The entry uses MA, so a
pending main memory access completes first, and its own fault competes by priority (R355, R357); that it waits so with I22 = 1
too is the model's choice (U9, log 18). An adapter write still in progress does not hold the fault instruction up: the model's
choice (R181, log 34). -/
def raiseFault (s : State) (c : Cause) : State :=
  if holdPL s then { s with run := s.run && !stopImmediate s }
  else enterFault (completeAccess s).1 (higher (completeAccess s).2 c)

/-! ### Scan orders -/

/-- SM(0)-L as Initialize loads it: the base address in bits 20 to 1, the other bits zero (R371, D30). -/
def initializeBase (iba : SysAddr) : Half := 0#3 ++ iba ++ 0#1

/-- Initialize (R371, R375): RUN on, IBA stored, every fault condition dropped, the fault instruction with code 00000
executed whatever I19 and the stop switches say. A pending main memory access completes first, with I22 = 1 too, which is the
model's choice (U9, log 18). An adapter write in progress, which R371 does not mention, is kept and goes on (log 34). -/
def initialise (s : State) (iba : SysAddr) : State :=
  let t := (completeAccess s).1
  executeFault
    { t with
      run := true
      cf := cfNoted t
      sm := t.sm.set 0 (putLeft (smWord t 0) (initializeBase iba))
      p := putLeft t.p (faultInstr t.cfg.faultInstrA false 0) }

/-- Set Attention Needed (R372): I23 set. -/
def setAttention (s : State) : State := { s with cf := setBit s.cf 7 true }

/-- Halt of a B 6700 (R373): FLT on, RUN and EX off, nothing saved. It creates a fault interrupt, so that I20 notes EX (R354). -/
def haltNow (s : State) : State :=
  { s with cf := cfNoted s, flt := true, run := false, ex := false, haltFault := true, clusterWait := false }

/-- Halt of a B 5700 (R377): RUN and EX off at an instruction boundary, with HOLD P-L on too, where R462 and R181 keep EX on: the
model's choice (log 33). A fault instruction that waits in P-L with FLT on goes on waiting, on which R357 and R377 are silent (log
33). -/
def haltAtBoundary (s : State) : State := { s with run := false, ex := false }

/-- The fault instruction a halted DCP has in P-L when the operator starts it again (R373, D7). With I19 = 1 it has the same
code, not the out of control code (log 32). -/
def placeHaltFault (s : State) : State :=
  { s with
    p := putLeft s.p (faultInstr s.cfg.faultInstrA (s.cfg.haltFaultCode != 0 && i15 s) s.cfg.haltFaultCode)
    haltFault := false }

end Sys2Proof.Machine
end

