-- ==== Sys2Proof/Machine/Operands.lean ====
section
/-! DEFINITION. Operand forms: the 8-bit addresses as bytes and as half-words, indirection through Y and D, the A-field
registers of group 4, and which addresses touch W or MA, order a fetch, or name the same scratchpad location
(30_encoding.md R124 to R144; 70_reset_and_hazards.md R505, R508). -/

namespace Sys2Proof.Machine

/-- A location a byte instruction reads or writes (R132, R133). -/
inductive ByteLoc where
  /-- No location: reads zeros, stores nothing (R144). -/
  | none
  /-- The selected rows of a register column. -/
  | regs (col sel : BitVec 3)
  /-- Byte n of scratchpad word k. -/
  | smByte (k n : BitVec 3)
  /-- The tag field of scratchpad word k. -/
  | smTag (k : BitVec 3)
  /-- Byte n of W. -/
  | wByte (n : BitVec 3)
  /-- The tag field of W. -/
  | wTag
deriving DecidableEq, Repr

/-- A location a half-word instruction reads or writes (R134, R135). -/
inductive HalfLoc where
  /-- The selected rows of a register column. -/
  | regs (col sel : BitVec 3)
  /-- The L (false) or R (true) half of scratchpad word k. -/
  | smHalf (k : BitVec 3) (right : Bool)
deriving DecidableEq, Repr

/-- The two readings of a half-word address: group 2, and HAD, HSB, HADB, HSBB (R134). -/
inductive HalfKind where
  | g2
  | g3
deriving DecidableEq, Repr

/-- Bits 7 and 6 of an address (R130). -/
def addrForm (a : Byte) : BitVec 2 := a.extractLsb' 6 2

/-- Bits 5 to 3 of an address: column or scratchpad word (R131, R136). -/
def addrCol (a : Byte) : BitVec 3 := a.extractLsb' 3 3

/-- Bits 2 to 0 of an address: row select bits, half or byte code (R131, R136). -/
def addrSel (a : Byte) : BitVec 3 := a.extractLsb' 0 3

/-- The address is an indirect designation, bits 7, 6 = 01 (R139, R140). -/
def isIndirect (a : Byte) : Bool := addrForm a = 1

/-- The B address after indirection through Y (R139); the low six bits of the designation are not looked at (U2). -/
def bAddress (s : State) (b : Byte) : Byte := if isIndirect b then s.y else b

/-- The C address after indirection through D (R140). -/
def cAddress (s : State) (c : Byte) : Byte := if isIndirect c then s.d else c

/-- Y copied into the B field of P-L when B is indirect (R139, R183). SHFT and HEYU use it for their indirect literal too, which is the
model's choice (R141, R209; log 69). -/
def noteIndirect (s : State) (b : Byte) : State :=
  { s with p := if isIndirect b then putLeft s.p (rows (row2 (pLeft s)) s.y (row0 (pLeft s))) else s.p }

/-- The literal of SHFT and HEYU: Y when B is the special indirect form (R141). -/
def specialLiteral (s : State) (b : Byte) : Byte := if isIndirect b then s.y else b

/-! ### Byte addresses -/

/-- The location a resolved byte address names (R130 to R137). -/
def byteLoc (a : Byte) : Except Refusal ByteLoc :=
  match (addrForm a).toNat with
  | 0 => .ok (.regs (addrCol a) (addrSel a))
  | 1 => .error .indirectTwice
  | 2 =>
    if addrSel a = 0 then .ok .none
    else if addrSel a = 7 then .ok (.smTag (addrCol a))
    else .ok (.smByte (addrCol a) (addrSel a - 1))
  | _ =>
    if addrCol a = 7 then
      if addrSel a = 0 then .ok .none
      else if addrSel a = 7 then .ok .wTag
      else .ok (.wByte (addrSel a - 1))
    else .error .wByteAddress

/-- The tag field on the byte path (R87, D4). -/
def tagToByte (right : Bool) (t : BitVec 4) : Byte := if right then 0#4 ++ t else t ++ 0#4

/-- The tag field taken from the byte path (R87, D4). -/
def byteToTag (right : Bool) (v : Byte) : BitVec 4 := if right then v.extractLsb' 0 4 else v.extractLsb' 4 4

/-- The OR of the selected rows of a half-word (R47, R132). -/
def orRows (sel : BitVec 3) (h : Half) : Byte :=
  pick (sel.getLsbD 2) (row2 h) 0 ||| pick (sel.getLsbD 1) (row1 h) 0 ||| pick (sel.getLsbD 0) (row0 h) 0

/-- `SrcByte` (R132). -/
def readByte (s : State) : ByteLoc → Byte
  | .none => 0
  | .regs c sel => orRows sel (column s c)
  | .smByte k n => wordByte (smWord s k) n
  | .smTag k => tagToByte s.cfg.tagAlignRight (wordTag (smWord s k))
  | .wByte n => wordByte s.w n
  | .wTag => tagToByte s.cfg.tagAlignRight (wordTag s.w)

/-- `DstByte` (R133): every selected row receives the same byte. -/
def writeByte (s : State) (l : ByteLoc) (v : Byte) : State :=
  match l with
  | .none => s
  | .regs c sel => setRows s c sel (rows v v v)
  | .smByte k n => setSM s k (putByte (smWord s k) n v)
  | .smTag k => setSM s k (putTag (smWord s k) (byteToTag s.cfg.tagAlignRight v))
  | .wByte n => { s with w := putByte s.w n v }
  | .wTag => { s with w := putTag s.w (byteToTag s.cfg.tagAlignRight v) }

/-- A byte destination that names IA-1 or IA-0 (R178). -/
def ByteLoc.ordersFetch : ByteLoc → Bool
  | .regs c sel => c == 4 && (sel.getLsbD 1 || sel.getLsbD 0)
  | _ => false

/-- The location is AI (R283). -/
def ByteLoc.isAI : ByteLoc → Bool
  | .regs c sel => c == 1 && sel.getLsbD 0
  | _ => false

/-- A byte location that is part of W or MA (R505). -/
def ByteLoc.touchesWMA : ByteLoc → Bool
  | .regs c sel => (c == 3 || c == 5 || c == 6) && sel != 0
  | .wByte _ | .wTag => true
  | .none | .smByte _ _ | .smTag _ => false

/-- Two byte locations share a scratchpad byte (R508). -/
def sameSMByte : ByteLoc → ByteLoc → Bool
  | .smByte k n, .smByte j m => k == j && n == m
  | .smTag k, .smTag j => k == j
  | _, _ => false

/-- The location is a scratchpad byte or tag field (R508). -/
def ByteLoc.isSM : ByteLoc → Bool
  | .smByte _ _ | .smTag _ => true
  | .none | .regs _ _ | .wByte _ | .wTag => false

/-! ### Half-word addresses -/

/-- The location a resolved half-word address names (R131, R134 to R137). In group 3 all three rows of a column are used
whatever the row bits are, and the low bits of a scratchpad address must be 000 or 100. -/
def halfLoc (kind : HalfKind) (a : Byte) : Except Refusal HalfLoc :=
  match (addrForm a).toNat with
  | 0 =>
    match kind with
    | .g2 => .ok (.regs (addrCol a) (addrSel a))
    | .g3 => .ok (.regs (addrCol a) 7)
  | 1 => .error .indirectTwice
  | 2 =>
    match kind with
    | .g2 => .ok (.smHalf (addrCol a) (a.getLsbD 2))
    | .g3 => if a.extractLsb' 0 2 = 0 then .ok (.smHalf (addrCol a) (a.getLsbD 2)) else .error .improperHalfCode
  | _ => .error .wByteInHalf

/-- `SrcHalf` (R134): rows that are not selected read zeros. -/
def readHalf (s : State) : HalfLoc → Half
  | .regs c sel => selectRows sel (column s c) 0
  | .smHalf k right => if right then wordRight (smWord s k) else wordLeft (smWord s k)

/-- `DstHalf` (R135). -/
def writeHalf (s : State) (l : HalfLoc) (h : Half) : State :=
  match l with
  | .regs c sel => setRows s c sel h
  | .smHalf k right => setSM s k (if right then putRight (smWord s k) h else putLeft (smWord s k) h)

/-- A half-word destination that names IA-1 or IA-0 (R178). -/
def HalfLoc.ordersFetch : HalfLoc → Bool
  | .regs c sel => c == 4 && (sel.getLsbD 1 || sel.getLsbD 0)
  | .smHalf _ _ => false

/-- Two half-word locations share scratchpad bytes (R508): the same half of the same word. -/
def sameSMHalf : HalfLoc → HalfLoc → Bool
  | .smHalf k r, .smHalf j q => k == j && r == q
  | _, _ => false

/-! ### The A field of group 4 -/

/-- `SrcA` (R124). -/
def srcA (s : State) (a : BitVec 3) : Byte :=
  match a.toNat with
  | 1 => s.aa
  | 2 => s.x
  | 3 => s.y
  | 4 => s.d
  | 5 => s.ma0
  | 6 => s.ma1
  | 7 => s.ma2
  | _ => 0

/-- `DstA` (R126) as a byte location; 001 is the B address itself. -/
def dstA (a : BitVec 3) (bl : ByteLoc) : ByteLoc :=
  match a.toNat with
  | 1 => bl
  | 2 => .regs 2 1
  | 3 => .regs 2 2
  | 4 => .regs 2 4
  | 5 => .regs 3 1
  | 6 => .regs 3 2
  | 7 => .regs 3 4
  | _ => .none

/-- The A field names an MA register (R505). -/
def aNamesMA (a : BitVec 3) : Bool := 5 ≤ a.toNat

/-! ### Going on with an operand, or refusing -/

/-- Continue with the byte location an address names, or refuse. -/
def withByte (a : Byte) (k : ByteLoc → Result) : Result :=
  match byteLoc a with
  | .ok l => k l
  | .error r => .refused r

/-- Continue with the half-word location an address names, or refuse. -/
def withHalf (kind : HalfKind) (a : Byte) (k : HalfLoc → Result) : Result :=
  match halfLoc kind a with
  | .ok l => k l
  | .error r => .refused r

end Sys2Proof.Machine
end

