-- ==== Sys2Proof/Machine/Flags.lean ====
section
/-! DEFINITION. The arithmetic and logic of groups 3 and 4 with their flags, as the compare flip-flop chart R291 says, the
branch conditions R227, and the MA shifter R207. -/

namespace Sys2Proof.Machine

/-- A byte result with the carry or borrow for CF0 and the zero test for CF1. -/
structure ByteResult where
  value : Byte
  carry : Bool
  zero : Bool
deriving DecidableEq, Repr

/-- `a + b + CF0` (R292). -/
def byteAdd (a b : Byte) (cin : Bool) : ByteResult :=
  let t := a.toNat + b.toNat + cin.toNat
  let r := BitVec.ofNat 8 t
  { value := r, carry := 256 ≤ t, zero := r == 0 }

/-- `a - b - CF0` (R296): a is the minuend, CF0 the borrow. -/
def byteSub (a b : Byte) (bin : Bool) : ByteResult :=
  let r := a - b - (BitVec.ofBool bin).setWidth 8
  { value := r, carry := a.toNat < b.toNat + bin.toNat, zero := r == 0 }

/-- A logical result clears CF0 (R300, R305, R309). -/
def byteLogic (r : Byte) : ByteResult := { value := r, carry := false, zero := r == 0 }

/-- A half-word result with its flags. -/
structure HalfResult where
  value : Half
  carry : Bool
  zero : Bool
deriving DecidableEq, Repr

/-- MA + v, no carry in (R271). -/
def halfAdd (m v : Half) : HalfResult :=
  { value := m + v, carry := 16777216 ≤ m.toNat + v.toNat, zero := m + v == 0 }

/-- MA - v, no borrow in (R275). -/
def halfSub (m v : Half) : HalfResult :=
  { value := m - v, carry := m.toNat < v.toNat, zero := m - v == 0 }

/-- CF0 and CF1 loaded from a result. -/
def setFlags (s : State) (carry zero : Bool) : State := { s with cf := withFlags s.cf carry zero }

/-- CF0 and CF1 loaded by a half-word addition or subtraction, which leaves I18 zero (R31, R271). -/
def setHalfFlags (s : State) (carry zero : Bool) : State :=
  { s with cf := setBit (withFlags s.cf carry zero) 2 false }

/-- The branch condition of GOTO, GOX and GOI (R227). -/
def condition (s : State) (a : BitVec 3) : Bool :=
  match a.toNat with
  | 1 => !cf1 s && !cf0 s
  | 2 => cf0 s
  | 3 => !cf1 s
  | 4 => cf1 s
  | 5 => !cf0 s
  | 6 => cf1 s || cf0 s
  | 7 => true
  | _ => false

/-- One shift of a byte to the right with an input bit. -/
def shiftIn (i : Bool) (v : Byte) : Byte := BitVec.ofBool i ++ v.extractLsb' 1 7

/-- One shift of the selected MA registers (R207). `c` holds C5 byte circulate, C4 end around, C3 concatenate, C2 to C0 the
selection of MA2, MA1, MA0. The next-higher selected register feeds a register when concatenated; the lowest selected
register feeds the highest when end around. -/
def shiftOnce (c : Byte) (m : Half) : Half :=
  let s2 := c.getLsbD 2
  let s1 := c.getLsbD 1
  let s0 := c.getLsbD 0
  let b2 := (row2 m).getLsbD 0
  let b1 := (row1 m).getLsbD 0
  let b0 := (row0 m).getLsbD 0
  let low := if s0 then b0 else if s1 then b1 else b2
  let around := c.getLsbD 4 && low
  let circ := c.getLsbD 5
  let conc := c.getLsbD 3
  let in2 := around || (circ && b2)
  let in1 := (conc && s2 && b2) || (!s2 && around) || (circ && b1)
  let in0 := (conc && ((s1 && b1) || (!s1 && s2 && b2))) || (!s1 && !s2 && around) || (circ && b0)
  rows (pick s2 (shiftIn in2 (row2 m)) (row2 m)) (pick s1 (shiftIn in1 (row1 m)) (row1 m))
    (pick s0 (shiftIn in0 (row0 m)) (row0 m))

/-- n shifts. -/
def shiftMany (c : Byte) : Nat → Half → Half
  | 0, m => m
  | n + 1, m => shiftMany c n (shiftOnce c m)

/-- The number of shifts of SHFT: the low three bits of the literal plus one (R207). -/
def shiftCount (lit : Byte) : Nat := (lit.extractLsb' 0 3).toNat + 1

/-- The breakpoint code switch agrees with a bit of the A field (R206, R465). -/
def switchMatches (w : CodeSwitch) (b : Bool) : Bool :=
  match w with
  | .off => true
  | .zero => !b
  | .one => b

/-- The A field of a BKP agrees with the three code switches (R206). -/
def bkpMatches (s : State) (a : BitVec 3) : Bool :=
  switchMatches s.env.panel.code2 (a.getLsbD 2) && switchMatches s.env.panel.code1 (a.getLsbD 1) &&
    switchMatches s.env.panel.code0 (a.getLsbD 0)

/-- PARY's exclusive OR (R283): the eight bits, I21 when the source is AI, and A0. -/
def parityOut (v : Byte) (ninth sense : Bool) : Bool := Bool.xor (Bool.xor (xorLow v 8) ninth) sense

end Sys2Proof.Machine
end

