-- ==== Sys2Proof/Machine/Translate.lean ====
section
/-! DEFINITION. The translator: the manual's charts (46_translate_tables.md) and the byte TRAN stores (R279 to R281). Each
chart is a list of rows of sixteen; the row is the high hexadecimal digit of the input. -/

namespace Sys2Proof.Machine

/-- One row of a chart. -/
abbrev ChartRow := List Nat

/-- The entry of a chart for an input, 00 outside the chart. -/
def chart (rows : List ChartRow) (v : Nat) : Byte :=
  BitVec.ofNat 8 ((rows.getD (v / 16) []).getD (v % 16) 0)

/-- EBCDIC to USASCII (R331), rows 0 to 7. -/
def ebcdicToUsasciiLow : List ChartRow := [
  [0x00, 0x01, 0x02, 0x03, 0x00, 0x09, 0x00, 0x7F, 0x00, 0x00, 0x00, 0x0B, 0x0C, 0x0D, 0x0E, 0x0F],
  [0x10, 0x11, 0x12, 0x13, 0x00, 0x00, 0x08, 0x00, 0x18, 0x19, 0x00, 0x00, 0x1C, 0x1D, 0x1E, 0x1F],
  [0x00, 0x00, 0x00, 0x00, 0x00, 0x0A, 0x17, 0x1B, 0x00, 0x00, 0x00, 0x00, 0x00, 0x05, 0x06, 0x07],
  [0x00, 0x00, 0x16, 0x00, 0x00, 0x00, 0x00, 0x04, 0x00, 0x00, 0x00, 0x00, 0x14, 0x15, 0x00, 0x1A],
  [0x20, 0x00, 0x00, 0x00, 0x00, 0x00, 0x00, 0x00, 0x00, 0x00, 0x5B, 0x2E, 0x3C, 0x28, 0x2B, 0x21],
  [0x26, 0x00, 0x00, 0x00, 0x00, 0x00, 0x00, 0x00, 0x00, 0x00, 0x5D, 0x24, 0x2A, 0x29, 0x3B, 0x5E],
  [0x2D, 0x2F, 0x00, 0x00, 0x00, 0x00, 0x00, 0x00, 0x00, 0x00, 0x7C, 0x2C, 0x25, 0x5F, 0x3E, 0x3F],
  [0x00, 0x00, 0x00, 0x00, 0x00, 0x00, 0x00, 0x00, 0x00, 0x60, 0x3A, 0x23, 0x40, 0x27, 0x3D, 0x22]]

/-- EBCDIC to USASCII (R331), rows 8 to F. -/
def ebcdicToUsasciiHigh : List ChartRow := [
  [0x00, 0x61, 0x62, 0x63, 0x64, 0x65, 0x66, 0x67, 0x68, 0x69, 0x00, 0x00, 0x00, 0x00, 0x00, 0x00],
  [0x00, 0x6A, 0x6B, 0x6C, 0x6D, 0x6E, 0x6F, 0x70, 0x71, 0x72, 0x00, 0x00, 0x00, 0x00, 0x00, 0x00],
  [0x00, 0x7E, 0x73, 0x74, 0x75, 0x76, 0x77, 0x78, 0x79, 0x7A, 0x00, 0x00, 0x00, 0x00, 0x00, 0x00],
  [0x00, 0x00, 0x00, 0x00, 0x00, 0x00, 0x00, 0x00, 0x00, 0x00, 0x00, 0x00, 0x00, 0x00, 0x00, 0x00],
  [0x7B, 0x41, 0x42, 0x43, 0x44, 0x45, 0x46, 0x47, 0x48, 0x49, 0x00, 0x00, 0x00, 0x00, 0x00, 0x00],
  [0x7D, 0x4A, 0x4B, 0x4C, 0x4D, 0x4E, 0x4F, 0x50, 0x51, 0x52, 0x00, 0x00, 0x00, 0x00, 0x00, 0x00],
  [0x5C, 0x00, 0x53, 0x54, 0x55, 0x56, 0x57, 0x58, 0x59, 0x5A, 0x00, 0x00, 0x00, 0x00, 0x00, 0x00],
  [0x30, 0x31, 0x32, 0x33, 0x34, 0x35, 0x36, 0x37, 0x38, 0x39, 0x00, 0x00, 0x00, 0x00, 0x00, 0x00]]

/-- EBCDIC to BCL (R332), rows 0 to 7. -/
def ebcdicToBclLow : List ChartRow := [
  [0x00, 0x00, 0x00, 0x00, 0x00, 0x00, 0x00, 0x00, 0x00, 0x00, 0x00, 0x00, 0x00, 0x00, 0x00, 0x00],
  [0x00, 0x00, 0x00, 0x00, 0x00, 0x00, 0x00, 0x00, 0x00, 0x00, 0x00, 0x00, 0x00, 0x00, 0x00, 0x00],
  [0x00, 0x00, 0x00, 0x00, 0x00, 0x00, 0x00, 0x00, 0x00, 0x00, 0x00, 0x00, 0x00, 0x00, 0x00, 0x00],
  [0x00, 0x00, 0x00, 0x00, 0x00, 0x00, 0x00, 0x00, 0x00, 0x00, 0x00, 0x00, 0x00, 0x00, 0x00, 0x00],
  [0x10, 0x00, 0x00, 0x00, 0x00, 0x00, 0x00, 0x00, 0x00, 0x00, 0x3C, 0x3B, 0x3E, 0x3D, 0x3A, 0x00],
  [0x30, 0x00, 0x00, 0x00, 0x00, 0x00, 0x00, 0x00, 0x00, 0x00, 0x1E, 0x2B, 0x2C, 0x2D, 0x2E, 0x00],
  [0x20, 0x11, 0x00, 0x00, 0x00, 0x00, 0x00, 0x00, 0x00, 0x00, 0x00, 0x1B, 0x1C, 0x00, 0x0E, 0x00],
  [0x00, 0x00, 0x00, 0x00, 0x00, 0x00, 0x00, 0x00, 0x00, 0x00, 0x0D, 0x0B, 0x0C, 0x00, 0x1D, 0x1F]]

/-- EBCDIC to BCL (R332), rows 8 to F. -/
def ebcdicToBclHigh : List ChartRow := [
  [0x00, 0x00, 0x00, 0x00, 0x00, 0x00, 0x00, 0x00, 0x00, 0x00, 0x00, 0x00, 0x00, 0x00, 0x00, 0x00],
  [0x00, 0x00, 0x00, 0x00, 0x00, 0x00, 0x00, 0x00, 0x00, 0x00, 0x00, 0x00, 0x00, 0x00, 0x00, 0x00],
  [0x00, 0x00, 0x00, 0x00, 0x00, 0x00, 0x00, 0x00, 0x00, 0x00, 0x00, 0x00, 0x00, 0x00, 0x00, 0x00],
  [0x00, 0x00, 0x00, 0x00, 0x00, 0x00, 0x00, 0x00, 0x00, 0x00, 0x00, 0x00, 0x00, 0x00, 0x00, 0x00],
  [0x3A, 0x31, 0x32, 0x33, 0x34, 0x35, 0x36, 0x37, 0x38, 0x39, 0x00, 0x00, 0x00, 0x00, 0x00, 0x00],
  [0x2A, 0x21, 0x22, 0x23, 0x24, 0x25, 0x26, 0x27, 0x28, 0x29, 0x00, 0x00, 0x00, 0x00, 0x00, 0x00],
  [0x00, 0x00, 0x12, 0x13, 0x14, 0x15, 0x16, 0x17, 0x18, 0x19, 0x00, 0x00, 0x00, 0x00, 0x00, 0x00],
  [0x0A, 0x01, 0x02, 0x03, 0x04, 0x05, 0x06, 0x07, 0x08, 0x09, 0x00, 0x00, 0x00, 0x00, 0x00, 0x00]]

/-- USASCII to EBCDIC, inputs 00 to 7F; the others give 00 (R333). -/
def usasciiToEbcdic : List ChartRow := [
  [0x00, 0x01, 0x02, 0x03, 0x37, 0x2D, 0x2E, 0x2F, 0x16, 0x05, 0x25, 0x0B, 0x0C, 0x0D, 0x0E, 0x0F],
  [0x10, 0x11, 0x12, 0x13, 0x3C, 0x3D, 0x32, 0x26, 0x18, 0x19, 0x3F, 0x27, 0x1C, 0x1D, 0x1E, 0x1F],
  [0x40, 0x4F, 0x7F, 0x7B, 0x5B, 0x6C, 0x50, 0x7D, 0x4D, 0x5D, 0x5C, 0x4E, 0x6B, 0x60, 0x4B, 0x61],
  [0xF0, 0xF1, 0xF2, 0xF3, 0xF4, 0xF5, 0xF6, 0xF7, 0xF8, 0xF9, 0x7A, 0x5E, 0x4C, 0x7E, 0x6E, 0x6F],
  [0x7C, 0xC1, 0xC2, 0xC3, 0xC4, 0xC5, 0xC6, 0xC7, 0xC8, 0xC9, 0xD1, 0xD2, 0xD3, 0xD4, 0xD5, 0xD6],
  [0xD7, 0xD8, 0xD9, 0xE2, 0xE3, 0xE4, 0xE5, 0xE6, 0xE7, 0xE8, 0xE9, 0x4A, 0xE0, 0x5A, 0x5F, 0x6D],
  [0x79, 0x81, 0x82, 0x83, 0x84, 0x85, 0x86, 0x87, 0x88, 0x89, 0x91, 0x92, 0x93, 0x94, 0x95, 0x96],
  [0x97, 0x98, 0x99, 0xA2, 0xA3, 0xA4, 0xA5, 0xA6, 0xA7, 0xA8, 0xA9, 0xC0, 0x6A, 0xD0, 0xA1, 0x07]]

/-- BCL to EBCDIC (R334). -/
def bclToEbcdic : List ChartRow := [
  [0x6F, 0xF1, 0xF2, 0xF3, 0xF4, 0xF5, 0xF6, 0xF7, 0xF8, 0xF9, 0xF0, 0x7B, 0x7C, 0x7A, 0x6E, 0x6F],
  [0x40, 0x61, 0xE2, 0xE3, 0xE4, 0xE5, 0xE6, 0xE7, 0xE8, 0xE9, 0x6F, 0x6B, 0x6C, 0x7E, 0x5A, 0x7F],
  [0x60, 0xD1, 0xD2, 0xD3, 0xD4, 0xD5, 0xD6, 0xD7, 0xD8, 0xD9, 0xD0, 0x5B, 0x5C, 0x5D, 0x5E, 0x6F],
  [0x50, 0xC1, 0xC2, 0xC3, 0xC4, 0xC5, 0xC6, 0xC7, 0xC8, 0xC9, 0x4E, 0x4B, 0x4A, 0x4D, 0x4C, 0x6F]]

/-- INTERNAL to USASCII text mode characters (R336). -/
def internalToUsascii : List ChartRow := [
  [0x30, 0x31, 0x32, 0x33, 0x34, 0x35, 0x36, 0x37, 0x38, 0x39, 0x23, 0x40, 0x3F, 0x3A, 0x3E, 0x21],
  [0x2B, 0x41, 0x42, 0x43, 0x44, 0x45, 0x46, 0x47, 0x48, 0x49, 0x2E, 0x5B, 0x26, 0x28, 0x3C, 0x5F],
  [0x5C, 0x4A, 0x4B, 0x4C, 0x4D, 0x4E, 0x4F, 0x50, 0x51, 0x52, 0x24, 0x2A, 0x2D, 0x29, 0x3B, 0x27],
  [0x20, 0x2F, 0x53, 0x54, 0x55, 0x56, 0x57, 0x58, 0x59, 0x5A, 0x2C, 0x25, 0x5E, 0x3D, 0x5D, 0x22]]

/-- USASCII to INTERNAL, all 128 inputs (R337). -/
def usasciiToInternal : List ChartRow := [
  [0x30, 0x0F, 0x3F, 0x0A, 0x2A, 0x3B, 0x1C, 0x2F, 0x1D, 0x2D, 0x2B, 0x10, 0x3A, 0x2C, 0x1A, 0x31],
  [0x00, 0x01, 0x02, 0x03, 0x04, 0x05, 0x06, 0x07, 0x08, 0x09, 0x0D, 0x2E, 0x1E, 0x3D, 0x0E, 0x0C],
  [0x30, 0x0F, 0x3F, 0x0A, 0x2A, 0x3B, 0x1C, 0x2F, 0x1D, 0x2D, 0x2B, 0x10, 0x3A, 0x2C, 0x1A, 0x31],
  [0x00, 0x01, 0x02, 0x03, 0x04, 0x05, 0x06, 0x07, 0x08, 0x09, 0x0D, 0x2E, 0x1E, 0x3D, 0x0E, 0x0C],
  [0x0B, 0x11, 0x12, 0x13, 0x14, 0x15, 0x16, 0x17, 0x18, 0x19, 0x21, 0x22, 0x23, 0x24, 0x25, 0x26],
  [0x27, 0x28, 0x29, 0x32, 0x33, 0x34, 0x35, 0x36, 0x37, 0x38, 0x39, 0x1B, 0x20, 0x3E, 0x3C, 0x1F],
  [0x0B, 0x11, 0x12, 0x13, 0x14, 0x15, 0x16, 0x17, 0x18, 0x19, 0x21, 0x22, 0x23, 0x24, 0x25, 0x26],
  [0x27, 0x28, 0x29, 0x32, 0x33, 0x34, 0x35, 0x36, 0x37, 0x38, 0x39, 0x1B, 0x20, 0x3E, 0x3C, 0x1F]]

/-- INTERNAL to BCL (R338). -/
def internalToBcl : List ChartRow := [
  [0x0A, 0x01, 0x02, 0x03, 0x04, 0x05, 0x06, 0x07, 0x08, 0x09, 0x0B, 0x0C, 0x00, 0x0D, 0x0E, 0x0F],
  [0x3A, 0x31, 0x32, 0x33, 0x34, 0x35, 0x36, 0x37, 0x38, 0x39, 0x3B, 0x3C, 0x30, 0x3D, 0x3E, 0x3F],
  [0x2A, 0x21, 0x22, 0x23, 0x24, 0x25, 0x26, 0x27, 0x28, 0x29, 0x2B, 0x2C, 0x20, 0x2D, 0x2E, 0x2F],
  [0x10, 0x11, 0x12, 0x13, 0x14, 0x15, 0x16, 0x17, 0x18, 0x19, 0x1B, 0x1C, 0x1A, 0x1D, 0x1E, 0x1F]]

/-- INTERNAL to USASCII with CF0 (R280, R336): the sixth bit of the output inverted when CF0 is set. -/
def internalToUs (carry : Bool) (v : Byte) : Byte :=
  let u := chart internalToUsascii (v.extractLsb' 0 6).toNat
  if carry then u ^^^ 0x20 else u

/-- The coincidence of bits 6 and 5 of a USASCII code, the state of CF0 after translation (R280, R337). -/
def usControl (v : Byte) : Bool := v.getLsbD 6 == v.getLsbD 5

/-- What the translator does for a translation code: the byte stored and CF0 afterwards (R279, R280); without a
translator the byte is 00 and CF0 is left alone (R281). -/
def translate (s : State) (a : BitVec 3) (v : Byte) : Except Refusal (Byte × Bool) :=
  if !s.cfg.translatorPresent then .ok (0, cf0 s)
  else match s.cfg.mainframe, a.toNat with
    | .b6700, 0 => .ok (chart (ebcdicToUsasciiLow ++ ebcdicToUsasciiHigh) v.toNat, cf0 s)
    | .b6700, 1 => .ok (chart (ebcdicToBclLow ++ ebcdicToBclHigh) v.toNat, cf0 s)
    | .b6700, 4 => .ok (chart usasciiToEbcdic v.toNat, cf0 s)
    | .b6700, 5 => .ok (chart bclToEbcdic v.toNat, cf0 s)
    | .b5700, 1 => .ok (internalToUs (cf0 s) v, cf0 s)
    | .b5700, 3 => .ok (chart internalToBcl (v.extractLsb' 0 6).toNat, cf0 s)
    | .b5700, 4 => .ok (chart (ebcdicToUsasciiLow ++ ebcdicToUsasciiHigh) v.toNat, cf0 s)
    | .b5700, 5 => .ok (chart usasciiToInternal (v.extractLsb' 0 7).toNat, usControl v)
    | _, _ => .error .reservedTranslation

end Sys2Proof.Machine
end

