-- ==== Sys2Proof/Machine/Cluster.lean ====
section
/-! DEFINITION. The adapter clusters as the environment agent of 61_adapter_cluster.md R434: the write and read exchanges
(R402 to R404), the write, interrogate and interrupt codes (R430 to R432), the scan with its priorities (R407), and the
line side as events (R434). -/

namespace Sys2Proof.Machine

/-- The adapter type that TY designates (Table 5-2, R414): touch-tone with its attended light, synchronous with B2 B1 B0,
asynchronous with C3 to C0. -/
inductive AdapterKind where
  | unused
  | reserved
  | touchTone (light : Bool)
  | voiceResponse
  | callingUnit
  | synchronous (b : BitVec 3)
  | asynchronous (c : BitVec 4)
deriving DecidableEq, Repr

/-- An interrupt cause recorded for an adapter (R434). -/
inductive LineCause where
  | dataPresent
  | byteRequest
  | control
  | timer
deriving DecidableEq, Repr

/-- Adapter a of a cluster. -/
def adapterOf (c : Cluster) (a : BitVec 4) : Adapter := c.adapters[a.toNat]'(a.isLt)

/-- The cluster with adapter a replaced. -/
def setAdapter (c : Cluster) (a : BitVec 4) (v : Adapter) : Cluster :=
  { c with adapters := c.adapters.set a.toNat v a.isLt }

/-- Cluster k of the machine. -/
def clusterOf (s : State) (k : BitVec 4) : Cluster := s.clusters[k.toNat]'(k.isLt)

/-- The machine with cluster k replaced. -/
def setCluster (s : State) (k : BitVec 4) (c : Cluster) : State := { s with clusters := s.clusters.set k.toNat c k.isLt }

/-- The maintenance register disconnects an exchange (R423, bits 6 and 5). -/
def disconnected (c : Cluster) (e : Exchange) : Bool :=
  match e with
  | .one => c.mr.getLsbD 6
  | .two => c.mr.getLsbD 5

/-- A cluster this DCP can reach: fitted and connected to its exchange (R402). -/
def reachable (s : State) (k : BitVec 4) : Bool :=
  (clusterOf s k).present && !disconnected (clusterOf s k) s.cfg.exchange

/-- The crosspoint name of an exchange (R408). -/
def crosspointOf (e : Exchange) : Crosspoint :=
  match e with
  | .one => .dcp1
  | .two => .dcp2

/-- The unit can raise DES for the cluster (R401, R423). -/
def connected (c : Cluster) (u : Crosspoint) : Bool :=
  match u with
  | .none => false
  | .dcp1 => !disconnected c .one
  | .dcp2 => !disconnected c .two
  | .display => true

/-- The cluster answers the DES of this user with HLD because it serves another one: the unit the crosspoint register designates
has not finished its interrogate (R408; log 65). -/
def heldFor (c : Cluster) (u : Crosspoint) : Bool := c.engaged && decide (c.xp ≠ u) && connected c c.xp

/-- CAN of a cluster, which every user sees: its CIR is occupied with information for the DCP (R403, R408). -/
def attention (c : Cluster) : Bool := decide (c.cir.cs = .forDcp)

/-- The cluster answers a write of this user with HLD: its CIR is occupied for the cluster (R402), or it serves another user
(R408). -/
def holdsWrite (c : Cluster) (u : Crosspoint) : Bool := decide (c.cir.cs = .forCluster) || heldFor c u

/-- This DCP's name at a cluster's crosspoint register. -/
def thisDcp (s : State) : Crosspoint := crosspointOf s.cfg.exchange

/-- The clusters whose CAN is on and whose mask bit lets it through (R42, D14), lowest number first. -/
def waiting (s : State) : List (BitVec 4) :=
  ((List.range 16).map (BitVec.ofNat 4)).filter fun k =>
    s.cm.getLsbD k.toNat && reachable s k && attention (clusterOf s k)

/-- The CAN control flip-flop (R48). -/
def canOn (s : State) : Bool := !(waiting s).isEmpty

/-! ### Fields of the adapter word -/

/-- An adapter whose word holds the given 56 bits, the fields in the order of R409. -/
def adapterFromBits (a : Adapter) (v : BitVec 56) : Adapter :=
  { a with
    c1 := v.extractLsb' 45 11
    c2 := v.extractLsb' 35 10
    bt := v.extractLsb' 28 7
    ty := v.extractLsb' 22 6
    sc := v.extractLsb' 20 2
    sa := v.extractLsb' 17 3
    bc := v.extractLsb' 14 3
    bi := v.extractLsb' 10 4
    ct := v.extractLsb' 8 2
    pt := v.extractLsb' 0 8 }

/-- The type in TY (Table 5-2, R414). Asynchronous 0000 is unused (Table 5-6). -/
def adapterKind (a : Adapter) : AdapterKind :=
  if a.ty.getLsbD 4 then
    if a.ty.extractLsb' 0 4 = 0 then .unused else .asynchronous (a.ty.extractLsb' 0 4)
  else if a.ty.getLsbD 3 then .synchronous (a.ty.extractLsb' 0 3)
  else
    match (a.ty.extractLsb' 0 3).toNat with
    | 2 => .touchTone false
    | 3 => .touchTone true
    | 4 => .reserved
    | 5 => .voiceResponse
    | 7 => .callingUnit
    | _ => .unused

/-- The type names an adapter that the cluster works with. -/
def AdapterKind.inUse : AdapterKind → Bool
  | .touchTone _ | .voiceResponse | .callingUnit | .synchronous _ | .asynchronous _ => true
  | .unused | .reserved => false

/-- The adapter receives characters: the columns of Table 5-8 with Data Present (R417). -/
def AdapterKind.receives : AdapterKind → Bool
  | .touchTone _ | .synchronous _ | .asynchronous _ => true
  | .unused | .reserved | .voiceResponse | .callingUnit => false

/-- The sync editing bit D0 (Table 5-5, R414). -/
def AdapterKind.syncEditing : AdapterKind → Bool
  | .synchronous b => b.getLsbD 0
  | .unused | .reserved | .touchTone _ | .voiceResponse | .callingUnit | .asynchronous _ => false

/-- The sync pattern of a synchronous type as the DC field of CIR shows it (Table 5-4, R414), the leftmost bit of the table being
the least significant one, which gives the SYN codes of USASCII and EBCDIC; the spec does not say which end is sent first (log
66). -/
def AdapterKind.syncPattern : AdapterKind → Option (BitVec 9)
  | .synchronous b =>
    match (b.extractLsb' 1 2).toNat with
    | 1 => some 0x032
    | 3 => some 0x035
    | _ => some 0x016
  | .unused | .reserved | .touchTone _ | .voiceResponse | .callingUnit | .asynchronous _ => none

/-- The character size of a type (Tables 5-4 and 5-6, R414; a touch-tone character and a dialing digit have four bits, the address
of a Voice Response Unit eight, R441, R455); nine, the width of the DC field, where the spec gives none. -/
def AdapterKind.charSize : AdapterKind → Nat
  | .synchronous b =>
    match (b.extractLsb' 1 2).toNat with
    | 2 => 8
    | 3 => 7
    | _ => 9
  | .asynchronous c =>
    match c.toNat with
    | 1 | 2 | 3 => 5
    | 5 => 7
    | 10 => 4
    | _ => 8
  | .touchTone _ | .callingUnit => 4
  | .voiceResponse => 8
  | .unused | .reserved => 9

/-- The bits of the DC field that a character of this size uses (R426): four data bits (Burroughs Numeric); five and the shift bit
(Baudot); six and the parity bit (BCL, PTT Code/6, XS-3); seven and the parity bit (USASCII); all nine (EBCDIC). That a layout
belongs to the size with its number of line bits is the model's reading (log 66). -/
def charMask (n : Nat) : BitVec 9 :=
  match n with
  | 4 => 0x00F
  | 5 => 0x03F
  | 7 => 0x13F
  | 8 => 0x17F
  | _ => 0x1FF

/-- The columns of Table 5-8 (R417) as membership: asynchronous, synchronous, automatic calling unit, touch-tone, voice
response. -/
def AdapterKind.among (asyn syn acu touch voice : Bool) : AdapterKind → Bool
  | .asynchronous _ => asyn
  | .synchronous _ => syn
  | .callingUnit => acu
  | .touchTone _ => touch
  | .voiceResponse => voice
  | .unused | .reserved => false

/-- The rows of Table 5-8 (R417): the line side of this type records the interrupt BC:BI, given by the hexadecimal key with the
low bit of BC forced to one. The data rows 3:3 and 5:2 are the data causes and no status; Sync Fill needs D0 = 1 (Table
5-5). -/
def AdapterKind.reports (k : AdapterKind) (key : Nat) : Bool :=
  match key with
  | 0x1F | 0x3A | 0x3B | 0x5A | 0x5B | 0x5F | 0x7F => k.inUse
  | 0x36 | 0x39 | 0x3F => k.among true true false true false
  | 0x37 | 0x3E => k.among true true false false false
  | 0x38 | 0x3C | 0x3D => k.among true false false false false
  | 0x59 => k.among false k.syncEditing false true true
  | 0x5C | 0x5E => k.among true true true false false
  | 0x5D => k.among true false true false false
  | _ => false

/-- The key BC:BI of Table 5-8 for a status of an adapter (R417). -/
def statusKey (a : Adapter) (bi : BitVec 4) : Nat := 16 * (a.bc ||| 1).toNat + bi.toNat

/-- The leads OR shows (R422): a touch-tone adapter has the attended light A0 of its type (Table 5-3) on bit 3, the lead ATT of Table
5-11. That the light is this lead, whatever the lead was set to, is the model's reading, since no table names the bit (log 66). -/
def outLeads (a : Adapter) : BitVec 6 :=
  match adapterKind a with
  | .touchTone light => a.out.extractLsb' 4 2 ++ BitVec.ofBool light ++ a.out.extractLsb' 0 3
  | .unused | .reserved | .voiceResponse | .callingUnit | .synchronous _ | .asynchronous _ => a.out

/-- The command is one of Receive, key 3 of Table 5-8 (R416, R417). -/
def receiving (a : Adapter) : Bool := decide (a.bc ||| 1 = 3)

/-- The command is one of Transmit, key 5 of Table 5-8 (R416, R417). -/
def transmitting (a : Adapter) : Bool := decide (a.bc ||| 1 = 5)

/-- BI while no BC/BI interrupt is recorded: a data cause that Table 5-8 has for the command (rows 3:3 and 5:2), ID BUFF for three
seconds after an interrupt C to F, IDLE when these are gone (R417, R418); which of two facts BI shows is the model's choice (log
40). -/
def settleBi (a : Adapter) : Adapter :=
  { a with
    bi :=
      if a.control then a.bi
      else if a.dataPresent && receiving a then 3
      else if a.byteRequest && transmitting a then 2
      else if a.idBuff.isSome then 1
      else if a.bi = 3 ∨ a.bi = 2 then 0
      else a.bi }

/-- An adapter that is out of service (BC = 000) inhibits its interrupts (R416, R434). -/
def inService (a : Adapter) : Bool := a.bc != 0

/-- The cluster works on the adapter's word: it is in service and FIP is off (R414, R416). -/
def lineActive (a : Adapter) : Bool := inService a && !a.ty.getLsbD 5

/-- The program timer is disabled (R420). -/
def timerDisabled (a : Adapter) : Bool := a.pt.extractLsb' 0 5 == 31

/-- The program timer loaded (R420): a count of zero interrupts at once and leaves the disabled pattern. That another count
removes an interrupt already recorded, and that the interrupt is recorded while BC is 000 or FIP is on too, is the model's choice (log
41). -/
def loadTimer (a : Adapter) (v : Byte) : Adapter :=
  if v.extractLsb' 0 5 = 0 then { a with pt := 0xFF, timer := true } else { a with pt := v, timer := false }

/-- The nine bits of C1 that a character stands in, those the C1 codes reach (R411). That the start and stop bits are the other two is
the model's reading (log 42). -/
def c1Char (a : Adapter) : BitVec 9 := a.c1.extractLsb' 1 9

/-- C1 with a character in its nine bits, bits 10 and 0 kept (R411; log 42). -/
def putC1 (a : Adapter) (v : BitVec 9) : BitVec 11 := a.c1.extractLsb' 10 1 ++ v ++ a.c1.extractLsb' 0 1

/-- The write codes of Table 5-13 on an adapter word (R430); `none` for a code without a table entry (U21). A BC/BI interrupt already
recorded stays recorded at a write of BC and BI and is presented with the BI written, and a BI written raises no interrupt: the
model's choice (log 41). So is that a received character that waits in C1 goes on waiting at every write but BC*, which zeroes C1
(log 42). -/
def applyWrite (a : Adapter) (cc : BitVec 5) (dc : BitVec 9) : Option Adapter :=
  let v : Byte := dc.extractLsb' 0 8
  match cc.toNat with
  | 0 => some { a with ty := v.extractLsb' 0 6 }
  | 1 => some (settleBi { a with c2 := 0#1 ++ dc, dataPresent := false })
  | 9 => some (settleBi { a with c2 := 1#1 ++ dc, byteRequest := false })
  | 2 => some { a with bc := v.extractLsb' 4 3, bi := v.extractLsb' 0 4, idBuff := none, syncs := 0 }
  | 3 => some { a with
      c1 := v.extractLsb' 6 1 ++ c1Char a ++ v.extractLsb' 5 1
      sc := v.extractLsb' 3 2
      sa := v.extractLsb' 0 3 }
  | 4 => some { a with ct := dc.extractLsb' 7 2, bt := dc.extractLsb' 0 7 }
  | 5 => some { a with c1 := putC1 a dc }
  | 6 => some { a with ir := 0#1 ++ dc }
  | 14 => some { a with ir := 1#1 ++ dc }
  | 7 => some a
  | 10 => some { a with
      bc := v.extractLsb' 4 3
      bi := 0
      c1 := 0
      c1Full := false
      c2 := 0
      sc := 0
      sa := 0
      bt := 0
      ct := 0
      pt := 0xFF
      dataPresent := false
      byteRequest := false
      control := false
      timer := false
      idBuff := none
      syncs := 0 }
  | 11 => some (loadTimer a v)
  | _ => none

/-- The answer to an interrogate code of Table 5-14: the returned code and the nine information bits (R431); `none` for a
code without a table entry (U21). -/
def answer (c : Cluster) (a : Adapter) (cc : BitVec 5) : Option (BitVec 5 × BitVec 9) :=
  match cc.toNat with
  | 16 => some (cc, 0#3 ++ a.ty)
  | 17 => some (0b10001#5 ||| (BitVec.ofBool (a.c2.getLsbD 9)).setWidth 5 <<< 3, a.c2.extractLsb' 0 9)
  | 18 => some (cc, 0#2 ++ a.bc ++ a.bi)
  | 19 => some (cc, 0#2 ++ a.c1.extractLsb' 10 1 ++ a.c1.extractLsb' 0 1 ++ a.sc ++ a.sa)
  | 20 => some (cc, a.ct ++ a.bt)
  | 21 => some (cc, c1Char a)
  | 22 => some (0b10110#5 ||| (BitVec.ofBool (a.ir.getLsbD 9)).setWidth 5 <<< 3, a.ir.extractLsb' 0 9)
  | 23 => some (cc, 0#2 ++ c.mr)
  | 25 => some (cc, a.c2.extractLsb' 0 9)
  | 26 => some (cc, 0#2 ++ a.bc.extractLsb' 1 2 ++ 1#1 ++ a.bi)
  | 31 => some (cc, 0#3 ++ outLeads a)
  | _ => none

/-- What an interrogate does to the word (R431): C2 clear empties C2, BC/BI control sets the low bit of BC and forces a BC/BI
interrupt. -/
def afterAnswer (a : Adapter) (cc : BitVec 5) : Adapter :=
  match cc.toNat with
  | 25 => settleBi { a with c2 := 0#1 ++ a.c2.extractLsb' 0 9, dataPresent := false }
  | 26 => { a with bc := a.bc ||| 1, control := true }
  | _ => a

/-! ### Interrupts -/

/-- The interrupt code of a cause (Table 5-15, R432). -/
def LineCause.code : LineCause → BitVec 5
  | .dataPresent => 0b00001
  | .byteRequest => 0b01001
  | .control => 0b00010
  | .timer => 0b01011

/-- The cause an interrupt code stands for (R432). -/
def causeOfCode (cc : BitVec 5) : Option LineCause :=
  match cc.toNat with
  | 1 => some .dataPresent
  | 9 => some .byteRequest
  | 2 => some .control
  | 11 => some .timer
  | _ => none

/-- The nine information bits of a cause (Table 5-15, R432). -/
def LineCause.info (a : Adapter) : LineCause → BitVec 9
  | .dataPresent => a.c2.extractLsb' 0 9
  | .control => 0#2 ++ a.bc.extractLsb' 1 2 ++ 1#1 ++ a.bi
  | .byteRequest | .timer => 0

/-- The data cause of one adapter that is presented first. R407 ranks kinds and adapters only; that Data Present comes before
Byte Request in one adapter is the model's choice (log 39). -/
def firstData (a : Adapter) : Option LineCause :=
  if a.dataPresent then some .dataPresent else if a.byteRequest then some .byteRequest else none

/-- The control cause of one adapter that is presented first: BC/BI before PT, the model's choice (log 39). -/
def firstControl (a : Adapter) : Option LineCause :=
  if a.control then some .control else if a.timer then some .timer else none

/-- Adapter numbers in positional order (R407). -/
def adapterNumbers : List (BitVec 4) := (List.range 16).map (BitVec.ofNat 4)

/-- The adapters in service that have a cause of the given kind, lowest first. A cause recorded before BC became 000 or FIP came
on is kept; it is not presented while BC is 000 (R416), and is while FIP is on, which the spec leaves open (log 39). -/
def candidates (c : Cluster) (kind : Adapter → Option LineCause) : List (BitVec 4 × LineCause) :=
  adapterNumbers.filterMap fun a =>
    if inService (adapterOf c a) then (kind (adapterOf c a)).map fun k => (a, k) else none

/-- The maintenance register inhibits the positional priority (R423, bits 2 and 1 both one). That bit 2 then acts with bit 3 as well
(`writeInhibited`, `returnsWrites`) is the model's choice, since R423 does not say how its two decodings combine (log 43). -/
def positionInhibited (c : Cluster) : Bool := c.mr.getLsbD 2 && c.mr.getLsbD 1

/-- One of several candidates: the lowest adapter (R407), any one when the positional priority is inhibited (log 43). -/
def chooseAdapter (c : Cluster) (draw : Nat) (l : List (BitVec 4 × LineCause)) : Option (BitVec 4 × LineCause) :=
  if positionInhibited c && 1 < l.length then
    l[Config.adapterPick draw (l.map fun p => p.1.toNat) % l.length]?
  else l.head?

/-- The interrupt a cluster presents: a data interrupt if there is one, else a control interrupt (R407, D35). -/
def toPresent (c : Cluster) (draw : Nat) : Option (BitVec 4 × LineCause) :=
  match chooseAdapter c draw (candidates c firstData) with
  | some p => some p
  | none => chooseAdapter c draw (candidates c firstControl)

/-- The CIR loaded with the interrupt to present, if there is one (R434); an interrupt already presented gives way to one
of higher priority (R407), and every interrupt to the answer of an interrogate that has not finished (R404). -/
def presentInterrupt (c : Cluster) (draw : Nat) : Cluster :=
  if c.engaged then c
  else
    match toPresent c draw with
    | some (a, k) => { c with cir := { cs := .forDcp, ad := a, cc := k.code, dc := k.info (adapterOf c a) } }
    | none => c

/-- The maintenance register inhibits writing in the cluster memory (R423, bit 3 zero and bit 2 one), whatever bit 1
says: the model's choice (log 43). -/
def writeInhibited (c : Cluster) : Bool := !c.mr.getLsbD 3 && c.mr.getLsbD 2

/-- The maintenance register returns written information to the DCP (R423, bits 3 and 2 both one), whatever bit 1 says: the
model's choice (log 43). -/
def returnsWrites (c : Cluster) : Bool := c.mr.getLsbD 3 && c.mr.getLsbD 2

/-- The maintenance register shows the CIR on the maintenance exchange (R423, bit 3 one and bit 2 zero). -/
def displaysCir (c : Cluster) : Bool := c.mr.getLsbD 3 && !c.mr.getLsbD 2

/-- The maintenance exchange window is open (R423, bit 2 one and bit 1 zero). The spec gives the window no effect (log 43). -/
def windowOpen (c : Cluster) : Bool := c.mr.getLsbD 2 && !c.mr.getLsbD 1

/-- Write back of an adapter word. While the maintenance register inhibits writing in the cluster memory (R423), only the leads,
which are no part of the memory word (R409, R434), take their new values. -/
def storeAdapter (c : Cluster) (a : BitVec 4) (v : Adapter) : Cluster :=
  setAdapter c a (if writeInhibited c then { adapterOf c a with ir := v.ir, out := v.out } else v)

/-- The maintenance register loaded; bit 2 zero with bit 1 one sets the Single Step Translation flip-flop (R423). -/
def loadMr (c : Cluster) (v : BitVec 7) : Cluster :=
  { c with mr := v, singleStep := c.singleStep || (!v.getLsbD 2 && v.getLsbD 1) }

/-- A write code taken from CIR (R402, R430). MR belongs to the cluster, the other fields to the adapter. The CIR is free again,
or it holds the written information for the DCP when the maintenance register returns it (R423). The code changes the word while FIP
is on too, which R414 leaves open: the model's choice (log 71). -/
def takeWrite (c : Cluster) (draw : Nat) : Cluster :=
  let c' := { c with cir := { c.cir with cs := if returnsWrites c then .forDcp else .notOccupied } }
  if c.cir.cc = 7 then loadMr c' (c.cir.dc.extractLsb' 0 7)
  else
    match applyWrite (adapterOf c c.cir.ad) c.cir.cc c.cir.dc with
    | some v => storeAdapter c' c.cir.ad v
    | none => storeAdapter c' c.cir.ad (adapterFromBits (adapterOf c c.cir.ad) (Config.freeAdapterWord draw))

/-- An interrogate code taken from CIR and answered into it (R404, R431). C2 clear and BC/BI control change the word while FIP is on
too, which R414 leaves open: the model's choice (log 71). -/
def takeInterrogate (c : Cluster) (draw : Nat) : Cluster :=
  match answer c (adapterOf c c.cir.ad) c.cir.cc with
  | some (cc, dc) =>
    storeAdapter { c with cir := { c.cir with cs := .forDcp, cc := cc, dc := dc } } c.cir.ad
      (afterAnswer (adapterOf c c.cir.ad) c.cir.cc)
  | none =>
    storeAdapter { c with cir := { c.cir with cs := .forDcp, dc := Config.freeInfo draw } } c.cir.ad
      (adapterFromBits (adapterOf c c.cir.ad) (Config.freeAdapterWord draw))

/-- The read/write timer after one scan of the 16 adapters (R422), and the occupied bit of Access Confirm off (R405): in every case,
also where the maintenance register inhibits writing and the interrupt stays in the word, the model's choice (log 40). -/
def scanTick (c : Cluster) : Cluster := { c with rt := c.rt + 16, confirm := { c.confirm with occupied := false } }

/-- One scan of a cluster (R434): a code for the cluster is taken; CS = 11 is left (D34); an interrupt that waits is
presented. -/
def scanCluster (c : Cluster) (draw : Nat) : Cluster :=
  let c := scanTick c
  match c.cir.cs with
  | .forCluster =>
    if c.cir.cc.getLsbD 4 then takeInterrogate c draw
    else if returnsWrites c then takeWrite c draw
    else presentInterrupt (takeWrite c draw) draw
  | .masterCleared => { c with cir := { c.cir with cs := .notOccupied } }
  | .notOccupied => presentInterrupt c draw
  | .forDcp => if (causeOfCode c.cir.cc).isSome then presentInterrupt c draw else c

/-- The code in CIR has no table entry, so that a scan draws free values (U21). -/
def scanDraws (c : Cluster) : Bool := decide (c.cir.cs = .forCluster) || positionInhibited c

/-- The machine after cluster k has scanned. -/
def scanOne (s : State) (k : BitVec 4) : State :=
  { s with
    clusters := s.clusters.set k.toNat (scanCluster (clusterOf s k) s.free) k.isLt
    free := if scanDraws (clusterOf s k) then s.free + 1 else s.free }

/-! ### Exchanges -/

/-- What the cluster answers to a write exchange (R204, R402). -/
inductive WriteReply where
  | accepted
  | wait
  | absent
deriving DecidableEq, Repr

/-- The answer of cluster k to this DCP's write (R402, R408). -/
def writeReply (s : State) (k : BitVec 4) : WriteReply :=
  if !reachable s k then .absent
  else if holdsWrite (clusterOf s k) (thisDcp s) then .wait
  else .accepted

/-- The cluster brings a responsive read for this code: an interrogate (R404), or a write whose information the maintenance
register returns (R423). -/
def answers (c : Cluster) (cc : BitVec 5) : Bool := cc.getLsbD 4 || returnsWrites c

/-- A write accepted into CIR by a user of the cluster (R402). With `stays` the user is designated until it has read the answer, if
the code brings one (R404, R408); a user whose read follows in the same action leaves the cluster free behind it. -/
def acceptWrite (c : Cluster) (u : Crosspoint) (stays : Bool) (ad : BitVec 4) (cc : BitVec 5) (dc : BitVec 9) : Cluster :=
  { c with cir := { cs := .forCluster, ad := ad, cc := cc, dc := dc }, xp := u, engaged := stays && answers c cc }

/-- The cause taken by an adapter read leaves the adapter (R403, R432): a Data Present read empties C2; after a BC/BI read
BI is ID BUFF while the three seconds of an interrupt C to F last, and else IDLE (R417, R418; log 40). -/
def causeTaken (a : Adapter) : LineCause → Adapter
  | .dataPresent => settleBi { a with dataPresent := false, c2 := 0#1 ++ a.c2.extractLsb' 0 9 }
  | .byteRequest => settleBi { a with byteRequest := false }
  | .control => settleBi { a with control := false, bi := 0 }
  | .timer => { a with timer := false }

/-- The read exchange (R403): CIR is handed over, CAN goes off, Access Confirm names the adapter and whether it was its program
timer (R405), and the cause of an interrupt leaves the adapter's word, while FIP is on too, which R414 leaves open: the model's
choice (log 71). -/
def readCir (c : Cluster) (u : Crosspoint) : Cluster :=
  let c' := { c with
    cir := { c.cir with cs := .notOccupied }
    xp := u
    engaged := false
    confirm := { ad := c.cir.ad, occupied := true, timer := decide (c.cir.cc = 11) } }
  match causeOfCode c.cir.cc with
  | some k => storeAdapter c' c.cir.ad (causeTaken (adapterOf c c.cir.ad) k)
  | none => c'

/-- An adapter position after CLR, with the adapter that is fitted there. -/
def clearAdapter (a : Adapter) : Adapter := { Adapter.cleared with fitted := a.fitted }

/-- CLR (R401, R435): control flip-flops cleared, CS = 11, no interrupt recorded. What the words hold is the model's zero, and
that MR, RT, the single step flip-flop and the crosspoint are among the control flip-flops is its reading (log 4). -/
def clearCluster (c : Cluster) : Cluster :=
  { Cluster.cleared with present := c.present, adapters := c.adapters.map clearAdapter }

/-- The cluster fails to release its information at the next read exchange (R360). -/
def readFails (s : State) : Bool := s.env.exchangeFails.headD false

/-- The environment with that report used up. -/
def exchangeTaken (e : Env) : Env := { e with exchangeFails := e.exchangeFails.tail }

/-- A read exchange that failed: the cluster keeps its information, no register is loaded (R360, R364; log 67). -/
def readFailed (s : State) : State := { s with env := exchangeTaken s.env, free := s.free + 1 }

/-- The cluster of an adapter read answers HLD, because it serves another user: the instruction stays in P-L (R408; log 65). The
next step may find another cluster (D15). -/
def waitForRead (s : State) : State := { s with clusterWait := true, free := s.free + 1 }

/-- Which waiting cluster an adapter read takes (`CLUSTER_PICK`, D15): the only one, or a free choice among several. -/
def pickCluster (s : State) : Option (BitVec 4) :=
  match waiting s with
  | [] => none
  | [k] => some k
  | l => l[Config.clusterPick s.free (s.aa.extractLsb' 6 2) s.scanCounter (l.map BitVec.toNat) % l.length]?

/-- The registers loaded by an adapter read of cluster k (R221, D16): AA, AC, AI and I21, the cluster read, the attention
timer restarted, the scan counter at k (R51). -/
def adapterRead (s : State) (k : BitVec 4) : State :=
  let c := clusterOf s k
  { s with
    aa := k ++ c.cir.ad
    ac := 0#3 ++ c.cir.cc
    ai := c.cir.dc.extractLsb' 0 8
    cf := setBit s.cf 5 (c.cir.dc.getLsbD 8)
    canTimer := 0
    scanCounter := k.extractLsb' 0 2
    clusters := s.clusters.set k.toNat (readCir c (thisDcp s)) k.isLt
    env := exchangeTaken s.env
    free := s.free + 1 }

/-- The information lines AI8 : AI of a write (R204). -/
def aiLines (s : State) : BitVec 9 := BitVec.ofBool (i21 s) ++ s.ai

/-- The cluster number in AA (R21). -/
def aaCluster (s : State) : BitVec 4 := s.aa.extractLsb' 4 4

/-- The adapter number in AA (R21). -/
def aaAdapter (s : State) : BitVec 4 := s.aa.extractLsb' 0 4

/-- The literal loads of AWI and AWRR (R202, R203): A1 loads AC from B, A0 loads AI from C; I21 is left alone. -/
def loadLiterals (s : State) (a : BitVec 2) (b c : Byte) : State :=
  { s with ac := pick (a.getLsbD 1) b s.ac, ai := pick (a.getLsbD 0) c s.ai }

/-- The write delivered to the cluster in AA (R202, R402). -/
def deliverWrite (s : State) : State :=
  setCluster s (aaCluster s)
    (acceptWrite (clusterOf s (aaCluster s)) (thisDcp s) false (aaAdapter s) (s.ac.extractLsb' 0 5) (aiLines s))

/-- A held write waits for the cluster: the cluster scans and the instruction stays in P-L (R181, R402). -/
def waitForCluster (s : State) : State := { scanOne s (aaCluster s) with clusterWait := true }

/-- The responsive read of AWRR after the write was accepted and taken by the cluster's scan (R203, R404): AC, AI and I21
loaded from the answer, AA kept. -/
def responsiveRead (s : State) : State :=
  let c := clusterOf s (aaCluster s)
  { s with
    ac := 0#3 ++ c.cir.cc
    ai := c.cir.dc.extractLsb' 0 8
    cf := setBit s.cf 5 (c.cir.dc.getLsbD 8)
    clusters := s.clusters.set (aaCluster s).toNat (readCir c (thisDcp s)) (aaCluster s).isLt
    env := exchangeTaken s.env }

/-- An adapter write still in progress is completed (R50, R504): the cluster takes the code from CIR. -/
def settleAdapterWrite (s : State) : State :=
  match s.adapterWrite with
  | none => s
  | some k =>
    let t := { s with adapterWrite := none }
    if (clusterOf s k).cir.cs = .forCluster then scanOne t k else t

/-! ### The line side -/

/-- The adapter type takes part in line activity at all: it is in use, and the cluster works on the word (R414, R416). -/
def serviced (a : Adapter) : Bool := lineActive a && (adapterKind a).inUse

/-- A received character that sync editing removes (Table 5-5, R414): with D0 = 0 every sync character, with D0 = 1 the first two
while Initiate Receive mode lasts. -/
def edited (a : Adapter) (v : BitVec 9) : Bool :=
  decide ((adapterKind a).syncPattern = some v) &&
    (!(adapterKind a).syncEditing || (decide (a.bc = 3) && decide (a.syncs.toNat < 2)))

/-- The sync character counted, up to two. -/
def countSync (a : Adapter) : Adapter := { a with syncs := if a.syncs.toNat < 2 then a.syncs + 1 else a.syncs }

/-- The adapter takes characters from its line: it is of a type with Data Present, and its command is one of Receive (row 3:3 of
Table 5-8, R414, R416, R417). -/
def takesCharacters (a : Adapter) : Bool := lineActive a && (adapterKind a).receives && receiving a

/-- The path that shifts C1 to C2 (R411, R412): an assembled character moves up where C2 is not occupied, and Data Present is raised
(R432). While C2 is occupied it waits in C1. That C1 keeps its bits, as a copy, is the model's choice (log 42). -/
def moveUp (a : Adapter) : Adapter :=
  if a.c1Full && !a.c2.getLsbD 9 then settleBi { a with c2 := 1#1 ++ c1Char a, c1Full := false, dataPresent := true } else a

/-- The three seconds of an interrupt C to F run, and the same interrupt is not generated again (R417, R418). R417 does not say whether
"the interrupt" is the BI or the pair BC:BI, nor what becomes of the wait when the cluster changes the command. Here it belongs to
the BI alone and outlasts the cluster's own change of command, so that 7:F of Finish Transmit holds back 3:F after the advance to
Initiate Receive: the model's choice (log 40). -/
def waitsAfter (a : Adapter) (bi : BitVec 4) : Bool := decide (a.idBuff = some bi)

/-- A status is recorded where Table 5-8 has it for the type and the command (R417), an interrupt C to F not again within three
seconds (R418). -/
def recordStatus (a : Adapter) (bi : BitVec 4) : Adapter :=
  if (adapterKind a).reports (statusKey a bi) && !waitsAfter a bi then
    { a with bi := bi, control := true, idBuff := if 12 ≤ bi.toNat then some bi else a.idBuff }
  else a

/-- A complete character comes from the adapter switching matrix (R411, R412): into C1, and on to C2 where C2 is empty. Where C2 and C1
are both filled, data is lost and Buffer Overflow, BI 9, is recorded (R418). That the new character is the one that is lost is the
model's choice (log 42). -/
def receiveCharacter (a : Adapter) (v : BitVec 9) : Adapter :=
  let u := moveUp a
  if u.c1Full then recordStatus u 9 else moveUp { u with c1 := putC1 u v, c1Full := true }

/-- One line event on an adapter (R434). A character is received in Receive (row 3:3 of Table 5-8), is as long as its type says and
passes the sync editing (R414); one is transmitted in Transmit, with a Byte Request (row 5:2), and the last one in Finish Transmit,
without (R417; log 66). CT changes only while PT is disabled (R419). The ID BUFF wait outlasts a command that the cluster carries on
(`waitsAfter`; log 40). That a character takes bits 9 to 1 of C1, the bits the C1 codes reach, is the model's choice, since R411 names
no bits, and so are that C2 is shifted whether or not it is occupied (R412), that a sync character that is edited leaves C1 as it is,
and that C1 is not shifted while a received character waits in it (log 42). -/
def lineEvent (c : Cluster) (a : Adapter) : LineEvent → Adapter
  | .received v =>
    let ch := v &&& charMask (adapterKind a).charSize
    if takesCharacters a then (if edited a ch then countSync a else receiveCharacter a ch) else a
  | .c1ToC2 => if takesCharacters a then moveUp a else a
  | .transmitted =>
    if serviced a && (transmitting a || decide (a.bc = 6)) then
      settleBi { a with
        c1 := putC1 a (a.c2.extractLsb' 0 9)
        c1Full := false
        c2 := 0#1 ++ a.c2.extractLsb' 0 9
        byteRequest := a.byteRequest || transmitting a }
    else a
  | .status bi => if lineActive a then recordStatus a bi else a
  | .advance =>
    if serviced a then
      if a.bc = 3 then { a with bc := 2 }
      else if a.bc = 5 then { a with bc := 4 }
      else if a.bc = 6 then settleBi { a with bc := 3, syncs := 0 }
      else a
    else a
  | .timerExpired =>
    if lineActive a && !timerDisabled a then { a with pt := 0xFF, timer := true } else a
  | .idBuffEnd =>
    if lineActive a then settleBi { a with idBuff := none, bi := if a.bi = 1 then 0 else a.bi } else a
  | .inputLeads v => if c.mr.getLsbD 4 then a else { a with ir := v }
  | .outputLeads v => { a with out := v }
  | .lineSide c1 bt sc sa ct =>
    if serviced a then
      { a with
        c1 := if a.c1Full then a.c1 else c1
        bt := bt
        sc := sc
        sa := sa
        ct := if timerDisabled a then ct else a.ct }
    else a

/-- The event comes from the adapter itself and not from the cluster's own timing. -/
def LineEvent.needsAdapter : LineEvent → Bool
  | .timerExpired | .idBuffEnd | .c1ToC2 => false
  | .received _ | .transmitted | .status _ | .advance | .inputLeads _ | .outputLeads _ | .lineSide _ _ _ _ _ => true

/-- A line event of adapter a of cluster k; a position without an adapter has no line (R9). -/
def lineStep (s : State) (k a : BitVec 4) (e : LineEvent) : State :=
  let c := clusterOf s k
  if e.needsAdapter && !(adapterOf c a).fitted then s
  else setCluster s k (storeAdapter c a (lineEvent c (adapterOf c a) e))

/-- The crosspoint name of the other DCP on a shared cluster (R408). -/
def otherDcp (e : Exchange) : Crosspoint :=
  match e with
  | .one => .dcp2
  | .two => .dcp1

/-- The exchange of the other DCP. -/
def otherExchange (e : Exchange) : Exchange :=
  match e with
  | .one => .two
  | .two => .one

/-- The other DCP can use cluster k now (R402, R408). -/
def otherReaches (s : State) (k : BitVec 4) : Bool :=
  (clusterOf s k).present && !disconnected (clusterOf s k) (otherExchange s.cfg.exchange)

/-- A write of the other DCP, with `awrr` one that stays designated for its answer; while the cluster holds it off it waits (R402,
R404, R408). -/
def otherWriteStep (s : State) (k ad : BitVec 4) (cc : BitVec 5) (dc : BitVec 9) (awrr : Bool) : State :=
  if otherReaches s k && !holdsWrite (clusterOf s k) (otherDcp s.cfg.exchange) then
    setCluster s k (acceptWrite (clusterOf s k) (otherDcp s.cfg.exchange) awrr ad cc dc)
  else s

/-- A read of the other DCP takes the interrupt or its answer away, unless the cluster holds it off (R403, R408). -/
def otherReadStep (s : State) (k : BitVec 4) : State :=
  if otherReaches s k && attention (clusterOf s k) && !heldFor (clusterOf s k) (otherDcp s.cfg.exchange) then
    setCluster s k (readCir (clusterOf s k) (otherDcp s.cfg.exchange))
  else s

/-- CLR from the other DCP: the cluster goes to the state of R435, whatever MR disconnects (R401; when it comes is the model's free
input, log 45). -/
def otherClearStep (s : State) (k : BitVec 4) : State := setCluster s k (clearCluster (clusterOf s k))

/-! ### The cluster display panel (R476, R477) -/

/-- The panel's cluster number (R476). -/
def panelCluster (p : ClusterPanel) : BitVec 4 := p.aaf.extractLsb' 4 4

/-- The panel's A registers shown from a CIR. -/
def showCir (p : ClusterPanel) (r : Cir) : ClusterPanel :=
  { p with aaf := panelCluster p ++ r.ad, acf := r.cc, aif := r.dc }

/-- ENABLE counts up AA3F to AA0F after an operation (R476). -/
def countUp (p : ClusterPanel) : ClusterPanel :=
  if p.enable then { p with aaf := panelCluster p ++ (p.aaf.extractLsb' 0 4 + 1) } else p

/-- The machine with the cluster display panel replaced. -/
def setClusterPanel (s : State) (p : ClusterPanel) : State := { s with env := { s.env with clusterPanel := p } }

/-- The indicators of the panel (R476); the information on the exchange where the switch is at EX BUS (R477) or the maintenance
register shows the CIR on the maintenance exchange (R423). That EX BUS shows the CIR of the designated cluster at any time and that
an absent cluster leaves the indicators is the model's choice (log 44). -/
def panelIndicators (s : State) : ClusterPanel :=
  let p := s.env.clusterPanel
  let c := clusterOf s (panelCluster p)
  if c.present && (decide (p.state = .exchangeBus) || displaysCir c) then showCir p c.cir else p

/-- The panel's write operation, unless the cluster holds it off (R402, R408, R477). -/
def panelWrite (s : State) : Option State :=
  let p := s.env.clusterPanel
  let k := panelCluster p
  let c := clusterOf s k
  if c.present && !holdsWrite c .display then
    some (setCluster s k (acceptWrite c .display false (p.aaf.extractLsb' 0 4) p.acf p.aif))
  else none

/-- The panel reads the CIR of cluster k and shows it (R403, R477). -/
def panelRead (s : State) (k : BitVec 4) : State :=
  setCluster (setClusterPanel s (showCir s.env.clusterPanel (clusterOf s k).cir)) k (readCir (clusterOf s k) .display)

/-- The panel's interrogate: a write, the cluster's scan, and the response in the indicators (R477). A code that brings no response
ends the operation with the scan, where R477 has the panel wait for one: the model's choice (log 44). -/
def panelInterrogate (s : State) : Option State :=
  let p := s.env.clusterPanel
  let k := panelCluster p
  (panelWrite s).map fun t =>
    if answers (clusterOf s k) p.acf then panelRead (scanOne t k) k else scanOne t k

/-- The clusters whose CAN the panel can service, lowest number first (R475, R477); one that serves a DCP answers HLD (R408). -/
def panelCalls (s : State) : List (BitVec 4) :=
  ((List.range 16).map (BitVec.ofNat 4)).filter fun k =>
    (clusterOf s k).present && attention (clusterOf s k) && !heldFor (clusterOf s k) .display

/-- The panel services a CAN (R477): any one, and among several a free choice (log 44). -/
def panelAttention (s : State) : Option State :=
  match panelCalls s with
  | [] => none
  | [k] => some (panelRead s k)
  | l =>
    (l[Config.panelPick s.free (l.map BitVec.toNat) % l.length]?).map fun k => { panelRead s k with free := s.free + 1 }

/-- The panel's information indicators with the signals ACG, CAN and HLD in AI3F, AI4F and AI5F (R477). -/
def showSignals (v : BitVec 9) (acg can hld : Bool) : BitVec 9 := putBitAt (putBitAt (putBitAt v 3 acg) 4 can) 5 hld

/-- EXCHANGE CONTROL (R477): AI0F raises CLR; AI2F is DES and AI1F CWR, so that the two make a write exchange and DES alone a
read exchange; AI6F and AI7F copy between the exchange and CIR; AI3F, AI4F, AI5F show ACG, CAN, HLD, none of which comes from a
cluster that is absent (R401). A cluster that serves another unit answers either exchange with HLD (R408). R477 only names the two
copies: that EX to CIR occupies CIR for the cluster without DES and against HLD, that CIR to EX shows AD and CC and leaves CIR
occupied, that CLR wins over a write and a write over a read, and that ACG, and AD and CC of a read, are shown with CLR on too is
the model's choice (log 44). So is the information a write carries, AIF as it stands, control bits included, and so is what is shown
where DES alone and EX to CIR are both on: ACG, and AD and CC, of the read that EX to CIR displaces, and CAN always as the action has
left it (log 44). -/
def panelControl (s : State) : State :=
  let p := s.env.clusterPanel
  let k := panelCluster p
  let c := clusterOf s k
  let des := p.aif.getLsbD 2
  let cwr := p.aif.getLsbD 1
  let hld := des && (if cwr then holdsWrite c .display else heldFor c .display)
  let written := des && cwr && !hld
  let read := des && !cwr && !hld && attention c
  let c' :=
    if p.aif.getLsbD 0 then clearCluster c
    else if written || p.aif.getLsbD 6 then acceptWrite c .display false (p.aaf.extractLsb' 0 4) p.acf p.aif
    else if read then readCir c .display
    else c
  let shown := if read || p.aif.getLsbD 7 then { p with aaf := k ++ c.cir.ad, acf := c.cir.cc } else p
  if c.present then
    setCluster (setClusterPanel s { shown with aif := showSignals p.aif (written || read) (attention c') hld }) k c'
  else setClusterPanel s { p with aif := showSignals p.aif false false false }

/-- ENABLE counts up after an operation that took place; one that the cluster holds off, or that finds nothing, leaves the
address (R476). That the positions EXCHANGE BUS and EXCHANGE CONTROL do not count is the model's choice (log 44). -/
def counted (s : State) (t : Option State) : State :=
  match t with
  | some u => setClusterPanel u (countUp u.env.clusterPanel)
  | none => s

/-- One operation of the cluster display panel (R477). -/
def panelOperate (s : State) : State :=
  let p := s.env.clusterPanel
  match p.state with
  | .interrogate => counted s (panelInterrogate s)
  | .clusterWrite => counted s (panelWrite s)
  | .attention => counted s (panelAttention s)
  | .exchangeBus => setClusterPanel s (panelIndicators s)
  | .exchangeControl => panelControl s
  | .localMode | .wrd | .auxiliary => s

/-- What is done at the cluster display panel (R476). SC1F and SC0F are named in the CLEAR A REGISTERS sentence only; that nothing sets
them, neither an operation of the panel nor a push-button, so that they stay zero, is the model's choice (log 44). -/
def clusterPanelStep (s : State) : ClusterPanelAct → State
  | .setRegisters aaf acf aif =>
    setClusterPanel s { s.env.clusterPanel with aaf := aaf, acf := acf, aif := aif }
  | .clearRegisters => setClusterPanel s { s.env.clusterPanel with aaf := s.env.clusterPanel.aaf &&& 0xF0, acf := 0, aif := 0, scf := 0 }
  | .setEnable v => setClusterPanel s { s.env.clusterPanel with enable := v }
  | .setState d => setClusterPanel s { s.env.clusterPanel with state := d }
  | .operate => panelOperate s

end Sys2Proof.Machine
end

