-- ==== Sys2Proof/Machine/Group0.lean ====
section
/-! DEFINITION. The meanings of the group 0 instructions (41_group0.md) and of the undefined codes of every group, which
act like IDLE (30_encoding.md R146). -/

namespace Sys2Proof.Machine

/-- An instruction that is never released: it stays in P-L with EX on and changes nothing (R201). -/
def held (s : State) : Result := .next s

/-- IDLE (R201): held until Initialize. -/
def execIdle (_ _ : Byte) (s : State) : Result := held s

/-- Undefined codes OP 00000 with A not 000 act like IDLE (R146). -/
def execUndef00000 (_ : BitVec 3) (_ _ : Byte) (s : State) : Result := held s

/-- Undefined codes OP 00011 A 11x act like IDLE (R146). -/
def execUndef00011 (_ : BitVec 1) (_ _ : Byte) (s : State) : Result := held s

/-- Undefined codes OP 00100 with A 101 to 111 act like IDLE (R146). -/
def execUndef00100 (_ : BitVec 2) (_ _ : Byte) (s : State) : Result := held s

/-- Undefined codes OP 01010 act like IDLE (R146). -/
def execUndef01010 (_ : BitVec 3) (_ _ : Byte) (s : State) : Result := held s

/-- Undefined codes OP 01011 act like IDLE (R146). -/
def execUndef01011 (_ : BitVec 3) (_ _ : Byte) (s : State) : Result := held s

/-- OP 00011 A 01x (R147, D11): a no-op, or an undefined code if the installation says so. -/
def execNop00011 (_ : BitVec 1) (_ _ : Byte) (s : State) : Result :=
  match s.cfg.undef00011 with
  | .noop => .next (release s)
  | .idle => held s

/-- The B:C branch address (R128). -/
def branchAddress (b c : Byte) : InstrAddr := b ++ c

/-- MA saved in SM(0)-R and the I column in MA, as a branching BKP does from the old values (R206). -/
def saveForSubroutine (s : State) : State :=
  { s with
    sm := s.sm.set 0 (putRight (smWord s 0) (ma s))
    ma2 := s.cf
    ma1 := s.ia1
    ma0 := s.ia0 }

/-- BKP branches under the switches as they stand (R206). -/
def bkpBranches (s : State) (a : BitVec 3) : Bool := decide (s.env.panel.bkp = .branch) && bkpMatches s a

/-- BKP (R206): a no-op, a stop, or a subroutine entry, as the breakpoint switches say. -/
def execBkp (a : BitVec 3) (b c : Byte) (s : State) : Result :=
  if bkpMatches s a then
    match s.env.panel.bkp with
    | .off => .next (release s)
    | .stop => .next { s with run := false, ex := false }
    | .branch => .next (branchTo (saveForSubroutine s) (branchAddress b c))
  else .next (release s)

/-- The state in which the adapter cluster error finds AWI or AWRR that began at `s` and has got to `u`: AC and AI as they were at
`s`, because no destination has been written at a fault (R360, R364, D29), or, in an installation that follows the corner cases of
R202 and R203, as `u` has them (log 36). -/
def atClusterError (s u : State) : State :=
  { u with ac := pick s.cfg.clusterErrorPrecise s.ac u.ac, ai := pick s.cfg.clusterErrorPrecise s.ai u.ai }

/-- AWI (R202, R204). While the cluster holds it, nothing has changed, the literals being loaded when the exchange is decided
(R181; log 36). -/
def execAwi (a : BitVec 2) (b c : Byte) (s : State) : Result :=
  let t := loadLiterals s a b c
  match writeReply s (aaCluster s) with
  | .accepted => .next (release { deliverWrite t with adapterWrite := some (aaCluster s) })
  | .wait => .next (waitForCluster s)
  | .absent => .next (raiseFault (atClusterError s t) .clusterError)

/-- AWRR, which began at `s` and has got to `t`, after its write was accepted: AC and AI cleared, the cluster's scan, and the
responsive read. A code that brings no responsive read, and a cluster that fails before it, end in the adapter cluster error (R203,
R360, R404, U8; log 67). -/
def interrogateAnswer (s t : State) : State :=
  let v := { deliverWrite t with ac := 0, ai := 0 }
  let u := scanOne v (aaCluster t)
  if answers (clusterOf t (aaCluster t)) (t.ac.extractLsb' 0 5) then
    if readFails t then raiseFault (atClusterError s (readFailed v)) .clusterError else release (responsiveRead u)
  else raiseFault (atClusterError s u) .clusterError

/-- AWRR (R203, R204), held as AWI is. -/
def execAwrr (a : BitVec 2) (b c : Byte) (s : State) : Result :=
  let t := loadLiterals s a b c
  match writeReply s (aaCluster s) with
  | .accepted => .next (interrogateAnswer s t)
  | .wait => .next (waitForCluster s)
  | .absent => .next (raiseFault (atClusterError s t) .clusterError)

/-- SHFT (R207). That an indirect literal copies Y into the B field of P-L, which R183 states for an indirect source address only, is
the model's choice (log 69). -/
def execShft (b c : Byte) (s : State) : Result :=
  let t := noteIndirect s b
  .next (release (setFlags (setMA t (shiftMany c (shiftCount (specialLiteral s b)) (ma s))) false false))

/-- HEYU (R209): the multiplexor's DCP Attention Needed flip-flop is set (R388). That an indirect literal copies Y into the B field of
P-L, which R183 states for an indirect source address only, is the model's choice (log 69). -/
def execHeyu (b _ : Byte) (s : State) : Result :=
  .next (release { noteIndirect s b with env := { s.env with hostAttention := true } })

/-- MSKW (R211). -/
def execMskw (_ _ : Byte) (s : State) : Result := .next (release { s with cm := s.ac ++ s.ai })

/-- MSKR (R212). -/
def execMskr (_ _ : Byte) (s : State) : Result :=
  .next (release
    { s with
      ac := s.cm.extractLsb' 8 8
      ai := s.cm.extractLsb' 0 8
      cf := setBit s.cf 5 false
      aa := 0 })

end Sys2Proof.Machine
end

