-- ==== Sys2Proof/Machine/Group1.lean ====
section
/-! DEFINITION. The meanings of the group 1 instructions (42_group1.md). -/

namespace Sys2Proof.Machine

/-- ARWN (R221): the cluster attention is served first, then the system attention; with neither the instruction is
held. A cluster that serves another unit answers HLD, and the read waits (R408). A read exchange that fails is the adapter cluster
error (R360). -/
def execArwn (b c : Byte) (s : State) : Result :=
  match pickCluster s with
  | some k =>
    .next (if heldFor (clusterOf s k) (thisDcp s) then waitForRead s
      else if readFails s then raiseFault (readFailed s) .clusterError
      else release (adapterRead s k))
  | none =>
    if i23 s then .next (branchTo { s with cf := setBit s.cf 7 false } (branchAddress b c))
    else .next { s with clusterWait := true }

/-- ARIN (R222), held as ARWN is by a cluster that serves another unit (R408). A read exchange that fails is the adapter cluster
error (R360). -/
def execArin (b c : Byte) (s : State) : Result :=
  match pickCluster s with
  | some k =>
    .next (if heldFor (clusterOf s k) (thisDcp s) then waitForRead s
      else if readFails s then raiseFault (readFailed s) .clusterError
      else branchTo (adapterRead s k) (branchAddress b c))
  | none => .next (release { s with canTimer := 0 })

/-- DBYZ (R223). -/
def execDbyz (b c : Byte) (s : State) : Result :=
  if s.y = 0 then .next (branchTo s (branchAddress b c))
  else .next (release { s with y := s.y - 1 })

/-- DBYN (R224). -/
def execDbyn (b c : Byte) (s : State) : Result :=
  if s.y = 0 then .next (release s)
  else .next (branchTo { s with y := s.y - 1 } (branchAddress b c))

/-- BRAN finds its condition: SAN (R226), or CAN in an installation that follows the table of R385 (log 68). -/
def branCondition (s : State) : Bool := i23 s || (s.cfg.branTestsCan && canOn s)

/-- BRAN (R226). A branch on CAN reads no cluster, so that CAN stays on until the adapter read (R385; log 68). -/
def execBran (b c : Byte) (s : State) : Result :=
  if branCondition s then .next (branchTo { s with cf := setBit s.cf 7 false } (branchAddress b c))
  else .next (release s)

/-- A conditional branch to a target (R227). -/
def branchIf (s : State) (a : BitVec 3) (target : InstrAddr) : Result :=
  if condition s a then .next (branchTo s target) else .next (release s)

/-- GOTO (R228). -/
def execGoto (a : BitVec 3) (b c : Byte) (s : State) : Result := branchIf s a (branchAddress b c)

/-- GOX (R229): a 16-bit sum (D24). -/
def execGox (a : BitVec 3) (b c : Byte) (s : State) : Result :=
  branchIf s a (branchAddress b c + s.x.setWidth 16)

/-- GOI (R230): the displacement is the byte Y addresses; a 16-bit sum (D24). -/
def execGoi (a : BitVec 3) (b c : Byte) (s : State) : Result :=
  if condition s a then
    withByte s.y fun l => .next (branchTo s (branchAddress b c + (readByte s l).setWidth 16))
  else .next (release s)

end Sys2Proof.Machine
end

