-- ==== Sys2Proof/Machine/Group2.lean ====
section
/-! DEFINITION. The meanings of the group 2 instructions (43_group2.md): the half-word move, the scratchpad and word
register transfers, and the local and main memory transfers. -/

namespace Sys2Proof.Machine

/-! ### The half-word move -/

/-- A half-word stored by an instruction that also loads MA: MA rows that the destination selects have two writers and hold
free values (U10); any other destination receives the half-word. -/
def storeBesideMA (t : State) (dst : HalfLoc) (h : Half) : State :=
  match dst with
  | .regs c sel =>
    if c = 3 then { setRows t 3 sel (Config.freeHalf t.free) with free := t.free + 1 } else setRows t c sel h
  | .smHalf k r => writeHalf t (.smHalf k r) h

/-- `MoveStep` (R240): MA from the source, the old MA to the destination. -/
def moveHalves (s : State) (b : Byte) (src dst : HalfLoc) : State :=
  storeBesideMA (setMA (noteIndirect s b) (readHalf s src)) dst (ma s)

/-- `MoveStep` with its operands decoded, then what the instruction does further. -/
def moveThen (b c : Byte) (s : State) (k : HalfLoc → HalfLoc → State → Result) : Result :=
  withHalf .g2 (bAddress s b) fun src =>
    withHalf .g2 (cAddress s c) fun dst => k src dst (moveHalves s b src dst)

/-- MOVE (R241), with the invalid operator fault when both addresses name one scratchpad half-word (R508). -/
def moveHalfWord (b c : Byte) (s : State) : Result :=
  moveThen b c s fun src dst t =>
    if sameSMHalf src dst then .next (raiseFault (noteIndirect s b) .invalidOperator) else .next (finish dst.ordersFetch t)

/-- MOVE, OP 01000 A 000 (R241). -/
def execMove (b c : Byte) (s : State) : Result := moveHalfWord b c s

/-- OP 01000 A 100 executes as MOVE (R147). -/
def execMove01000 (b c : Byte) (s : State) : Result := moveHalfWord b c s

/-- OP 01001 A 0x0 executes as MOVE (R147). -/
def execMove01001 (_ : BitVec 1) (b c : Byte) (s : State) : Result := moveHalfWord b c s

/-! ### Scratchpad and word register -/

/-- What SMRD brings to W: the whole scratchpad word, or a register column in W-L with zeros elsewhere (R246). -/
def smrdSource (s : State) (src : HalfLoc) : Word :=
  match src with
  | .smHalf k _ => smWord s k
  | .regs _ _ => makeWord 0 (readHalf s src) 0

/-- SMRD's two transfers (R246): W loaded, MA sent to the destination; a destination W-L or W-R receives MA ORed with what
W receives (D25). -/
def smrdEffect (s : State) (src dst : HalfLoc) : State :=
  let v := smrdSource s src
  match dst with
  | .regs c sel =>
    if c = 5 then { s with w := putLeft v (wordLeft v ||| selectRows sel (ma s) 0) }
    else if c = 6 then { s with w := putRight v (wordRight v ||| selectRows sel (ma s) 0) }
    else setRows { s with w := v } c sel (ma s)
  | .smHalf k r => writeHalf { s with w := v } (.smHalf k r) (ma s)

/-- Source and destination lie in one scratchpad word. -/
def sameSMWord : HalfLoc → HalfLoc → Bool
  | .smHalf k _, .smHalf j _ => k == j
  | _, _ => false

/-- SMRD (R246), with the invalid operator fault where C names the scratchpad word that is read. The table of R508 has SMRD false
because it has one SM address at most, and with one at most there is no fault; the parameter is for an installation that follows
that table to the letter (log 15). -/
def execSmrd (b c : Byte) (s : State) : Result :=
  withHalf .g2 (bAddress s b) fun src =>
    withHalf .g2 (cAddress s c) fun dst =>
      if sameSMWord src dst && s.cfg.smrdSameWordFaults then .next (raiseFault (noteIndirect s b) .invalidOperator)
      else .next (finish dst.ordersFetch (smrdEffect (noteIndirect s b) src dst))

/-- SMWD's store (R252): a scratchpad word receives all of W, a register column the rows of W-L. -/
def smwdStore (t : State) (dst : HalfLoc) (v : Word) : State :=
  match dst with
  | .smHalf k _ => setSM t k v
  | .regs c sel => storeBesideMA t (.regs c sel) (wordLeft v)

/-- SMWD (R252). -/
def execSmwd (b c : Byte) (s : State) : Result :=
  withHalf .g2 (bAddress s b) fun src =>
    withHalf .g2 (cAddress s c) fun dst =>
      .next (finish dst.ordersFetch (smwdStore (setMA (noteIndirect s b) (readHalf s src)) dst s.w))

/-! ### Local memory -/

/-- The local memory address in MA, bits 13 to 0 (R82, U12). -/
def maLocal (s : State) : BitVec 14 := (ma s).extractLsb' 0 14

/-- The local memory address in B:C (R129, U12). -/
def directLocal (b c : Byte) : BitVec 14 := b.extractLsb' 0 6 ++ c

/-- The read cycle: W loaded, its parity check due (R48 PYWC, SCM; R243). -/
def lmLoad (s : State) (a : BitVec 14) : State := { s with w := memRead s.lm a.toNat, pywc := true, scm := true }

/-- The access is over. -/
def lmDone (s : State) : State := { s with pywc := false, scm := false }

/-- The read instruction has completed and the next one is not started because W's parity is wrong (R362): EX and I20 stay
on only when the R instruction would have followed at once. -/
def lmStopped (fetch : Bool) (s : State) : State :=
  { s with
    ex := !fetch && transfers s
    cf := setBit s.cf 4 (!fetch && transfers s)
    run := s.run && !stopImmediate s
    clusterWait := false
    pywc := false
    scm := false }

/-- After the read cycle: parity is checked (R90), and the data parity error is taken in place of the next instruction
(R362). HOLD P-L ignores it (R366). -/
def afterLmRead (fetch : Bool) (s : State) : State :=
  if oddParity s.w || holdPL s then finish fetch (lmDone s) else raiseFault (lmStopped fetch s) .lmParity

/-- W stored into local memory with generated parity (R90, D5). -/
def lmStore (s : State) (a : BitVec 14) : State :=
  { s with w := withParity s.w, lm := memWrite s.lm a.toNat (withParity s.w) }

/-- A local memory read at an address by the instruction that began at `s` and has got to `t`, or the address fault, at which
nothing of the instruction has been stored (R91, R358, R364; D21, D29). `s` has an indirect B address already copied into P-L
(R183, R364). -/
def lmRead (s : State) (fetch : Bool) (t : State) (a : BitVec 14) : State :=
  if lmExists s a then afterLmRead fetch (lmLoad t a) else raiseFault s .lmAddress

/-- A local memory write in the same way (R91, R358, R364; D21, D29). -/
def lmWrite (s : State) (fetch : Bool) (t : State) (a : BitVec 14) : State :=
  if lmExists s a then finish fetch (lmStore t a) else raiseFault s .lmAddress

/-- LMRI (R243). -/
def execLmri (b c : Byte) (s : State) : Result :=
  moveThen b c s fun _ dst t => .next (lmRead (noteIndirect s b) dst.ordersFetch t (maLocal t))

/-- LMRD (R248): the net effect of the exchange and its restoration is W loaded. -/
def execLmrd (b c : Byte) (s : State) : Result := .next (lmRead s false s (directLocal b c))

/-- LMWI (R250). -/
def execLmwi (b c : Byte) (s : State) : Result :=
  moveThen b c s fun _ dst t => .next (lmWrite (noteIndirect s b) dst.ordersFetch t (maLocal t))

/-- LMWD (R254). -/
def execLmwd (b c : Byte) (s : State) : Result := .next (lmWrite s false s (directLocal b c))

/-! ### Main memory -/

/-- `MMStart` after the move (R264): BA from MA, parity generated in W for a write, the access pending. -/
def requestAccess (s : State) (kind : AccessKind) : State :=
  { s with
    ba := hostAddress s.cfg.mainframe ((ma s).extractLsb' 0 20)
    w := if kind.writes then withParity s.w else s.w
    pending := some { kind := kind, data := if kind.writes then withParity s.w else s.w, granted := false } }

/-- `MMStart` (R264). -/
def mmStart (kind : AccessKind) (b c : Byte) (s : State) : Result :=
  moveThen b c s fun _ dst t => .next (finish dst.ordersFetch (requestAccess t kind))

/-- `MMStart` of an instruction that a B 5700 does not have (U16). -/
def mmStartB6700 (kind : AccessKind) (b c : Byte) (s : State) : Result :=
  match s.cfg.mainframe with
  | .b6700 => mmStart kind b c s
  | .b5700 => .refused .notOnB5700

/-- MMR (R256). -/
def execMmr (b c : Byte) (s : State) : Result := mmStart .read b c s

/-- OP 01001 A 011 executes as MMR (R147). -/
def execMmr01001 (b c : Byte) (s : State) : Result := mmStart .read b c s

/-- MMWU (R257). -/
def execMmwu (b c : Byte) (s : State) : Result := mmStart .write b c s

/-- MMWR (R258). -/
def execMmwr (b c : Byte) (s : State) : Result := mmStartB6700 .writeRead b c s

/-- MMWP (R260). -/
def execMmwp (b c : Byte) (s : State) : Result := mmStartB6700 .protectedWrite b c s

/-- MWRP (R262). -/
def execMwrp (b c : Byte) (s : State) : Result := mmStartB6700 .protectedWriteRead b c s

end Sys2Proof.Machine
end

