-- ==== Sys2Proof/Machine/Group3.lean ====
section
/-! DEFINITION. The meanings of the group 3 instructions (44_group3.md). -/

namespace Sys2Proof.Machine

/-- A half-word result stored with its flags; a destination that is CF keeps the stored byte (D3). -/
def storeHalfResult (s : State) (dst : HalfLoc) (r : HalfResult) : State :=
  finish dst.ordersFetch (writeHalf (setHalfFlags s r.carry r.zero) dst r.value)

/-- HAD and HSB: an addressed half-word against MA (R271, R275), with the invalid operator fault of R508. -/
def halfWithAddress (f : Half → Half → HalfResult) (b c : Byte) (s : State) : Result :=
  withHalf .g3 (bAddress s b) fun src =>
    withHalf .g3 (cAddress s c) fun dst =>
      if sameSMHalf src dst then .next (raiseFault (noteIndirect s b) .invalidOperator)
      else .next (storeHalfResult (noteIndirect s b) dst (f (ma s) (readHalf s src)))

/-- HADB and HSBB: the literal B, zero-extended, against MA (R273, R277). -/
def halfWithLiteral (f : Half → Half → HalfResult) (b c : Byte) (s : State) : Result :=
  withHalf .g3 (cAddress s c) fun dst => .next (storeHalfResult s dst (f (ma s) (b.setWidth 24)))

/-- HAD (R271). -/
def execHad (_ : BitVec 2) (b c : Byte) (s : State) : Result := halfWithAddress halfAdd b c s

/-- HSB (R275). -/
def execHsb (_ : BitVec 2) (b c : Byte) (s : State) : Result := halfWithAddress halfSub b c s

/-- HADB (R273). -/
def execHadb (_ : BitVec 2) (b c : Byte) (s : State) : Result := halfWithLiteral halfAdd b c s

/-- HSBB (R277). -/
def execHsbb (_ : BitVec 2) (b c : Byte) (s : State) : Result := halfWithLiteral halfSub b c s

/-- TRAN (R279 to R281); CF0 is written before the byte is stored, so a destination CF keeps the stored byte (D3). -/
def execTran (a : BitVec 3) (b c : Byte) (s : State) : Result :=
  withByte (bAddress s b) fun bl =>
    withByte (cAddress s c) fun cl =>
      if sameSMByte bl cl then .next (raiseFault (noteIndirect s b) .invalidOperator)
      else
        match translate s a (readByte s bl) with
        | .error r => .refused r
        | .ok (v, carry) =>
          .next (finish cl.ordersFetch (writeByte (setFlags (noteIndirect s b) carry (cf1 s)) cl v))

/-- I21 loaded with PARY's result when AI is the destination (R283). -/
def parityToAI (s : State) (cl : ByteLoc) (x : Bool) : State :=
  if cl.isAI then { s with cf := setBit s.cf 5 x } else s

/-- PARY (R283). -/
def execPary (a : BitVec 1) (b c : Byte) (s : State) : Result :=
  withByte (bAddress s b) fun bl =>
    withByte (cAddress s c) fun cl =>
      if sameSMByte bl cl then .next (raiseFault (noteIndirect s b) .invalidOperator)
      else
        let v := readByte s bl
        let x := parityOut v (bl.isAI && i21 s) (a.getLsbD 0)
        .next (finish cl.ordersFetch (writeByte (parityToAI (setFlags (noteIndirect s b) false (!x)) cl x) cl v))

end Sys2Proof.Machine
end

