-- ==== Sys2Proof/Machine/Group4.lean ====
section
/-! DEFINITION. The meanings of the group 4 instructions (45_group4.md) in their three operand forms (R290), and of the
LEO alias OP 01111 (30_encoding.md R147). -/

namespace Sys2Proof.Machine

/-- A byte result stored with its flags; a destination that is CF keeps the stored byte (D3). -/
def storeByteResult (s : State) (l : ByteLoc) (r : ByteResult) : State :=
  finish l.ordersFetch (writeByte (setFlags s r.carry r.zero) l r.value)

/-- The plain form (R290): operands A and B, destination C. `exempt` marks the OR and AND instructions, which may name one
scratchpad byte twice (R508). -/
def bytePlain (f : Byte → Byte → Bool → ByteResult) (exempt : Bool) (a : BitVec 3) (b c : Byte) (s : State) : Result :=
  withByte (bAddress s b) fun bl =>
    withByte (cAddress s c) fun cl =>
      if !exempt && sameSMByte bl cl then .next (raiseFault (noteIndirect s b) .invalidOperator)
      else .next (storeByteResult (noteIndirect s b) cl (f (srcA s a) (readByte s bl) (cf0 s)))

/-- The literal-in-B form (R290): operands A and the literal B, destination C. -/
def byteLiteralB (f : Byte → Byte → Bool → ByteResult) (a : BitVec 3) (b c : Byte) (s : State) : Result :=
  withByte (cAddress s c) fun cl => .next (storeByteResult s cl (f (srcA s a) b (cf0 s)))

/-- The literal-in-C form (R290): operands B and the literal C, destination the A register, or B itself when A = 001. -/
def byteLiteralC (f : Byte → Byte → Bool → ByteResult) (exempt : Bool) (a : BitVec 3) (b c : Byte) (s : State) :
    Result :=
  withByte (bAddress s b) fun bl =>
    if !exempt && a == 1 && bl.isSM then .next (raiseFault (noteIndirect s b) .invalidOperator)
    else .next (storeByteResult (noteIndirect s b) (dstA a bl) (f (readByte s bl) c (cf0 s)))

/-- ADD (R292). -/
def execAdd (a : BitVec 3) (b c : Byte) (s : State) : Result := bytePlain byteAdd false a b c s

/-- ADDB (R293). -/
def execAddb (a : BitVec 3) (b c : Byte) (s : State) : Result := byteLiteralB byteAdd a b c s

/-- ADDC (R294). -/
def execAddc (a : BitVec 3) (b c : Byte) (s : State) : Result := byteLiteralC byteAdd false a b c s

/-- SUB (R296): the A operand is the minuend. -/
def execSub (a : BitVec 3) (b c : Byte) (s : State) : Result := bytePlain byteSub false a b c s

/-- SUBB (R297): the A operand is the minuend. -/
def execSubb (a : BitVec 3) (b c : Byte) (s : State) : Result := byteLiteralB byteSub a b c s

/-- SUBC (R298): the literal is the minuend. -/
def execSubc (a : BitVec 3) (b c : Byte) (s : State) : Result :=
  byteLiteralC (fun v lit bin => byteSub lit v bin) false a b c s

/-- The AND of two bytes with its flags (R300). -/
def byteAnd (a b : Byte) (_ : Bool) : ByteResult := byteLogic (a &&& b)

/-- The OR of two bytes with its flags (R305). -/
def byteOr (a b : Byte) (_ : Bool) : ByteResult := byteLogic (a ||| b)

/-- The exclusive OR of two bytes with its flags (R309). -/
def byteXor (a b : Byte) (_ : Bool) : ByteResult := byteLogic (a ^^^ b)

/-- LAN (R300). -/
def execLan (a : BitVec 3) (b c : Byte) (s : State) : Result := bytePlain byteAnd true a b c s

/-- LANB (R301). -/
def execLanb (a : BitVec 3) (b c : Byte) (s : State) : Result := byteLiteralB byteAnd a b c s

/-- LANC (R302). -/
def execLanc (a : BitVec 3) (b c : Byte) (s : State) : Result := byteLiteralC byteAnd true a b c s

/-- LOR (R305). -/
def execLor (a : BitVec 3) (b c : Byte) (s : State) : Result := bytePlain byteOr true a b c s

/-- LORB (R306). -/
def execLorb (a : BitVec 3) (b c : Byte) (s : State) : Result := byteLiteralB byteOr a b c s

/-- LORC (R307). -/
def execLorc (a : BitVec 3) (b c : Byte) (s : State) : Result := byteLiteralC byteOr true a b c s

/-- LEO (R309). -/
def execLeo (a : BitVec 3) (b c : Byte) (s : State) : Result := bytePlain byteXor false a b c s

/-- OP 01111 with A from 010 to 111 executes as LEO with that A (R147). -/
def execLeo01111 (a : BitVec 3) (b c : Byte) (s : State) : Result := bytePlain byteXor false a b c s

/-- LEOB (R310). -/
def execLeob (a : BitVec 3) (b c : Byte) (s : State) : Result := byteLiteralB byteXor a b c s

/-- LEOC (R311). -/
def execLeoc (a : BitVec 3) (b c : Byte) (s : State) : Result := byteLiteralC byteXor false a b c s

/-! ### LAOM -/

/-- The AND result ORed with each MA row (R303). -/
def orMA (s : State) (t : Byte) : Half := rows (t ||| s.ma2) (t ||| s.ma1) (t ||| s.ma0)

/-- The columns that hold registers (R131). -/
def columnExists (c : BitVec 3) : Bool := c != 0 && c != 7

/-- Some selected row of a half-word is zero, or some is not: the two tests behind CF1 of a LAOM to several rows. -/
def someRow (sel : BitVec 3) (h : Half) (z : Bool) : Bool :=
  (sel.getLsbD 2 && (row2 h == 0) == z) || (sel.getLsbD 1 && (row1 h == 0) == z) || (sel.getLsbD 0 && (row0 h == 0) == z)

/-- CF1 of a LAOM to the selected rows of a column (R303, D13): the zero test of the stored rows, a free bit when they do
not agree; the zero test of the AND when nothing is stored or the installation tests that. -/
def laomZero (s : State) (c sel : BitVec 3) (t : Byte) : Bool :=
  let h := orMA s t
  if !s.cfg.laomIncludesMa || !columnExists c || sel == 0 then t == 0
  else if someRow sel h true && someRow sel h false then Config.freeBit s.free
  else someRow sel h true

/-- The MA row LAOM ORs into a memory byte, which the manual does not settle (U20). -/
def laomMemory (s : State) (t : Byte) : Byte := t ||| rowOf (ma s) (Config.freeRow s.free)

/-- CF1 for one stored byte (D13). -/
def laomByteZero (s : State) (t r : Byte) : Bool := if s.cfg.laomIncludesMa then r == 0 else t == 0

/-- LAOM's store and flags at a destination (R303, U20): CF0 cleared; register rows take the AND ORed with the MA row of
their own row; a memory byte takes it ORed with a free row; a tag field takes the AND alone. -/
def laomStore (s : State) (dst : ByteLoc) (t : Byte) : State :=
  match dst with
  | .none => setFlags s false (t == 0)
  | .regs c sel => { setRows (setFlags s false (laomZero s c sel t)) c sel (orMA s t) with free := s.free + 1 }
  | .smByte k n =>
    { writeByte (setFlags s false (laomByteZero s t (laomMemory s t))) (.smByte k n) (laomMemory s t) with
      free := s.free + 1 }
  | .wByte n =>
    { writeByte (setFlags s false (laomByteZero s t (laomMemory s t))) (.wByte n) (laomMemory s t) with
      free := s.free + 1 }
  | .smTag k => writeByte (setFlags s false (t == 0)) (.smTag k) t
  | .wTag => writeByte (setFlags s false (t == 0)) .wTag t

/-- LAOM (R303). -/
def execLaom (a : BitVec 3) (b c : Byte) (s : State) : Result :=
  withByte (bAddress s b) fun bl =>
    .next (finish (dstA a bl).ordersFetch
      (laomStore (noteIndirect s b) (dstA a bl) (readByte s bl &&& c)))

end Sys2Proof.Machine
end

