-- ==== Sys2Proof/Machine/Dispatch.lean ====
section
/-! DEFINITION. The dispatcher: one arm per instruction, each a call of its meaning. -/

namespace Sys2Proof.Machine

def exec (i : Instr) (s : State) : Host.Outcome State Fault Refusal :=
  match i with
  | .idle b c => Sys2Proof.Machine.execIdle b c s
  | .bkp a b c => Sys2Proof.Machine.execBkp a b c s
  | .awi a b c => Sys2Proof.Machine.execAwi a b c s
  | .awrr a b c => Sys2Proof.Machine.execAwrr a b c s
  | .mskw b c => Sys2Proof.Machine.execMskw b c s
  | .mskr b c => Sys2Proof.Machine.execMskr b c s
  | .nop00011 a b c => Sys2Proof.Machine.execNop00011 a b c s
  | .shft b c => Sys2Proof.Machine.execShft b c s
  | .heyu b c => Sys2Proof.Machine.execHeyu b c s
  | .arwn b c => Sys2Proof.Machine.execArwn b c s
  | .arin b c => Sys2Proof.Machine.execArin b c s
  | .dbyz b c => Sys2Proof.Machine.execDbyz b c s
  | .dbyn b c => Sys2Proof.Machine.execDbyn b c s
  | .bran b c => Sys2Proof.Machine.execBran b c s
  | .goto a b c => Sys2Proof.Machine.execGoto a b c s
  | .gox a b c => Sys2Proof.Machine.execGox a b c s
  | .goi a b c => Sys2Proof.Machine.execGoi a b c s
  | .move b c => Sys2Proof.Machine.execMove b c s
  | .lmri b c => Sys2Proof.Machine.execLmri b c s
  | .smrd b c => Sys2Proof.Machine.execSmrd b c s
  | .lmrd b c => Sys2Proof.Machine.execLmrd b c s
  | .move01000 b c => Sys2Proof.Machine.execMove01000 b c s
  | .lmwi b c => Sys2Proof.Machine.execLmwi b c s
  | .smwd b c => Sys2Proof.Machine.execSmwd b c s
  | .lmwd b c => Sys2Proof.Machine.execLmwd b c s
  | .move01001 a b c => Sys2Proof.Machine.execMove01001 a b c s
  | .mmr b c => Sys2Proof.Machine.execMmr b c s
  | .mmr01001 b c => Sys2Proof.Machine.execMmr01001 b c s
  | .mmwu b c => Sys2Proof.Machine.execMmwu b c s
  | .mmwr b c => Sys2Proof.Machine.execMmwr b c s
  | .mmwp b c => Sys2Proof.Machine.execMmwp b c s
  | .mwrp b c => Sys2Proof.Machine.execMwrp b c s
  | .had a b c => Sys2Proof.Machine.execHad a b c s
  | .hsb a b c => Sys2Proof.Machine.execHsb a b c s
  | .hadb a b c => Sys2Proof.Machine.execHadb a b c s
  | .hsbb a b c => Sys2Proof.Machine.execHsbb a b c s
  | .tran a b c => Sys2Proof.Machine.execTran a b c s
  | .pary a b c => Sys2Proof.Machine.execPary a b c s
  | .leo01111 a b c => Sys2Proof.Machine.execLeo01111 a b c s
  | .sub a b c => Sys2Proof.Machine.execSub a b c s
  | .lor a b c => Sys2Proof.Machine.execLor a b c s
  | .lorb a b c => Sys2Proof.Machine.execLorb a b c s
  | .lorc a b c => Sys2Proof.Machine.execLorc a b c s
  | .laom a b c => Sys2Proof.Machine.execLaom a b c s
  | .lan a b c => Sys2Proof.Machine.execLan a b c s
  | .lanb a b c => Sys2Proof.Machine.execLanb a b c s
  | .lanc a b c => Sys2Proof.Machine.execLanc a b c s
  | .subb a b c => Sys2Proof.Machine.execSubb a b c s
  | .leo a b c => Sys2Proof.Machine.execLeo a b c s
  | .leob a b c => Sys2Proof.Machine.execLeob a b c s
  | .leoc a b c => Sys2Proof.Machine.execLeoc a b c s
  | .subc a b c => Sys2Proof.Machine.execSubc a b c s
  | .add a b c => Sys2Proof.Machine.execAdd a b c s
  | .addb a b c => Sys2Proof.Machine.execAddb a b c s
  | .addc a b c => Sys2Proof.Machine.execAddc a b c s
  | .undef00000 a b c => Sys2Proof.Machine.execUndef00000 a b c s
  | .undef00011 a b c => Sys2Proof.Machine.execUndef00011 a b c s
  | .undef00100 a b c => Sys2Proof.Machine.execUndef00100 a b c s
  | .undef01010 a b c => Sys2Proof.Machine.execUndef01010 a b c s
  | .undef01011 a b c => Sys2Proof.Machine.execUndef01011 a b c s

end Sys2Proof.Machine
end

