-- ==== Sys2Proof/Machine/Interlock.lean ====
section
/-! DEFINITION. The interlock on W and MA while a main memory access is in progress (70_reset_and_hazards.md R505, D23). -/

namespace Sys2Proof.Machine

/-- A resolved byte address names a part of W or MA. -/
def addressTouches (a : Byte) : Bool :=
  match byteLoc a with
  | .ok l => l.touchesWMA
  | .error _ => false

/-- `HeldByMM` (R505): the instruction addresses W or MA, explicitly or implicitly, or asks for a main memory access. -/
def heldByMM (s : State) (i : Instr) : Bool :=
  match i with
  | .idle _ _ => false
  | .bkp a _ _ => bkpBranches s a
  | .awi _ _ _ => false
  | .awrr _ _ _ => false
  | .mskw _ _ => false
  | .mskr _ _ => false
  | .nop00011 _ _ _ => false
  | .shft _ _ => true
  | .heyu _ _ => false
  | .arwn _ _ => false
  | .arin _ _ => false
  | .dbyz _ _ => false
  | .dbyn _ _ => false
  | .bran _ _ => false
  | .goto _ _ _ => false
  | .gox _ _ _ => false
  | .goi a _ _ => condition s a && addressTouches s.y
  | .move _ _ => true
  | .lmri _ _ => true
  | .smrd _ _ => true
  | .lmrd _ _ => true
  | .move01000 _ _ => true
  | .lmwi _ _ => true
  | .smwd _ _ => true
  | .lmwd _ _ => true
  | .move01001 _ _ _ => true
  | .mmr _ _ => true
  | .mmr01001 _ _ => true
  | .mmwu _ _ => true
  | .mmwr _ _ => true
  | .mmwp _ _ => true
  | .mwrp _ _ => true
  | .had _ _ _ => true
  | .hsb _ _ _ => true
  | .hadb _ _ _ => true
  | .hsbb _ _ _ => true
  | .tran _ b c => addressTouches (bAddress s b) || addressTouches (cAddress s c)
  | .pary _ b c => addressTouches (bAddress s b) || addressTouches (cAddress s c)
  | .leo01111 a b c => aNamesMA a || addressTouches (bAddress s b) || addressTouches (cAddress s c)
  | .sub a b c => aNamesMA a || addressTouches (bAddress s b) || addressTouches (cAddress s c)
  | .lor a b c => aNamesMA a || addressTouches (bAddress s b) || addressTouches (cAddress s c)
  | .lorb a _ c => aNamesMA a || addressTouches (cAddress s c)
  | .lorc a b _ => aNamesMA a || addressTouches (bAddress s b)
  | .laom _ _ _ => true
  | .lan a b c => aNamesMA a || addressTouches (bAddress s b) || addressTouches (cAddress s c)
  | .lanb a _ c => aNamesMA a || addressTouches (cAddress s c)
  | .lanc a b _ => aNamesMA a || addressTouches (bAddress s b)
  | .subb a _ c => aNamesMA a || addressTouches (cAddress s c)
  | .leo a b c => aNamesMA a || addressTouches (bAddress s b) || addressTouches (cAddress s c)
  | .leob a _ c => aNamesMA a || addressTouches (cAddress s c)
  | .leoc a b _ => aNamesMA a || addressTouches (bAddress s b)
  | .subc a b _ => aNamesMA a || addressTouches (bAddress s b)
  | .add a b c => aNamesMA a || addressTouches (bAddress s b) || addressTouches (cAddress s c)
  | .addb a _ c => aNamesMA a || addressTouches (cAddress s c)
  | .addc a b _ => aNamesMA a || addressTouches (bAddress s b)
  | .undef00000 _ _ _ => false
  | .undef00011 _ _ _ => false
  | .undef00100 _ _ _ => false
  | .undef01010 _ _ _ => false
  | .undef01011 _ _ _ => false

/-- The instruction itself asks for a main memory access (R505). -/
def requestsAccess (i : Instr) : Bool :=
  match i with
  | .idle _ _ => false
  | .bkp _ _ _ => false
  | .awi _ _ _ => false
  | .awrr _ _ _ => false
  | .mskw _ _ => false
  | .mskr _ _ => false
  | .nop00011 _ _ _ => false
  | .shft _ _ => false
  | .heyu _ _ => false
  | .arwn _ _ => false
  | .arin _ _ => false
  | .dbyz _ _ => false
  | .dbyn _ _ => false
  | .bran _ _ => false
  | .goto _ _ _ => false
  | .gox _ _ _ => false
  | .goi _ _ _ => false
  | .move _ _ => false
  | .lmri _ _ => false
  | .smrd _ _ => false
  | .lmrd _ _ => false
  | .move01000 _ _ => false
  | .lmwi _ _ => false
  | .smwd _ _ => false
  | .lmwd _ _ => false
  | .move01001 _ _ _ => false
  | .mmr _ _ => true
  | .mmr01001 _ _ => true
  | .mmwu _ _ => true
  | .mmwr _ _ => true
  | .mmwp _ _ => true
  | .mwrp _ _ => true
  | .had _ _ _ => false
  | .hsb _ _ _ => false
  | .hadb _ _ _ => false
  | .hsbb _ _ _ => false
  | .tran _ _ _ => false
  | .pary _ _ _ => false
  | .leo01111 _ _ _ => false
  | .sub _ _ _ => false
  | .lor _ _ _ => false
  | .lorb _ _ _ => false
  | .lorc _ _ _ => false
  | .laom _ _ _ => false
  | .lan _ _ _ => false
  | .lanb _ _ _ => false
  | .lanc _ _ _ => false
  | .subb _ _ _ => false
  | .leo _ _ _ => false
  | .leob _ _ _ => false
  | .leoc _ _ _ => false
  | .subc _ _ _ => false
  | .add _ _ _ => false
  | .addb _ _ _ => false
  | .addc _ _ _ => false
  | .undef00000 _ _ _ => false
  | .undef00011 _ _ _ => false
  | .undef00100 _ _ _ => false
  | .undef01010 _ _ _ => false
  | .undef01011 _ _ _ => false

/-- W and MA at free values: what an instruction that defeats the interlock with I22 = 1 finds and leaves there (U9). -/
def scrambleWMA (s : State) : State :=
  { setMA s (Config.freeHalf s.free) with w := Config.freeWord s.free, free := s.free + 1 }

end Sys2Proof.Machine
end

