-- ==== Sys2Proof/Machine/Cycle.lean ====
section
/-! DEFINITION. One step of the machine (40_cycle.md R185): fetch, the instruction in P-L with its holds, bootstrap mode,
orders of the host, and the actions of the other agents (60_exceptions.md R367 to R377, R390; 62_display_panels.md;
70_reset_and_hazards.md). -/

namespace Sys2Proof.Machine

/-- A function applied to the next state, if there is one. -/
def mapNext (f : State → State) : Result → Result
  | .next s => .next (f s)
  | .fault r => .fault r
  | .refused r => .refused r

/-- The attention timer counts only while its condition holds (R365). -/
def settleTimers (s : State) : State :=
  { s with canTimer := if canOn s then s.canTimer else 0, sanTimer := if i23 s then s.sanTimer else 0 }

/-! ### The instruction in P-L -/

/-- Go on once no main memory access is pending; a fault found at its completion is taken in place of what follows (R361,
R505). HOLD P-L ignores that fault (R366). -/
def withAccessDone (s : State) (k : State → Result) : Result :=
  match (completeAccess s).2 with
  | none => k (completeAccess s).1
  | some c => if holdPL s then k (completeAccess s).1 else .next (raiseFault (completeAccess s).1 c)

/-- The instruction in P-L is executed: the adapter write of a preceding AWI has completed (R504), and the interlock R505 has
held the instruction as long as it had to. With I22 = 1 the interlock is defeated and W and MA hold free values (U9). -/
def runInstruction (s : State) : Result :=
  let t := settleAdapterWrite s
  let i := decode (pLeft t)
  if t.pending.isNone || !heldByMM t i then exec i t
  else if i22 t && !requestsAccess i then mapNext scrambleWMA (exec i (scrambleWMA t))
  else withAccessDone t fun u => exec i u

/-- STOP ON FETCH and STOP IMMED stop the DCP when an instruction has entered P-L (R464, D37). -/
def stopsAfterFetch (s : State) : Bool := stopOnFetch s || stopImmediate s

/-- The instruction that has entered P-L runs, unless a switch stops the DCP first. -/
def runEntered (s : State) : Result := if stopsAfterFetch s then .next { s with run := false } else runInstruction s

/-! ### Fetch -/

/-- The fault of a fetched word, by the priority of R186: memory-detected error, parity, tag. -/
def fetchFault (v : Word) (detected : Bool) : Option Cause :=
  if detected then some .fetchDetected
  else if !oddParity v then some .fetchParity
  else if v.extractLsb' 48 3 ≠ 6 then some .tag
  else none

/-- A word has arrived in P (R171): it is checked (R174, R175), and its first instruction runs or the fetch fault is
taken with EX off (R186). -/
def fetched (s : State) (v : Word) (detected : Bool) : Result :=
  let t := { s with p := v, pypc := true }
  match fetchFault v detected with
  | some c => .next (raiseFault { t with pypc := false } c)
  | none => runEntered (startInstruction t v)

/-- Fetch from local memory (R172). -/
def fetchLocal (s : State) : Result :=
  if lmExists s (iaWord s) then fetched s (memRead s.lm (iaWord s).toNat) false
  else .next (raiseFault s .fetchAddress)

/-- The state of a main memory fetch: BA holds the address, I18 is zero after the addition, the memory's report is taken
(R173, R31). -/
def fetchRequested (s : State) : State :=
  { s with ba := fetchAddress s, cf := setBit s.cf 2 false, env := errorTaken s.env }

/-- Fetch from main memory (R173), after a pending data access has completed. -/
def fetchMain (s : State) : Result :=
  withAccessDone s fun t =>
    if mmValid t (fetchAddress t) then
      fetched (fetchRequested t) (instrFromHost t.cfg.mainframe (memRead t.mm (fetchAddress t).toNat)) (nextError t)
    else .next (raiseFault (fetchRequested t) .fetchAddress)

/-- The fetch cycle at IA (R171). -/
def fetch (s : State) : Result := if i15 s then fetchLocal s else fetchMain s

/-! ### Bootstrap mode -/

/-- A byte of a bootstrap group put into P-L (R496): OP and A, then B, then C. The sequence count says how many bytes have come, in
plain binary, 0 to 3; the spec gives no coding, and this one is the model's choice (log 51). -/
def accumulate (s : State) (v : Byte) : State :=
  let h := pLeft s
  { s with
    p := putLeft s.p
      (if s.seq = 0 then rows v (row1 h) (row0 h)
       else if s.seq = 1 then rows (row2 h) v (row0 h)
       else rows (row2 h) (row1 h) v)
    seq := s.seq + 1 }

/-- The bytes of the source taken up to the fourth of the group, the data byte (R496). -/
def bootTake (s : State) : List Byte → State × Option Byte
  | [] => ({ s with env := { s.env with bootIn := [] } }, none)
  | v :: l => if s.seq = 3 then ({ s with seq := 0, env := { s.env with bootIn := l } }, some v) else bootTake (accumulate s v) l

/-- The accumulated instruction starts: IA counted, EX and I20 set (R496, D38). -/
def startAccumulated (s : State) : State :=
  { s with ia1 := iaHigh (ia s + 1), ia0 := iaLow (ia s + 1), ex := true, cf := setBit s.cf 4 true }

/-- The data byte is delivered and the instruction runs (R496, R499, D18). A `BOOT_DATA_DEST` that is itself an indirect
designation is refused: R10 and D18 do not say whether or through which register it is resolved (log 64). A byte for W or MA waits
for a pending main memory access, also with I22 = 1, and on a fault of that access the byte and its group are dropped: the model's
choice, since R264, R499 and R505 speak of instructions only (log 48). That STOP ON FETCH and STOP IMMED stop the DCP with the
instruction in P-L and EX on, as after a fetch, is its choice too (R464, R496; log 30). -/
def bootExecute (s : State) (v : Byte) : Result :=
  withByte s.cfg.bootDataDest fun l =>
    if l.touchesWMA then withAccessDone s fun t => runEntered (startAccumulated (writeByte t l v))
    else runEntered (startAccumulated (writeByte s l v))

/-- Bootstrap mode in place of a fetch (R496). With too few bytes the DCP waits for the source. -/
def bootstrap (s : State) : Result :=
  match bootTake s s.env.bootIn with
  | (t, none) => .next t
  | (t, some v) => bootExecute t v

/-! ### The step of the DCP -/

/-- A stored order of a B 5700 is performed (R374 to R377). Halt waits for an instruction boundary, which an instruction held
by a cluster has not reached. The model halts before a due fetch, and after the R instruction has entered P-L: its choice, since R377
speaks of the beginning of the next instruction and of the next instruction loaded (log 33). On Line, and RUN for Set Attention
Needed, are tested where the order is stored and not again here: the model's choice, since R374, R376 and R463 do not say (log
33). -/
def storedOrder (s : State) : Option State :=
  match s.stored with
  | none => none
  | some .initialise => some (initialise { s with stored := none } 3)
  | some .setAttention => some (setAttention { s with stored := none })
  | some .halt => if s.clusterWait && s.run then none else some (haltAtBoundary { s with stored := none })

/-- A fault that waits in P-L is executed when the DCP runs again (R356, R366, R373); STOP IMMED stops the DCP after it as after
each instruction (D37; log 30). The branch address is that of the B:C in P-L and the OP is not looked at, so that an operator who has
changed P-L meanwhile (R469) gets a fault entry to another address: the model's choice (log 32). -/
def resumeFault (s : State) : State :=
  let t := executeFault (completeAccess (if s.haltFault then placeHaltFault s else s)).1
  { t with run := t.run && !stopImmediate t }

/-- The DCP's own step (R185). A fault instruction that waits in P-L with FLT on when HOLD P-L is switched on is not taken as a fault:
it is executed again and again as the BKP it is, or nothing happens with EX off; the spec does not say (R462, log 29). In bootstrap
mode an instruction that names IA as its destination orders no fetch; the next group takes its place (R498, log 48). -/
def dcpStep (s : State) : Result :=
  match storedOrder s with
  | some t => .next t
  | none =>
    if !s.run then .fault .stopped
    else if s.flt && !holdPL s then .next (resumeFault s)
    else if s.ex then runInstruction s
    else if holdPL s then .next s
    else if s.bstm then bootstrap s
    else fetch s

/-! ### The other agents -/

/-- The Reset event (R55, R490): every flip-flop and register zero, SM, LM and main memory kept, CLR to every cluster. A
main memory access cut off by it has reached memory or not, as the event says. -/
def resetEvent (s : State) (reached : Bool) : State :=
  { State.reset with
    cfg := s.cfg
    sm := s.sm
    lm := s.lm
    mm :=
      match s.pending with
      | some acc => if reached then (accessEffect s acc).mm else s.mm
      | none => s.mm
    clusters := s.clusters.map clearCluster
    env := s.env
    free := s.free }

/-- The reply on the scan bus recorded (R368). -/
def reply (s : State) (r : ScanReply) : State := { s with env := { s.env with scanReply := r } }

/-- No signal at all: the DCP does not return ready (R369). -/
def replyNotReady : ScanReply := { ready := false, accessObtained := false, transmissionError := false, word := none }

/-- Ready, and scan access obtained for an order that is performed (R368). -/
def replyPerformed : ScanReply := { ready := true, accessObtained := true, transmissionError := false, word := none }

/-- Ready, scan access obtained and scan transmission error for an invalid order (R368, R370). -/
def replyInvalid : ScanReply := { ready := true, accessObtained := true, transmissionError := true, word := none }

/-- The answer to a scan-in order: scan transmission error and an all-zeros information word with a parity error (R370). -/
def replyScanIn : ScanReply :=
  { ready := true, accessObtained := true, transmissionError := true, word := some { bits := 0, parityOk := false } }

/-- The DCP does not return ready to a scan-out (R369). -/
def notReady (s : State) (code : BitVec 3) : Bool :=
  !s.env.panel.onLine || holdPL s || stopImmediate s || (code == 4 && !s.run)

/-- A scan-out order of a B 6700 (R369 to R373). -/
def scanOut (s : State) (code : BitVec 3) (word : BitVec 48) (parityOk : Bool) : State :=
  match s.cfg.mainframe with
  | .b5700 => s
  | .b6700 =>
    if notReady s code then reply s replyNotReady
    else if !parityOk then reply s replyInvalid
    else
      match code.toNat with
      | 0 => reply (initialise s (word.extractLsb' 0 20)) replyPerformed
      | 4 => reply (setAttention s) replyPerformed
      | 2 => reply (haltNow s) replyPerformed
      | _ => reply s replyInvalid

/-- A scan-in order (R370). -/
def scanIn (s : State) : State :=
  match s.cfg.mainframe with
  | .b5700 => s
  | .b6700 => if notReady s 0 then reply s replyNotReady else reply s replyScanIn

/-- A dialled order of a B 5700 is stored if the DCP is on line and holds none (R374); Set Attention Needed needs RUN
(D31). -/
def dial (s : State) (o : Order) : State :=
  match s.cfg.mainframe with
  | .b6700 => s
  | .b5700 =>
    if s.env.panel.onLine && s.stored.isNone && (s.run || decide (o ≠ .setAttention)) then { s with stored := some o }
    else s

/-- The pending main memory access completes at a time the environment chooses (R264, R361). -/
def mmCompletes (s : State) : State :=
  match completeAccess s with
  | (t, none) => t
  | (t, some c) => raiseFault t c

/-- 500 microseconds in units of 200 ns (R365). -/
def timeOutUnits : Nat := 2500

/-- Time passes for the attention timer (R365). After the fault the timer starts again from zero. That both its sides do so too where
HOLD P-L ignores the time-out, of which R366 says only that the condition is lost, is the model's choice (log 35). -/
def elapse (s : State) (n : Nat) : State :=
  if !s.run then s
  else
    let can := canOn s
    let san := i23 s
    if (can && timeOutUnits ≤ s.canTimer + n) || (san && timeOutUnits ≤ s.sanTimer + n) then
      raiseFault { s with canTimer := 0, sanTimer := 0 } .timeOut
    else { s with canTimer := if can then s.canTimer + n else 0, sanTimer := if san then s.sanTimer + n else 0 }

/-- A bit of the data display set or reset (R469, R470). -/
def dataBit (s : State) (k : Fin 24) (v : Bool) : State :=
  let n := s.env.panel.displayAddress
  match s.env.panel.displayType with
  | .pRight => s
  | .reg => setColumn s n (putBitAt (column s n) k.val v)
  | .smLeft => setSM s n (putLeft (smWord s n) (putBitAt (wordLeft (smWord s n)) k.val v))
  | .smRight => setSM s n (putRight (smWord s n) (putBitAt (wordRight (smWord s n)) k.val v))

/-- A bit of the tag display set or reset: an R half-word is selected, of SM or of W (R469, R470). -/
def tagBit (s : State) (k : Fin 4) (v : Bool) : State :=
  let n := s.env.panel.displayAddress
  match s.env.panel.displayType with
  | .smRight => setSM s n (putTag (smWord s n) (putBitAt (wordTag (smWord s n)) k.val v))
  | .reg => if n = 6 then { s with w := putTag s.w (putBitAt (wordTag s.w) k.val v) } else s
  | .pRight | .smLeft => s

/-- An action at the DCP display panel (R461 to R469). Bits are changed in display mode only (R460). Whether a main memory write
cut off by CLEAR has reached memory is an input (R490; log 1). The instruction pushbuttons set P-L whatever DISPLAY TYPE shows, and
the operator can reset BSTM as well as set it: the model's choice, since R469 and R48 do not say (log 49). -/
def panelStep (s : State) : PanelAct → State
  | .switches p => { s with env := { s.env with panel := p } }
  | .pulse => { s with run := true, clusterWait := s.clusterWait && s.run }
  | .clear reached => resetEvent s reached
  | .bitPL k v => if s.run then s else { s with p := putLeft s.p (putBitAt (pLeft s) k.val v) }
  | .bitData k v => if s.run then s else dataBit s k v
  | .bitTag k v => if s.run then s else tagBit s k v
  | .bitCM k v => if s.run then s else { s with cm := putBitAt s.cm k.val v }
  | .execute v => if s.run then s else { s with ex := v }
  | .bootstrap v => if s.run then s else { s with bstm := v, seq := 0 }

/-- The instruction display, 24 bits (R469, R470). -/
def instructionDisplay (s : State) : Half :=
  if s.run then wordRight s.p
  else
    match s.env.panel.displayType with
    | .pRight => wordRight s.p
    | .reg | .smLeft | .smRight => wordLeft s.p

/-- The data display, 24 bits (R469, R470): in operating mode the D bus, whatever the Display Select switches say (R460; what
the bus holds is free, log 63). -/
def dataDisplay (s : State) : Half :=
  if s.run then Config.dBus s.free
  else
    match s.env.panel.displayType with
    | .pRight => 0
    | .reg => column s s.env.panel.displayAddress
    | .smLeft => wordLeft (smWord s s.env.panel.displayAddress)
    | .smRight => wordRight (smWord s s.env.panel.displayAddress)

/-- The tag display, 4 bits (R469, R470); in operating mode the spec names no source for it (R460; log 63). In display mode R470 says
what is connected for P-R and for an R half-word only; that the display is dark, zeros, where neither is selected (SM-L, and REG at
any other position than 6) is the model's choice (log 63). -/
def tagDisplay (s : State) : BitVec 4 :=
  if s.run then Config.tagLights s.free
  else
    match s.env.panel.displayType with
    | .pRight => wordTag s.p
    | .reg => if s.env.panel.displayAddress = 6 then wordTag s.w else 0
    | .smLeft => 0
    | .smRight => wordTag (smWord s s.env.panel.displayAddress)

/-- MCYN: a main memory access is needed and not yet granted (R48). -/
def mcyn (s : State) : Bool :=
  match s.pending with
  | some acc => !acc.granted
  | none => false

/-- MACC: a main memory access is active (R48). -/
def macc (s : State) : Bool :=
  match s.pending with
  | some acc => acc.granted
  | none => false

/-- The control display (R48, R471): EX, RUN, FLT, BSTM, CAN, MCYN, MACC, PYPC, PYWC, SCM, SC.D, SC.C, SC.B, SC.A. The spec does not say
how the BSTM sequence count is coded on the last four; the model shows a plain binary count 0 to 3 with SC.D its highest bit, so that
SC.D, the D bit of that count by R48, is never on: the model's choice (log 51). -/
def controlDisplay (s : State) : List Bool :=
  [s.ex, s.run, s.flt, s.bstm, canOn s, mcyn s, macc s, s.pypc, s.pywc, s.scm,
    s.seq.getLsbD 3, s.seq.getLsbD 2, s.seq.getLsbD 1, s.seq.getLsbD 0]

/-- One action of an agent other than the DCP (R390). Bootstrap bytes that arrive while an instruction is held wait at the source
(R496 does not say; log 48). The second DCP may raise CLR at any time (R401; log 45). -/
def agentStep (s : State) : Input → State
  | .dcp => s
  | .masterClear reached => resetEvent s reached
  | .scanOut code word parityOk => scanOut s code word parityOk
  | .scanIn => scanIn s
  | .dial o => dial s o
  | .mmGrant => { s with pending := s.pending.map fun acc => { acc with granted := true } }
  | .mmComplete => mmCompletes s
  | .hostWrite a v => { s with mm := hostStore s.cfg.mainframe s.mm (hostAddress s.cfg.mainframe a) v }
  | .hostClearAttention => { s with env := { s.env with hostAttention := false } }
  | .elapse n => elapse s n
  | .bootByte v => { s with env := { s.env with bootIn := s.env.bootIn ++ [v] } }
  | .panel act => panelStep s act
  | .clusterScan k => scanOne s k
  | .line k a e => lineStep s k a e
  | .otherWrite k ad cc dc awrr => otherWriteStep s k ad cc dc awrr
  | .otherRead k => otherReadStep s k
  | .otherClear k => otherClearStep s k
  | .clusterPanel act => clusterPanelStep s act

/-- The state with its first input taken off the list. -/
def inputTaken (s : State) (rest : List Input) : State := { s with env := { s.env with inputs := rest } }

/-- One step of the machine: the agent at the head of the inputs acts, the DCP itself when there is none (R390). -/
def cycle (s : State) : Result :=
  mapNext settleTimers
    (match s.env.inputs with
     | [] => dcpStep s
     | .dcp :: rest => dcpStep (inputTaken s rest)
     | i :: rest => .next (agentStep (inputTaken s rest) i))

/-! ### An instruction placed where the next step fetches it -/

/-- An instruction word with tag 110 and odd parity that holds the instruction in the half that is fetched. -/
def fetchWordFor (right : Bool) (h : Half) : Word :=
  if right then withParity (makeWord 6 0 h) else withParity (makeWord 6 h 0)

/-- The DCP about to fetch: running, no fault, no bootstrap, nothing held or pending, no other agent acting first, no switch
that stops it. -/
def readyToFetch (s : State) : State :=
  { s with
    run := true
    ex := false
    flt := false
    haltFault := false
    bstm := false
    clusterWait := false
    pending := none
    adapterWrite := none
    stored := none
    env := { s.env with inputs := [], mmErrors := [], panel := { s.env.panel with hold := .off, stop := .off } } }

/-- The instruction stored at the address the next fetch uses; an address in a memory that is not fitted becomes the same
address relative to IBA in main memory. -/
def placeFetchWord (s : State) (h : Half) : State :=
  let t := readyToFetch s
  if i15 t && lmExists t (iaWord t) then { t with lm := memWrite t.lm (iaWord t).toNat (fetchWordFor (i00 t) h) }
  else
    { t with
      ia1 := setBit t.ia1 7 false
      cfg := if mmValid t (fetchAddress t) then t.cfg else { t.cfg with mmHoles := [] }
      mm := hostStore t.cfg.mainframe t.mm (fetchAddress t) (fetchWordFor (i00 t) h) }

end Sys2Proof.Machine
end

