-- ==== Sys2Proof/Machine/Step.lean ====
section
/-! DEFINITION. The step of the machine, and how an instruction is placed where the next step fetches it. -/

namespace Sys2Proof.Machine

/-- One step (R185, R390). -/
def step (s : State) : Host.Outcome State Fault Refusal := cycle s

/-- The state with an instruction word stored where the next step fetches it and the DCP running, so that the next step
fetches and runs exactly that instruction. -/
def State.withFetchWord (s : State) (nbits w : Nat) : State := placeFetchWord s (BitVec.ofNat 24 (w % 2 ^ nbits))

end Sys2Proof.Machine
end

