-- ==== Sys2Proof/Safety.lean ====
section
/-! DEFINITION. The terms in which claims are made: the invariant of the machine, the places an operand address can name and
what they hold, the frame of an instruction, and how the program goes on after it. Everything here is said by bit numbers and
by the tables of the spec, not by the operations of the machine. -/

namespace Sys2Proof.Machine

/-! ### The invariant -/

/-- The words main memory has: 2^20, on a B 5700 2^15 (20_memory.md R83). -/
def mmWords (m : Mainframe) : Nat :=
  match m with
  | .b6700 => mmCapacity
  | .b5700 => 32768

/-- No cell of a memory is a tag field (the 48-bit words of a B 5700, R88). -/
def noTags (m : Memory) : Bool := m.all fun c => c.1 % 8 != 6

/-- Both memories are in canonical form and hold only words that exist; a B 5700 word has no tag field; BA names a word of
main memory (R82, R83, R88). -/
def State.memoryOk (s : State) : Bool :=
  Memory.wf (4096 * s.cfg.lmModules.val) s.lm && Memory.wf (mmWords s.cfg.mainframe) s.mm &&
    (decide (s.cfg.mainframe = .b6700) || noTags s.mm) && decide (s.ba.toNat < mmWords s.cfg.mainframe)

/-- The control flip-flops between two steps: no check or cycle is half done; the sequence count is below four and is zero
outside bootstrap mode; a Halt that waits has FLT on; neither side of the attention timer has run out or runs without its
condition (R48, R365, R373, R496). -/
def State.controlOk (s : State) : Bool :=
  !s.pypc && !s.pywc && !s.scm && decide (s.seq.toNat < 4) && (s.bstm || decide (s.seq = 0)) && (!s.haltFault || s.flt) &&
    decide (s.canTimer < 2500) && decide (s.sanTimer < 2500) && (canOn s || decide (s.canTimer = 0)) &&
    (s.cf.getLsbD 7 || decide (s.sanTimer = 0))

/-- The invariant of the machine; the parameters keep what R9 asks of them. -/
def State.Inv (s : State) : Prop := s.memoryOk = true ∧ s.controlOk = true ∧ s.cfg.wf = true

/-! ### Places -/

/-- A byte or a tag field that an operand address can name: the register matrix (10_state.md R20, R21 to R41), the bytes and
the tag field of W, the bytes and the tag fields of the scratchpad. -/
inductive Place where
  | aa
  | ac
  | ai
  | d
  | y
  | x
  | ma2
  | ma1
  | ma0
  | cf
  | ia1
  | ia0
  | w (n : Fin 6)
  | wTag
  | sm (k : BitVec 3) (n : Fin 6)
  | smTag (k : BitVec 3)
deriving DecidableEq, Repr

/-- What a place holds; byte n of a word is its bits 47-8n to 40-8n (R85), a tag field its bits 51 to 48 (R87). -/
def Place.value (s : State) : Place → Byte
  | .aa => s.aa
  | .ac => s.ac
  | .ai => s.ai
  | .d => s.d
  | .y => s.y
  | .x => s.x
  | .ma2 => s.ma2
  | .ma1 => s.ma1
  | .ma0 => s.ma0
  | .cf => s.cf
  | .ia1 => s.ia1
  | .ia0 => s.ia0
  | .w n => s.w.extractLsb' (40 - 8 * n.val) 8
  | .wTag => (s.w.extractLsb' 48 4).setWidth 8
  | .sm k n => (smWord s k).extractLsb' (40 - 8 * n.val) 8
  | .smTag k => ((smWord s k).extractLsb' 48 4).setWidth 8

/-- The column and the row of a register or of a byte of W in the table of R131. -/
def Place.cell : Place → Option (BitVec 3 × Nat)
  | .aa => some (1, 2)
  | .ac => some (1, 1)
  | .ai => some (1, 0)
  | .d => some (2, 2)
  | .y => some (2, 1)
  | .x => some (2, 0)
  | .ma2 => some (3, 2)
  | .ma1 => some (3, 1)
  | .ma0 => some (3, 0)
  | .cf => some (4, 2)
  | .ia1 => some (4, 1)
  | .ia0 => some (4, 0)
  | .w n => some (if n.val < 3 then 5 else 6, 2 - n.val % 3)
  | .wTag | .sm _ _ | .smTag _ => none

/-- The row of a half-word that belongs to a place: 2, 1 or 0 (R20, R134). -/
def Place.row : Place → Nat
  | .aa | .d | .ma2 | .cf => 2
  | .ac | .y | .ma1 | .ia1 => 1
  | .ai | .x | .ma0 | .ia0 => 0
  | .w n | .sm _ n => 2 - n.val % 3
  | .wTag | .smTag _ => 0

/-- CF and IA, which the end of an instruction changes too. -/
def Place.isControl : Place → Bool
  | .cf | .ia1 | .ia0 => true
  | .aa | .ac | .ai | .d | .y | .x | .ma2 | .ma1 | .ma0 | .w _ | .wTag | .sm _ _ | .smTag _ => false

/-- MA-2, MA-1 and MA-0. -/
def Place.isMA : Place → Bool
  | .ma2 | .ma1 | .ma0 => true
  | .aa | .ac | .ai | .d | .y | .x | .cf | .ia1 | .ia0 | .w _ | .wTag | .sm _ _ | .smTag _ => false

/-- W with its tag field. -/
def Place.isW : Place → Bool
  | .w _ | .wTag => true
  | .aa | .ac | .ai | .d | .y | .x | .ma2 | .ma1 | .ma0 | .cf | .ia1 | .ia0 | .sm _ _ | .smTag _ => false

/-- A tag field. -/
def Place.isTag : Place → Bool
  | .wTag | .smTag _ => true
  | .aa | .ac | .ai | .d | .y | .x | .ma2 | .ma1 | .ma0 | .cf | .ia1 | .ia0 | .w _ | .sm _ _ => false

/-- A location selects the place with this column and row by its row bits (R131). -/
def selects (col sel : BitVec 3) (p : Place) : Bool :=
  match p.cell with
  | some (c, r) => col == c && sel.getLsbD r
  | none => false

/-- The places a byte location names. -/
def ByteLoc.covers (l : ByteLoc) (p : Place) : Bool :=
  match l with
  | .none => false
  | .regs c sel => selects c sel p
  | .smByte k n => decide (∃ m : Fin 6, n.toNat = m.val ∧ p = .sm k m)
  | .smTag k => decide (p = .smTag k)
  | .wByte n => decide (∃ m : Fin 6, n.toNat = m.val ∧ p = .w m)
  | .wTag => decide (p = .wTag)

/-- The places a half-word location names. -/
def HalfLoc.covers (l : HalfLoc) (p : Place) : Bool :=
  match l with
  | .regs c sel => selects c sel p
  | .smHalf k right => decide (∃ m : Fin 6, right = decide (3 ≤ m.val) ∧ p = .sm k m)

/-- The location names IA-1 or IA-0, so that a fetch is ordered (R178). -/
def ByteLoc.namesIA (l : ByteLoc) : Bool := l.covers .ia1 || l.covers .ia0

/-- The location names IA-1 or IA-0 (R178). -/
def HalfLoc.namesIA (l : HalfLoc) : Bool := l.covers .ia1 || l.covers .ia0

/-- A byte as a place keeps it: a tag field keeps four bits of it (R133, D4). -/
def Place.kept (s : State) (p : Place) (v : Byte) : Byte :=
  if p.isTag then (if s.cfg.tagAlignRight then v &&& 0x0F else v >>> 4) else v

/-- Row r of a half-word. -/
def halfRow (h : Half) (r : Nat) : Byte := h.extractLsb' (8 * r) 8

/-- What a place holds after a byte is stored at a location; `old` is what it held. -/
def byteStored (s : State) (l : ByteLoc) (v : Byte) (p : Place) (old : Byte) : Byte := if l.covers p then p.kept s v else old

/-- What a place holds after a half-word is stored at a location. -/
def halfStored (l : HalfLoc) (h : Half) (p : Place) (old : Byte) : Byte := if l.covers p then halfRow h p.row else old

/-- CF with CF0 (bit 0) and CF1 (bit 1) replaced (R28, R29). -/
def flagged (cf : Byte) (carry zero : Bool) : Byte := cf.extractLsb' 2 6 ++ BitVec.ofBool zero ++ BitVec.ofBool carry

/-- CF with bits 0, 1 replaced and I18 (bit 2) zero (R31). -/
def halfFlagged (cf : Byte) (carry zero : Bool) : Byte :=
  cf.extractLsb' 3 5 ++ 0#1 ++ BitVec.ofBool zero ++ BitVec.ofBool carry

/-- CF with I21 (bit 5) replaced (R34). -/
def withI21 (cf : Byte) (v : Bool) : Byte := cf.extractLsb' 6 2 ++ BitVec.ofBool v ++ cf.extractLsb' 0 5

/-- CF with I23 (bit 7) replaced (R36). -/
def withI23 (cf : Byte) (v : Bool) : Byte := BitVec.ofBool v ++ cf.extractLsb' 0 7

/-! ### Frames -/

/-- No place. -/
def nowhere (_ : Place) : Bool := false

/-- The places of a list. -/
def among (l : List Place) (p : Place) : Bool := l.contains p

/-- Every byte of local and of main memory reads as before. -/
structure MemoryKept (s t : State) : Prop where
  lm : ∀ a, cellRead t.lm a = cellRead s.lm a
  mm : ∀ a, cellRead t.mm a = cellRead s.mm a

/-- Everything but the places, P, EX, RUN and the hold by a cluster is as before. -/
structure RestKept (s t : State) : Prop where
  cfg : t.cfg = s.cfg
  cm : t.cm = s.cm
  ba : t.ba = s.ba
  flt : t.flt = s.flt
  bstm : t.bstm = s.bstm
  seq : t.seq = s.seq
  pypc : t.pypc = s.pypc
  pywc : t.pywc = s.pywc
  scm : t.scm = s.scm
  pending : t.pending = s.pending
  adapterWrite : t.adapterWrite = s.adapterWrite
  scanCounter : t.scanCounter = s.scanCounter
  canTimer : t.canTimer = s.canTimer
  sanTimer : t.sanTimer = s.sanTimer
  stored : t.stored = s.stored
  haltFault : t.haltFault = s.haltFault
  clusters : t.clusters = s.clusters
  env : t.env = s.env
  memory : MemoryKept s t

/-- Every place but CF, IA and those of the list holds what it held. -/
def PlacesKept (s t : State) (but : Place → Bool) : Prop :=
  ∀ p : Place, p.isControl = false → but p = false → p.value t = p.value s

/-- CF is the given byte, but for I20 (bit 4), which the end of the instruction sets or clears. -/
def CfIs (t : State) (v : Byte) : Prop := ∀ k : Nat, k ≠ 4 → t.cf.getLsbD k = v.getLsbD k

/-- The R instruction follows at once (40_cycle.md R180): no fetch is ordered, IA names an R half, and neither HOLD P-L nor
bootstrap mode keeps it back. -/
def follows (s : State) (fetch : Bool) : Bool :=
  !fetch && (ia s).getLsbD 0 && !s.bstm && decide (s.env.panel.hold ≠ .holdPL)

/-- How the program goes on after an instruction that completed without a branch (R177 to R180, R462, R464): the R instruction
enters P-L with IA counted up by one, or EX and I20 go off and IA is as the instruction left it. `target` is what the
instruction itself left in IA. -/
structure GoesOn (s t : State) (fetch : Bool) (target : InstrAddr) : Prop where
  ia : ia t = if follows s fetch then target + 1 else target
  ex : t.ex = (decide (s.env.panel.hold = .holdPL) || follows s fetch)
  i20 : s.env.panel.hold ≠ .holdPL → t.cf.getLsbD 4 = follows s fetch
  left : follows s fetch = true → wordLeft t.p = wordRight s.p
  right : wordRight t.p = wordRight s.p
  tag : wordTag t.p = wordTag s.p
  run : t.run = (s.run && decide (s.env.panel.stop ≠ .immediate) &&
    !(follows s fetch && decide (s.env.panel.stop = .onFetch)))

/-- The instruction changed nothing that a program can name but `but`, left `cf` in CF, and went on in sequence. -/
structure PassedOver (s t : State) (but : Place → Bool) (cf : Byte) : Prop where
  places : PlacesKept s t but
  cf : CfIs t cf
  next : GoesOn s t false (ia s)

/-- A taken branch (R178, R498): IA holds the target, CF0 and CF1 are cleared and CF is otherwise `cf`, a fetch is due,
bootstrap mode has ended. Only the places of `but` changed besides. -/
structure Branched (s t : State) (but : Place → Bool) (cf : Byte) (target : InstrAddr) : Prop where
  places : PlacesKept s t but
  cf : CfIs t (flagged cf false false)
  ia : ia t = target
  ex : t.ex = decide (s.env.panel.hold = .holdPL)
  i20 : s.env.panel.hold ≠ .holdPL → t.cf.getLsbD 4 = false
  bstm : t.bstm = false
  seq : t.seq = 0
  p : t.p = s.p
  run : t.run = (s.run && decide (s.env.panel.stop ≠ .immediate))

/-- The instruction stored one byte at a location, left `cf` in CF unless CF was the location, and went on. -/
structure StoredByte (s t : State) (l : ByteLoc) (v cf : Byte) : Prop where
  places : ∀ p : Place, p.isControl = false → p.value t = byteStored s l v p (p.value s)
  cf : CfIs t (byteStored s l v .cf cf)
  next : GoesOn s t l.namesIA (byteStored s l v .ia1 s.ia1 ++ byteStored s l v .ia0 s.ia0)
  rest : RestKept s t

/-- The instruction stored a half-word at a location, left `cf` in CF unless CF was a part of it, and went on. -/
structure StoredHalf (s t : State) (l : HalfLoc) (h : Half) (cf : Byte) : Prop where
  places : ∀ p : Place, p.isControl = false → p.value t = halfStored l h p (p.value s)
  cf : CfIs t (halfStored l h .cf cf)
  next : GoesOn s t l.namesIA (halfStored l h .ia1 s.ia1 ++ halfStored l h .ia0 s.ia0)
  rest : RestKept s t

/-- The half-word move itself (R240): MA received the source half-word, the destination the old MA. An MA row named as the
destination has two writers and nothing is said of it (U10), nor of the places of `but`, which the instruction treats
further. -/
structure HalfMoved (s t : State) (src dst : HalfLoc) (but : Place → Bool) : Prop where
  stored : ∀ p : Place, dst.covers p = true → p.isControl = false → p.isMA = false → but p = false →
    p.value t = halfRow (ma s) p.row
  loaded : ∀ p : Place, p.isMA = true → dst.covers p = false → p.value t = halfRow (readHalf s src) p.row
  kept : ∀ p : Place, dst.covers p = false → p.isControl = false → p.isMA = false → but p = false → p.value t = p.value s
  cf : CfIs t (halfStored dst (ma s) .cf s.cf)

/-- IA as the half-word move leaves it, before the instruction ends. -/
def movedIA (s : State) (dst : HalfLoc) : InstrAddr := halfStored dst (ma s) .ia1 s.ia1 ++ halfStored dst (ma s) .ia0 s.ia0

/-- The half-word move (R240), after which the instruction went on. -/
structure Moved (s t : State) (src dst : HalfLoc) (but : Place → Bool) : Prop where
  moved : HalfMoved s t src dst but
  next : GoesOn s t dst.namesIA (movedIA s dst)

/-- Y copied into the B field of P-L, bits 39 to 32 of P, where the B address is indirect (R183). -/
def yCopied (s : State) (b : Byte) : State :=
  if b.extractLsb' 6 2 = 1 then { s with p := s.p.extractLsb' 40 12 ++ s.y ++ s.p.extractLsb' 0 32 } else s

/-! ### Faults -/

/-- CF as a fault condition finds it: I20 (bit 4) shows the state of EX (R354). -/
def cfAtFault (s : State) : Byte := if s.ex then s.cf else s.cf &&& 0xEF

/-- What the fault instruction does (R355): MA in the R half of scratchpad word k, the I column in MA, IA at the branch address,
I19 set, CF0, CF1, I20, EX, FLT and BSTM off. `old` is CF as it is saved. -/
structure FaultTaken (s t : State) (k : BitVec 3) (old : Byte) (target : InstrAddr) : Prop where
  saved : wordRight (smWord t k) = s.ma2 ++ s.ma1 ++ s.ma0
  ma2 : t.ma2 = old
  ma1 : t.ma1 = s.ia1
  ma0 : t.ma0 = s.ia0
  ia : ia t = target
  cf : t.cf = old.extractLsb' 5 3 ++ 0#1 ++ 1#1 ++ old.extractLsb' 2 1 ++ 0#2
  ex : t.ex = false
  flt : t.flt = false
  bstm : t.bstm = false
  seq : t.seq = 0

/-- The fault instruction stands in P-L and has not been executed (R353, R356, R366): FLT on, RUN off, nothing saved. -/
structure FaultWaits (s t : State) (target : InstrAddr) : Prop where
  run : t.run = false
  flt : t.flt = true
  cf : t.cf = cfAtFault s
  ia : ia t = ia s
  places : PlacesKept s t nowhere
  op : (wordLeft t.p).extractLsb' 19 5 = 1
  address : (wordLeft t.p).extractLsb' 0 16 = target

/-- The branch address of a fault (R353, R356): I15 and the code of the cause, out of control when I19 is one. -/
def faultTarget (s : State) (c : Cause) : InstrAddr :=
  if s.cf.getLsbD 3 then 0x0010 else BitVec.ofBool ((ia s).getLsbD 15) ++ 0#10 ++ c.code ((ia s).getLsbD 15)

/-- What Initialize leaves (R371, R375): the fault entry with the branch address zero, RUN on, and the base address in bits 20
to 1 of SM(0)-L with the other bits zero (D30, log 34). -/
structure Initialised (s t : State) (iba : SysAddr) : Prop where
  run : t.run = true
  entry : FaultTaken s t 0 (cfAtFault s) 0
  base : wordLeft (smWord t 0) = 0#3 ++ iba ++ 0#1
  places : PlacesKept s t fun p => p.isMA || among [.sm 0 0, .sm 0 1, .sm 0 2, .sm 0 3, .sm 0 4, .sm 0 5] p
  cm : t.cm = s.cm
  memory : MemoryKept s t
  clusters : t.clusters = s.clusters
  adapterWrite : t.adapterWrite = s.adapterWrite

/-! ### Conditions on the environment -/

/-- A breakpoint code switch agrees with a bit of the A field: it is OFF or shows the bit (R206). -/
def switchAgrees (w : CodeSwitch) (b : Bool) : Prop := w = .off ∨ (w = .zero ∧ b = false) ∨ (w = .one ∧ b = true)

/-- The three code switches agree with the A field of a BKP (R206). -/
def codeAgrees (s : State) (a : BitVec 3) : Prop :=
  switchAgrees s.env.panel.code2 (a.getLsbD 2) ∧ switchAgrees s.env.panel.code1 (a.getLsbD 1) ∧
    switchAgrees s.env.panel.code0 (a.getLsbD 0)

/-- A resolved byte address names a part of MA or of W, its tag field among them (R505). -/
def namesWMA (a : Byte) : Prop := ∃ (l : ByteLoc) (p : Place), byteLoc a = .ok l ∧ l.covers p = true ∧ (p.isMA = true ∨ p.isW = true)

/-- The instruction asks for a main memory access (R505, first line). -/
def asksForAccess (i : Instr) : Prop :=
  ∃ b c, i ∈ [Instr.mmr b c, .mmr01001 b c, .mmwu b c, .mmwr b c, .mmwp b c, .mwrp b c]

/-- The instruction in P-L waits for a pending main memory access (R181, R505): one that asks for an access itself; one that moves
half-words or a full word to or from W; the half-word arithmetic, SHFT and LAOM; a BKP that branches; a byte instruction whose
address, after indirection, names W or MA, or whose A field is a register of MA in group 4. That MA counts where it is used
implicitly is the spec's decision D23; that GOI waits for the byte that Y addresses is the model's reading (log 59). -/
def waitsForAccess (s : State) (i : Instr) : Prop :=
  ∃ (a : BitVec 3) (a2 : BitVec 2) (a1 : BitVec 1) (b c : Byte),
    asksForAccess i ∨
    i ∈ [Instr.move b c, .move01000 b c, .move01001 a1 b c, .lmri b c, .lmwi b c, .lmrd b c, .lmwd b c, .smrd b c, .smwd b c] ∨
    i ∈ [Instr.had a2 b c, .hsb a2 b c, .hadb a2 b c, .hsbb a2 b c, .shft b c, .laom a b c] ∨
    (i = .bkp a b c ∧ s.env.panel.bkp = .branch ∧ codeAgrees s a) ∨
    (i = .goi a b c ∧ condition s a = true ∧ namesWMA s.y) ∨
    (i ∈ [Instr.tran a b c, .pary a1 b c] ∧ (namesWMA (bAddress s b) ∨ namesWMA (cAddress s c))) ∨
    (i ∈ [Instr.add a b c, .sub a b c, .lan a b c, .lor a b c, .leo a b c, .leo01111 a b c] ∧
      (5 ≤ a.toNat ∨ namesWMA (bAddress s b) ∨ namesWMA (cAddress s c))) ∨
    (i ∈ [Instr.addb a b c, .subb a b c, .lanb a b c, .lorb a b c, .leob a b c] ∧ (5 ≤ a.toNat ∨ namesWMA (cAddress s c))) ∨
    (i ∈ [Instr.addc a b c, .subc a b c, .lanc a b c, .lorc a b c, .leoc a b c] ∧ (5 ≤ a.toNat ∨ namesWMA (bAddress s b)))

/-- Cluster k serves another user: a unit that is not this DCP, and whose exchange is not disconnected, has not finished its
interrogate (R404, R408, R423; log 65). -/
def servesOther (s : State) (k : BitVec 4) : Prop :=
  (clusterOf s k).engaged = true ∧ (clusterOf s k).xp ≠ .none ∧
    (clusterOf s k).xp ≠ (if s.cfg.exchange = .one then .dcp1 else .dcp2) ∧
    ((clusterOf s k).xp = .dcp1 → (clusterOf s k).mr.getLsbD 6 = false) ∧
    ((clusterOf s k).xp = .dcp2 → (clusterOf s k).mr.getLsbD 5 = false)

/-- Cluster k calls for attention and the DCP sees it: its mask bit is on, it can be reached, its CIR is occupied for the DCP,
whichever unit it serves (R42, R403, R408). -/
def calls (s : State) (k : BitVec 4) : Prop :=
  s.cm.getLsbD k.toNat = true ∧ reachable s k = true ∧ (clusterOf s k).cir.cs = .forDcp

/-- Cluster k takes a write of this DCP: it can be reached, its CIR is not occupied for the cluster, it serves no other user
(R402, R408). -/
def takesWrite (s : State) (k : BitVec 4) : Prop :=
  reachable s k = true ∧ (clusterOf s k).cir.cs ≠ .forCluster ∧ ¬ servesOther s k

/-- The environment after one read exchange with a cluster. -/
def exchanged (s : State) : Env := { s.env with exchangeFails := s.env.exchangeFails.tail }

/-- The environment with the signals of the scan bus: whether the DCP was ready and gave scan access obtained, whether it sent
scan transmission error, and the information word (R368 to R370). -/
def answered (s : State) (access error : Bool) (v : Option ScanWord) : Env :=
  { s.env with scanReply := { ready := access, accessObtained := access, transmissionError := error, word := v } }

/-- Nothing a program can name changed: every place, P, EX and RUN are as before. -/
structure Untouched (s t : State) : Prop where
  places : PlacesKept s t nowhere
  cf : t.cf = s.cf
  ia : ia t = ia s
  p : t.p = s.p
  ex : t.ex = s.ex
  run : t.run = s.run

/-- The DCP itself is next to act, runs, and neither a fault nor a stored order comes before its instruction. -/
structure Running (s : State) : Prop where
  inputs : s.env.inputs = []
  stored : s.stored = none
  run : s.run = true
  flt : s.flt = false

/-- A fault taken now is entered in full: the DCP runs, HOLD P-L, STOP ON FAULT and STOP IMMED are off, no access is
pending. -/
structure EntersFaults (s : State) : Prop where
  run : s.run = true
  hold : s.env.panel.hold = .off
  stop : s.env.panel.stop ≠ .immediate
  pending : s.pending = none

/-! ### Byte operations -/

/-- The operations of the byte instructions. -/
inductive ByteOp where
  | add
  | sub
  /-- The subtraction with the second operand as the minuend (R298). -/
  | subFrom
  | and
  | or
  | xor
deriving DecidableEq, Repr

/-- The exact result before it is narrowed to eight bits, CF0 being the carry or borrow in (R292, R296, R298, R300, R305,
R309). -/
def ByteOp.exact (f : ByteOp) (a b : Byte) (c : Bool) : Int :=
  match f with
  | .add => a.toNat + b.toNat + c.toNat
  | .sub => a.toNat - (b.toNat + c.toNat)
  | .subFrom => b.toNat - (a.toNat + c.toNat)
  | .and => (a &&& b).toNat
  | .or => (a ||| b).toNat
  | .xor => (a ^^^ b).toNat

/-- The byte that is stored. -/
def ByteOp.value (f : ByteOp) (a b : Byte) (c : Bool) : Byte := BitVec.ofInt 8 (f.exact a b c)

/-- CF0: the exact result does not fit in eight bits, a carry or a borrow. A logical result always fits. -/
def ByteOp.carry (f : ByteOp) (a b : Byte) (c : Bool) : Bool := decide (f.exact a b c < 0 ∨ 255 < f.exact a b c)

/-- CF1: the byte that is stored is zero. -/
def ByteOp.zero (f : ByteOp) (a b : Byte) (c : Bool) : Bool := decide (f.value a b c = 0)

/-- The OR and AND instructions may read and write one scratchpad byte (R508). -/
def ByteOp.exempt : ByteOp → Bool
  | .and | .or => true
  | .add | .sub | .subFrom | .xor => false

/-! ### Operand forms -/

/-- The instructions of group 2 with two half-word addresses that a B 5700 has too. -/
def halfMoves (a1 : BitVec 1) (b c : Byte) : List Instr :=
  [.move b c, .move01000 b c, .move01001 a1 b c, .lmri b c, .lmwi b c, .smrd b c, .smwd b c, .mmr b c, .mmr01001 b c,
    .mmwu b c]

/-- The instructions with a byte address in B and in C. -/
def byteToByte (a : BitVec 3) (a1 : BitVec 1) (b c : Byte) : List Instr :=
  [.tran a b c, .pary a1 b c, .add a b c, .sub a b c, .lan a b c, .lor a b c, .leo a b c, .leo01111 a b c]

/-- The instructions with a byte address in B and a literal in C. -/
def literalInC (a : BitVec 3) (b c : Byte) : List Instr :=
  [.addc a b c, .subc a b c, .lanc a b c, .lorc a b c, .leoc a b c, .laom a b c]

/-- The instructions with a literal in B and a byte address in C. -/
def literalInB (a : BitVec 3) (b c : Byte) : List Instr :=
  [.addb a b c, .subb a b c, .lanb a b c, .lorb a b c, .leob a b c]

end Sys2Proof.Machine
end

