-- ==== Sys2Proof/Certificates/Slice0/Obligations.lean ====
section
/-! DEFINITION. The statements. Each cites the rules of spec/ it formalises; where a clause is a choice of the model or of the
spec's decision files, its docstring says so and names the log entry. The terms (places, frames, how the program goes on)
are those of Sys2Proof.Safety. -/

section Statements

open Sys2Proof Sys2Proof.Machine

/-! ### Encoding -/

/-- Decoding an encoded well-formed instruction gives it back, with every operand at every value (R121, R145 to R147). -/
def Obligations.DecodeOfEncode : Prop := ∀ i : Instr, i.wellFormed = true → decode (encode i) = i

/-- Every 24-bit word is the encoding of one well-formed instruction, the one it decodes to, so that no bit of an instruction
is dropped; and the three bytes of an instruction, OP and A first, decode to it with the bytes behind it left over (R121,
R145). -/
def Obligations.EncodeOfDecode : Prop :=
  (∀ w : Half, encode (decode w) = w ∧ (decode w).wellFormed = true) ∧
    ∀ (i : Instr) (rest : List Byte), i.wellFormed = true → decodeBytes (encodeBytes i ++ rest) = .ok (i, rest)

/-- Words written from the encodings of the instruction rules (OP, A, B and C of R201, R206, R212, R226, R228, R243, R257, R271,
R283, R292, R302, R307) decode to their instructions. They are not the hexadecimal examples those rules print. -/
def Obligations.DecodedWords : Prop :=
  decode 0x000000#24 = .idle 0 0 ∧ decode 0x0B8040#24 = .bkp 3 0x80 0x40 ∧ decode 0x190000#24 = .mskr 0 0 ∧
    decode 0x240006#24 = .bran 0 6 ∧ decode 0x2F8021#24 = .goto 7 0x80 0x21 ∧ decode 0x411F00#24 = .lmri 0x1F 0 ∧
    decode 0x4C1F00#24 = .mmwu 0x1F 0 ∧ decode 0x609C18#24 = .had 0 0x9C 0x18 ∧ decode 0x790909#24 = .pary 1 0x09 0x09 ∧
    decode 0xEA1211#24 = .add 2 0x12 0x11 ∧ decode 0xBB0A1F#24 = .lanc 3 0x0A 0x1F ∧ decode 0x999A80#24 = .lorc 1 0x9A 0x80

/-! ### Reset and the machine as a whole -/

/-- What reset leaves where the table of R55 gives a value: the registers, P, W, BA, CM and the flip-flops zero, the scan counter
and the attention timer zero, nothing pending or stored, and CS = 11 in every cluster (R406, R490). Nothing is said of SM, LM, MM
and the adapter words, which the spec leaves open (logs 2, 3, 4). -/
def Obligations.ResetValues : Prop :=
  let s := State.reset
  (∀ p : Place, p ∈ [Place.aa, .ac, .ai, .d, .y, .x, .ma2, .ma1, .ma0, .cf, .ia1, .ia0] → p.value s = 0) ∧
    s.p = 0 ∧ s.w = 0 ∧ s.ba = 0 ∧ s.cm = 0 ∧ s.run = false ∧ s.ex = false ∧ s.flt = false ∧ s.bstm = false ∧
    s.pypc = false ∧ s.pywc = false ∧ s.scm = false ∧ s.seq = 0 ∧ canOn s = false ∧ mcyn s = false ∧ macc s = false ∧
    s.pending = none ∧ s.adapterWrite = none ∧ s.scanCounter = 0 ∧ s.canTimer = 0 ∧ s.sanTimer = 0 ∧ s.stored = none ∧
    (∀ k, (clusterOf s k).cir.cs = .masterCleared)

/-- The master clear and the CLEAR button, from any state (R55, R468, R490): every row of the table of R55 again, SM and local
memory kept, CLR to every cluster. A main memory access that is cut off has reached memory, which then holds what its completion leaves there, or not, as
the event says (log 1); without one main memory is kept. -/
def Obligations.MasterClear : Prop :=
  ∀ (s : State) (reached : Bool) (i : Input), s.env.inputs = [] → i ∈ [Input.masterClear reached, .panel (.clear reached)] →
    ∃ t, step { s with env := { s.env with inputs := [i] } } = .next t ∧
      (∀ p : Place, p ∈ [Place.aa, .ac, .ai, .d, .y, .x, .ma2, .ma1, .ma0, .cf, .ia1, .ia0] → p.value t = 0) ∧
      t.p = 0 ∧ t.w = 0 ∧ t.ba = 0 ∧ t.cm = 0 ∧ t.run = false ∧ t.ex = false ∧ t.flt = false ∧ t.bstm = false ∧
      t.pypc = false ∧ t.pywc = false ∧ t.scm = false ∧ t.seq = 0 ∧ canOn t = false ∧ mcyn t = false ∧ macc t = false ∧
      t.pending = none ∧ t.adapterWrite = none ∧ t.scanCounter = 0 ∧ t.canTimer = 0 ∧ t.sanTimer = 0 ∧ t.stored = none ∧
      t.cfg = s.cfg ∧ t.sm = s.sm ∧
      (∀ a, cellRead t.lm a = cellRead s.lm a) ∧ (s.pending = none ∨ reached = false → ∀ a, cellRead t.mm a = cellRead s.mm a) ∧
      (reached = true → ∀ a, cellRead t.mm a = cellRead (completeAccess s).1.mm a) ∧
      ∀ k, (clusterOf t k).cir.cs = .masterCleared ∧ (clusterOf t k).present = (clusterOf s k).present

/-- The invariant holds after reset. -/
def Obligations.InvariantAtReset : Prop := State.reset.Inv

/-- Every step of the machine, whichever agent acts, keeps the invariant: both memories stay in canonical form and inside the
words that exist, a B 5700 word gets no tag field, BA names a word of main memory, no check flip-flop stays set between steps,
the sequence count stays below four and is zero outside bootstrap mode, a waiting Halt has FLT on, the attention timer
stays below 500 microseconds and runs only while its condition holds, and a B 5700 has local memory (R9, R48, R82, R83, R88,
R365, R373, R496). -/
def Obligations.StepKeepsInvariant : Prop := ∀ s t : State, s.Inv → step s = .next t → t.Inv

/-- No step changes the parameters of the installation (92_eei_decisions.md section 1). -/
def Obligations.StepKeepsConfig : Prop := ∀ s t : State, step s = .next t → t.cfg = s.cfg

/-- MSKW is the only instruction that changes the cluster mask register (R42, R211). -/
def Obligations.OnlyMskwWritesMask : Prop :=
  ∀ (i : Instr) (s t : State), (∀ b c, i ≠ .mskw b c) → exec i s = .next t → t.cm = s.cm

/-- LMWI and LMWD are the only instructions that change local memory (R45, R250, R254). -/
def Obligations.OnlyLmWritesStoreLocal : Prop :=
  ∀ (i : Instr) (s t : State), (∀ b c, i ≠ .lmwi b c ∧ i ≠ .lmwd b c) → exec i s = .next t →
    ∀ a, cellRead t.lm a = cellRead s.lm a

/-- No instruction changes main memory by itself: while no access is pending, its execution leaves every byte of main memory
alone, also where it orders a write, which reaches memory when the access completes (R97, R182, R264). -/
def Obligations.ExecKeepsMainMemory : Prop :=
  ∀ (i : Instr) (s t : State), s.pending = none → exec i s = .next t → ∀ a, cellRead t.mm a = cellRead s.mm a

/-! ### The step -/

/-- A step runs the instruction in P-L (R185): with EX on and no access pending, step is exec of what P-L decodes to, at the state
in which the cluster has taken a preceding adapter write (R504); afterwards the sides of the attention timer whose condition is
gone are zero (R365). -/
def Obligations.StepRunsInstructionInP : Prop :=
  ∀ (s : State) (i : Instr), Running s → s.ex = true → s.pending = none → wordLeft s.p = encode i → i.wellFormed = true →
    step s = mapNext settleTimers (exec i (settleAdapterWrite s))

/-- A step fetches from local memory and runs the decoded instruction (R172, R176, R177, R185): the word has odd parity and tag
110, the half that IA selects encodes a well-formed instruction. exec runs at a state that differs from the old one in P, IA,
EX, I20 and the check flip-flop PYPC only. -/
def Obligations.StepFetchesLocal : Prop :=
  ∀ (s : State) (i : Instr), Running s → s.ex = false → s.env.panel.hold = .off → s.env.panel.stop = .off →
    s.bstm = false → s.pending = none → s.adapterWrite = none → (ia s).getLsbD 15 = true →
    lmExists s ((ia s).extractLsb' 1 14) = true →
    oddParity (memRead s.lm ((ia s).extractLsb' 1 14).toNat) = true →
    (memRead s.lm ((ia s).extractLsb' 1 14).toNat).extractLsb' 48 3 = 6 →
    (if (ia s).getLsbD 0 then wordRight (memRead s.lm ((ia s).extractLsb' 1 14).toNat)
      else wordLeft (memRead s.lm ((ia s).extractLsb' 1 14).toNat)) = encode i →
    i.wellFormed = true →
    ∃ u, step s = mapNext settleTimers (exec i u) ∧ wordLeft u.p = encode i ∧
      wordRight u.p = wordRight (memRead s.lm ((ia s).extractLsb' 1 14).toNat) ∧ ia u = ia s + 1 ∧ u.ex = true ∧
      u.run = true ∧ u.cf.getLsbD 4 = true ∧ CfIs u s.cf ∧ PlacesKept s u nowhere ∧ RestKept s { u with pypc := s.pypc } ∧
      u.pypc = false

/-- A step fetches from main memory and runs the decoded instruction (R173, R176, R177, R185). exec runs at a state that differs
from the old one in P, IA, EX, I20, I18 (zero after the addition), BA (the address), PYPC and the memory's report. -/
def Obligations.StepFetchesMain : Prop :=
  ∀ (s : State) (i : Instr) (v : Word), Running s → s.ex = false → s.env.panel.hold = .off → s.env.panel.stop = .off →
    s.bstm = false → s.pending = none → s.adapterWrite = none → (ia s).getLsbD 15 = false →
    mmValid s (fetchAddress s) = true → s.env.mmErrors.headD false = false →
    instrFromHost s.cfg.mainframe (memRead s.mm (fetchAddress s).toNat) = v →
    oddParity v = true → v.extractLsb' 48 3 = 6 →
    (if (ia s).getLsbD 0 then wordRight v else wordLeft v) = encode i → i.wellFormed = true →
    ∃ u, step s = mapNext settleTimers (exec i u) ∧ wordLeft u.p = encode i ∧ wordRight u.p = wordRight v ∧ ia u = ia s + 1 ∧
      u.ex = true ∧ u.run = true ∧ u.cf.getLsbD 4 = true ∧ CfIs u (s.cf &&& 0xFB) ∧ PlacesKept s u nowhere ∧
      u.ba = fetchAddress s ∧ u.pypc = false ∧ u.env = { s.env with mmErrors := s.env.mmErrors.tail } ∧
      RestKept s { u with pypc := s.pypc, ba := s.ba, env := s.env }

/-- The address of a main memory fetch (R173): the base address in bits 20 to 1 of SM(0)-L plus bits 14 to 1 of IA, modulo 2^20;
on a B 5700 the low 15 bits of the sum. And on a B 5700 a fetched word always has tag 110 and odd parity (R88). -/
def Obligations.FetchAddressIsRelative : Prop :=
  ∀ s : State,
    (s.cfg.mainframe = .b6700 → (fetchAddress s).toNat =
      (((wordLeft (smWord s 0)).extractLsb' 1 20).toNat + ((ia s).extractLsb' 1 14).toNat) % 2 ^ 20) ∧
    (s.cfg.mainframe = .b5700 → (fetchAddress s).toNat =
      (((wordLeft (smWord s 0)).extractLsb' 1 20).toNat + ((ia s).extractLsb' 1 14).toNat) % 2 ^ 15) ∧
    ∀ v : Word, (instrFromHost .b5700 v).extractLsb' 48 3 = 6 ∧ oddParity (instrFromHost .b5700 v) = true ∧
      (instrFromHost .b5700 v).extractLsb' 0 48 = v.extractLsb' 0 48

/-- What a fetched word that cannot be executed leads to (R91, R173 to R175, R186, R363): the step raises the fetch fault with IA, EX
and every place as they were, P holding the word, by the priority detected error, parity, tag; an address that does not exist
leads to the address fault with P unchanged. RUN is on where the fault is raised. In a main memory fetch I18 is zero and BA holds
the address. -/
def Obligations.FetchFaults : Prop :=
  ∀ (s : State) (v : Word), Running s → s.ex = false → s.env.panel.hold = .off → s.bstm = false → s.pending = none →
    ((ia s).getLsbD 15 = true →
      (lmExists s ((ia s).extractLsb' 1 14) = false → step s = .next (settleTimers (raiseFault s .fetchAddress))) ∧
      (lmExists s ((ia s).extractLsb' 1 14) = true → v = memRead s.lm ((ia s).extractLsb' 1 14).toNat →
        (oddParity v = false ∨ v.extractLsb' 48 3 ≠ 6) →
        ∃ u c, step s = .next (settleTimers (raiseFault u c)) ∧ u.p = v ∧ ia u = ia s ∧ u.ex = false ∧ u.run = true ∧ u.cf = s.cf ∧
          PlacesKept s u nowhere ∧ RestKept s { u with pypc := s.pypc } ∧
          c = (if oddParity v then .tag else .fetchParity))) ∧
    ((ia s).getLsbD 15 = false →
      (mmValid s (fetchAddress s) = false →
        ∃ u, step s = .next (settleTimers (raiseFault u .fetchAddress)) ∧ u.p = s.p ∧ ia u = ia s ∧ u.ex = false ∧ u.run = true ∧
          u.cf = s.cf &&& 0xFB ∧ u.ba = fetchAddress s ∧ PlacesKept s u nowhere ∧
          RestKept s { u with ba := s.ba, env := s.env }) ∧
      (mmValid s (fetchAddress s) = true →
        v = instrFromHost s.cfg.mainframe (memRead s.mm (fetchAddress s).toNat) →
        (s.env.mmErrors.headD false = true ∨ oddParity v = false ∨ v.extractLsb' 48 3 ≠ 6) →
        ∃ u c, step s = .next (settleTimers (raiseFault u c)) ∧ u.p = v ∧ ia u = ia s ∧ u.ex = false ∧ u.run = true ∧
          u.cf = s.cf &&& 0xFB ∧ u.ba = fetchAddress s ∧ PlacesKept s u nowhere ∧
          RestKept s { u with pypc := s.pypc, ba := s.ba, env := s.env } ∧
          c = (if s.env.mmErrors.headD false then .fetchDetected else if oddParity v then .tag else .fetchParity)))

/-- Bootstrap mode in place of a fetch (R495, R496, R499). When the source has what is missing of the three bytes of a well-formed
instruction, of which earlier steps may have put some into P-L, and a data byte, the data byte is stored at the location
`BOOT_DATA_DEST` names (AI by default, D18), P-L holds the instruction, IA is counted up, EX and I20 are on, the sequence count is
zero, and the instruction runs (IA by the spec's decision D38, log 48). With fewer bytes the step takes those there are: the
sequence count says how many of the group have come and P-L holds them. -/
def Obligations.BootstrapStep : Prop :=
  ∀ s : State, Running s → s.ex = false → s.bstm = true → s.env.panel.hold = .off →
    byteLoc Config.default.bootDataDest = .ok (.regs 1 1) ∧
    (∀ (i : Instr) (v : Byte) (rest : List Byte) (l : ByteLoc), s.env.panel.stop = .off → s.pending = none →
      s.adapterWrite = none → s.seq.toNat ≤ 3 → i.wellFormed = true →
      (∀ n, n < s.seq.toNat → halfRow (wordLeft s.p) (2 - n) = (encodeBytes i).getD n 0) →
      s.env.bootIn = (encodeBytes i).drop s.seq.toNat ++ v :: rest →
      byteLoc s.cfg.bootDataDest = .ok l →
      ∃ u, step s = mapNext settleTimers (exec i u) ∧ wordLeft u.p = encode i ∧ wordRight u.p = wordRight s.p ∧
        wordTag u.p = wordTag s.p ∧ u.ex = true ∧ u.run = true ∧ u.cf.getLsbD 4 = true ∧ CfIs u (byteStored s l v .cf s.cf) ∧
        ia u = (byteStored s l v .ia1 s.ia1 ++ byteStored s l v .ia0 s.ia0) + 1 ∧
        (∀ p : Place, p.isControl = false → p.value u = byteStored s l v p (p.value s)) ∧
        u.seq = 0 ∧ u.env = { s.env with bootIn := rest } ∧ RestKept s { u with seq := s.seq, env := s.env }) ∧
    (s.seq.toNat + s.env.bootIn.length < 4 →
      ∃ t, step s = .next (settleTimers t) ∧ t.seq.toNat = s.seq.toNat + s.env.bootIn.length ∧
        (∀ n, n < 3 → halfRow (wordLeft t.p) (2 - n) =
          if n < s.seq.toNat then halfRow (wordLeft s.p) (2 - n)
          else s.env.bootIn.getD (n - s.seq.toNat) (halfRow (wordLeft s.p) (2 - n))) ∧
        wordRight t.p = wordRight s.p ∧ Untouched s { t with p := s.p } ∧ t.env = { s.env with bootIn := [] } ∧
        RestKept s { t with seq := s.seq, env := s.env })

/-- The interlock (R97, R181, R505) and the completion of an access (R264, R361). While an access is pending, an instruction that
uses W, MA or main memory, as waitsForAccess lists them by instruction and operand location, when I22 is zero or it asks for an
access itself, is executed only after the access has completed; a fault found at the completion is taken in its place, which HOLD
P-L ignores (R366). Every other instruction is executed with the access still pending. The access may also complete by itself,
between two instructions, and its fault is taken then. That MA counts when it is used implicitly is the spec's decision D23, and
that GOI waits for the byte Y addresses is the model's reading (log 59). That an instruction which asks for an access itself waits
with I22 = 1 too, where R505 has the hold off and U9 leaves the result open, is the model's choice (log 18). -/
def Obligations.AccessCompletesFirst : Prop :=
  ∀ (s : State) (acc : Access), s.pending = some acc →
    (∀ i : Instr, Running s → s.ex = true → s.adapterWrite = none → wordLeft s.p = encode i → i.wellFormed = true →
      (¬ waitsForAccess s i → step s = mapNext settleTimers (exec i s)) ∧
      (waitsForAccess s i → (s.cf.getLsbD 6 = false ∨ asksForAccess i) →
        ((completeAccess s).2 = none ∨ s.env.panel.hold = .holdPL →
          step s = mapNext settleTimers (exec i (completeAccess s).1)) ∧
        ∀ c, (completeAccess s).2 = some c → s.env.panel.hold ≠ .holdPL →
          step s = .next (settleTimers (raiseFault (completeAccess s).1 c)))) ∧
    (s.env.inputs = [] → ∀ t, t = { s with env := { s.env with inputs := [.mmComplete] } } →
      ((completeAccess s).2 = none → step t = .next (settleTimers (completeAccess s).1)) ∧
      ∀ c, (completeAccess s).2 = some c → step t = .next (settleTimers (raiseFault (completeAccess s).1 c)))

/-! ### Group 0 -/

/-- IDLE and the undefined operation codes are held: the instruction stays in P-L with EX on and nothing changes (R146, R201). The
codes 00011 01x are among them only where the installation says so (D11, log 11). -/
def Obligations.IdleCodesHold : Prop :=
  ∀ (i : Instr) (a3 : BitVec 3) (a2 : BitVec 2) (a1 : BitVec 1) (b c : Byte) (s : State),
    (i ∈ [Instr.idle b c, .undef00000 a3 b c, .undef00011 a1 b c, .undef00100 a2 b c, .undef01010 a3 b c,
        .undef01011 a3 b c] ∨ (i = .nop00011 a1 b c ∧ s.cfg.undef00011 = .idle)) →
    exec i s = .next s

/-- What passes without an effect: 00011 01x as a no-op (R147, D11), a BKP whose switch is OFF or whose code does not agree
(R206). Only the next instruction starts. -/
def Obligations.NoOperations : Prop :=
  ∀ (i : Instr) (a3 : BitVec 3) (a1 : BitVec 1) (b c : Byte) (s : State),
    ((i = .nop00011 a1 b c ∧ s.cfg.undef00011 = .noop) ∨
      (i = .bkp a3 b c ∧ (s.env.panel.bkp = .off ∨ ¬ codeAgrees s a3))) →
    ∃ t, exec i s = .next t ∧ PassedOver s t nowhere s.cf ∧ RestKept s t

/-- BKP with an agreeing code (R206). At STOP: RUN and EX go off, nothing else changes. At BRANCH: MA goes to SM(0)-R, the I column
to MA, and the branch to B:C is taken, all from the old values. -/
def Obligations.BkpStopsOrBranches : Prop :=
  ∀ (a : BitVec 3) (b c : Byte) (s : State), codeAgrees s a →
    (s.env.panel.bkp = .stop → exec (.bkp a b c) s = .next { s with run := false, ex := false }) ∧
    (s.env.panel.bkp = .branch →
      ∃ t, exec (.bkp a b c) s = .next t ∧
        Branched s t (fun p => p.isMA || among [.sm 0 3, .sm 0 4, .sm 0 5] p) s.cf (b ++ c) ∧
        wordRight (smWord t 0) = s.ma2 ++ s.ma1 ++ s.ma0 ∧ t.ma2 = s.cf ∧ t.ma1 = s.ia1 ∧ t.ma0 = s.ia0 ∧
        RestKept s { t with bstm := s.bstm, seq := s.seq })

/-- AWI accepted by its cluster (R202, R402): AC and AI take the literals that A orders, I21 and AA stay, the CIR of the cluster in
AA holds the adapter number, the code and the nine information bits, and the write goes on after the release (R50). That a cluster takes a write unless another
unit's interrogate is unfinished there is the model's reading of R408 (log 65). -/
def Obligations.AdapterWriteAccepted : Prop :=
  ∀ (a : BitVec 2) (b c ac ai : Byte) (k : BitVec 4) (s : State), k = s.aa.extractLsb' 4 4 →
    ac = (if a.getLsbD 1 then b else s.ac) → ai = (if a.getLsbD 0 then c else s.ai) →
    takesWrite s k →
    ∃ t, exec (.awi a b c) s = .next t ∧ PassedOver s t (among [.ac, .ai]) s.cf ∧ t.ac = ac ∧ t.ai = ai ∧
      (clusterOf t k).cir =
        { cs := .forCluster, ad := s.aa.extractLsb' 0 4, cc := ac.extractLsb' 0 5,
          dc := BitVec.ofBool (s.cf.getLsbD 5) ++ ai } ∧
      (clusterOf t k).adapters = (clusterOf s k).adapters ∧ (∀ j, j ≠ k → clusterOf t j = clusterOf s j) ∧
      t.adapterWrite = some k ∧
      RestKept s { t with clusters := s.clusters, adapterWrite := s.adapterWrite }

/-- AWI and AWRR not accepted (R202 to R204, R402). Without an answer the adapter cluster error is raised; AC and AI are
those before the instruction then, as R360, R364 and D29 have it, or hold the literals where the installation follows the corner
cases of R202 and R203: the rules disagree, and the parameter is the model's (log 36). At the wait signal the instruction stays in P-L with
EX on and no register has changed (R181); that the cluster scans once in the step is the model's (log 36). The cluster gives the
wait signal while its CIR is occupied for it, and to the DES of a second unit until the first has finished (R408), which is read
as: until it has read the answer to its interrogate (log 65). -/
def Obligations.AdapterWriteNotAccepted : Prop :=
  ∀ (i : Instr) (a : BitVec 2) (b c ac ai : Byte) (k : BitVec 4) (s : State), i ∈ [Instr.awi a b c, .awrr a b c] →
    k = s.aa.extractLsb' 4 4 → ac = (if a.getLsbD 1 then b else s.ac) → ai = (if a.getLsbD 0 then c else s.ai) →
    (reachable s k = false → s.cfg.clusterErrorPrecise = false →
      exec i s = .next (raiseFault { s with ac := ac, ai := ai } .clusterError)) ∧
    (reachable s k = false → s.cfg.clusterErrorPrecise = true → exec i s = .next (raiseFault s .clusterError)) ∧
    (reachable s k = true → (clusterOf s k).cir.cs = .forCluster →
      ∃ t, exec i s = .next t ∧ Untouched s t ∧ (∀ j, j ≠ k → clusterOf t j = clusterOf s j) ∧
        RestKept s { t with clusters := s.clusters }) ∧
    (reachable s k = true → servesOther s k →
      ∃ t, exec i s = .next t ∧ Untouched s t ∧ (∀ j, j ≠ k → clusterOf t j = clusterOf s j) ∧
        RestKept s { t with clusters := s.clusters })

/-- AWRR accepted by its cluster (R203, R404, R431). With an interrogate code of Table 5-14 AC receives the returned code, AI and
I21 the nine information bits of the answer, AA stays, the CIR of the cluster is free again and Access Confirm names the adapter
(R405); AC bits 7 to 5 zero are the spec's decision D16 (log 38). With an interrogate code that has no entry the same is read with
the code that was sent and information of which nothing is said (U21, log 19). With a write code, unless the maintenance register
returns it, no responsive read comes: the cluster has taken the code, and the adapter cluster error is
raised (U8, log 37). Where the wait signal goes away before the answer, the adapter cluster error is raised; that the
cluster has not scanned then is the model's (log 67). Both errors find AC and AI as they were before the instruction, as R360, R364
and D29 have it, or cleared where the installation follows R203 (log 36). -/
def Obligations.AdapterInterrogated : Prop :=
  ∀ (a : BitVec 2) (b c ac ai : Byte) (k : BitVec 4) (ad : BitVec 4) (s : State),
    k = s.aa.extractLsb' 4 4 → ad = s.aa.extractLsb' 0 4 → ac = (if a.getLsbD 1 then b else s.ac) →
    ai = (if a.getLsbD 0 then c else s.ai) → takesWrite s k →
    (ac.getLsbD 4 = true → s.env.exchangeFails.headD false = false →
      ∃ (t : State) (code : BitVec 5) (info : BitVec 9), exec (.awrr a b c) s = .next t ∧
        (∀ r, answer (clusterOf s k) (adapterOf (clusterOf s k) ad) (ac.extractLsb' 0 5) = some r → (code, info) = r) ∧
        (answer (clusterOf s k) (adapterOf (clusterOf s k) ad) (ac.extractLsb' 0 5) = none → code = ac.extractLsb' 0 5) ∧
        PassedOver s t (among [.ac, .ai]) (withI21 s.cf (info.getLsbD 8)) ∧ t.ac = code.setWidth 8 ∧
        t.ai = info.extractLsb' 0 8 ∧ (clusterOf t k).cir.cs = .notOccupied ∧
        (clusterOf t k).confirm = { ad := ad, occupied := true, timer := false } ∧
        (∀ j, j ≠ k → clusterOf t j = clusterOf s j) ∧ t.env = exchanged s ∧
        RestKept s { t with clusters := s.clusters, env := s.env }) ∧
    (ac.getLsbD 4 = true → s.env.exchangeFails.headD false = true →
      ∃ u, exec (.awrr a b c) s = .next (raiseFault u .clusterError) ∧ u.ac = (if s.cfg.clusterErrorPrecise then s.ac else 0) ∧
        u.ai = (if s.cfg.clusterErrorPrecise then s.ai else 0) ∧
        Untouched s { u with ac := s.ac, ai := s.ai } ∧ (∀ j, j ≠ k → clusterOf u j = clusterOf s j) ∧ u.env = exchanged s ∧
        RestKept s { u with clusters := s.clusters, env := s.env }) ∧
    (ac.getLsbD 4 = false → ((clusterOf s k).mr.getLsbD 3 && (clusterOf s k).mr.getLsbD 2) = false →
      ∃ u, exec (.awrr a b c) s = .next (raiseFault u .clusterError) ∧ u.ac = (if s.cfg.clusterErrorPrecise then s.ac else 0) ∧
        u.ai = (if s.cfg.clusterErrorPrecise then s.ai else 0) ∧
        Untouched s { u with ac := s.ac, ai := s.ai } ∧ (clusterOf u k).cir.cs ≠ .forCluster ∧
        ((clusterOf s k).mr.getLsbD 2 = false → ac.extractLsb' 0 5 ≠ 7 →
          ∀ v, applyWrite (adapterOf (clusterOf s k) ad) (ac.extractLsb' 0 5) (BitVec.ofBool (s.cf.getLsbD 5) ++ ai) = some v →
            adapterOf (clusterOf u k) ad = v) ∧
        (∀ j, j ≠ k → clusterOf u j = clusterOf s j) ∧ RestKept s { u with clusters := s.clusters })

/-- What a write code of Table 5-13 puts into an adapter word, the interrogate code of Table 5-14 for that field gives back (R430,
R431): TY, C2 empty or occupied, BC and BI, the line fields, CT and BT, C1, IR, each with all its bits. -/
def Obligations.ClusterFieldsReadBack : Prop :=
  ∀ (c : Cluster) (a a' : Adapter) (v : BitVec 9),
    (applyWrite a 0 v = some a' → answer c a' 16 = some (16, (v.extractLsb' 0 6).setWidth 9)) ∧
    (applyWrite a 1 v = some a' → answer c a' 17 = some (17, v)) ∧
    (applyWrite a 9 v = some a' → answer c a' 17 = some (25, v)) ∧
    (applyWrite a 2 v = some a' → answer c a' 18 = some (18, (v.extractLsb' 0 7).setWidth 9)) ∧
    (applyWrite a 3 v = some a' → answer c a' 19 = some (19, (v.extractLsb' 0 7).setWidth 9)) ∧
    (applyWrite a 4 v = some a' → answer c a' 20 = some (20, v)) ∧
    (applyWrite a 5 v = some a' → answer c a' 21 = some (21, v)) ∧
    (applyWrite a 6 v = some a' → answer c a' 22 = some (22, v)) ∧
    (applyWrite a 14 v = some a' → answer c a' 22 = some (30, v))

/-- MSKW (R211) and MSKR (R212): their words have OP 00011 and A 000 or 001 with any B and C. MSKW loads CM from AC and AI, CM[15:8]
:= AC and CM[7:0] := AI (R211); MSKR brings CM to AC and AI and clears I21 and AA (R212); nothing else changes. -/
def Obligations.MaskInstructions : Prop :=
  ∀ (b c : Byte) (s : State),
    decode (0x18#8 ++ b ++ c) = .mskw b c ∧ decode (0x19#8 ++ b ++ c) = .mskr b c ∧
    (∃ t, exec (.mskw b c) s = .next t ∧ t.cm = s.ac ++ s.ai ∧ PassedOver s t nowhere s.cf ∧
      RestKept s { t with cm := s.cm }) ∧
    ∃ t, exec (.mskr b c) s = .next t ∧ t.ac ++ t.ai = s.cm ∧ t.aa = 0 ∧
      PassedOver s t (among [.aa, .ac, .ai]) (withI21 s.cf false) ∧ RestKept s t

/-- SHFT (R207): MA is shifted by the low three bits of the literal plus one, Y being the literal when bits 7 and 6 of B are 01;
CF0 and CF1 are cleared; no other register and no memory changes. Of P-L nothing is said but that the next instruction enters it;
an indirect literal leaves Y in its B field, which is the model's choice (log 69). -/
def Obligations.ShftShiftsMA : Prop :=
  ∀ (b c : Byte) (s : State),
    ∃ t, exec (.shft b c) s = .next t ∧
      ma t = shiftMany c (((if b.extractLsb' 6 2 = 1 then s.y else b).toNat % 8) + 1) (ma s) ∧
      PassedOver s t Place.isMA (flagged s.cf false false) ∧ RestKept s t

/-- What the shifts of R207 and the rows of Table 3-2 (R208) do, for every count up to eight: logical and rotating shifts of the 24
bits, of MA1 with MA0, of MA2 with MA0 (MA1 bypassed) and of MA2 with MA1; end around without concatenation, where the bits that
leave the lowest register enter the highest one and every other register is shifted by itself; each register by itself, the byte
circulate, and that a register that is not selected keeps its value. -/
def Obligations.ShiftTable : Prop :=
  ∀ (n : Nat) (m : Half), n ≤ 8 →
    shiftMany 0x0F n m = m >>> n ∧ shiftMany 0x1F n m = m.rotateRight n ∧
    (halfRow (shiftMany 0x0B n m) 2 = halfRow m 2 ∧
      (shiftMany 0x0B n m).extractLsb' 0 16 = m.extractLsb' 0 16 >>> n) ∧
    (shiftMany 0x1B n m).extractLsb' 0 16 = (m.extractLsb' 0 16).rotateRight n ∧
    (shiftMany 0x0E n m).extractLsb' 8 16 = m.extractLsb' 8 16 >>> n ∧
    (shiftMany 0x1E n m).extractLsb' 8 16 = (m.extractLsb' 8 16).rotateRight n ∧
    (halfRow (shiftMany 0x0D n m) 1 = halfRow m 1 ∧
      halfRow (shiftMany 0x0D n m) 2 ++ halfRow (shiftMany 0x0D n m) 0 = (halfRow m 2 ++ halfRow m 0) >>> n) ∧
    (halfRow (shiftMany 0x1D n m) 1 = halfRow m 1 ∧
      halfRow (shiftMany 0x1D n m) 2 ++ halfRow (shiftMany 0x1D n m) 0 = (halfRow m 2 ++ halfRow m 0).rotateRight n) ∧
    halfRow (shiftMany 0x13 n m) 0 ++ halfRow (shiftMany 0x13 n m) 1 = (halfRow m 0 ++ halfRow m 1) >>> n ∧
    halfRow (shiftMany 0x15 n m) 0 ++ halfRow (shiftMany 0x15 n m) 2 = (halfRow m 0 ++ halfRow m 2) >>> n ∧
    halfRow (shiftMany 0x16 n m) 1 ++ halfRow (shiftMany 0x16 n m) 2 = (halfRow m 1 ++ halfRow m 2) >>> n ∧
    (halfRow (shiftMany 0x17 n m) 0 ++ halfRow (shiftMany 0x17 n m) 2 = (halfRow m 0 ++ halfRow m 2) >>> n ∧
      halfRow (shiftMany 0x17 n m) 1 = halfRow m 1 >>> n) ∧
    (∀ r, r < 3 → halfRow (shiftMany 0x07 n m) r = halfRow m r >>> n ∧
      halfRow (shiftMany 0x27 n m) r = (halfRow m r).rotateRight n) ∧
    ∀ (c : Byte) (r : Nat), r < 3 → c.getLsbD r = false → halfRow (shiftMany c n m) r = halfRow m r

/-- HEYU (R209, R388): the multiplexor's DCP Attention Needed flip-flop is set; no register that a program can name and no memory
changes. Of P-L nothing is said but that the next instruction enters it; an indirect literal leaves Y in its B field, which is the
model's choice (log 69). -/
def Obligations.HeyuSignalsHost : Prop :=
  ∀ (b c : Byte) (s : State),
    ∃ t, exec (.heyu b c) s = .next t ∧ t.env = { s.env with hostAttention := true } ∧ PassedOver s t nowhere s.cf ∧
      RestKept s { t with env := s.env }

/-! ### Group 1 -/

/-- ARWN and ARIN when one cluster calls (R221, R222, R403, R405): AA receives the cluster and adapter numbers, AC the code, AI and
I21 the information; the CIR is free again, Access Confirm names the adapter and its program timer, and the CAN side of the timer
starts anew; ARWN goes on in sequence, ARIN branches to B:C. AC bits 7 to 5 zero are the spec's decision D16 (log 38), the scan
counter the model's reading of R51 (log 20). A cluster that does not release its information raises the adapter cluster error
(R360) with no register, timer or cluster changed (log 67). A cluster that serves another unit answers HLD, and both instructions
are held with nothing changed (R408; when a unit is served is log 65). -/
def Obligations.AdapterReadTaken : Prop :=
  ∀ (b c : Byte) (k : BitVec 4) (s : State), calls s k → (∀ j, calls s j → j = k) →
    (servesOther s k → ∃ u, Untouched s u ∧ RestKept s u ∧ ∀ i ∈ [Instr.arwn b c, .arin b c], exec i s = .next u) ∧
    (¬ servesOther s k → s.env.exchangeFails.headD false = true → ∃ u, Untouched s u ∧ u.env = exchanged s ∧
      RestKept s { u with env := s.env } ∧
      ∀ i ∈ [Instr.arwn b c, .arin b c], exec i s = .next (raiseFault u .clusterError)) ∧
    (¬ servesOther s k → s.env.exchangeFails.headD false = false → ∃ t, exec (.arwn b c) s = .next t ∧
      PassedOver s t (among [.aa, .ac, .ai]) (withI21 s.cf ((clusterOf s k).cir.dc.getLsbD 8)) ∧
      t.aa = k ++ (clusterOf s k).cir.ad ∧ t.ac = (clusterOf s k).cir.cc.setWidth 8 ∧
      t.ai = (clusterOf s k).cir.dc.extractLsb' 0 8 ∧ t.canTimer = 0 ∧ t.scanCounter = k.extractLsb' 0 2 ∧
      (clusterOf t k).cir.cs = .notOccupied ∧
      (clusterOf t k).confirm =
        { ad := (clusterOf s k).cir.ad, occupied := true, timer := decide ((clusterOf s k).cir.cc = 0b01011) } ∧
      (∀ j, j ≠ k → clusterOf t j = clusterOf s j) ∧ t.env = exchanged s ∧
      RestKept s { t with clusters := s.clusters, canTimer := s.canTimer, scanCounter := s.scanCounter, env := s.env }) ∧
    (¬ servesOther s k → s.env.exchangeFails.headD false = false → ∃ t, exec (.arin b c) s = .next t ∧
      Branched s t (among [.aa, .ac, .ai]) (withI21 s.cf ((clusterOf s k).cir.dc.getLsbD 8)) (b ++ c) ∧
      t.aa = k ++ (clusterOf s k).cir.ad ∧ t.ac = (clusterOf s k).cir.cc.setWidth 8 ∧
      t.ai = (clusterOf s k).cir.dc.extractLsb' 0 8 ∧ t.canTimer = 0 ∧ t.scanCounter = k.extractLsb' 0 2 ∧
      (clusterOf t k).cir.cs = .notOccupied ∧
      (clusterOf t k).confirm =
        { ad := (clusterOf s k).cir.ad, occupied := true, timer := decide ((clusterOf s k).cir.cc = 0b01011) } ∧
      (∀ j, j ≠ k → clusterOf t j = clusterOf s j) ∧ t.env = exchanged s ∧
      RestKept s { t with clusters := s.clusters, canTimer := s.canTimer, scanCounter := s.scanCounter, env := s.env,
                          bstm := s.bstm, seq := s.seq })

/-- ARWN and ARIN when no cluster calls (R221, R222): ARWN branches to B:C on SAN and clears it, without SAN it is held and nothing
changes but the model's mark of the hold (log 33); ARIN goes on in sequence with the CAN side of the timer at zero. -/
def Obligations.AdapterReadNotNeeded : Prop :=
  ∀ (b c : Byte) (s : State), (∀ j, ¬ calls s j) →
    (s.cf.getLsbD 7 = true → ∃ t, exec (.arwn b c) s = .next t ∧
      Branched s t nowhere (withI23 s.cf false) (b ++ c) ∧ RestKept s { t with bstm := s.bstm, seq := s.seq }) ∧
    (s.cf.getLsbD 7 = false → exec (.arwn b c) s = .next { s with clusterWait := true }) ∧
    ∃ t, exec (.arin b c) s = .next t ∧ PassedOver s t nowhere s.cf ∧ t.canTimer = 0 ∧
      RestKept s { t with canTimer := s.canTimer }

/-- DBYZ and DBYN (R223, R224): their words; the test is on Y before the decrement, Y is decremented unless it is zero, DBYZ branches
to B:C on zero, DBYN on not zero. -/
def Obligations.DecrementAndBranch : Prop :=
  ∀ (b c : Byte) (s : State),
    decode (0x22#8 ++ b ++ c) = .dbyz b c ∧ decode (0x23#8 ++ b ++ c) = .dbyn b c ∧
    (s.y = 0 →
      (∃ t, exec (.dbyz b c) s = .next t ∧ Branched s t nowhere s.cf (b ++ c) ∧
        RestKept s { t with bstm := s.bstm, seq := s.seq }) ∧
      ∃ t, exec (.dbyn b c) s = .next t ∧ PassedOver s t nowhere s.cf ∧ RestKept s t) ∧
    (s.y ≠ 0 →
      (∃ t, exec (.dbyz b c) s = .next t ∧ PassedOver s t (among [.y]) s.cf ∧ t.y.toNat + 1 = s.y.toNat ∧ RestKept s t) ∧
      ∃ t, exec (.dbyn b c) s = .next t ∧ Branched s t (among [.y]) s.cf (b ++ c) ∧ t.y.toNat + 1 = s.y.toNat ∧
        RestKept s { t with bstm := s.bstm, seq := s.seq })

/-- BRAN (R226): its words; with SAN on, the branch to B:C is taken and SAN, CF0 and CF1 are cleared; with SAN off the program
goes on in sequence, whether or not a cluster calls. The table of R385 has BRAN test CAN too: where the installation follows it
and a cluster calls, the branch is taken with SAN off as well, no cluster is read, and the cluster goes on calling. That a
parameter stands for the disagreement of the two rules is the model's choice (log 68). -/
def Obligations.BranOnAttention : Prop :=
  ∀ (b c : Byte) (s : State), decode (0x24#8 ++ b ++ c) = .bran b c ∧
    (s.cf.getLsbD 7 = true → ∃ t, exec (.bran b c) s = .next t ∧
      Branched s t nowhere (withI23 s.cf false) (b ++ c) ∧ RestKept s { t with bstm := s.bstm, seq := s.seq }) ∧
    (s.cf.getLsbD 7 = false → (s.cfg.branTestsCan = false ∨ ∀ k, ¬ calls s k) →
      ∃ t, exec (.bran b c) s = .next t ∧ PassedOver s t nowhere s.cf ∧ RestKept s t) ∧
    (s.cf.getLsbD 7 = false → s.cfg.branTestsCan = true → (∃ k, calls s k) →
      ∃ t, exec (.bran b c) s = .next t ∧ Branched s t nowhere s.cf (b ++ c) ∧ (∀ k, calls s k → calls t k) ∧
        RestKept s { t with bstm := s.bstm, seq := s.seq })

/-- GOTO, GOX and GOI (R228 to R230): when the condition holds, the branch is taken, to B:C, to B:C plus X, to B:C plus the byte Y
addresses; when it does not, the program goes on in sequence. The 16-bit sums are the spec's decision D24 (log 46). After a
subtraction with CF0 = 0 the eight conditions are never, greater, less, not equal, equal, greater or equal, less or equal,
always, as unsigned bytes (R227, R296). -/
def Obligations.ConditionalBranches : Prop :=
  ∀ (a : BitVec 3) (b c : Byte) (s : State),
    (condition s a = false → ∀ i ∈ [Instr.goto a b c, .gox a b c, .goi a b c],
      ∃ t, exec i s = .next t ∧ PassedOver s t nowhere s.cf ∧ RestKept s t) ∧
    (condition s a = true →
      (∃ t, exec (.goto a b c) s = .next t ∧ Branched s t nowhere s.cf (b ++ c) ∧
        RestKept s { t with bstm := s.bstm, seq := s.seq }) ∧
      (∃ t, exec (.gox a b c) s = .next t ∧
        Branched s t nowhere s.cf (BitVec.ofNat 16 ((b ++ c).toNat + s.x.toNat)) ∧
        RestKept s { t with bstm := s.bstm, seq := s.seq }) ∧
      ∀ l, byteLoc s.y = .ok l → ∃ t, exec (.goi a b c) s = .next t ∧
        Branched s t nowhere s.cf (BitVec.ofNat 16 ((b ++ c).toNat + (readByte s l).toNat)) ∧
        RestKept s { t with bstm := s.bstm, seq := s.seq }) ∧
    ∀ m v : Byte, s.cf.getLsbD 0 = ByteOp.sub.carry m v false → s.cf.getLsbD 1 = ByteOp.sub.zero m v false →
      condition s 0 = false ∧ (condition s 1 = true ↔ v.toNat < m.toNat) ∧ (condition s 2 = true ↔ m.toNat < v.toNat) ∧
      (condition s 3 = true ↔ m ≠ v) ∧ (condition s 4 = true ↔ m = v) ∧ (condition s 5 = true ↔ v.toNat ≤ m.toNat) ∧
      (condition s 6 = true ↔ m.toNat ≤ v.toNat) ∧ condition s 7 = true

/-! ### Group 2 -/

/-- MOVE in its three codes (R147, R240, R241): MA receives the source half-word, the destination the old MA; nothing else changes.
The same scratchpad half as source and destination is Obligations.SameScratchpadFaults. -/
def Obligations.MoveExchangesWithMA : Prop :=
  ∀ (i : Instr) (a : BitVec 1) (b c : Byte) (src dst : HalfLoc) (s : State),
    i ∈ [Instr.move b c, .move01000 b c, .move01001 a b c] →
    halfLoc .g2 (bAddress s b) = .ok src → halfLoc .g2 (cAddress s c) = .ok dst → sameSMHalf src dst = false →
    ∃ t, exec i s = .next t ∧ Moved s t src dst nowhere ∧ RestKept s t

/-- LMRI and LMRD of a word that exists and has odd parity (R243, R248): W receives all 52 bits. LMRI moves first (R240) and takes
the address from MA bits 13 to 0 after the move, LMRD from B:C; LMRD changes nothing but W. -/
def Obligations.LocalMemoryReads : Prop :=
  ∀ (b c : Byte) (s : State),
    (∀ (src dst : HalfLoc) (a : BitVec 14), halfLoc .g2 (bAddress s b) = .ok src → halfLoc .g2 (cAddress s c) = .ok dst →
      a = maLocal (moveHalves s b src dst) → lmExists s a = true → oddParity (memRead s.lm a.toNat) = true →
      ∃ t, exec (.lmri b c) s = .next t ∧ t.w = memRead s.lm a.toNat ∧ (ma t).extractLsb' 0 14 = a ∧
        Moved s t src dst Place.isW ∧ t.pywc = false ∧ t.scm = false ∧
        RestKept s { t with pywc := s.pywc, scm := s.scm }) ∧
    ∀ a : BitVec 14, a = b.extractLsb' 0 6 ++ c → lmExists s a = true → oddParity (memRead s.lm a.toNat) = true →
      ∃ t, exec (.lmrd b c) s = .next t ∧ t.w = memRead s.lm a.toNat ∧ PassedOver s t Place.isW s.cf ∧
        t.pywc = false ∧ t.scm = false ∧ RestKept s { t with pywc := s.pywc, scm := s.scm }

/-- LMWI and LMWD to a word that exists (R90, R250, R254): local memory holds W with odd parity generated, W has the parity bit too
(D5), and every byte outside the seven cells of that word is as before. Addresses as in Obligations.LocalMemoryReads. -/
def Obligations.LocalMemoryWrites : Prop :=
  ∀ (b c : Byte) (s : State), s.memoryOk = true →
    (∀ (src dst : HalfLoc) (a : BitVec 14), halfLoc .g2 (bAddress s b) = .ok src → halfLoc .g2 (cAddress s c) = .ok dst →
      a = maLocal (moveHalves s b src dst) → lmExists s a = true →
      ∃ t, exec (.lmwi b c) s = .next t ∧ memRead t.lm a.toNat = t.w ∧ oddParity t.w = true ∧
        t.w.extractLsb' 48 3 = s.w.extractLsb' 48 3 ∧ (ma t).extractLsb' 0 14 = a ∧
        Moved s t src dst (among [.wTag]) ∧
        (∀ x, x < 8 * a.toNat ∨ 8 * a.toNat + 7 ≤ x → cellRead t.lm x = cellRead s.lm x) ∧
        RestKept s { t with lm := s.lm }) ∧
    ∀ a : BitVec 14, a = b.extractLsb' 0 6 ++ c → lmExists s a = true →
      ∃ t, exec (.lmwd b c) s = .next t ∧ memRead t.lm a.toNat = t.w ∧ oddParity t.w = true ∧
        t.w.extractLsb' 48 3 = s.w.extractLsb' 48 3 ∧ PassedOver s t (among [.wTag]) s.cf ∧
        (∀ x, x < 8 * a.toNat ∨ 8 * a.toNat + 7 ≤ x → cellRead t.lm x = cellRead s.lm x) ∧
        RestKept s { t with lm := s.lm }

/-- The faults of the local memory instructions. An address that does not exist raises the address fault at the state before the
instruction, for LMRI and LMWI too, whose address comes from the moved MA (R91, R358, R364; log 25); only an indirect B address
has copied Y into P-L (R183, R364). A word of even parity is in
W when the parity fault is raised, in place of the next instruction, and LMRI's move has taken place (R243, R362); that EX and I20
are on then only if the R instruction would have followed is the model's reading (log 26). -/
def Obligations.LocalMemoryFaults : Prop :=
  ∀ (b c : Byte) (s : State),
    (∀ (src dst : HalfLoc), halfLoc .g2 (bAddress s b) = .ok src → halfLoc .g2 (cAddress s c) = .ok dst →
      lmExists s (maLocal (moveHalves s b src dst)) = false →
      ∀ i ∈ [Instr.lmri b c, .lmwi b c], exec i s = .next (raiseFault (yCopied s b) .lmAddress)) ∧
    (∀ (src dst : HalfLoc) (a : BitVec 14), halfLoc .g2 (bAddress s b) = .ok src → halfLoc .g2 (cAddress s c) = .ok dst →
      a = maLocal (moveHalves s b src dst) → lmExists s a = true → s.env.panel.hold ≠ .holdPL →
      oddParity (memRead s.lm a.toNat) = false →
      ∃ u, exec (.lmri b c) s = .next (raiseFault u .lmParity) ∧ u.w = memRead s.lm a.toNat ∧
        (ma u).extractLsb' 0 14 = a ∧ HalfMoved s u src dst Place.isW ∧ ia u = movedIA s dst ∧
        u.ex = follows s dst.namesIA ∧ u.cf.getLsbD 4 = follows s dst.namesIA ∧ wordRight u.p = wordRight s.p ∧
        wordTag u.p = wordTag s.p ∧ RestKept s { u with pywc := s.pywc, scm := s.scm }) ∧
    (lmExists s (b.extractLsb' 0 6 ++ c) = false →
      ∀ i ∈ [Instr.lmrd b c, .lmwd b c], exec i s = .next (raiseFault s .lmAddress)) ∧
    (lmExists s (b.extractLsb' 0 6 ++ c) = true → s.env.panel.hold ≠ .holdPL →
      oddParity (memRead s.lm (b.extractLsb' 0 6 ++ c).toNat) = false →
      ∃ u, exec (.lmrd b c) s = .next (raiseFault u .lmParity) ∧ u.w = memRead s.lm (b.extractLsb' 0 6 ++ c).toNat ∧
        ia u = ia s ∧ u.ex = follows s false ∧ u.cf.getLsbD 4 = follows s false ∧ CfIs u s.cf ∧ u.p = s.p ∧
        PlacesKept s u Place.isW ∧ RestKept s { u with pywc := s.pywc, scm := s.scm })

/-- SMRD (R246): W receives the whole scratchpad word, or a register column in W-L and zeros elsewhere; the destination receives
MA, ORed with what W receives where it is a part of W (W-L by the spec's decision D25, log 47); MA and everything else stays. A
destination in the scratchpad word that is read is no fault only where the installation follows the table of R508 to the letter
(log 15); where it follows R246, Obligations.SameScratchpadFaults says what happens. -/
def Obligations.ScratchpadRead : Prop :=
  ∀ (b c : Byte) (src dst : HalfLoc) (v : Word) (s : State),
    halfLoc .g2 (bAddress s b) = .ok src → halfLoc .g2 (cAddress s c) = .ok dst →
    (s.cfg.smrdSameWordFaults = false ∨ ∀ k r q, src = .smHalf k r → dst ≠ .smHalf k q) →
    v = (match src with
      | .smHalf k _ => smWord s k
      | .regs _ _ => 0#4 ++ readHalf s src ++ 0#24) →
    ∃ t, exec (.smrd b c) s = .next t ∧ t.w.extractLsb' 48 4 = v.extractLsb' 48 4 ∧
      (∀ n : Fin 6, Place.value t (.w n) =
        v.extractLsb' (40 - 8 * n.val) 8 ||| (if dst.covers (.w n) then halfRow (ma s) (2 - n.val % 3) else 0)) ∧
      (∀ p : Place, p.isControl = false → p.isW = false → p.value t = halfStored dst (ma s) p (p.value s)) ∧
      CfIs t (halfStored dst (ma s) .cf s.cf) ∧
      GoesOn s t dst.namesIA (halfStored dst (ma s) .ia1 s.ia1 ++ halfStored dst (ma s) .ia0 s.ia0) ∧ RestKept s t

/-- SMWD (R252): MA receives the source half-word; a scratchpad word receives all 52 bits of W, a register column its selected rows
of W-L; W stays unless it is the column. MA as the column has two writers and nothing is said of it (U10, log 16). -/
def Obligations.ScratchpadWrite : Prop :=
  ∀ (b c : Byte) (src dst : HalfLoc) (s : State),
    halfLoc .g2 (bAddress s b) = .ok src → halfLoc .g2 (cAddress s c) = .ok dst →
    ∃ t, exec (.smwd b c) s = .next t ∧
      (∀ p : Place, p.isMA = true → dst.covers p = false → p.value t = halfRow (readHalf s src) p.row) ∧
      (∀ k r, dst = .smHalf k r → smWord t k = s.w ∧
        ∀ p : Place, p.isControl = false → p.isMA = false → (∀ n, p ≠ .sm k n) → p ≠ .smTag k → p.value t = p.value s) ∧
      (∀ col sel, dst = .regs col sel →
        ∀ p : Place, p.isControl = false → p.isMA = false → p.value t = halfStored dst (wordLeft s.w) p (p.value s)) ∧
      CfIs t (halfStored dst (wordLeft s.w) .cf s.cf) ∧
      GoesOn s t dst.namesIA (halfStored dst (wordLeft s.w) .ia1 s.ia1 ++ halfStored dst (wordLeft s.w) .ia0 s.ia0) ∧
      RestKept s t

/-- The main memory instructions (R256 to R264): the move, then the request: BA holds MA bits 19 to 0 (B 5700: 14 to 0), the access
with its data word is pending, and a write generates odd parity in W, whose bit 51 takes it (the spec's decision D5, log 13). No memory byte changes yet. MMWR, MMWP and MWRP are for a
B 6700 only. -/
def Obligations.MainMemoryRequests : Prop :=
  ∀ (i : Instr) (kind : AccessKind) (b c : Byte) (src dst : HalfLoc) (s : State),
    ((i, kind) ∈ [(Instr.mmr b c, AccessKind.read), (.mmr01001 b c, .read), (.mmwu b c, .write)] ∨
      (s.cfg.mainframe = .b6700 ∧ (i, kind) ∈ [(Instr.mmwr b c, AccessKind.writeRead), (.mmwp b c, .protectedWrite),
        (.mwrp b c, .protectedWriteRead)])) →
    halfLoc .g2 (bAddress s b) = .ok src → halfLoc .g2 (cAddress s c) = .ok dst →
    ∃ t, exec i s = .next t ∧
      (kind = .read → Moved s t src dst nowhere) ∧
      (kind ≠ .read → Moved s t src dst (among [.wTag]) ∧ oddParity t.w = true ∧
        t.w.extractLsb' 48 3 = s.w.extractLsb' 48 3) ∧
      t.ba.toNat = (ma t).toNat % (if s.cfg.mainframe = .b6700 then 2 ^ 20 else 2 ^ 15) ∧
      t.pending = some { kind := kind, data := t.w, granted := false } ∧
      RestKept s { t with ba := s.ba, pending := s.pending }

/-- The completion of a main memory access (R264, R361, R357). A word that does not exist: nothing changes and the address fault.
Else: W receives the old word where the kind reads; the word in memory is the data where the kind writes and the protect bit does
not deny it; every other byte of memory is as before. The fault found: a detected error, else even parity of the word loaded,
else the denial. On a B 5700 (R88; D10, log 14) W receives the 48 bits with tag 000 and odd parity, so that no parity fault
arises, and 48 bits are stored. -/
def Obligations.AccessCompletion : Prop :=
  ∀ (s : State) (acc : Access) (old got put : Word), s.memoryOk = true → s.pending = some acc →
    old = memRead s.mm s.ba.toNat →
    (s.cfg.mainframe = .b6700 → got = old ∧ put = acc.data) →
    (s.cfg.mainframe = .b5700 → got.extractLsb' 0 48 = old.extractLsb' 0 48 ∧ got.extractLsb' 48 3 = 0 ∧
      oddParity got = true ∧ put = 0#4 ++ acc.data.extractLsb' 0 48) →
    let t := (completeAccess s).1
    let reads := acc.kind = .read ∨ acc.kind = .writeRead ∨ acc.kind = .protectedWriteRead
    let denied := (acc.kind = .protectedWrite ∨ acc.kind = .protectedWriteRead) ∧
      old.getLsbD s.cfg.mmProtectBit.val = true
    t.pending = none ∧ t.env = { s.env with mmErrors := s.env.mmErrors.tail } ∧ t.p = s.p ∧ t.ex = s.ex ∧ t.run = s.run ∧
      t.cf = s.cf ∧ ia t = ia s ∧ PlacesKept s t Place.isW ∧
      RestKept s { t with pending := s.pending, env := s.env, mm := s.mm } ∧
      (mmValid s s.ba = false → t.w = s.w ∧ t.mm = s.mm ∧ (completeAccess s).2 = some .mmAddress) ∧
      (mmValid s s.ba = true →
        (reads → t.w = got) ∧ (¬ reads → t.w = s.w) ∧
        (acc.kind = .read ∨ denied → t.mm = s.mm) ∧
        (acc.kind ≠ .read → ¬ denied → memRead t.mm s.ba.toNat = put) ∧
        (∀ x, x < 8 * s.ba.toNat ∨ 8 * s.ba.toNat + 7 ≤ x → cellRead t.mm x = cellRead s.mm x) ∧
        (s.env.mmErrors.headD false = true → (completeAccess s).2 = some .mmDetected) ∧
        (s.env.mmErrors.headD false = false → reads → oddParity got = false → (completeAccess s).2 = some .mmParity) ∧
        (s.env.mmErrors.headD false = false → (¬ reads ∨ oddParity got = true) → denied →
          (completeAccess s).2 = some .mmProtected) ∧
        (s.env.mmErrors.headD false = false → (¬ reads ∨ oddParity got = true) → ¬ denied → (completeAccess s).2 = none))

/-! ### Group 3 -/

/-- HAD, HSB, HADB and HSBB (R271 to R277): MA plus or minus the addressed half-word or the zero-extended literal, without carry in;
the low 24 bits are stored; CF0 is the carry or borrow, CF1 the zero test, I18 zero; a destination CF keeps the stored byte
(D3). -/
def Obligations.HalfWordArithmetic : Prop :=
  ∀ (i : Instr) (a : BitVec 2) (b c : Byte) (v : Half) (dst : HalfLoc) (s : State) (minus : Bool) (r : Int),
    ((∃ src, halfLoc .g3 (bAddress s b) = .ok src ∧ sameSMHalf src dst = false ∧ v = readHalf s src ∧
        (i, minus) ∈ [(Instr.had a b c, false), (.hsb a b c, true)]) ∨
      (v = b.setWidth 24 ∧ (i, minus) ∈ [(Instr.hadb a b c, false), (.hsbb a b c, true)])) →
    halfLoc .g3 (cAddress s c) = .ok dst →
    r = (if minus then ((ma s).toNat : Int) - v.toNat else (ma s).toNat + v.toNat) →
    ∃ t, exec i s = .next t ∧
      StoredHalf s t dst (BitVec.ofInt 24 r)
        (halfFlagged s.cf (decide (r < 0 ∨ 16777215 < r)) (decide (BitVec.ofInt 24 r = 0)))

/-- TRAN (R279 to R281): the byte the translator makes of the source byte is stored; CF0 is what the translation says, the old value
for every translation but USASCII to INTERNAL; CF1 stays, unless CF is the destination, which keeps the stored byte (R270; the
spec's decision D3, log 12). -/
def Obligations.TranStoresTranslation : Prop :=
  ∀ (a : BitVec 3) (b c v : Byte) (carry : Bool) (bl cl : ByteLoc) (s : State),
    byteLoc (bAddress s b) = .ok bl → byteLoc (cAddress s c) = .ok cl → sameSMByte bl cl = false →
    translate s a (readByte s bl) = .ok (v, carry) →
    (∃ t, exec (.tran a b c) s = .next t ∧ StoredByte s t cl v (flagged s.cf carry (s.cf.getLsbD 1))) ∧
      (carry = s.cf.getLsbD 0 ∨ (s.cfg.mainframe = .b5700 ∧ a = 5))

/-- The translator by its charts (R331 to R334, R336 to R338, R280, R281): on a B 6700 every letter and digit of EBCDIC goes to
USASCII and to BCL and back unchanged, CF0 staying; on a B 5700 every USASCII letter or digit goes to INTERNAL with CF0 off and
back; INTERNAL to BCL is one to one on the 64 codes; without a translator the byte is 00 and CF0 stays. -/
def Obligations.TranslatorCharts : Prop :=
  ∀ (s : State) (v : Byte),
    (s.cfg.translatorPresent = false → ∀ a, translate s a v = .ok (0, s.cf.getLsbD 0)) ∧
    (s.cfg.translatorPresent = true → s.cfg.mainframe = .b6700 →
      (0xC1 ≤ v.toNat ∧ v.toNat ≤ 0xC9 ∨ 0xD1 ≤ v.toNat ∧ v.toNat ≤ 0xD9 ∨ 0xE2 ≤ v.toNat ∧ v.toNat ≤ 0xE9 ∨
        0xF0 ≤ v.toNat ∧ v.toNat ≤ 0xF9) →
      (∃ u, translate s 0 v = .ok (u, s.cf.getLsbD 0) ∧ translate s 4 u = .ok (v, s.cf.getLsbD 0)) ∧
        ∃ u, translate s 1 v = .ok (u, s.cf.getLsbD 0) ∧ translate s 5 u = .ok (v, s.cf.getLsbD 0)) ∧
    (s.cfg.translatorPresent = true → s.cfg.mainframe = .b5700 → s.cf.getLsbD 0 = false →
      (0x30 ≤ v.toNat ∧ v.toNat ≤ 0x39 ∨ 0x41 ≤ v.toNat ∧ v.toNat ≤ 0x5A) →
      ∃ u, translate s 5 v = .ok (u, false) ∧ translate s 1 u = .ok (v, false)) ∧
    (s.cfg.translatorPresent = true → s.cfg.mainframe = .b5700 →
      ∀ x y : Byte, x.toNat < 64 → y.toNat < 64 → translate s 3 x = translate s 3 y → x = y)

/-- PARY (R283): the source byte is stored; the exclusive OR of its bits, of I21 if AI is a source, and of A0 controls CF1 and, if AI
is a destination, I21; CF0 is cleared. A destination CF keeps the stored byte instead (R270; the spec's decision D3, log 12). -/
def Obligations.ParyChecksParity : Prop :=
  ∀ (a : BitVec 1) (b c : Byte) (bl cl : ByteLoc) (s : State) (ones : Nat) (odd : Bool),
    byteLoc (bAddress s b) = .ok bl → byteLoc (cAddress s c) = .ok cl → sameSMByte bl cl = false →
    ones = ((List.range 8).filter fun k => (readByte s bl).getLsbD k).length →
    odd = decide ((ones + (if bl.covers .ai then (s.cf.getLsbD 5).toNat else 0) + a.toNat) % 2 = 1) →
    ∃ t, exec (.pary a b c) s = .next t ∧
      StoredByte s t cl (readByte s bl)
        (if cl.covers .ai then withI21 (flagged s.cf false (!odd)) odd else flagged s.cf false (!odd))

/-! ### Group 4 -/

/-- ADD, SUB, LAN, LOR, LEO and the LEO alias, plain form (R290 to R309, R147): the A operand and the addressed byte, with CF0 as the
carry or borrow in of ADD and SUB; result to C; CF0 carry, borrow or cleared, CF1 the zero test; a destination CF keeps the
stored byte (D3). -/
def Obligations.PlainByteForms : Prop :=
  ∀ (i : Instr) (f : ByteOp) (a : BitVec 3) (b c : Byte) (bl cl : ByteLoc) (s : State) (m v : Byte) (cin : Bool),
    (i, f) ∈ [(Instr.add a b c, ByteOp.add), (.sub a b c, .sub), (.lan a b c, .and), (.lor a b c, .or), (.leo a b c, .xor),
      (.leo01111 a b c, .xor)] →
    byteLoc (bAddress s b) = .ok bl → byteLoc (cAddress s c) = .ok cl → (f.exempt = true ∨ sameSMByte bl cl = false) →
    m = srcA s a → v = readByte s bl → cin = s.cf.getLsbD 0 →
    ∃ t, exec i s = .next t ∧ StoredByte s t cl (f.value m v cin) (flagged s.cf (f.carry m v cin) (f.zero m v cin))

/-- ADDB, SUBB, LANB, LORB, LEOB, the literal in B (R290, R293, R297, R301, R306, R310): the A operand and the byte B itself, result
to C; where C names CF the stored byte wins over CF0 and CF1 (R290; the spec's decision D3, log 12). -/
def Obligations.LiteralInBForms : Prop :=
  ∀ (i : Instr) (f : ByteOp) (a : BitVec 3) (b c : Byte) (cl : ByteLoc) (s : State) (m : Byte) (cin : Bool),
    (i, f) ∈ [(Instr.addb a b c, ByteOp.add), (.subb a b c, .sub), (.lanb a b c, .and), (.lorb a b c, .or),
      (.leob a b c, .xor)] →
    byteLoc (cAddress s c) = .ok cl → m = srcA s a → cin = s.cf.getLsbD 0 →
    ∃ t, exec i s = .next t ∧ StoredByte s t cl (f.value m b cin) (flagged s.cf (f.carry m b cin) (f.zero m b cin))

/-- ADDC, SUBC, LANC, LORC, LEOC, the literal in C (R290, R294, R298, R302, R307, R311): the addressed byte and the byte C itself,
the literal being the minuend of SUBC; result to the register A names, nowhere for A = 000, back to the B location for A = 001;
where B names CF then, the stored byte wins over CF0 and CF1 (R290; the spec's decision D3, log 12). -/
def Obligations.LiteralInCForms : Prop :=
  ∀ (i : Instr) (f : ByteOp) (a : BitVec 3) (b c : Byte) (bl : ByteLoc) (s : State) (v : Byte) (cin : Bool),
    (i, f) ∈ [(Instr.addc a b c, ByteOp.add), (.subc a b c, .subFrom), (.lanc a b c, .and), (.lorc a b c, .or),
      (.leoc a b c, .xor)] →
    byteLoc (bAddress s b) = .ok bl → (f.exempt = true ∨ a ≠ 1 ∨ bl.isSM = false) →
    v = readByte s bl → cin = s.cf.getLsbD 0 →
    ∃ t, exec i s = .next t ∧
      StoredByte s t (dstA a bl) (f.value v c cin) (flagged s.cf (f.carry v c cin) (f.zero v c cin))

/-- LAOM (R303): the addressed byte ANDed with the literal, then ORed for every destination register with the MA register of its row;
CF0 is cleared. CF1 is the zero test of the stored byte where one register is stored and D13 takes its default, of the AND where
nothing is stored or D13 takes its other value (the spec's decision D13, log 61). With A = 001 and the destination CF the stored byte wins over CF0 and CF1
(R290; D3, log 12). A scratchpad or W byte takes the AND ORed with one of the MA registers, a tag field the AND alone (U20, log
17); nothing is said of the CF1 of several rows under the default. -/
def Obligations.LaomPacksIntoMA : Prop :=
  ∀ (a : BitVec 3) (b c m : Byte) (bl : ByteLoc) (s : State),
    byteLoc (bAddress s b) = .ok bl → m = readByte s bl &&& c →
    ∃ t, exec (.laom a b c) s = .next t ∧ RestKept s t ∧
      (dstA a bl = .none → StoredByte s t .none 0 (flagged s.cf false (decide (m = 0)))) ∧
      (∀ col sel, dstA a bl = .regs col sel →
        (∀ p : Place, p.isControl = false → p.value t =
          if selects col sel p then m ||| halfRow (ma s) p.row else p.value s) ∧
        (∃ z, CfIs t (if selects col sel .cf then m ||| s.ma2 else flagged s.cf false z) ∧
          ((s.cfg.laomIncludesMa = false ∨ ∀ p, selects col sel p = false) → z = decide (m = 0)) ∧
          ∀ p : Place, selects col sel p = true → (sel = 1 ∨ sel = 2 ∨ sel = 4) → s.cfg.laomIncludesMa = true →
            z = decide (m ||| halfRow (ma s) p.row = 0)) ∧
        GoesOn s t (dstA a bl).namesIA ((if selects col sel .ia1 then m ||| s.ma1 else s.ia1) ++
          (if selects col sel .ia0 then m ||| s.ma0 else s.ia0))) ∧
      ((∃ k n, dstA a bl = .smByte k n) ∨ (∃ n, dstA a bl = .wByte n) →
        ∃ (r : Nat) (z : Bool), r < 3 ∧ StoredByte s t (dstA a bl) (m ||| halfRow (ma s) r) (flagged s.cf false z) ∧
          z = (if s.cfg.laomIncludesMa then decide (m ||| halfRow (ma s) r = 0) else decide (m = 0))) ∧
      ((∃ k, dstA a bl = .smTag k) ∨ dstA a bl = .wTag →
        StoredByte s t (dstA a bl) m (flagged s.cf false (decide (m = 0))))

/-! ### Operands -/

/-- The byte an address delivers (R87, R132, R144): for a register column the OR of the selected rows, each place of the column with
its row bit on; the byte of a scratchpad word or of W; a tag field in the low or, where the installation aligns it left (D4), the
high four bits; zeros for an address that names nothing. The A field as a source names none, AA, X, Y, D, MA-0, MA-1, MA-2 (R124), as a
destination none, the B address, X, Y, D, MA-0, MA-1, MA-2 (R126, R290). The half-word an address delivers has each place it
names in its row and zeros in the rows without one (R134). -/
def Obligations.ByteOperands : Prop :=
  ∀ (s : State) (a : Byte) (l : ByteLoc), byteLoc a = .ok l →
    ((∀ p : Place, l.covers p = false) → readByte s l = 0) ∧
    (∀ col sel, l = .regs col sel → ∀ k, (readByte s l).getLsbD k = true ↔
      ∃ p : Place, l.covers p = true ∧ (p.value s).getLsbD k = true) ∧
    (∀ p : Place, p.isTag = false → l.covers p = true → (∀ col sel, l ≠ .regs col sel) → readByte s l = p.value s) ∧
    (∀ p : Place, p.isTag = true → l.covers p = true →
      readByte s l = if s.cfg.tagAlignRight then p.value s else p.value s <<< 4) ∧
    srcA s 0 = 0 ∧ srcA s 1 = s.aa ∧ srcA s 2 = s.x ∧ srcA s 3 = s.y ∧ srcA s 4 = s.d ∧ srcA s 5 = s.ma0 ∧
    srcA s 6 = s.ma1 ∧ srcA s 7 = s.ma2 ∧
    dstA 0 l = .none ∧ dstA 1 l = l ∧
    (∀ p : Place, ((dstA 2 l).covers p = true ↔ p = .x) ∧ ((dstA 3 l).covers p = true ↔ p = .y) ∧
      ((dstA 4 l).covers p = true ↔ p = .d) ∧ ((dstA 5 l).covers p = true ↔ p = .ma0) ∧
      ((dstA 6 l).covers p = true ↔ p = .ma1) ∧ ((dstA 7 l).covers p = true ↔ p = .ma2)) ∧
    ∀ h : HalfLoc, (∀ p : Place, h.covers p = true → halfRow (readHalf s h) p.row = p.value s) ∧
      ∀ r, r < 3 → (∀ p : Place, h.covers p = true → p.row ≠ r) → halfRow (readHalf s h) r = 0

/-- The address forms (R130 to R137, R139, R140, R144): register columns with their rows, the bytes and the tag field of a scratchpad
word and of W, the addresses that name nothing; B goes through Y and C through D on bits 01. That a group 3 register address
selects all three rows whatever its row bits are, where they are not 000 too (R134, U5), is the model's reading (log 21). -/
def Obligations.AddressForms : Prop :=
  ∀ (s : State) (n m : BitVec 3) (b : Byte),
    byteLoc (0#2 ++ n ++ m) = .ok (.regs n m) ∧ byteLoc (2#2 ++ n ++ 0#3) = .ok .none ∧
    (m ≠ 0 → m ≠ 7 → byteLoc (2#2 ++ n ++ m) = .ok (.smByte n (m - 1)) ∧ byteLoc (3#2 ++ 7#3 ++ m) = .ok (.wByte (m - 1))) ∧
    byteLoc (2#2 ++ n ++ 7#3) = .ok (.smTag n) ∧ byteLoc 0xF8 = .ok .none ∧ byteLoc 0xFF = .ok .wTag ∧
    halfLoc .g2 (0#2 ++ n ++ m) = .ok (.regs n m) ∧ halfLoc .g2 (2#2 ++ n ++ m) = .ok (.smHalf n (m.getLsbD 2)) ∧
    halfLoc .g3 (0#2 ++ n ++ m) = .ok (.regs n 7) ∧ halfLoc .g3 (2#2 ++ n ++ 0#3) = .ok (.smHalf n false) ∧
    halfLoc .g3 (2#2 ++ n ++ 4#3) = .ok (.smHalf n true) ∧
    (b.extractLsb' 6 2 = 1 → bAddress s b = s.y ∧ cAddress s b = s.d) ∧
    (b.extractLsb' 6 2 ≠ 1 → bAddress s b = b ∧ cAddress s b = b)

/-- One scratchpad location as source and destination (R359, R508): the invalid operator fault is raised at the state before the
instruction, in which only an indirect B address has copied Y into P-L (R183, R364), for MOVE, HAD and HSB on one half-word, for
TRAN, PARY, ADD, SUB and LEO on one byte or tag field, for ADDC, SUBC and LEOC with A = 001 on a scratchpad byte. SMRD within one
scratchpad word raises it too, as R246 says, unless the installation follows the line of R508's table on SMRD to the letter (log
15). -/
def Obligations.SameScratchpadFaults : Prop :=
  ∀ (i : Instr) (a : BitVec 3) (a2 : BitVec 2) (a1 : BitVec 1) (b c : Byte) (s : State),
    ((∃ src dst, i ∈ [Instr.move b c, .move01000 b c, .move01001 a1 b c] ∧ halfLoc .g2 (bAddress s b) = .ok src ∧
        halfLoc .g2 (cAddress s c) = .ok dst ∧ sameSMHalf src dst = true) ∨
      (∃ src dst, i ∈ [Instr.had a2 b c, .hsb a2 b c] ∧ halfLoc .g3 (bAddress s b) = .ok src ∧
        halfLoc .g3 (cAddress s c) = .ok dst ∧ sameSMHalf src dst = true) ∨
      (∃ bl cl, i ∈ [Instr.tran a b c, .pary a1 b c, .add a b c, .sub a b c, .leo a b c, .leo01111 a b c] ∧
        byteLoc (bAddress s b) = .ok bl ∧ byteLoc (cAddress s c) = .ok cl ∧ sameSMByte bl cl = true) ∨
      (∃ k r q, s.cfg.smrdSameWordFaults = true ∧ i = .smrd b c ∧ halfLoc .g2 (bAddress s b) = .ok (.smHalf k r) ∧
        halfLoc .g2 (cAddress s c) = .ok (.smHalf k q)) ∨
      (∃ bl, a = 1 ∧ i ∈ [Instr.addc a b c, .subc a b c, .leoc a b c] ∧ byteLoc (bAddress s b) = .ok bl ∧
        bl.isSM = true)) →
    exec i s = .next (raiseFault (yCopied s b) .invalidOperator)

/-- What the model refuses by name: MMWR, MMWP and MWRP on a B 5700 (R94 "N/A to B 5700", U16), a translation code reserved for the
main system where a translator is fitted (R279, R280, U14), and the operand addresses for which the spec gives no effect: one that
stays indirect (U1), a W byte address in a half-word instruction (R135, U4), one whose bits 5 to 3 are not 111 in a byte
instruction (R137, U3), a half code that is not 000 or 100 in group 3 (R134, U5). Every instruction with such an address in B, or in
C when B names a location, is refused; GOI looks at Y when its condition holds. Logs 21 to 23, 62. -/
def Obligations.RefusedForms : Prop :=
  ∀ (s : State) (a : BitVec 3) (a2 : BitVec 2) (a1 : BitVec 1) (b c x : Byte) (k : HalfKind) (r : Refusal),
    (s.cfg.mainframe = .b5700 → ∀ i ∈ [Instr.mmwr b c, .mmwp b c, .mwrp b c], exec i s = .refused .notOnB5700) ∧
    (∀ bl cl, byteLoc (bAddress s b) = .ok bl → byteLoc (cAddress s c) = .ok cl → sameSMByte bl cl = false →
      s.cfg.translatorPresent = true →
      (s.cfg.mainframe = .b6700 → a ∈ [(2 : BitVec 3), 3, 6, 7] → exec (.tran a b c) s = .refused .reservedTranslation) ∧
      (s.cfg.mainframe = .b5700 → a ∈ [(0 : BitVec 3), 2, 6, 7] → exec (.tran a b c) s = .refused .reservedTranslation)) ∧
    (x.extractLsb' 6 2 = 1 → halfLoc k x = .error .indirectTwice ∧ byteLoc x = .error .indirectTwice) ∧
    (x.extractLsb' 6 2 = 3 → halfLoc k x = .error .wByteInHalf ∧
      (x.extractLsb' 3 3 ≠ 7 → byteLoc x = .error .wByteAddress)) ∧
    (x.extractLsb' 6 2 = 2 → x.extractLsb' 0 2 ≠ 0 → halfLoc .g3 x = .error .improperHalfCode) ∧
    (∀ i, i ∈ halfMoves a1 b c ∨ (s.cfg.mainframe = .b6700 ∧ i ∈ [Instr.mmwr b c, .mmwp b c, .mwrp b c]) →
      (halfLoc .g2 (bAddress s b) = .error r → exec i s = .refused r) ∧
      ∀ l, halfLoc .g2 (bAddress s b) = .ok l → halfLoc .g2 (cAddress s c) = .error r → exec i s = .refused r) ∧
    (∀ i ∈ [Instr.had a2 b c, .hsb a2 b c],
      (halfLoc .g3 (bAddress s b) = .error r → exec i s = .refused r) ∧
      ∀ l, halfLoc .g3 (bAddress s b) = .ok l → halfLoc .g3 (cAddress s c) = .error r → exec i s = .refused r) ∧
    (∀ i ∈ [Instr.hadb a2 b c, .hsbb a2 b c], halfLoc .g3 (cAddress s c) = .error r → exec i s = .refused r) ∧
    (∀ i ∈ byteToByte a a1 b c,
      (byteLoc (bAddress s b) = .error r → exec i s = .refused r) ∧
      ∀ l, byteLoc (bAddress s b) = .ok l → byteLoc (cAddress s c) = .error r → exec i s = .refused r) ∧
    (∀ i ∈ literalInC a b c, byteLoc (bAddress s b) = .error r → exec i s = .refused r) ∧
    (∀ i ∈ literalInB a b c, byteLoc (cAddress s c) = .error r → exec i s = .refused r) ∧
    (condition s a = true → byteLoc s.y = .error r → exec (.goi a b c) s = .refused r)

/-! ### Faults and orders -/

/-- Taking a fault while the DCP runs with I19 = 0 (R352 to R355): MA goes to SM(0)-R, the I column to MA, IA to the branch
address (I15 and the code of the cause), I19 is set, CF0, CF1, I20, EX, FLT and BSTM go off; nothing else changes. The saved I20
shows EX (R186, R354), also where a stop has left I20 on with EX off; with EX on it is saved as it is, so that an I20 that is zero
with EX on, after EX was set by hand or the program cleared I20, is saved as zero: the model's choice (log 31). That FLT goes off
is the spec's decision D17 (log 31). -/
def Obligations.FaultEntry : Prop :=
  ∀ (s : State) (c : Cause), EntersFaults s → s.cf.getLsbD 3 = false →
    let t := raiseFault s c
    FaultTaken s t 0 (cfAtFault s) (BitVec.ofBool ((ia s).getLsbD 15) ++ 0#10 ++ c.code ((ia s).getLsbD 15)) ∧
      (s.ex = false → t.ma2.getLsbD 4 = false) ∧ t.run = true ∧ wordRight t.p = wordRight s.p ∧
      PlacesKept s t (fun p => p.isMA || among [.sm 0 3, .sm 0 4, .sm 0 5] p) ∧
      RestKept s { t with flt := s.flt, bstm := s.bstm, seq := s.seq, haltFault := s.haltFault }

/-- A fault with I19 = 1 and the panel's part (R356, R366). From local memory the out of control fault is taken: MA goes to SM(1)-R
and IA to main memory address 0010. From main memory, and at STOP ON FAULT, the DCP stops with RUN off, EX and FLT on and the
fault instruction in P-L; EX on in the first case is the spec's decision D19 (log 31). HOLD P-L ignores the condition; with STOP
IMMED the DCP stops then too (R464, D37), which for a time-out and for the fault of a completing access, of which D37 says nothing,
is the model's choice (log 30). At STOP IMMED the DCP stops with the fault instruction in P-L and EX as it was, and when it runs
again the fault instruction is executed and the DCP stops after it: the model's reading of R464 and D37, and for those two conditions
its choice (log 30). That whatever stands in P-L with FLT on is executed as a fault instruction is the model's choice (log 32). -/
def Obligations.FaultInFaultAndPanel : Prop :=
  ∀ (s : State) (c : Cause), s.pending = none → s.run = true →
    (s.env.panel.hold = .holdPL → raiseFault s c = { s with run := decide (s.env.panel.stop ≠ .immediate) }) ∧
    (EntersFaults s → s.cf.getLsbD 3 = true → (ia s).getLsbD 15 = true →
      FaultTaken s (raiseFault s c) 1 (cfAtFault s) 0x0010 ∧ (raiseFault s c).run = true ∧
        PlacesKept s (raiseFault s c) (fun p => p.isMA || among [.sm 1 3, .sm 1 4, .sm 1 5] p)) ∧
    ((s.env.panel.hold = .off ∧ s.cf.getLsbD 3 = true ∧ (ia s).getLsbD 15 = false) ∨ s.env.panel.hold = .stopOnFault →
      FaultWaits s (raiseFault s c) (faultTarget s c) ∧ (raiseFault s c).ex = true) ∧
    (s.env.panel.hold = .off → s.env.panel.stop = .immediate →
      FaultWaits s (raiseFault s c) (faultTarget s c) ∧
        ((s.cf.getLsbD 3 = false ∨ (ia s).getLsbD 15 = true) → (raiseFault s c).ex = s.ex)) ∧
    (s.env.inputs = [] → s.stored = none → s.flt = true → s.haltFault = false → s.env.panel.hold ≠ .holdPL →
      ∃ t, step s = .next (settleTimers t) ∧
        FaultTaken s t (if (wordLeft s.p).extractLsb' 0 5 = 16 then 1 else 0) s.cf ((wordLeft s.p).extractLsb' 0 16) ∧
        t.run = decide (s.env.panel.stop ≠ .immediate) ∧ t.p = s.p)

/-- The five-bit fault codes (Table 2-6, R352) for a program in local memory (first) and in main memory (second), and that of two
simultaneous causes an execution fault is taken before a fetch fault, a fault of a memory access before the invalid operator
(R357), and before the time-out, which is the spec's decision D28 (log 28). That a denied protected write comes before the invalid
operator is the model's choice, since R357 lists both as code-produced and does not rank them (log 28). -/
def Obligations.FaultCodes : Prop :=
  (∀ lm, Cause.code lm .lmAddress = 1 ∧ Cause.code lm .lmParity = 2 ∧ Cause.code lm .clusterError = 3 ∧
    Cause.code lm .mmProtected = 4 ∧ Cause.code lm .mmAddress = 5 ∧ Cause.code lm .mmParity = 6 ∧
    Cause.code lm .mmDetected = 7 ∧ Cause.code lm .timeOut = 11) ∧
  Cause.code true .tag = 8 ∧ Cause.code true .invalidOperator = 8 ∧ Cause.code true .fetchAddress = 9 ∧
  Cause.code true .fetchParity = 10 ∧ Cause.code false .tag = 12 ∧ Cause.code false .invalidOperator = 12 ∧
  Cause.code false .fetchAddress = 13 ∧ Cause.code false .fetchParity = 14 ∧ Cause.code false .fetchDetected = 15 ∧
  (∀ c, higher none c = c) ∧
  (∀ f ∈ [Cause.lmAddress, .lmParity, .clusterError, .mmProtected, .mmAddress, .mmParity, .mmDetected, .invalidOperator,
      .timeOut], ∀ g ∈ [Cause.fetchAddress, .fetchParity, .fetchDetected, .tag],
    higher (some f) g = f ∧ higher (some g) f = f) ∧
  (∀ f ∈ [Cause.mmAddress, .mmDetected, .mmParity, .mmProtected],
    higher (some f) .invalidOperator = f ∧ higher (some f) .timeOut = f)

/-- Initialize of a B 6700 with nothing pending, the DCP ready and the parity good (R369, R371): RUN on; IBA, the low 20 bits of the
information word, stands in bits 20 to 1 of SM(0)-L and the other bits of SM(0)-L are zero (D30, log 34); MA saved in SM(0)-R,
the I column in MA with I20 showing EX (R354), IA zero, I19 set, whatever I19, RUN and STOP ON FAULT were; the host sees ready and
access obtained (R368). An adapter write in progress goes on (log 34). An I20 that is zero with EX on is saved as zero, the model's
choice, and FLT goes off by the spec's decision D17 (log 31). -/
def Obligations.InitializeOrder : Prop :=
  ∀ (s : State) (word : BitVec 48), s.cfg.mainframe = .b6700 → s.pending = none → s.env.panel.onLine = true →
    s.env.panel.hold ≠ .holdPL → s.env.panel.stop ≠ .immediate →
    Initialised s (scanOut s 0 word true) (word.extractLsb' 0 20) ∧
      (scanOut s 0 word true).env = answered s true false none

/-- The other orders (R367 to R377). B 6700: Set Attention Needed sets I23 while RUN is on; Halt sets FLT, clears RUN and EX, and
notes EX in I20 (R354); a DCP that is not ready changes nothing but the reply; wrong parity and another code are answered by scan
access obtained with a transmission error, a scan-in by these and an all-zeros word with a parity error (R368, R370). B 5700: a
dialled order is stored while none is stored, Set Attention Needed only while RUN is on (D31, log 33), and the DCP's next step
performs it: Initialize with the base address 3, Set Attention Needed, Halt at an instruction boundary, which an ARWN held with
neither attention delays (R374 to R377). The model's choices (log 33), on which R374, R376 and R377 are silent: the stored
Initialize, Set Attention Needed or Halt is performed at that step in every state, with RUN off (for Set Attention Needed D31 asks
for RUN and does not say when) and OFF LINE too; the stored Halt falls before a due fetch, clears EX with HOLD P-L on too, and
leaves FLT and a fault instruction that waits in P-L as they are. -/
def Obligations.HostOrders : Prop :=
  ∀ (s : State) (word : BitVec 48),
    (s.cfg.mainframe = .b6700 → s.env.panel.onLine = true → s.env.panel.hold ≠ .holdPL → s.env.panel.stop ≠ .immediate →
      (s.run = true → scanOut s 4 word true =
        { s with cf := 1#1 ++ s.cf.extractLsb' 0 7, env := answered s true false none }) ∧
      (s.run = false → ∀ ok, scanOut s 4 word ok = { s with env := answered s false false none }) ∧
      (let t := scanOut s 2 word true
       t.flt = true ∧ t.run = false ∧ t.ex = false ∧ t.cf = cfAtFault s ∧ ia t = ia s ∧ t.p = s.p ∧ PlacesKept s t nowhere ∧
         MemoryKept s t ∧ t.env = answered s true false none) ∧
      (∀ code ok, code ∈ [(0 : BitVec 3), 2] → ok = false →
        scanOut s code word ok = { s with env := answered s true true none }) ∧
      (s.run = true → scanOut s 4 word false = { s with env := answered s true true none }) ∧
      (∀ code ok, code ∈ [(1 : BitVec 3), 3, 5, 6, 7] →
        scanOut s code word ok = { s with env := answered s true true none }) ∧
      scanIn s = { s with env := answered s true true (some { bits := 0, parityOk := false }) }) ∧
    (s.cfg.mainframe = .b6700 →
      (s.env.panel.onLine = false ∨ s.env.panel.hold = .holdPL ∨ s.env.panel.stop = .immediate) →
      (∀ code ok, scanOut s code word ok = { s with env := answered s false false none }) ∧
      scanIn s = { s with env := answered s false false none }) ∧
    (s.cfg.mainframe = .b5700 → ∀ o,
      (s.stored.isSome = true ∨ s.env.panel.onLine = false → dial s o = s) ∧
      (s.stored = none → s.env.panel.onLine = true →
        dial s o = if s.run = true ∨ o ≠ .setAttention then { s with stored := some o } else s)) ∧
    (s.env.inputs = [] →
      (s.stored = some .initialise → s.pending = none →
        ∃ t, step s = .next (settleTimers t) ∧ Initialised s t 3 ∧ t.stored = none ∧ t.env = s.env) ∧
      (s.stored = some .setAttention →
        step s = .next (settleTimers { s with stored := none, cf := 1#1 ++ s.cf.extractLsb' 0 7 })) ∧
      (s.stored = some .halt → s.clusterWait = false ∨ s.run = false →
        step s = .next (settleTimers { s with stored := none, run := false, ex := false })) ∧
      ∀ b c, s.stored = some .halt → s.clusterWait = true → s.run = true → s.flt = false → s.ex = true → s.pending = none →
        s.adapterWrite = none → wordLeft s.p = encode (.arwn b c) → (∀ j, ¬ calls s j) → s.cf.getLsbD 7 = false →
        step s = .next (settleTimers s))

/-- The attention timer (R365): while RUN is on and a cluster calls or SAN is on, time adds up; when 500 microseconds, 2500 units
of 200 ns, are reached on a side whose condition holds, the time-out fault is raised and the timer starts again from zero; while
neither side is due, nothing but the timer changes; with RUN off nothing changes. That both sides start again from zero where HOLD
P-L ignores the time-out is the model's choice (log 35). -/
def Obligations.AttentionTimer : Prop :=
  ∀ (s : State) (n : Nat),
    (s.run = false → elapse s n = s) ∧
    (s.run = true → (((∃ k, calls s k) ∧ 2500 ≤ s.canTimer + n) ∨ (s.cf.getLsbD 7 = true ∧ 2500 ≤ s.sanTimer + n)) →
      elapse s n = raiseFault { s with canTimer := 0, sanTimer := 0 } .timeOut) ∧
    (s.run = true → ((∃ k, calls s k) → s.canTimer + n < 2500) → (s.cf.getLsbD 7 = true → s.sanTimer + n < 2500) →
      ∃ t, elapse s n = t ∧ ((∃ k, calls s k) → t.canTimer = s.canTimer + n) ∧
        (s.cf.getLsbD 7 = true → t.sanTimer = s.sanTimer + n) ∧
        { t with canTimer := s.canTimer, sanTimer := s.sanTimer } = s)

end Statements
end

