-- ==== Sys2Proof/Laws/Bits.lean ====
section
/-! SUPPORT. The small lemmas of the bit fields: a field of a word built from fields is that field, a word is built from its own
fields, and every bit of an updated byte. -/

namespace Sys2Proof.Machine

/-! ### Appending and extracting -/

theorem extractLsb'_append_low {m n : Nat} (a : BitVec m) (b : BitVec n) : (a ++ b).extractLsb' 0 n = b := by
  apply BitVec.eq_of_getLsbD_eq
  intro i hi
  simp [BitVec.getLsbD_append, hi]

theorem extractLsb'_append_high {m n : Nat} (a : BitVec m) (b : BitVec n) : (a ++ b).extractLsb' n m = a := by
  apply BitVec.eq_of_getLsbD_eq
  intro i hi
  simp [BitVec.getLsbD_append, hi]

theorem extractLsb'_append_mid {m n k : Nat} (a : BitVec m) (b : BitVec n) (c : BitVec k) :
    (a ++ b ++ c).extractLsb' k n = b := by
  apply BitVec.eq_of_getLsbD_eq
  intro i hi
  simp [BitVec.getLsbD_append, hi]

theorem extractLsb'_append_top {m n k : Nat} (a : BitVec m) (b : BitVec n) (c : BitVec k) :
    (a ++ b ++ c).extractLsb' (k + n) m = a := by
  apply BitVec.eq_of_getLsbD_eq
  intro i hi
  simp [BitVec.getLsbD_append, hi, show k + n + i - k - n = i by omega, show ¬ k + n + i < k by omega,
    show ¬ k + n + i - k < n by omega]

theorem append_extractLsb' {m n : Nat} (v : BitVec (m + n)) : v.extractLsb' n m ++ v.extractLsb' 0 n = v := by
  apply BitVec.eq_of_getLsbD_eq
  intro i hi
  rw [BitVec.getLsbD_append]
  split
  · simp_all
  · simp only [BitVec.getLsbD_extractLsb']
    have h : i - n < m := by omega
    simp [h, show n + (i - n) = i by omega]

/-! ### Words -/

@[simp] theorem wordRight_makeWord (t : BitVec 4) (l r : Half) : wordRight (makeWord t l r) = r :=
  extractLsb'_append_low (t ++ l) r

@[simp] theorem wordLeft_makeWord (t : BitVec 4) (l r : Half) : wordLeft (makeWord t l r) = l := extractLsb'_append_mid t l r

@[simp] theorem wordTag_makeWord (t : BitVec 4) (l r : Half) : wordTag (makeWord t l r) = t := extractLsb'_append_top t l r

theorem makeWord_eta (w : Word) : makeWord (wordTag w) (wordLeft w) (wordRight w) = w := by
  apply BitVec.eq_of_getLsbD_eq
  intro i hi
  simp only [makeWord, wordTag, wordLeft, wordRight, BitVec.getLsbD_append, BitVec.getLsbD_extractLsb']
  by_cases h1 : i < 24
  · simp [h1]
  · by_cases h2 : i - 24 < 24
    · simp [h1, h2, show 24 + (i - 24) = i by omega]
    · have h3 : i - 24 - 24 < 4 := by omega
      simp [h1, h2, h3, show 48 + (i - 24 - 24) = i by omega]

/-- Words are equal when their fields are. -/
theorem word_eq {v w : Word} (t : wordTag v = wordTag w) (l : wordLeft v = wordLeft w) (r : wordRight v = wordRight w) :
    v = w := by
  rw [← makeWord_eta v, ← makeWord_eta w, t, l, r]

@[simp] theorem wordLeft_putLeft (w : Word) (h : Half) : wordLeft (putLeft w h) = h := by simp [putLeft]
@[simp] theorem wordRight_putLeft (w : Word) (h : Half) : wordRight (putLeft w h) = wordRight w := by simp [putLeft]
@[simp] theorem wordTag_putLeft (w : Word) (h : Half) : wordTag (putLeft w h) = wordTag w := by simp [putLeft]
@[simp] theorem wordLeft_putRight (w : Word) (h : Half) : wordLeft (putRight w h) = wordLeft w := by simp [putRight]
@[simp] theorem wordRight_putRight (w : Word) (h : Half) : wordRight (putRight w h) = h := by simp [putRight]
@[simp] theorem wordTag_putRight (w : Word) (h : Half) : wordTag (putRight w h) = wordTag w := by simp [putRight]
@[simp] theorem wordLeft_putTag (w : Word) (t : BitVec 4) : wordLeft (putTag w t) = wordLeft w := by simp [putTag]
@[simp] theorem wordRight_putTag (w : Word) (t : BitVec 4) : wordRight (putTag w t) = wordRight w := by simp [putTag]
@[simp] theorem wordTag_putTag (w : Word) (t : BitVec 4) : wordTag (putTag w t) = t := by simp [putTag]

/-! ### Rows -/

@[simp] theorem row0_rows (a b c : Byte) : row0 (rows a b c) = c := extractLsb'_append_low (a ++ b) c

@[simp] theorem row1_rows (a b c : Byte) : row1 (rows a b c) = b := extractLsb'_append_mid a b c

@[simp] theorem row2_rows (a b c : Byte) : row2 (rows a b c) = a := extractLsb'_append_top a b c

theorem rows_eta (h : Half) : rows (row2 h) (row1 h) (row0 h) = h := by
  apply BitVec.eq_of_getLsbD_eq
  intro i hi
  simp only [rows, row2, row1, row0, BitVec.getLsbD_append, BitVec.getLsbD_extractLsb']
  by_cases h1 : i < 8
  · simp [h1]
  · by_cases h2 : i - 8 < 8
    · simp [h1, h2, show 8 + (i - 8) = i by omega]
    · have h3 : i - 8 - 8 < 8 := by omega
      simp [h1, h2, h3, show 16 + (i - 8 - 8) = i by omega]

/-- Half-words are equal when their rows are. -/
theorem half_eq {v w : Half} (r2 : row2 v = row2 w) (r1 : row1 v = row1 w) (r0 : row0 v = row0 w) : v = w := by
  rw [← rows_eta v, ← rows_eta w, r2, r1, r0]

theorem halfRow_zero (h : Half) : halfRow h 0 = row0 h := rfl
theorem halfRow_one (h : Half) : halfRow h 1 = row1 h := rfl
theorem halfRow_two (h : Half) : halfRow h 2 = row2 h := rfl

@[simp] theorem row2_selectRows (sel : BitVec 3) (n o : Half) :
    row2 (selectRows sel n o) = if sel.getLsbD 2 then row2 n else row2 o := by simp [selectRows, pick]
@[simp] theorem row1_selectRows (sel : BitVec 3) (n o : Half) :
    row1 (selectRows sel n o) = if sel.getLsbD 1 then row1 n else row1 o := by simp [selectRows, pick]
@[simp] theorem row0_selectRows (sel : BitVec 3) (n o : Half) :
    row0 (selectRows sel n o) = if sel.getLsbD 0 then row0 n else row0 o := by simp [selectRows, pick]

/-! ### The bytes and the tag field of a word, by bit numbers -/

theorem extract_byte_left (w : Word) (n : Nat) (h : n < 3) :
    w.extractLsb' (40 - 8 * n) 8 = halfRow (wordLeft w) (2 - n) := by
  apply BitVec.eq_of_getLsbD_eq
  intro i hi
  simp only [halfRow, wordLeft, BitVec.getLsbD_extractLsb', hi, decide_true, Bool.true_and]
  have h2 : 8 * (2 - n) + i < 24 := by omega
  simp [h2, show 24 + (8 * (2 - n) + i) = 40 - 8 * n + i by omega]

theorem extract_byte_right (w : Word) (n : Nat) (h1 : 3 ≤ n) (h2 : n < 6) :
    w.extractLsb' (40 - 8 * n) 8 = halfRow (wordRight w) (5 - n) := by
  apply BitVec.eq_of_getLsbD_eq
  intro i hi
  simp only [halfRow, wordRight, BitVec.getLsbD_extractLsb', hi, decide_true, Bool.true_and]
  have h3 : 8 * (5 - n) + i < 24 := by omega
  simp [h3, show 0 + (8 * (5 - n) + i) = 40 - 8 * n + i by omega]

theorem extract_tag (w : Word) : w.extractLsb' 48 4 = wordTag w := rfl

/-! ### Single bits -/

/-- Every bit of a byte with one bit set. -/
theorem getLsbD_setBit (v : Byte) (k : Nat) (b : Bool) (j : Nat) :
    (setBit v k b).getLsbD j = if j = k ∧ k < 8 then b else v.getLsbD j := by
  by_cases hj : j < 8
  · simp only [setBit, BitVec.getLsbD_or, BitVec.getLsbD_and, BitVec.getLsbD_not, BitVec.getLsbD_shiftLeft, hj,
      BitVec.getLsbD_one, BitVec.getLsbD_setWidth, BitVec.getLsbD_ofBool, decide_true, Bool.true_and]
    by_cases h : j = k
    · subst h; simp [hj]
    · by_cases h2 : j < k
      · simp [h, h2]
      · have : j - k ≠ 0 := by omega
        simp [h, h2, this]
  · have e : ∀ w : Byte, w.getLsbD j = false := fun w => BitVec.getLsbD_of_ge w j (by omega)
    rw [e, e]
    split
    · omega
    · rfl

/-- Every bit of CF with new flags. -/
theorem getLsbD_withFlags (cf : Byte) (c z : Bool) (j : Nat) :
    (withFlags cf c z).getLsbD j = if j = 0 then c else if j = 1 then z else cf.getLsbD j := by
  simp only [withFlags, getLsbD_setBit]
  by_cases h0 : j = 0 <;> by_cases h1 : j = 1 <;> simp_all

/-- Every bit of CF with new flags, as statements write it. -/
theorem getLsbD_flagged (cf : Byte) (c z : Bool) (j : Nat) :
    (flagged cf c z).getLsbD j = if j = 0 then c else if j = 1 then z else cf.getLsbD j := by
  by_cases hj : j < 8
  · simp only [flagged, BitVec.getLsbD_append, BitVec.getLsbD_extractLsb', BitVec.getLsbD_ofBool]
    by_cases h0 : j = 0
    · subst h0; simp
    · by_cases h1 : j = 1
      · subst h1; simp
      · have h2 : ¬ j < 1 := by omega
        have h3 : ¬ j - 1 < 1 := by omega
        have h4 : j - 1 - 1 < 6 := by omega
        simp [h0, h1, h2, h3, h4, show 2 + (j - 1 - 1) = j by omega]
  · have e : ∀ w : Byte, w.getLsbD j = false := fun w => BitVec.getLsbD_of_ge w j (by omega)
    rw [e, e]
    have h0 : j ≠ 0 := by omega
    have h1 : j ≠ 1 := by omega
    simp [h0, h1]

/-- Every bit of CF with I21 replaced. -/
theorem getLsbD_withI21 (cf : Byte) (v : Bool) (j : Nat) :
    (withI21 cf v).getLsbD j = if j = 5 then v else cf.getLsbD j := by
  by_cases hj : j < 8
  · simp only [withI21, BitVec.getLsbD_append, BitVec.getLsbD_extractLsb', BitVec.getLsbD_ofBool]
    by_cases h0 : j = 5
    · subst h0; simp
    · by_cases h1 : j < 5
      · simp [h0, h1]
      · have h3 : ¬ j - 5 < 1 := by omega
        have h4 : j - 5 - 1 < 2 := by omega
        simp [h0, h1, h3, h4, show 6 + (j - 5 - 1) = j by omega]
  · have e : ∀ w : Byte, w.getLsbD j = false := fun w => BitVec.getLsbD_of_ge w j (by omega)
    rw [e, e]
    have h0 : j ≠ 5 := by omega
    simp [h0]

/-- Every bit of CF with I23 replaced. -/
theorem getLsbD_withI23 (cf : Byte) (v : Bool) (j : Nat) :
    (withI23 cf v).getLsbD j = if j = 7 then v else cf.getLsbD j := by
  by_cases hj : j < 8
  · simp only [withI23, BitVec.getLsbD_append, BitVec.getLsbD_extractLsb', BitVec.getLsbD_ofBool]
    by_cases h0 : j = 7
    · subst h0; simp
    · have h1 : j < 7 := by omega
      simp [h0, h1]
  · have e : ∀ w : Byte, w.getLsbD j = false := fun w => BitVec.getLsbD_of_ge w j (by omega)
    rw [e, e]
    have h0 : j ≠ 7 := by omega
    simp [h0]

/-- Every bit of CF after a half-word addition, as statements write it. -/
theorem getLsbD_halfFlagged (cf : Byte) (c z : Bool) (j : Nat) :
    (halfFlagged cf c z).getLsbD j = if j = 0 then c else if j = 1 then z else if j = 2 then false else cf.getLsbD j := by
  by_cases hj : j < 8
  · simp only [halfFlagged, BitVec.getLsbD_append, BitVec.getLsbD_extractLsb', BitVec.getLsbD_ofBool]
    by_cases h0 : j = 0
    · subst h0; simp
    · by_cases h1 : j = 1
      · subst h1; simp
      · by_cases h2 : j = 2
        · subst h2; simp
        · have g2 : ¬ j < 1 := by omega
          have g3 : ¬ j - 1 < 1 := by omega
          have g5 : ¬ j - 1 - 1 < 1 := by omega
          have g4 : j - 1 - 1 - 1 < 5 := by omega
          simp [h0, h1, h2, g2, g3, g4, g5, show 3 + (j - 1 - 1 - 1) = j by omega]
  · have e : ∀ w : Byte, w.getLsbD j = false := fun w => BitVec.getLsbD_of_ge w j (by omega)
    rw [e, e]
    have h0 : j ≠ 0 := by omega
    have h1 : j ≠ 1 := by omega
    have h2 : j ≠ 2 := by omega
    simp [h0, h1, h2]

theorem getElem_setBit (v : Byte) (k : Nat) (b : Bool) (j : Nat) (h : j < 8) :
    (setBit v k b)[j] = if j = k ∧ k < 8 then b else v[j] := by
  have := getLsbD_setBit v k b j
  simpa [← BitVec.getLsbD_eq_getElem] using this

theorem getElem_withFlags (cf : Byte) (c z : Bool) (j : Nat) (h : j < 8) :
    (withFlags cf c z)[j] = if j = 0 then c else if j = 1 then z else cf[j] := by
  have := getLsbD_withFlags cf c z j
  simpa [← BitVec.getLsbD_eq_getElem] using this

/-! ### The instruction address -/

@[simp] theorem ia_of_bytes (v : InstrAddr) : iaHigh v ++ iaLow v = v := append_extractLsb' (m := 8) (n := 8) v

@[simp] theorem iaHigh_append (a b : Byte) : iaHigh (a ++ b) = a := extractLsb'_append_high a b
@[simp] theorem iaLow_append (a b : Byte) : iaLow (a ++ b) = b := extractLsb'_append_low a b

/-! ### Parity -/

theorem xorLow_congr {m n : Nat} (v : BitVec m) (w : BitVec n) (k : Nat) (h : ∀ i, i < k → v.getLsbD i = w.getLsbD i) :
    xorLow v k = xorLow w k := by
  induction k with
  | zero => rfl
  | succ k ih => simp only [xorLow, h k (Nat.lt_succ_self k), ih fun i hi => h i (Nat.lt_succ_of_lt hi)]

/-- The bits of a word with generated parity (R90). -/
theorem getLsbD_withParity (v : Word) (j : Nat) (h : j < 51) : (withParity v).getLsbD j = v.getLsbD j := by
  have e : (withParity v).extractLsb' 0 51 = v.extractLsb' 0 51 := extractLsb'_append_low (BitVec.ofBool (!(xorLow v 51))) _
  have e2 := congrArg (fun w : BitVec 51 => w.getLsbD j) e
  simpa [BitVec.getLsbD_extractLsb', h] using e2

/-- A word with generated parity has odd parity (R90). -/
@[simp] theorem oddParity_withParity (v : Word) : oddParity (withParity v) = true := by
  have h : xorLow (withParity v) 51 = xorLow v 51 := xorLow_congr _ _ _ fun i hi => getLsbD_withParity v i hi
  have e : (withParity v).extractLsb' 51 1 = BitVec.ofBool (!(xorLow v 51)) :=
    extractLsb'_append_high (BitVec.ofBool (!(xorLow v 51))) (v.extractLsb' 0 51)
  have h51 : (withParity v).getLsbD 51 = !(xorLow v 51) := by
    have e2 := congrArg (fun w : BitVec 1 => w.getLsbD 0) e
    simpa [BitVec.getLsbD_extractLsb'] using e2
  unfold oddParity
  rw [xorLow, h51, h]
  cases xorLow v 51 <;> rfl

@[simp] theorem wordLeft_withParity (v : Word) : wordLeft (withParity v) = wordLeft v := by
  apply BitVec.eq_of_getLsbD_eq
  intro i hi
  simp only [wordLeft, BitVec.getLsbD_extractLsb', hi]
  rw [getLsbD_withParity _ _ (by omega)]

@[simp] theorem wordRight_withParity (v : Word) : wordRight (withParity v) = wordRight v := by
  apply BitVec.eq_of_getLsbD_eq
  intro i hi
  simp only [wordRight, BitVec.getLsbD_extractLsb', hi]
  rw [getLsbD_withParity _ _ (by omega)]

theorem tag_withParity (v : Word) : (withParity v).extractLsb' 48 3 = v.extractLsb' 48 3 := by
  apply BitVec.eq_of_getLsbD_eq
  intro i hi
  simp only [BitVec.getLsbD_extractLsb', hi]
  rw [getLsbD_withParity _ _ (by omega)]

end Sys2Proof.Machine
end

