-- ==== Sys2Proof/Laws/State.lean ====
section
/-! SUPPORT. What every update of the state does to every field: one lemma per field and update, true by rfl, so that a
proof never unfolds a record update. -/

namespace Sys2Proof.Machine

/-! ### setMA -/

@[simp] theorem setMA_cfg (s : State) (h : Half) : (setMA s h).cfg = (s.cfg) := rfl
@[simp] theorem setMA_aa (s : State) (h : Half) : (setMA s h).aa = (s.aa) := rfl
@[simp] theorem setMA_ac (s : State) (h : Half) : (setMA s h).ac = (s.ac) := rfl
@[simp] theorem setMA_ai (s : State) (h : Half) : (setMA s h).ai = (s.ai) := rfl
@[simp] theorem setMA_d (s : State) (h : Half) : (setMA s h).d = (s.d) := rfl
@[simp] theorem setMA_y (s : State) (h : Half) : (setMA s h).y = (s.y) := rfl
@[simp] theorem setMA_x (s : State) (h : Half) : (setMA s h).x = (s.x) := rfl
@[simp] theorem setMA_ma2 (s : State) (h : Half) : (setMA s h).ma2 = (row2 h) := rfl
@[simp] theorem setMA_ma1 (s : State) (h : Half) : (setMA s h).ma1 = (row1 h) := rfl
@[simp] theorem setMA_ma0 (s : State) (h : Half) : (setMA s h).ma0 = (row0 h) := rfl
@[simp] theorem setMA_cf (s : State) (h : Half) : (setMA s h).cf = (s.cf) := rfl
@[simp] theorem setMA_ia1 (s : State) (h : Half) : (setMA s h).ia1 = (s.ia1) := rfl
@[simp] theorem setMA_ia0 (s : State) (h : Half) : (setMA s h).ia0 = (s.ia0) := rfl
@[simp] theorem setMA_w (s : State) (h : Half) : (setMA s h).w = (s.w) := rfl
@[simp] theorem setMA_p (s : State) (h : Half) : (setMA s h).p = (s.p) := rfl
@[simp] theorem setMA_ba (s : State) (h : Half) : (setMA s h).ba = (s.ba) := rfl
@[simp] theorem setMA_cm (s : State) (h : Half) : (setMA s h).cm = (s.cm) := rfl
@[simp] theorem setMA_sm (s : State) (h : Half) : (setMA s h).sm = (s.sm) := rfl
@[simp] theorem setMA_run (s : State) (h : Half) : (setMA s h).run = (s.run) := rfl
@[simp] theorem setMA_ex (s : State) (h : Half) : (setMA s h).ex = (s.ex) := rfl
@[simp] theorem setMA_flt (s : State) (h : Half) : (setMA s h).flt = (s.flt) := rfl
@[simp] theorem setMA_bstm (s : State) (h : Half) : (setMA s h).bstm = (s.bstm) := rfl
@[simp] theorem setMA_pypc (s : State) (h : Half) : (setMA s h).pypc = (s.pypc) := rfl
@[simp] theorem setMA_pywc (s : State) (h : Half) : (setMA s h).pywc = (s.pywc) := rfl
@[simp] theorem setMA_scm (s : State) (h : Half) : (setMA s h).scm = (s.scm) := rfl
@[simp] theorem setMA_seq (s : State) (h : Half) : (setMA s h).seq = (s.seq) := rfl
@[simp] theorem setMA_pending (s : State) (h : Half) : (setMA s h).pending = (s.pending) := rfl
@[simp] theorem setMA_adapterWrite (s : State) (h : Half) : (setMA s h).adapterWrite = (s.adapterWrite) := rfl
@[simp] theorem setMA_scanCounter (s : State) (h : Half) : (setMA s h).scanCounter = (s.scanCounter) := rfl
@[simp] theorem setMA_canTimer (s : State) (h : Half) : (setMA s h).canTimer = (s.canTimer) := rfl
@[simp] theorem setMA_sanTimer (s : State) (h : Half) : (setMA s h).sanTimer = (s.sanTimer) := rfl
@[simp] theorem setMA_stored (s : State) (h : Half) : (setMA s h).stored = (s.stored) := rfl
@[simp] theorem setMA_haltFault (s : State) (h : Half) : (setMA s h).haltFault = (s.haltFault) := rfl
@[simp] theorem setMA_clusterWait (s : State) (h : Half) : (setMA s h).clusterWait = (s.clusterWait) := rfl
@[simp] theorem setMA_lm (s : State) (h : Half) : (setMA s h).lm = (s.lm) := rfl
@[simp] theorem setMA_mm (s : State) (h : Half) : (setMA s h).mm = (s.mm) := rfl
@[simp] theorem setMA_clusters (s : State) (h : Half) : (setMA s h).clusters = (s.clusters) := rfl
@[simp] theorem setMA_env (s : State) (h : Half) : (setMA s h).env = (s.env) := rfl
@[simp] theorem setMA_free (s : State) (h : Half) : (setMA s h).free = (s.free) := rfl

/-! ### setSM -/

@[simp] theorem setSM_cfg (s : State) (k : BitVec 3) (v : Word) : (setSM s k v).cfg = (s.cfg) := rfl
@[simp] theorem setSM_aa (s : State) (k : BitVec 3) (v : Word) : (setSM s k v).aa = (s.aa) := rfl
@[simp] theorem setSM_ac (s : State) (k : BitVec 3) (v : Word) : (setSM s k v).ac = (s.ac) := rfl
@[simp] theorem setSM_ai (s : State) (k : BitVec 3) (v : Word) : (setSM s k v).ai = (s.ai) := rfl
@[simp] theorem setSM_d (s : State) (k : BitVec 3) (v : Word) : (setSM s k v).d = (s.d) := rfl
@[simp] theorem setSM_y (s : State) (k : BitVec 3) (v : Word) : (setSM s k v).y = (s.y) := rfl
@[simp] theorem setSM_x (s : State) (k : BitVec 3) (v : Word) : (setSM s k v).x = (s.x) := rfl
@[simp] theorem setSM_ma2 (s : State) (k : BitVec 3) (v : Word) : (setSM s k v).ma2 = (s.ma2) := rfl
@[simp] theorem setSM_ma1 (s : State) (k : BitVec 3) (v : Word) : (setSM s k v).ma1 = (s.ma1) := rfl
@[simp] theorem setSM_ma0 (s : State) (k : BitVec 3) (v : Word) : (setSM s k v).ma0 = (s.ma0) := rfl
@[simp] theorem setSM_cf (s : State) (k : BitVec 3) (v : Word) : (setSM s k v).cf = (s.cf) := rfl
@[simp] theorem setSM_ia1 (s : State) (k : BitVec 3) (v : Word) : (setSM s k v).ia1 = (s.ia1) := rfl
@[simp] theorem setSM_ia0 (s : State) (k : BitVec 3) (v : Word) : (setSM s k v).ia0 = (s.ia0) := rfl
@[simp] theorem setSM_w (s : State) (k : BitVec 3) (v : Word) : (setSM s k v).w = (s.w) := rfl
@[simp] theorem setSM_p (s : State) (k : BitVec 3) (v : Word) : (setSM s k v).p = (s.p) := rfl
@[simp] theorem setSM_ba (s : State) (k : BitVec 3) (v : Word) : (setSM s k v).ba = (s.ba) := rfl
@[simp] theorem setSM_cm (s : State) (k : BitVec 3) (v : Word) : (setSM s k v).cm = (s.cm) := rfl
@[simp] theorem setSM_sm (s : State) (k : BitVec 3) (v : Word) : (setSM s k v).sm = (s.sm.set k.toNat v k.isLt) := rfl
@[simp] theorem setSM_run (s : State) (k : BitVec 3) (v : Word) : (setSM s k v).run = (s.run) := rfl
@[simp] theorem setSM_ex (s : State) (k : BitVec 3) (v : Word) : (setSM s k v).ex = (s.ex) := rfl
@[simp] theorem setSM_flt (s : State) (k : BitVec 3) (v : Word) : (setSM s k v).flt = (s.flt) := rfl
@[simp] theorem setSM_bstm (s : State) (k : BitVec 3) (v : Word) : (setSM s k v).bstm = (s.bstm) := rfl
@[simp] theorem setSM_pypc (s : State) (k : BitVec 3) (v : Word) : (setSM s k v).pypc = (s.pypc) := rfl
@[simp] theorem setSM_pywc (s : State) (k : BitVec 3) (v : Word) : (setSM s k v).pywc = (s.pywc) := rfl
@[simp] theorem setSM_scm (s : State) (k : BitVec 3) (v : Word) : (setSM s k v).scm = (s.scm) := rfl
@[simp] theorem setSM_seq (s : State) (k : BitVec 3) (v : Word) : (setSM s k v).seq = (s.seq) := rfl
@[simp] theorem setSM_pending (s : State) (k : BitVec 3) (v : Word) : (setSM s k v).pending = (s.pending) := rfl
@[simp] theorem setSM_adapterWrite (s : State) (k : BitVec 3) (v : Word) : (setSM s k v).adapterWrite = (s.adapterWrite) := rfl
@[simp] theorem setSM_scanCounter (s : State) (k : BitVec 3) (v : Word) : (setSM s k v).scanCounter = (s.scanCounter) := rfl
@[simp] theorem setSM_canTimer (s : State) (k : BitVec 3) (v : Word) : (setSM s k v).canTimer = (s.canTimer) := rfl
@[simp] theorem setSM_sanTimer (s : State) (k : BitVec 3) (v : Word) : (setSM s k v).sanTimer = (s.sanTimer) := rfl
@[simp] theorem setSM_stored (s : State) (k : BitVec 3) (v : Word) : (setSM s k v).stored = (s.stored) := rfl
@[simp] theorem setSM_haltFault (s : State) (k : BitVec 3) (v : Word) : (setSM s k v).haltFault = (s.haltFault) := rfl
@[simp] theorem setSM_clusterWait (s : State) (k : BitVec 3) (v : Word) : (setSM s k v).clusterWait = (s.clusterWait) := rfl
@[simp] theorem setSM_lm (s : State) (k : BitVec 3) (v : Word) : (setSM s k v).lm = (s.lm) := rfl
@[simp] theorem setSM_mm (s : State) (k : BitVec 3) (v : Word) : (setSM s k v).mm = (s.mm) := rfl
@[simp] theorem setSM_clusters (s : State) (k : BitVec 3) (v : Word) : (setSM s k v).clusters = (s.clusters) := rfl
@[simp] theorem setSM_env (s : State) (k : BitVec 3) (v : Word) : (setSM s k v).env = (s.env) := rfl
@[simp] theorem setSM_free (s : State) (k : BitVec 3) (v : Word) : (setSM s k v).free = (s.free) := rfl

/-! ### startInstruction -/

@[simp] theorem startInstruction_cfg (s : State) (v : Word) : (startInstruction s v).cfg = (s.cfg) := rfl
@[simp] theorem startInstruction_aa (s : State) (v : Word) : (startInstruction s v).aa = (s.aa) := rfl
@[simp] theorem startInstruction_ac (s : State) (v : Word) : (startInstruction s v).ac = (s.ac) := rfl
@[simp] theorem startInstruction_ai (s : State) (v : Word) : (startInstruction s v).ai = (s.ai) := rfl
@[simp] theorem startInstruction_d (s : State) (v : Word) : (startInstruction s v).d = (s.d) := rfl
@[simp] theorem startInstruction_y (s : State) (v : Word) : (startInstruction s v).y = (s.y) := rfl
@[simp] theorem startInstruction_x (s : State) (v : Word) : (startInstruction s v).x = (s.x) := rfl
@[simp] theorem startInstruction_ma2 (s : State) (v : Word) : (startInstruction s v).ma2 = (s.ma2) := rfl
@[simp] theorem startInstruction_ma1 (s : State) (v : Word) : (startInstruction s v).ma1 = (s.ma1) := rfl
@[simp] theorem startInstruction_ma0 (s : State) (v : Word) : (startInstruction s v).ma0 = (s.ma0) := rfl
@[simp] theorem startInstruction_cf (s : State) (v : Word) : (startInstruction s v).cf = (setBit s.cf 4 true) := rfl
@[simp] theorem startInstruction_ia1 (s : State) (v : Word) : (startInstruction s v).ia1 = (iaHigh (ia s + 1)) := rfl
@[simp] theorem startInstruction_ia0 (s : State) (v : Word) : (startInstruction s v).ia0 = (iaLow (ia s + 1)) := rfl
@[simp] theorem startInstruction_w (s : State) (v : Word) : (startInstruction s v).w = (s.w) := rfl
@[simp] theorem startInstruction_p (s : State) (v : Word) : (startInstruction s v).p = (pick (i00 s) (putLeft v (wordRight v)) v) := rfl
@[simp] theorem startInstruction_ba (s : State) (v : Word) : (startInstruction s v).ba = (s.ba) := rfl
@[simp] theorem startInstruction_cm (s : State) (v : Word) : (startInstruction s v).cm = (s.cm) := rfl
@[simp] theorem startInstruction_sm (s : State) (v : Word) : (startInstruction s v).sm = (s.sm) := rfl
@[simp] theorem startInstruction_run (s : State) (v : Word) : (startInstruction s v).run = (s.run) := rfl
@[simp] theorem startInstruction_ex (s : State) (v : Word) : (startInstruction s v).ex = (true) := rfl
@[simp] theorem startInstruction_flt (s : State) (v : Word) : (startInstruction s v).flt = (s.flt) := rfl
@[simp] theorem startInstruction_bstm (s : State) (v : Word) : (startInstruction s v).bstm = (s.bstm) := rfl
@[simp] theorem startInstruction_pypc (s : State) (v : Word) : (startInstruction s v).pypc = (false) := rfl
@[simp] theorem startInstruction_pywc (s : State) (v : Word) : (startInstruction s v).pywc = (s.pywc) := rfl
@[simp] theorem startInstruction_scm (s : State) (v : Word) : (startInstruction s v).scm = (s.scm) := rfl
@[simp] theorem startInstruction_seq (s : State) (v : Word) : (startInstruction s v).seq = (s.seq) := rfl
@[simp] theorem startInstruction_pending (s : State) (v : Word) : (startInstruction s v).pending = (s.pending) := rfl
@[simp] theorem startInstruction_adapterWrite (s : State) (v : Word) : (startInstruction s v).adapterWrite = (s.adapterWrite) := rfl
@[simp] theorem startInstruction_scanCounter (s : State) (v : Word) : (startInstruction s v).scanCounter = (s.scanCounter) := rfl
@[simp] theorem startInstruction_canTimer (s : State) (v : Word) : (startInstruction s v).canTimer = (s.canTimer) := rfl
@[simp] theorem startInstruction_sanTimer (s : State) (v : Word) : (startInstruction s v).sanTimer = (s.sanTimer) := rfl
@[simp] theorem startInstruction_stored (s : State) (v : Word) : (startInstruction s v).stored = (s.stored) := rfl
@[simp] theorem startInstruction_haltFault (s : State) (v : Word) : (startInstruction s v).haltFault = (s.haltFault) := rfl
@[simp] theorem startInstruction_clusterWait (s : State) (v : Word) : (startInstruction s v).clusterWait = (s.clusterWait) := rfl
@[simp] theorem startInstruction_lm (s : State) (v : Word) : (startInstruction s v).lm = (s.lm) := rfl
@[simp] theorem startInstruction_mm (s : State) (v : Word) : (startInstruction s v).mm = (s.mm) := rfl
@[simp] theorem startInstruction_clusters (s : State) (v : Word) : (startInstruction s v).clusters = (s.clusters) := rfl
@[simp] theorem startInstruction_env (s : State) (v : Word) : (startInstruction s v).env = (s.env) := rfl
@[simp] theorem startInstruction_free (s : State) (v : Word) : (startInstruction s v).free = (s.free) := rfl

/-! ### release -/

@[simp] theorem release_cfg (s : State) : (release s).cfg = (s.cfg) := rfl
@[simp] theorem release_aa (s : State) : (release s).aa = (s.aa) := rfl
@[simp] theorem release_ac (s : State) : (release s).ac = (s.ac) := rfl
@[simp] theorem release_ai (s : State) : (release s).ai = (s.ai) := rfl
@[simp] theorem release_d (s : State) : (release s).d = (s.d) := rfl
@[simp] theorem release_y (s : State) : (release s).y = (s.y) := rfl
@[simp] theorem release_x (s : State) : (release s).x = (s.x) := rfl
@[simp] theorem release_ma2 (s : State) : (release s).ma2 = (s.ma2) := rfl
@[simp] theorem release_ma1 (s : State) : (release s).ma1 = (s.ma1) := rfl
@[simp] theorem release_ma0 (s : State) : (release s).ma0 = (s.ma0) := rfl
@[simp] theorem release_cf (s : State) : (release s).cf = (pick (holdPL s) s.cf (setBit s.cf 4 (transfers s))) := rfl
@[simp] theorem release_ia1 (s : State) : (release s).ia1 = (pick (transfers s) (iaHigh (ia s + 1)) s.ia1) := rfl
@[simp] theorem release_ia0 (s : State) : (release s).ia0 = (pick (transfers s) (iaLow (ia s + 1)) s.ia0) := rfl
@[simp] theorem release_w (s : State) : (release s).w = (s.w) := rfl
@[simp] theorem release_p (s : State) : (release s).p = (pick (transfers s) (putLeft s.p (wordRight s.p)) s.p) := rfl
@[simp] theorem release_ba (s : State) : (release s).ba = (s.ba) := rfl
@[simp] theorem release_cm (s : State) : (release s).cm = (s.cm) := rfl
@[simp] theorem release_sm (s : State) : (release s).sm = (s.sm) := rfl
@[simp] theorem release_run (s : State) : (release s).run = (s.run && !stopImmediate s && !(transfers s && stopOnFetch s)) := rfl
@[simp] theorem release_ex (s : State) : (release s).ex = (holdPL s || transfers s) := rfl
@[simp] theorem release_flt (s : State) : (release s).flt = (s.flt) := rfl
@[simp] theorem release_bstm (s : State) : (release s).bstm = (s.bstm) := rfl
@[simp] theorem release_pypc (s : State) : (release s).pypc = (s.pypc) := rfl
@[simp] theorem release_pywc (s : State) : (release s).pywc = (s.pywc) := rfl
@[simp] theorem release_scm (s : State) : (release s).scm = (s.scm) := rfl
@[simp] theorem release_seq (s : State) : (release s).seq = (s.seq) := rfl
@[simp] theorem release_pending (s : State) : (release s).pending = (s.pending) := rfl
@[simp] theorem release_adapterWrite (s : State) : (release s).adapterWrite = (s.adapterWrite) := rfl
@[simp] theorem release_scanCounter (s : State) : (release s).scanCounter = (s.scanCounter) := rfl
@[simp] theorem release_canTimer (s : State) : (release s).canTimer = (s.canTimer) := rfl
@[simp] theorem release_sanTimer (s : State) : (release s).sanTimer = (s.sanTimer) := rfl
@[simp] theorem release_stored (s : State) : (release s).stored = (s.stored) := rfl
@[simp] theorem release_haltFault (s : State) : (release s).haltFault = (s.haltFault) := rfl
@[simp] theorem release_clusterWait (s : State) : (release s).clusterWait = (false) := rfl
@[simp] theorem release_lm (s : State) : (release s).lm = (s.lm) := rfl
@[simp] theorem release_mm (s : State) : (release s).mm = (s.mm) := rfl
@[simp] theorem release_clusters (s : State) : (release s).clusters = (s.clusters) := rfl
@[simp] theorem release_env (s : State) : (release s).env = (s.env) := rfl
@[simp] theorem release_free (s : State) : (release s).free = (s.free) := rfl

/-! ### releaseFetch -/

@[simp] theorem releaseFetch_cfg (s : State) : (releaseFetch s).cfg = (s.cfg) := rfl
@[simp] theorem releaseFetch_aa (s : State) : (releaseFetch s).aa = (s.aa) := rfl
@[simp] theorem releaseFetch_ac (s : State) : (releaseFetch s).ac = (s.ac) := rfl
@[simp] theorem releaseFetch_ai (s : State) : (releaseFetch s).ai = (s.ai) := rfl
@[simp] theorem releaseFetch_d (s : State) : (releaseFetch s).d = (s.d) := rfl
@[simp] theorem releaseFetch_y (s : State) : (releaseFetch s).y = (s.y) := rfl
@[simp] theorem releaseFetch_x (s : State) : (releaseFetch s).x = (s.x) := rfl
@[simp] theorem releaseFetch_ma2 (s : State) : (releaseFetch s).ma2 = (s.ma2) := rfl
@[simp] theorem releaseFetch_ma1 (s : State) : (releaseFetch s).ma1 = (s.ma1) := rfl
@[simp] theorem releaseFetch_ma0 (s : State) : (releaseFetch s).ma0 = (s.ma0) := rfl
@[simp] theorem releaseFetch_cf (s : State) : (releaseFetch s).cf = (pick (holdPL s) s.cf (setBit s.cf 4 false)) := rfl
@[simp] theorem releaseFetch_ia1 (s : State) : (releaseFetch s).ia1 = (s.ia1) := rfl
@[simp] theorem releaseFetch_ia0 (s : State) : (releaseFetch s).ia0 = (s.ia0) := rfl
@[simp] theorem releaseFetch_w (s : State) : (releaseFetch s).w = (s.w) := rfl
@[simp] theorem releaseFetch_p (s : State) : (releaseFetch s).p = (s.p) := rfl
@[simp] theorem releaseFetch_ba (s : State) : (releaseFetch s).ba = (s.ba) := rfl
@[simp] theorem releaseFetch_cm (s : State) : (releaseFetch s).cm = (s.cm) := rfl
@[simp] theorem releaseFetch_sm (s : State) : (releaseFetch s).sm = (s.sm) := rfl
@[simp] theorem releaseFetch_run (s : State) : (releaseFetch s).run = (s.run && !stopImmediate s) := rfl
@[simp] theorem releaseFetch_ex (s : State) : (releaseFetch s).ex = (holdPL s) := rfl
@[simp] theorem releaseFetch_flt (s : State) : (releaseFetch s).flt = (s.flt) := rfl
@[simp] theorem releaseFetch_bstm (s : State) : (releaseFetch s).bstm = (s.bstm) := rfl
@[simp] theorem releaseFetch_pypc (s : State) : (releaseFetch s).pypc = (s.pypc) := rfl
@[simp] theorem releaseFetch_pywc (s : State) : (releaseFetch s).pywc = (s.pywc) := rfl
@[simp] theorem releaseFetch_scm (s : State) : (releaseFetch s).scm = (s.scm) := rfl
@[simp] theorem releaseFetch_seq (s : State) : (releaseFetch s).seq = (s.seq) := rfl
@[simp] theorem releaseFetch_pending (s : State) : (releaseFetch s).pending = (s.pending) := rfl
@[simp] theorem releaseFetch_adapterWrite (s : State) : (releaseFetch s).adapterWrite = (s.adapterWrite) := rfl
@[simp] theorem releaseFetch_scanCounter (s : State) : (releaseFetch s).scanCounter = (s.scanCounter) := rfl
@[simp] theorem releaseFetch_canTimer (s : State) : (releaseFetch s).canTimer = (s.canTimer) := rfl
@[simp] theorem releaseFetch_sanTimer (s : State) : (releaseFetch s).sanTimer = (s.sanTimer) := rfl
@[simp] theorem releaseFetch_stored (s : State) : (releaseFetch s).stored = (s.stored) := rfl
@[simp] theorem releaseFetch_haltFault (s : State) : (releaseFetch s).haltFault = (s.haltFault) := rfl
@[simp] theorem releaseFetch_clusterWait (s : State) : (releaseFetch s).clusterWait = (false) := rfl
@[simp] theorem releaseFetch_lm (s : State) : (releaseFetch s).lm = (s.lm) := rfl
@[simp] theorem releaseFetch_mm (s : State) : (releaseFetch s).mm = (s.mm) := rfl
@[simp] theorem releaseFetch_clusters (s : State) : (releaseFetch s).clusters = (s.clusters) := rfl
@[simp] theorem releaseFetch_env (s : State) : (releaseFetch s).env = (s.env) := rfl
@[simp] theorem releaseFetch_free (s : State) : (releaseFetch s).free = (s.free) := rfl

/-! ### branchTo -/

@[simp] theorem branchTo_cfg (s : State) (target : InstrAddr) : (branchTo s target).cfg = (s.cfg) := rfl
@[simp] theorem branchTo_aa (s : State) (target : InstrAddr) : (branchTo s target).aa = (s.aa) := rfl
@[simp] theorem branchTo_ac (s : State) (target : InstrAddr) : (branchTo s target).ac = (s.ac) := rfl
@[simp] theorem branchTo_ai (s : State) (target : InstrAddr) : (branchTo s target).ai = (s.ai) := rfl
@[simp] theorem branchTo_d (s : State) (target : InstrAddr) : (branchTo s target).d = (s.d) := rfl
@[simp] theorem branchTo_y (s : State) (target : InstrAddr) : (branchTo s target).y = (s.y) := rfl
@[simp] theorem branchTo_x (s : State) (target : InstrAddr) : (branchTo s target).x = (s.x) := rfl
@[simp] theorem branchTo_ma2 (s : State) (target : InstrAddr) : (branchTo s target).ma2 = (s.ma2) := rfl
@[simp] theorem branchTo_ma1 (s : State) (target : InstrAddr) : (branchTo s target).ma1 = (s.ma1) := rfl
@[simp] theorem branchTo_ma0 (s : State) (target : InstrAddr) : (branchTo s target).ma0 = (s.ma0) := rfl
@[simp] theorem branchTo_cf (s : State) (target : InstrAddr) : (branchTo s target).cf = (pick (holdPL s) (withFlags s.cf false false) (setBit (withFlags s.cf false false) 4 false)) := rfl
@[simp] theorem branchTo_ia1 (s : State) (target : InstrAddr) : (branchTo s target).ia1 = (iaHigh target) := rfl
@[simp] theorem branchTo_ia0 (s : State) (target : InstrAddr) : (branchTo s target).ia0 = (iaLow target) := rfl
@[simp] theorem branchTo_w (s : State) (target : InstrAddr) : (branchTo s target).w = (s.w) := rfl
@[simp] theorem branchTo_p (s : State) (target : InstrAddr) : (branchTo s target).p = (s.p) := rfl
@[simp] theorem branchTo_ba (s : State) (target : InstrAddr) : (branchTo s target).ba = (s.ba) := rfl
@[simp] theorem branchTo_cm (s : State) (target : InstrAddr) : (branchTo s target).cm = (s.cm) := rfl
@[simp] theorem branchTo_sm (s : State) (target : InstrAddr) : (branchTo s target).sm = (s.sm) := rfl
@[simp] theorem branchTo_run (s : State) (target : InstrAddr) : (branchTo s target).run = (s.run && !stopImmediate s) := rfl
@[simp] theorem branchTo_ex (s : State) (target : InstrAddr) : (branchTo s target).ex = (holdPL s) := rfl
@[simp] theorem branchTo_flt (s : State) (target : InstrAddr) : (branchTo s target).flt = (s.flt) := rfl
@[simp] theorem branchTo_bstm (s : State) (target : InstrAddr) : (branchTo s target).bstm = (false) := rfl
@[simp] theorem branchTo_pypc (s : State) (target : InstrAddr) : (branchTo s target).pypc = (s.pypc) := rfl
@[simp] theorem branchTo_pywc (s : State) (target : InstrAddr) : (branchTo s target).pywc = (s.pywc) := rfl
@[simp] theorem branchTo_scm (s : State) (target : InstrAddr) : (branchTo s target).scm = (s.scm) := rfl
@[simp] theorem branchTo_seq (s : State) (target : InstrAddr) : (branchTo s target).seq = (0) := rfl
@[simp] theorem branchTo_pending (s : State) (target : InstrAddr) : (branchTo s target).pending = (s.pending) := rfl
@[simp] theorem branchTo_adapterWrite (s : State) (target : InstrAddr) : (branchTo s target).adapterWrite = (s.adapterWrite) := rfl
@[simp] theorem branchTo_scanCounter (s : State) (target : InstrAddr) : (branchTo s target).scanCounter = (s.scanCounter) := rfl
@[simp] theorem branchTo_canTimer (s : State) (target : InstrAddr) : (branchTo s target).canTimer = (s.canTimer) := rfl
@[simp] theorem branchTo_sanTimer (s : State) (target : InstrAddr) : (branchTo s target).sanTimer = (s.sanTimer) := rfl
@[simp] theorem branchTo_stored (s : State) (target : InstrAddr) : (branchTo s target).stored = (s.stored) := rfl
@[simp] theorem branchTo_haltFault (s : State) (target : InstrAddr) : (branchTo s target).haltFault = (s.haltFault) := rfl
@[simp] theorem branchTo_clusterWait (s : State) (target : InstrAddr) : (branchTo s target).clusterWait = (false) := rfl
@[simp] theorem branchTo_lm (s : State) (target : InstrAddr) : (branchTo s target).lm = (s.lm) := rfl
@[simp] theorem branchTo_mm (s : State) (target : InstrAddr) : (branchTo s target).mm = (s.mm) := rfl
@[simp] theorem branchTo_clusters (s : State) (target : InstrAddr) : (branchTo s target).clusters = (s.clusters) := rfl
@[simp] theorem branchTo_env (s : State) (target : InstrAddr) : (branchTo s target).env = (s.env) := rfl
@[simp] theorem branchTo_free (s : State) (target : InstrAddr) : (branchTo s target).free = (s.free) := rfl

/-! ### accessEffect -/

@[simp] theorem accessEffect_cfg (s : State) (acc : Access) : (accessEffect s acc).cfg = (s.cfg) := rfl
@[simp] theorem accessEffect_aa (s : State) (acc : Access) : (accessEffect s acc).aa = (s.aa) := rfl
@[simp] theorem accessEffect_ac (s : State) (acc : Access) : (accessEffect s acc).ac = (s.ac) := rfl
@[simp] theorem accessEffect_ai (s : State) (acc : Access) : (accessEffect s acc).ai = (s.ai) := rfl
@[simp] theorem accessEffect_d (s : State) (acc : Access) : (accessEffect s acc).d = (s.d) := rfl
@[simp] theorem accessEffect_y (s : State) (acc : Access) : (accessEffect s acc).y = (s.y) := rfl
@[simp] theorem accessEffect_x (s : State) (acc : Access) : (accessEffect s acc).x = (s.x) := rfl
@[simp] theorem accessEffect_ma2 (s : State) (acc : Access) : (accessEffect s acc).ma2 = (s.ma2) := rfl
@[simp] theorem accessEffect_ma1 (s : State) (acc : Access) : (accessEffect s acc).ma1 = (s.ma1) := rfl
@[simp] theorem accessEffect_ma0 (s : State) (acc : Access) : (accessEffect s acc).ma0 = (s.ma0) := rfl
@[simp] theorem accessEffect_cf (s : State) (acc : Access) : (accessEffect s acc).cf = (s.cf) := rfl
@[simp] theorem accessEffect_ia1 (s : State) (acc : Access) : (accessEffect s acc).ia1 = (s.ia1) := rfl
@[simp] theorem accessEffect_ia0 (s : State) (acc : Access) : (accessEffect s acc).ia0 = (s.ia0) := rfl
@[simp] theorem accessEffect_p (s : State) (acc : Access) : (accessEffect s acc).p = (s.p) := rfl
@[simp] theorem accessEffect_ba (s : State) (acc : Access) : (accessEffect s acc).ba = (s.ba) := rfl
@[simp] theorem accessEffect_cm (s : State) (acc : Access) : (accessEffect s acc).cm = (s.cm) := rfl
@[simp] theorem accessEffect_sm (s : State) (acc : Access) : (accessEffect s acc).sm = (s.sm) := rfl
@[simp] theorem accessEffect_run (s : State) (acc : Access) : (accessEffect s acc).run = (s.run) := rfl
@[simp] theorem accessEffect_ex (s : State) (acc : Access) : (accessEffect s acc).ex = (s.ex) := rfl
@[simp] theorem accessEffect_flt (s : State) (acc : Access) : (accessEffect s acc).flt = (s.flt) := rfl
@[simp] theorem accessEffect_bstm (s : State) (acc : Access) : (accessEffect s acc).bstm = (s.bstm) := rfl
@[simp] theorem accessEffect_pypc (s : State) (acc : Access) : (accessEffect s acc).pypc = (s.pypc) := rfl
@[simp] theorem accessEffect_pywc (s : State) (acc : Access) : (accessEffect s acc).pywc = (s.pywc) := rfl
@[simp] theorem accessEffect_scm (s : State) (acc : Access) : (accessEffect s acc).scm = (s.scm) := rfl
@[simp] theorem accessEffect_seq (s : State) (acc : Access) : (accessEffect s acc).seq = (s.seq) := rfl
@[simp] theorem accessEffect_adapterWrite (s : State) (acc : Access) : (accessEffect s acc).adapterWrite = (s.adapterWrite) := rfl
@[simp] theorem accessEffect_scanCounter (s : State) (acc : Access) : (accessEffect s acc).scanCounter = (s.scanCounter) := rfl
@[simp] theorem accessEffect_canTimer (s : State) (acc : Access) : (accessEffect s acc).canTimer = (s.canTimer) := rfl
@[simp] theorem accessEffect_sanTimer (s : State) (acc : Access) : (accessEffect s acc).sanTimer = (s.sanTimer) := rfl
@[simp] theorem accessEffect_stored (s : State) (acc : Access) : (accessEffect s acc).stored = (s.stored) := rfl
@[simp] theorem accessEffect_haltFault (s : State) (acc : Access) : (accessEffect s acc).haltFault = (s.haltFault) := rfl
@[simp] theorem accessEffect_clusterWait (s : State) (acc : Access) : (accessEffect s acc).clusterWait = (s.clusterWait) := rfl
@[simp] theorem accessEffect_lm (s : State) (acc : Access) : (accessEffect s acc).lm = (s.lm) := rfl
@[simp] theorem accessEffect_clusters (s : State) (acc : Access) : (accessEffect s acc).clusters = (s.clusters) := rfl
@[simp] theorem accessEffect_free (s : State) (acc : Access) : (accessEffect s acc).free = (s.free) := rfl

/-! ### executeFault -/

@[simp] theorem executeFault_cfg (s : State) : (executeFault s).cfg = (s.cfg) := rfl
@[simp] theorem executeFault_aa (s : State) : (executeFault s).aa = (s.aa) := rfl
@[simp] theorem executeFault_ac (s : State) : (executeFault s).ac = (s.ac) := rfl
@[simp] theorem executeFault_ai (s : State) : (executeFault s).ai = (s.ai) := rfl
@[simp] theorem executeFault_d (s : State) : (executeFault s).d = (s.d) := rfl
@[simp] theorem executeFault_y (s : State) : (executeFault s).y = (s.y) := rfl
@[simp] theorem executeFault_x (s : State) : (executeFault s).x = (s.x) := rfl
@[simp] theorem executeFault_ma2 (s : State) : (executeFault s).ma2 = (s.cf) := rfl
@[simp] theorem executeFault_ma1 (s : State) : (executeFault s).ma1 = (s.ia1) := rfl
@[simp] theorem executeFault_ma0 (s : State) : (executeFault s).ma0 = (s.ia0) := rfl
@[simp] theorem executeFault_cf (s : State) : (executeFault s).cf = (setBit (setBit (withFlags s.cf false false) 3 true) 4 false) := rfl
@[simp] theorem executeFault_ia1 (s : State) : (executeFault s).ia1 = (iaHigh (pBranchAddress s)) := rfl
@[simp] theorem executeFault_ia0 (s : State) : (executeFault s).ia0 = (iaLow (pBranchAddress s)) := rfl
@[simp] theorem executeFault_w (s : State) : (executeFault s).w = (s.w) := rfl
@[simp] theorem executeFault_p (s : State) : (executeFault s).p = (s.p) := rfl
@[simp] theorem executeFault_ba (s : State) : (executeFault s).ba = (s.ba) := rfl
@[simp] theorem executeFault_cm (s : State) : (executeFault s).cm = (s.cm) := rfl
@[simp] theorem executeFault_sm (s : State) : (executeFault s).sm = (s.sm.set (faultSaveWord s).toNat (putRight (smWord s (faultSaveWord s)) (ma s)) (faultSaveWord s).isLt) := rfl
@[simp] theorem executeFault_run (s : State) : (executeFault s).run = (s.run) := rfl
@[simp] theorem executeFault_ex (s : State) : (executeFault s).ex = (false) := rfl
@[simp] theorem executeFault_flt (s : State) : (executeFault s).flt = (false) := rfl
@[simp] theorem executeFault_bstm (s : State) : (executeFault s).bstm = (false) := rfl
@[simp] theorem executeFault_pypc (s : State) : (executeFault s).pypc = (s.pypc) := rfl
@[simp] theorem executeFault_pywc (s : State) : (executeFault s).pywc = (s.pywc) := rfl
@[simp] theorem executeFault_scm (s : State) : (executeFault s).scm = (s.scm) := rfl
@[simp] theorem executeFault_seq (s : State) : (executeFault s).seq = (0) := rfl
@[simp] theorem executeFault_pending (s : State) : (executeFault s).pending = (s.pending) := rfl
@[simp] theorem executeFault_adapterWrite (s : State) : (executeFault s).adapterWrite = (s.adapterWrite) := rfl
@[simp] theorem executeFault_scanCounter (s : State) : (executeFault s).scanCounter = (s.scanCounter) := rfl
@[simp] theorem executeFault_canTimer (s : State) : (executeFault s).canTimer = (s.canTimer) := rfl
@[simp] theorem executeFault_sanTimer (s : State) : (executeFault s).sanTimer = (s.sanTimer) := rfl
@[simp] theorem executeFault_stored (s : State) : (executeFault s).stored = (s.stored) := rfl
@[simp] theorem executeFault_haltFault (s : State) : (executeFault s).haltFault = (false) := rfl
@[simp] theorem executeFault_clusterWait (s : State) : (executeFault s).clusterWait = (false) := rfl
@[simp] theorem executeFault_lm (s : State) : (executeFault s).lm = (s.lm) := rfl
@[simp] theorem executeFault_mm (s : State) : (executeFault s).mm = (s.mm) := rfl
@[simp] theorem executeFault_clusters (s : State) : (executeFault s).clusters = (s.clusters) := rfl
@[simp] theorem executeFault_env (s : State) : (executeFault s).env = (s.env) := rfl
@[simp] theorem executeFault_free (s : State) : (executeFault s).free = (s.free) := rfl

/-! ### placeFault -/

@[simp] theorem placeFault_cfg (s : State) (c : Cause) : (placeFault s c).cfg = (s.cfg) := rfl
@[simp] theorem placeFault_aa (s : State) (c : Cause) : (placeFault s c).aa = (s.aa) := rfl
@[simp] theorem placeFault_ac (s : State) (c : Cause) : (placeFault s c).ac = (s.ac) := rfl
@[simp] theorem placeFault_ai (s : State) (c : Cause) : (placeFault s c).ai = (s.ai) := rfl
@[simp] theorem placeFault_d (s : State) (c : Cause) : (placeFault s c).d = (s.d) := rfl
@[simp] theorem placeFault_y (s : State) (c : Cause) : (placeFault s c).y = (s.y) := rfl
@[simp] theorem placeFault_x (s : State) (c : Cause) : (placeFault s c).x = (s.x) := rfl
@[simp] theorem placeFault_ma2 (s : State) (c : Cause) : (placeFault s c).ma2 = (s.ma2) := rfl
@[simp] theorem placeFault_ma1 (s : State) (c : Cause) : (placeFault s c).ma1 = (s.ma1) := rfl
@[simp] theorem placeFault_ma0 (s : State) (c : Cause) : (placeFault s c).ma0 = (s.ma0) := rfl
@[simp] theorem placeFault_cf (s : State) (c : Cause) : (placeFault s c).cf = (cfNoted s) := rfl
@[simp] theorem placeFault_ia1 (s : State) (c : Cause) : (placeFault s c).ia1 = (s.ia1) := rfl
@[simp] theorem placeFault_ia0 (s : State) (c : Cause) : (placeFault s c).ia0 = (s.ia0) := rfl
@[simp] theorem placeFault_w (s : State) (c : Cause) : (placeFault s c).w = (s.w) := rfl
@[simp] theorem placeFault_p (s : State) (c : Cause) : (placeFault s c).p = (putLeft s.p (if i19 s then faultInstr s.cfg.faultInstrA false 16 else faultInstr s.cfg.faultInstrA (i15 s) (c.code (i15 s)))) := rfl
@[simp] theorem placeFault_ba (s : State) (c : Cause) : (placeFault s c).ba = (s.ba) := rfl
@[simp] theorem placeFault_cm (s : State) (c : Cause) : (placeFault s c).cm = (s.cm) := rfl
@[simp] theorem placeFault_sm (s : State) (c : Cause) : (placeFault s c).sm = (s.sm) := rfl
@[simp] theorem placeFault_run (s : State) (c : Cause) : (placeFault s c).run = (s.run) := rfl
@[simp] theorem placeFault_ex (s : State) (c : Cause) : (placeFault s c).ex = (s.ex) := rfl
@[simp] theorem placeFault_flt (s : State) (c : Cause) : (placeFault s c).flt = (true) := rfl
@[simp] theorem placeFault_bstm (s : State) (c : Cause) : (placeFault s c).bstm = (s.bstm) := rfl
@[simp] theorem placeFault_pypc (s : State) (c : Cause) : (placeFault s c).pypc = (s.pypc) := rfl
@[simp] theorem placeFault_pywc (s : State) (c : Cause) : (placeFault s c).pywc = (s.pywc) := rfl
@[simp] theorem placeFault_scm (s : State) (c : Cause) : (placeFault s c).scm = (s.scm) := rfl
@[simp] theorem placeFault_seq (s : State) (c : Cause) : (placeFault s c).seq = (s.seq) := rfl
@[simp] theorem placeFault_pending (s : State) (c : Cause) : (placeFault s c).pending = (s.pending) := rfl
@[simp] theorem placeFault_adapterWrite (s : State) (c : Cause) : (placeFault s c).adapterWrite = (s.adapterWrite) := rfl
@[simp] theorem placeFault_scanCounter (s : State) (c : Cause) : (placeFault s c).scanCounter = (s.scanCounter) := rfl
@[simp] theorem placeFault_canTimer (s : State) (c : Cause) : (placeFault s c).canTimer = (s.canTimer) := rfl
@[simp] theorem placeFault_sanTimer (s : State) (c : Cause) : (placeFault s c).sanTimer = (s.sanTimer) := rfl
@[simp] theorem placeFault_stored (s : State) (c : Cause) : (placeFault s c).stored = (s.stored) := rfl
@[simp] theorem placeFault_haltFault (s : State) (c : Cause) : (placeFault s c).haltFault = (false) := rfl
@[simp] theorem placeFault_clusterWait (s : State) (c : Cause) : (placeFault s c).clusterWait = (false) := rfl
@[simp] theorem placeFault_lm (s : State) (c : Cause) : (placeFault s c).lm = (s.lm) := rfl
@[simp] theorem placeFault_mm (s : State) (c : Cause) : (placeFault s c).mm = (s.mm) := rfl
@[simp] theorem placeFault_clusters (s : State) (c : Cause) : (placeFault s c).clusters = (s.clusters) := rfl
@[simp] theorem placeFault_env (s : State) (c : Cause) : (placeFault s c).env = (s.env) := rfl
@[simp] theorem placeFault_free (s : State) (c : Cause) : (placeFault s c).free = (s.free) := rfl

/-! ### setAttention -/

@[simp] theorem setAttention_cfg (s : State) : (setAttention s).cfg = (s.cfg) := rfl
@[simp] theorem setAttention_aa (s : State) : (setAttention s).aa = (s.aa) := rfl
@[simp] theorem setAttention_ac (s : State) : (setAttention s).ac = (s.ac) := rfl
@[simp] theorem setAttention_ai (s : State) : (setAttention s).ai = (s.ai) := rfl
@[simp] theorem setAttention_d (s : State) : (setAttention s).d = (s.d) := rfl
@[simp] theorem setAttention_y (s : State) : (setAttention s).y = (s.y) := rfl
@[simp] theorem setAttention_x (s : State) : (setAttention s).x = (s.x) := rfl
@[simp] theorem setAttention_ma2 (s : State) : (setAttention s).ma2 = (s.ma2) := rfl
@[simp] theorem setAttention_ma1 (s : State) : (setAttention s).ma1 = (s.ma1) := rfl
@[simp] theorem setAttention_ma0 (s : State) : (setAttention s).ma0 = (s.ma0) := rfl
@[simp] theorem setAttention_cf (s : State) : (setAttention s).cf = (setBit s.cf 7 true) := rfl
@[simp] theorem setAttention_ia1 (s : State) : (setAttention s).ia1 = (s.ia1) := rfl
@[simp] theorem setAttention_ia0 (s : State) : (setAttention s).ia0 = (s.ia0) := rfl
@[simp] theorem setAttention_w (s : State) : (setAttention s).w = (s.w) := rfl
@[simp] theorem setAttention_p (s : State) : (setAttention s).p = (s.p) := rfl
@[simp] theorem setAttention_ba (s : State) : (setAttention s).ba = (s.ba) := rfl
@[simp] theorem setAttention_cm (s : State) : (setAttention s).cm = (s.cm) := rfl
@[simp] theorem setAttention_sm (s : State) : (setAttention s).sm = (s.sm) := rfl
@[simp] theorem setAttention_run (s : State) : (setAttention s).run = (s.run) := rfl
@[simp] theorem setAttention_ex (s : State) : (setAttention s).ex = (s.ex) := rfl
@[simp] theorem setAttention_flt (s : State) : (setAttention s).flt = (s.flt) := rfl
@[simp] theorem setAttention_bstm (s : State) : (setAttention s).bstm = (s.bstm) := rfl
@[simp] theorem setAttention_pypc (s : State) : (setAttention s).pypc = (s.pypc) := rfl
@[simp] theorem setAttention_pywc (s : State) : (setAttention s).pywc = (s.pywc) := rfl
@[simp] theorem setAttention_scm (s : State) : (setAttention s).scm = (s.scm) := rfl
@[simp] theorem setAttention_seq (s : State) : (setAttention s).seq = (s.seq) := rfl
@[simp] theorem setAttention_pending (s : State) : (setAttention s).pending = (s.pending) := rfl
@[simp] theorem setAttention_adapterWrite (s : State) : (setAttention s).adapterWrite = (s.adapterWrite) := rfl
@[simp] theorem setAttention_scanCounter (s : State) : (setAttention s).scanCounter = (s.scanCounter) := rfl
@[simp] theorem setAttention_canTimer (s : State) : (setAttention s).canTimer = (s.canTimer) := rfl
@[simp] theorem setAttention_sanTimer (s : State) : (setAttention s).sanTimer = (s.sanTimer) := rfl
@[simp] theorem setAttention_stored (s : State) : (setAttention s).stored = (s.stored) := rfl
@[simp] theorem setAttention_haltFault (s : State) : (setAttention s).haltFault = (s.haltFault) := rfl
@[simp] theorem setAttention_clusterWait (s : State) : (setAttention s).clusterWait = (s.clusterWait) := rfl
@[simp] theorem setAttention_lm (s : State) : (setAttention s).lm = (s.lm) := rfl
@[simp] theorem setAttention_mm (s : State) : (setAttention s).mm = (s.mm) := rfl
@[simp] theorem setAttention_clusters (s : State) : (setAttention s).clusters = (s.clusters) := rfl
@[simp] theorem setAttention_env (s : State) : (setAttention s).env = (s.env) := rfl
@[simp] theorem setAttention_free (s : State) : (setAttention s).free = (s.free) := rfl

/-! ### haltNow -/

@[simp] theorem haltNow_cfg (s : State) : (haltNow s).cfg = (s.cfg) := rfl
@[simp] theorem haltNow_aa (s : State) : (haltNow s).aa = (s.aa) := rfl
@[simp] theorem haltNow_ac (s : State) : (haltNow s).ac = (s.ac) := rfl
@[simp] theorem haltNow_ai (s : State) : (haltNow s).ai = (s.ai) := rfl
@[simp] theorem haltNow_d (s : State) : (haltNow s).d = (s.d) := rfl
@[simp] theorem haltNow_y (s : State) : (haltNow s).y = (s.y) := rfl
@[simp] theorem haltNow_x (s : State) : (haltNow s).x = (s.x) := rfl
@[simp] theorem haltNow_ma2 (s : State) : (haltNow s).ma2 = (s.ma2) := rfl
@[simp] theorem haltNow_ma1 (s : State) : (haltNow s).ma1 = (s.ma1) := rfl
@[simp] theorem haltNow_ma0 (s : State) : (haltNow s).ma0 = (s.ma0) := rfl
@[simp] theorem haltNow_cf (s : State) : (haltNow s).cf = (cfNoted s) := rfl
@[simp] theorem haltNow_ia1 (s : State) : (haltNow s).ia1 = (s.ia1) := rfl
@[simp] theorem haltNow_ia0 (s : State) : (haltNow s).ia0 = (s.ia0) := rfl
@[simp] theorem haltNow_w (s : State) : (haltNow s).w = (s.w) := rfl
@[simp] theorem haltNow_p (s : State) : (haltNow s).p = (s.p) := rfl
@[simp] theorem haltNow_ba (s : State) : (haltNow s).ba = (s.ba) := rfl
@[simp] theorem haltNow_cm (s : State) : (haltNow s).cm = (s.cm) := rfl
@[simp] theorem haltNow_sm (s : State) : (haltNow s).sm = (s.sm) := rfl
@[simp] theorem haltNow_run (s : State) : (haltNow s).run = (false) := rfl
@[simp] theorem haltNow_ex (s : State) : (haltNow s).ex = (false) := rfl
@[simp] theorem haltNow_flt (s : State) : (haltNow s).flt = (true) := rfl
@[simp] theorem haltNow_bstm (s : State) : (haltNow s).bstm = (s.bstm) := rfl
@[simp] theorem haltNow_pypc (s : State) : (haltNow s).pypc = (s.pypc) := rfl
@[simp] theorem haltNow_pywc (s : State) : (haltNow s).pywc = (s.pywc) := rfl
@[simp] theorem haltNow_scm (s : State) : (haltNow s).scm = (s.scm) := rfl
@[simp] theorem haltNow_seq (s : State) : (haltNow s).seq = (s.seq) := rfl
@[simp] theorem haltNow_pending (s : State) : (haltNow s).pending = (s.pending) := rfl
@[simp] theorem haltNow_adapterWrite (s : State) : (haltNow s).adapterWrite = (s.adapterWrite) := rfl
@[simp] theorem haltNow_scanCounter (s : State) : (haltNow s).scanCounter = (s.scanCounter) := rfl
@[simp] theorem haltNow_canTimer (s : State) : (haltNow s).canTimer = (s.canTimer) := rfl
@[simp] theorem haltNow_sanTimer (s : State) : (haltNow s).sanTimer = (s.sanTimer) := rfl
@[simp] theorem haltNow_stored (s : State) : (haltNow s).stored = (s.stored) := rfl
@[simp] theorem haltNow_haltFault (s : State) : (haltNow s).haltFault = (true) := rfl
@[simp] theorem haltNow_clusterWait (s : State) : (haltNow s).clusterWait = (false) := rfl
@[simp] theorem haltNow_lm (s : State) : (haltNow s).lm = (s.lm) := rfl
@[simp] theorem haltNow_mm (s : State) : (haltNow s).mm = (s.mm) := rfl
@[simp] theorem haltNow_clusters (s : State) : (haltNow s).clusters = (s.clusters) := rfl
@[simp] theorem haltNow_env (s : State) : (haltNow s).env = (s.env) := rfl
@[simp] theorem haltNow_free (s : State) : (haltNow s).free = (s.free) := rfl

/-! ### haltAtBoundary -/

@[simp] theorem haltAtBoundary_cfg (s : State) : (haltAtBoundary s).cfg = (s.cfg) := rfl
@[simp] theorem haltAtBoundary_aa (s : State) : (haltAtBoundary s).aa = (s.aa) := rfl
@[simp] theorem haltAtBoundary_ac (s : State) : (haltAtBoundary s).ac = (s.ac) := rfl
@[simp] theorem haltAtBoundary_ai (s : State) : (haltAtBoundary s).ai = (s.ai) := rfl
@[simp] theorem haltAtBoundary_d (s : State) : (haltAtBoundary s).d = (s.d) := rfl
@[simp] theorem haltAtBoundary_y (s : State) : (haltAtBoundary s).y = (s.y) := rfl
@[simp] theorem haltAtBoundary_x (s : State) : (haltAtBoundary s).x = (s.x) := rfl
@[simp] theorem haltAtBoundary_ma2 (s : State) : (haltAtBoundary s).ma2 = (s.ma2) := rfl
@[simp] theorem haltAtBoundary_ma1 (s : State) : (haltAtBoundary s).ma1 = (s.ma1) := rfl
@[simp] theorem haltAtBoundary_ma0 (s : State) : (haltAtBoundary s).ma0 = (s.ma0) := rfl
@[simp] theorem haltAtBoundary_cf (s : State) : (haltAtBoundary s).cf = (s.cf) := rfl
@[simp] theorem haltAtBoundary_ia1 (s : State) : (haltAtBoundary s).ia1 = (s.ia1) := rfl
@[simp] theorem haltAtBoundary_ia0 (s : State) : (haltAtBoundary s).ia0 = (s.ia0) := rfl
@[simp] theorem haltAtBoundary_w (s : State) : (haltAtBoundary s).w = (s.w) := rfl
@[simp] theorem haltAtBoundary_p (s : State) : (haltAtBoundary s).p = (s.p) := rfl
@[simp] theorem haltAtBoundary_ba (s : State) : (haltAtBoundary s).ba = (s.ba) := rfl
@[simp] theorem haltAtBoundary_cm (s : State) : (haltAtBoundary s).cm = (s.cm) := rfl
@[simp] theorem haltAtBoundary_sm (s : State) : (haltAtBoundary s).sm = (s.sm) := rfl
@[simp] theorem haltAtBoundary_run (s : State) : (haltAtBoundary s).run = (false) := rfl
@[simp] theorem haltAtBoundary_ex (s : State) : (haltAtBoundary s).ex = (false) := rfl
@[simp] theorem haltAtBoundary_flt (s : State) : (haltAtBoundary s).flt = (s.flt) := rfl
@[simp] theorem haltAtBoundary_bstm (s : State) : (haltAtBoundary s).bstm = (s.bstm) := rfl
@[simp] theorem haltAtBoundary_pypc (s : State) : (haltAtBoundary s).pypc = (s.pypc) := rfl
@[simp] theorem haltAtBoundary_pywc (s : State) : (haltAtBoundary s).pywc = (s.pywc) := rfl
@[simp] theorem haltAtBoundary_scm (s : State) : (haltAtBoundary s).scm = (s.scm) := rfl
@[simp] theorem haltAtBoundary_seq (s : State) : (haltAtBoundary s).seq = (s.seq) := rfl
@[simp] theorem haltAtBoundary_pending (s : State) : (haltAtBoundary s).pending = (s.pending) := rfl
@[simp] theorem haltAtBoundary_adapterWrite (s : State) : (haltAtBoundary s).adapterWrite = (s.adapterWrite) := rfl
@[simp] theorem haltAtBoundary_scanCounter (s : State) : (haltAtBoundary s).scanCounter = (s.scanCounter) := rfl
@[simp] theorem haltAtBoundary_canTimer (s : State) : (haltAtBoundary s).canTimer = (s.canTimer) := rfl
@[simp] theorem haltAtBoundary_sanTimer (s : State) : (haltAtBoundary s).sanTimer = (s.sanTimer) := rfl
@[simp] theorem haltAtBoundary_stored (s : State) : (haltAtBoundary s).stored = (s.stored) := rfl
@[simp] theorem haltAtBoundary_haltFault (s : State) : (haltAtBoundary s).haltFault = (s.haltFault) := rfl
@[simp] theorem haltAtBoundary_clusterWait (s : State) : (haltAtBoundary s).clusterWait = (s.clusterWait) := rfl
@[simp] theorem haltAtBoundary_lm (s : State) : (haltAtBoundary s).lm = (s.lm) := rfl
@[simp] theorem haltAtBoundary_mm (s : State) : (haltAtBoundary s).mm = (s.mm) := rfl
@[simp] theorem haltAtBoundary_clusters (s : State) : (haltAtBoundary s).clusters = (s.clusters) := rfl
@[simp] theorem haltAtBoundary_env (s : State) : (haltAtBoundary s).env = (s.env) := rfl
@[simp] theorem haltAtBoundary_free (s : State) : (haltAtBoundary s).free = (s.free) := rfl

/-! ### placeHaltFault -/

@[simp] theorem placeHaltFault_cfg (s : State) : (placeHaltFault s).cfg = (s.cfg) := rfl
@[simp] theorem placeHaltFault_aa (s : State) : (placeHaltFault s).aa = (s.aa) := rfl
@[simp] theorem placeHaltFault_ac (s : State) : (placeHaltFault s).ac = (s.ac) := rfl
@[simp] theorem placeHaltFault_ai (s : State) : (placeHaltFault s).ai = (s.ai) := rfl
@[simp] theorem placeHaltFault_d (s : State) : (placeHaltFault s).d = (s.d) := rfl
@[simp] theorem placeHaltFault_y (s : State) : (placeHaltFault s).y = (s.y) := rfl
@[simp] theorem placeHaltFault_x (s : State) : (placeHaltFault s).x = (s.x) := rfl
@[simp] theorem placeHaltFault_ma2 (s : State) : (placeHaltFault s).ma2 = (s.ma2) := rfl
@[simp] theorem placeHaltFault_ma1 (s : State) : (placeHaltFault s).ma1 = (s.ma1) := rfl
@[simp] theorem placeHaltFault_ma0 (s : State) : (placeHaltFault s).ma0 = (s.ma0) := rfl
@[simp] theorem placeHaltFault_cf (s : State) : (placeHaltFault s).cf = (s.cf) := rfl
@[simp] theorem placeHaltFault_ia1 (s : State) : (placeHaltFault s).ia1 = (s.ia1) := rfl
@[simp] theorem placeHaltFault_ia0 (s : State) : (placeHaltFault s).ia0 = (s.ia0) := rfl
@[simp] theorem placeHaltFault_w (s : State) : (placeHaltFault s).w = (s.w) := rfl
@[simp] theorem placeHaltFault_p (s : State) : (placeHaltFault s).p = (putLeft s.p (faultInstr s.cfg.faultInstrA (s.cfg.haltFaultCode != 0 && i15 s) s.cfg.haltFaultCode)) := rfl
@[simp] theorem placeHaltFault_ba (s : State) : (placeHaltFault s).ba = (s.ba) := rfl
@[simp] theorem placeHaltFault_cm (s : State) : (placeHaltFault s).cm = (s.cm) := rfl
@[simp] theorem placeHaltFault_sm (s : State) : (placeHaltFault s).sm = (s.sm) := rfl
@[simp] theorem placeHaltFault_run (s : State) : (placeHaltFault s).run = (s.run) := rfl
@[simp] theorem placeHaltFault_ex (s : State) : (placeHaltFault s).ex = (s.ex) := rfl
@[simp] theorem placeHaltFault_flt (s : State) : (placeHaltFault s).flt = (s.flt) := rfl
@[simp] theorem placeHaltFault_bstm (s : State) : (placeHaltFault s).bstm = (s.bstm) := rfl
@[simp] theorem placeHaltFault_pypc (s : State) : (placeHaltFault s).pypc = (s.pypc) := rfl
@[simp] theorem placeHaltFault_pywc (s : State) : (placeHaltFault s).pywc = (s.pywc) := rfl
@[simp] theorem placeHaltFault_scm (s : State) : (placeHaltFault s).scm = (s.scm) := rfl
@[simp] theorem placeHaltFault_seq (s : State) : (placeHaltFault s).seq = (s.seq) := rfl
@[simp] theorem placeHaltFault_pending (s : State) : (placeHaltFault s).pending = (s.pending) := rfl
@[simp] theorem placeHaltFault_adapterWrite (s : State) : (placeHaltFault s).adapterWrite = (s.adapterWrite) := rfl
@[simp] theorem placeHaltFault_scanCounter (s : State) : (placeHaltFault s).scanCounter = (s.scanCounter) := rfl
@[simp] theorem placeHaltFault_canTimer (s : State) : (placeHaltFault s).canTimer = (s.canTimer) := rfl
@[simp] theorem placeHaltFault_sanTimer (s : State) : (placeHaltFault s).sanTimer = (s.sanTimer) := rfl
@[simp] theorem placeHaltFault_stored (s : State) : (placeHaltFault s).stored = (s.stored) := rfl
@[simp] theorem placeHaltFault_haltFault (s : State) : (placeHaltFault s).haltFault = (false) := rfl
@[simp] theorem placeHaltFault_clusterWait (s : State) : (placeHaltFault s).clusterWait = (s.clusterWait) := rfl
@[simp] theorem placeHaltFault_lm (s : State) : (placeHaltFault s).lm = (s.lm) := rfl
@[simp] theorem placeHaltFault_mm (s : State) : (placeHaltFault s).mm = (s.mm) := rfl
@[simp] theorem placeHaltFault_clusters (s : State) : (placeHaltFault s).clusters = (s.clusters) := rfl
@[simp] theorem placeHaltFault_env (s : State) : (placeHaltFault s).env = (s.env) := rfl
@[simp] theorem placeHaltFault_free (s : State) : (placeHaltFault s).free = (s.free) := rfl

/-! ### noteIndirect -/

@[simp] theorem noteIndirect_cfg (s : State) (b : Byte) : (noteIndirect s b).cfg = (s.cfg) := rfl
@[simp] theorem noteIndirect_aa (s : State) (b : Byte) : (noteIndirect s b).aa = (s.aa) := rfl
@[simp] theorem noteIndirect_ac (s : State) (b : Byte) : (noteIndirect s b).ac = (s.ac) := rfl
@[simp] theorem noteIndirect_ai (s : State) (b : Byte) : (noteIndirect s b).ai = (s.ai) := rfl
@[simp] theorem noteIndirect_d (s : State) (b : Byte) : (noteIndirect s b).d = (s.d) := rfl
@[simp] theorem noteIndirect_y (s : State) (b : Byte) : (noteIndirect s b).y = (s.y) := rfl
@[simp] theorem noteIndirect_x (s : State) (b : Byte) : (noteIndirect s b).x = (s.x) := rfl
@[simp] theorem noteIndirect_ma2 (s : State) (b : Byte) : (noteIndirect s b).ma2 = (s.ma2) := rfl
@[simp] theorem noteIndirect_ma1 (s : State) (b : Byte) : (noteIndirect s b).ma1 = (s.ma1) := rfl
@[simp] theorem noteIndirect_ma0 (s : State) (b : Byte) : (noteIndirect s b).ma0 = (s.ma0) := rfl
@[simp] theorem noteIndirect_cf (s : State) (b : Byte) : (noteIndirect s b).cf = (s.cf) := rfl
@[simp] theorem noteIndirect_ia1 (s : State) (b : Byte) : (noteIndirect s b).ia1 = (s.ia1) := rfl
@[simp] theorem noteIndirect_ia0 (s : State) (b : Byte) : (noteIndirect s b).ia0 = (s.ia0) := rfl
@[simp] theorem noteIndirect_w (s : State) (b : Byte) : (noteIndirect s b).w = (s.w) := rfl
@[simp] theorem noteIndirect_p (s : State) (b : Byte) : (noteIndirect s b).p = (if isIndirect b then putLeft s.p (rows (row2 (pLeft s)) s.y (row0 (pLeft s))) else s.p) := rfl
@[simp] theorem noteIndirect_ba (s : State) (b : Byte) : (noteIndirect s b).ba = (s.ba) := rfl
@[simp] theorem noteIndirect_cm (s : State) (b : Byte) : (noteIndirect s b).cm = (s.cm) := rfl
@[simp] theorem noteIndirect_sm (s : State) (b : Byte) : (noteIndirect s b).sm = (s.sm) := rfl
@[simp] theorem noteIndirect_run (s : State) (b : Byte) : (noteIndirect s b).run = (s.run) := rfl
@[simp] theorem noteIndirect_ex (s : State) (b : Byte) : (noteIndirect s b).ex = (s.ex) := rfl
@[simp] theorem noteIndirect_flt (s : State) (b : Byte) : (noteIndirect s b).flt = (s.flt) := rfl
@[simp] theorem noteIndirect_bstm (s : State) (b : Byte) : (noteIndirect s b).bstm = (s.bstm) := rfl
@[simp] theorem noteIndirect_pypc (s : State) (b : Byte) : (noteIndirect s b).pypc = (s.pypc) := rfl
@[simp] theorem noteIndirect_pywc (s : State) (b : Byte) : (noteIndirect s b).pywc = (s.pywc) := rfl
@[simp] theorem noteIndirect_scm (s : State) (b : Byte) : (noteIndirect s b).scm = (s.scm) := rfl
@[simp] theorem noteIndirect_seq (s : State) (b : Byte) : (noteIndirect s b).seq = (s.seq) := rfl
@[simp] theorem noteIndirect_pending (s : State) (b : Byte) : (noteIndirect s b).pending = (s.pending) := rfl
@[simp] theorem noteIndirect_adapterWrite (s : State) (b : Byte) : (noteIndirect s b).adapterWrite = (s.adapterWrite) := rfl
@[simp] theorem noteIndirect_scanCounter (s : State) (b : Byte) : (noteIndirect s b).scanCounter = (s.scanCounter) := rfl
@[simp] theorem noteIndirect_canTimer (s : State) (b : Byte) : (noteIndirect s b).canTimer = (s.canTimer) := rfl
@[simp] theorem noteIndirect_sanTimer (s : State) (b : Byte) : (noteIndirect s b).sanTimer = (s.sanTimer) := rfl
@[simp] theorem noteIndirect_stored (s : State) (b : Byte) : (noteIndirect s b).stored = (s.stored) := rfl
@[simp] theorem noteIndirect_haltFault (s : State) (b : Byte) : (noteIndirect s b).haltFault = (s.haltFault) := rfl
@[simp] theorem noteIndirect_clusterWait (s : State) (b : Byte) : (noteIndirect s b).clusterWait = (s.clusterWait) := rfl
@[simp] theorem noteIndirect_lm (s : State) (b : Byte) : (noteIndirect s b).lm = (s.lm) := rfl
@[simp] theorem noteIndirect_mm (s : State) (b : Byte) : (noteIndirect s b).mm = (s.mm) := rfl
@[simp] theorem noteIndirect_clusters (s : State) (b : Byte) : (noteIndirect s b).clusters = (s.clusters) := rfl
@[simp] theorem noteIndirect_env (s : State) (b : Byte) : (noteIndirect s b).env = (s.env) := rfl
@[simp] theorem noteIndirect_free (s : State) (b : Byte) : (noteIndirect s b).free = (s.free) := rfl

/-! ### setFlags -/

@[simp] theorem setFlags_cfg (s : State) (carry zero : Bool) : (setFlags s carry zero).cfg = (s.cfg) := rfl
@[simp] theorem setFlags_aa (s : State) (carry zero : Bool) : (setFlags s carry zero).aa = (s.aa) := rfl
@[simp] theorem setFlags_ac (s : State) (carry zero : Bool) : (setFlags s carry zero).ac = (s.ac) := rfl
@[simp] theorem setFlags_ai (s : State) (carry zero : Bool) : (setFlags s carry zero).ai = (s.ai) := rfl
@[simp] theorem setFlags_d (s : State) (carry zero : Bool) : (setFlags s carry zero).d = (s.d) := rfl
@[simp] theorem setFlags_y (s : State) (carry zero : Bool) : (setFlags s carry zero).y = (s.y) := rfl
@[simp] theorem setFlags_x (s : State) (carry zero : Bool) : (setFlags s carry zero).x = (s.x) := rfl
@[simp] theorem setFlags_ma2 (s : State) (carry zero : Bool) : (setFlags s carry zero).ma2 = (s.ma2) := rfl
@[simp] theorem setFlags_ma1 (s : State) (carry zero : Bool) : (setFlags s carry zero).ma1 = (s.ma1) := rfl
@[simp] theorem setFlags_ma0 (s : State) (carry zero : Bool) : (setFlags s carry zero).ma0 = (s.ma0) := rfl
@[simp] theorem setFlags_cf (s : State) (carry zero : Bool) : (setFlags s carry zero).cf = (withFlags s.cf carry zero) := rfl
@[simp] theorem setFlags_ia1 (s : State) (carry zero : Bool) : (setFlags s carry zero).ia1 = (s.ia1) := rfl
@[simp] theorem setFlags_ia0 (s : State) (carry zero : Bool) : (setFlags s carry zero).ia0 = (s.ia0) := rfl
@[simp] theorem setFlags_w (s : State) (carry zero : Bool) : (setFlags s carry zero).w = (s.w) := rfl
@[simp] theorem setFlags_p (s : State) (carry zero : Bool) : (setFlags s carry zero).p = (s.p) := rfl
@[simp] theorem setFlags_ba (s : State) (carry zero : Bool) : (setFlags s carry zero).ba = (s.ba) := rfl
@[simp] theorem setFlags_cm (s : State) (carry zero : Bool) : (setFlags s carry zero).cm = (s.cm) := rfl
@[simp] theorem setFlags_sm (s : State) (carry zero : Bool) : (setFlags s carry zero).sm = (s.sm) := rfl
@[simp] theorem setFlags_run (s : State) (carry zero : Bool) : (setFlags s carry zero).run = (s.run) := rfl
@[simp] theorem setFlags_ex (s : State) (carry zero : Bool) : (setFlags s carry zero).ex = (s.ex) := rfl
@[simp] theorem setFlags_flt (s : State) (carry zero : Bool) : (setFlags s carry zero).flt = (s.flt) := rfl
@[simp] theorem setFlags_bstm (s : State) (carry zero : Bool) : (setFlags s carry zero).bstm = (s.bstm) := rfl
@[simp] theorem setFlags_pypc (s : State) (carry zero : Bool) : (setFlags s carry zero).pypc = (s.pypc) := rfl
@[simp] theorem setFlags_pywc (s : State) (carry zero : Bool) : (setFlags s carry zero).pywc = (s.pywc) := rfl
@[simp] theorem setFlags_scm (s : State) (carry zero : Bool) : (setFlags s carry zero).scm = (s.scm) := rfl
@[simp] theorem setFlags_seq (s : State) (carry zero : Bool) : (setFlags s carry zero).seq = (s.seq) := rfl
@[simp] theorem setFlags_pending (s : State) (carry zero : Bool) : (setFlags s carry zero).pending = (s.pending) := rfl
@[simp] theorem setFlags_adapterWrite (s : State) (carry zero : Bool) : (setFlags s carry zero).adapterWrite = (s.adapterWrite) := rfl
@[simp] theorem setFlags_scanCounter (s : State) (carry zero : Bool) : (setFlags s carry zero).scanCounter = (s.scanCounter) := rfl
@[simp] theorem setFlags_canTimer (s : State) (carry zero : Bool) : (setFlags s carry zero).canTimer = (s.canTimer) := rfl
@[simp] theorem setFlags_sanTimer (s : State) (carry zero : Bool) : (setFlags s carry zero).sanTimer = (s.sanTimer) := rfl
@[simp] theorem setFlags_stored (s : State) (carry zero : Bool) : (setFlags s carry zero).stored = (s.stored) := rfl
@[simp] theorem setFlags_haltFault (s : State) (carry zero : Bool) : (setFlags s carry zero).haltFault = (s.haltFault) := rfl
@[simp] theorem setFlags_clusterWait (s : State) (carry zero : Bool) : (setFlags s carry zero).clusterWait = (s.clusterWait) := rfl
@[simp] theorem setFlags_lm (s : State) (carry zero : Bool) : (setFlags s carry zero).lm = (s.lm) := rfl
@[simp] theorem setFlags_mm (s : State) (carry zero : Bool) : (setFlags s carry zero).mm = (s.mm) := rfl
@[simp] theorem setFlags_clusters (s : State) (carry zero : Bool) : (setFlags s carry zero).clusters = (s.clusters) := rfl
@[simp] theorem setFlags_env (s : State) (carry zero : Bool) : (setFlags s carry zero).env = (s.env) := rfl
@[simp] theorem setFlags_free (s : State) (carry zero : Bool) : (setFlags s carry zero).free = (s.free) := rfl

/-! ### setHalfFlags -/

@[simp] theorem setHalfFlags_cfg (s : State) (carry zero : Bool) : (setHalfFlags s carry zero).cfg = (s.cfg) := rfl
@[simp] theorem setHalfFlags_aa (s : State) (carry zero : Bool) : (setHalfFlags s carry zero).aa = (s.aa) := rfl
@[simp] theorem setHalfFlags_ac (s : State) (carry zero : Bool) : (setHalfFlags s carry zero).ac = (s.ac) := rfl
@[simp] theorem setHalfFlags_ai (s : State) (carry zero : Bool) : (setHalfFlags s carry zero).ai = (s.ai) := rfl
@[simp] theorem setHalfFlags_d (s : State) (carry zero : Bool) : (setHalfFlags s carry zero).d = (s.d) := rfl
@[simp] theorem setHalfFlags_y (s : State) (carry zero : Bool) : (setHalfFlags s carry zero).y = (s.y) := rfl
@[simp] theorem setHalfFlags_x (s : State) (carry zero : Bool) : (setHalfFlags s carry zero).x = (s.x) := rfl
@[simp] theorem setHalfFlags_ma2 (s : State) (carry zero : Bool) : (setHalfFlags s carry zero).ma2 = (s.ma2) := rfl
@[simp] theorem setHalfFlags_ma1 (s : State) (carry zero : Bool) : (setHalfFlags s carry zero).ma1 = (s.ma1) := rfl
@[simp] theorem setHalfFlags_ma0 (s : State) (carry zero : Bool) : (setHalfFlags s carry zero).ma0 = (s.ma0) := rfl
@[simp] theorem setHalfFlags_cf (s : State) (carry zero : Bool) : (setHalfFlags s carry zero).cf = (setBit (withFlags s.cf carry zero) 2 false) := rfl
@[simp] theorem setHalfFlags_ia1 (s : State) (carry zero : Bool) : (setHalfFlags s carry zero).ia1 = (s.ia1) := rfl
@[simp] theorem setHalfFlags_ia0 (s : State) (carry zero : Bool) : (setHalfFlags s carry zero).ia0 = (s.ia0) := rfl
@[simp] theorem setHalfFlags_w (s : State) (carry zero : Bool) : (setHalfFlags s carry zero).w = (s.w) := rfl
@[simp] theorem setHalfFlags_p (s : State) (carry zero : Bool) : (setHalfFlags s carry zero).p = (s.p) := rfl
@[simp] theorem setHalfFlags_ba (s : State) (carry zero : Bool) : (setHalfFlags s carry zero).ba = (s.ba) := rfl
@[simp] theorem setHalfFlags_cm (s : State) (carry zero : Bool) : (setHalfFlags s carry zero).cm = (s.cm) := rfl
@[simp] theorem setHalfFlags_sm (s : State) (carry zero : Bool) : (setHalfFlags s carry zero).sm = (s.sm) := rfl
@[simp] theorem setHalfFlags_run (s : State) (carry zero : Bool) : (setHalfFlags s carry zero).run = (s.run) := rfl
@[simp] theorem setHalfFlags_ex (s : State) (carry zero : Bool) : (setHalfFlags s carry zero).ex = (s.ex) := rfl
@[simp] theorem setHalfFlags_flt (s : State) (carry zero : Bool) : (setHalfFlags s carry zero).flt = (s.flt) := rfl
@[simp] theorem setHalfFlags_bstm (s : State) (carry zero : Bool) : (setHalfFlags s carry zero).bstm = (s.bstm) := rfl
@[simp] theorem setHalfFlags_pypc (s : State) (carry zero : Bool) : (setHalfFlags s carry zero).pypc = (s.pypc) := rfl
@[simp] theorem setHalfFlags_pywc (s : State) (carry zero : Bool) : (setHalfFlags s carry zero).pywc = (s.pywc) := rfl
@[simp] theorem setHalfFlags_scm (s : State) (carry zero : Bool) : (setHalfFlags s carry zero).scm = (s.scm) := rfl
@[simp] theorem setHalfFlags_seq (s : State) (carry zero : Bool) : (setHalfFlags s carry zero).seq = (s.seq) := rfl
@[simp] theorem setHalfFlags_pending (s : State) (carry zero : Bool) : (setHalfFlags s carry zero).pending = (s.pending) := rfl
@[simp] theorem setHalfFlags_adapterWrite (s : State) (carry zero : Bool) : (setHalfFlags s carry zero).adapterWrite = (s.adapterWrite) := rfl
@[simp] theorem setHalfFlags_scanCounter (s : State) (carry zero : Bool) : (setHalfFlags s carry zero).scanCounter = (s.scanCounter) := rfl
@[simp] theorem setHalfFlags_canTimer (s : State) (carry zero : Bool) : (setHalfFlags s carry zero).canTimer = (s.canTimer) := rfl
@[simp] theorem setHalfFlags_sanTimer (s : State) (carry zero : Bool) : (setHalfFlags s carry zero).sanTimer = (s.sanTimer) := rfl
@[simp] theorem setHalfFlags_stored (s : State) (carry zero : Bool) : (setHalfFlags s carry zero).stored = (s.stored) := rfl
@[simp] theorem setHalfFlags_haltFault (s : State) (carry zero : Bool) : (setHalfFlags s carry zero).haltFault = (s.haltFault) := rfl
@[simp] theorem setHalfFlags_clusterWait (s : State) (carry zero : Bool) : (setHalfFlags s carry zero).clusterWait = (s.clusterWait) := rfl
@[simp] theorem setHalfFlags_lm (s : State) (carry zero : Bool) : (setHalfFlags s carry zero).lm = (s.lm) := rfl
@[simp] theorem setHalfFlags_mm (s : State) (carry zero : Bool) : (setHalfFlags s carry zero).mm = (s.mm) := rfl
@[simp] theorem setHalfFlags_clusters (s : State) (carry zero : Bool) : (setHalfFlags s carry zero).clusters = (s.clusters) := rfl
@[simp] theorem setHalfFlags_env (s : State) (carry zero : Bool) : (setHalfFlags s carry zero).env = (s.env) := rfl
@[simp] theorem setHalfFlags_free (s : State) (carry zero : Bool) : (setHalfFlags s carry zero).free = (s.free) := rfl

/-! ### setCluster -/

@[simp] theorem setCluster_cfg (s : State) (k : BitVec 4) (c : Cluster) : (setCluster s k c).cfg = (s.cfg) := rfl
@[simp] theorem setCluster_aa (s : State) (k : BitVec 4) (c : Cluster) : (setCluster s k c).aa = (s.aa) := rfl
@[simp] theorem setCluster_ac (s : State) (k : BitVec 4) (c : Cluster) : (setCluster s k c).ac = (s.ac) := rfl
@[simp] theorem setCluster_ai (s : State) (k : BitVec 4) (c : Cluster) : (setCluster s k c).ai = (s.ai) := rfl
@[simp] theorem setCluster_d (s : State) (k : BitVec 4) (c : Cluster) : (setCluster s k c).d = (s.d) := rfl
@[simp] theorem setCluster_y (s : State) (k : BitVec 4) (c : Cluster) : (setCluster s k c).y = (s.y) := rfl
@[simp] theorem setCluster_x (s : State) (k : BitVec 4) (c : Cluster) : (setCluster s k c).x = (s.x) := rfl
@[simp] theorem setCluster_ma2 (s : State) (k : BitVec 4) (c : Cluster) : (setCluster s k c).ma2 = (s.ma2) := rfl
@[simp] theorem setCluster_ma1 (s : State) (k : BitVec 4) (c : Cluster) : (setCluster s k c).ma1 = (s.ma1) := rfl
@[simp] theorem setCluster_ma0 (s : State) (k : BitVec 4) (c : Cluster) : (setCluster s k c).ma0 = (s.ma0) := rfl
@[simp] theorem setCluster_cf (s : State) (k : BitVec 4) (c : Cluster) : (setCluster s k c).cf = (s.cf) := rfl
@[simp] theorem setCluster_ia1 (s : State) (k : BitVec 4) (c : Cluster) : (setCluster s k c).ia1 = (s.ia1) := rfl
@[simp] theorem setCluster_ia0 (s : State) (k : BitVec 4) (c : Cluster) : (setCluster s k c).ia0 = (s.ia0) := rfl
@[simp] theorem setCluster_w (s : State) (k : BitVec 4) (c : Cluster) : (setCluster s k c).w = (s.w) := rfl
@[simp] theorem setCluster_p (s : State) (k : BitVec 4) (c : Cluster) : (setCluster s k c).p = (s.p) := rfl
@[simp] theorem setCluster_ba (s : State) (k : BitVec 4) (c : Cluster) : (setCluster s k c).ba = (s.ba) := rfl
@[simp] theorem setCluster_cm (s : State) (k : BitVec 4) (c : Cluster) : (setCluster s k c).cm = (s.cm) := rfl
@[simp] theorem setCluster_sm (s : State) (k : BitVec 4) (c : Cluster) : (setCluster s k c).sm = (s.sm) := rfl
@[simp] theorem setCluster_run (s : State) (k : BitVec 4) (c : Cluster) : (setCluster s k c).run = (s.run) := rfl
@[simp] theorem setCluster_ex (s : State) (k : BitVec 4) (c : Cluster) : (setCluster s k c).ex = (s.ex) := rfl
@[simp] theorem setCluster_flt (s : State) (k : BitVec 4) (c : Cluster) : (setCluster s k c).flt = (s.flt) := rfl
@[simp] theorem setCluster_bstm (s : State) (k : BitVec 4) (c : Cluster) : (setCluster s k c).bstm = (s.bstm) := rfl
@[simp] theorem setCluster_pypc (s : State) (k : BitVec 4) (c : Cluster) : (setCluster s k c).pypc = (s.pypc) := rfl
@[simp] theorem setCluster_pywc (s : State) (k : BitVec 4) (c : Cluster) : (setCluster s k c).pywc = (s.pywc) := rfl
@[simp] theorem setCluster_scm (s : State) (k : BitVec 4) (c : Cluster) : (setCluster s k c).scm = (s.scm) := rfl
@[simp] theorem setCluster_seq (s : State) (k : BitVec 4) (c : Cluster) : (setCluster s k c).seq = (s.seq) := rfl
@[simp] theorem setCluster_pending (s : State) (k : BitVec 4) (c : Cluster) : (setCluster s k c).pending = (s.pending) := rfl
@[simp] theorem setCluster_adapterWrite (s : State) (k : BitVec 4) (c : Cluster) : (setCluster s k c).adapterWrite = (s.adapterWrite) := rfl
@[simp] theorem setCluster_scanCounter (s : State) (k : BitVec 4) (c : Cluster) : (setCluster s k c).scanCounter = (s.scanCounter) := rfl
@[simp] theorem setCluster_canTimer (s : State) (k : BitVec 4) (c : Cluster) : (setCluster s k c).canTimer = (s.canTimer) := rfl
@[simp] theorem setCluster_sanTimer (s : State) (k : BitVec 4) (c : Cluster) : (setCluster s k c).sanTimer = (s.sanTimer) := rfl
@[simp] theorem setCluster_stored (s : State) (k : BitVec 4) (c : Cluster) : (setCluster s k c).stored = (s.stored) := rfl
@[simp] theorem setCluster_haltFault (s : State) (k : BitVec 4) (c : Cluster) : (setCluster s k c).haltFault = (s.haltFault) := rfl
@[simp] theorem setCluster_clusterWait (s : State) (k : BitVec 4) (c : Cluster) : (setCluster s k c).clusterWait = (s.clusterWait) := rfl
@[simp] theorem setCluster_lm (s : State) (k : BitVec 4) (c : Cluster) : (setCluster s k c).lm = (s.lm) := rfl
@[simp] theorem setCluster_mm (s : State) (k : BitVec 4) (c : Cluster) : (setCluster s k c).mm = (s.mm) := rfl
@[simp] theorem setCluster_clusters (s : State) (k : BitVec 4) (c : Cluster) : (setCluster s k c).clusters = (s.clusters.set k.toNat c k.isLt) := rfl
@[simp] theorem setCluster_env (s : State) (k : BitVec 4) (c : Cluster) : (setCluster s k c).env = (s.env) := rfl
@[simp] theorem setCluster_free (s : State) (k : BitVec 4) (c : Cluster) : (setCluster s k c).free = (s.free) := rfl

/-! ### scanOne -/

@[simp] theorem scanOne_cfg (s : State) (k : BitVec 4) : (scanOne s k).cfg = (s.cfg) := rfl
@[simp] theorem scanOne_aa (s : State) (k : BitVec 4) : (scanOne s k).aa = (s.aa) := rfl
@[simp] theorem scanOne_ac (s : State) (k : BitVec 4) : (scanOne s k).ac = (s.ac) := rfl
@[simp] theorem scanOne_ai (s : State) (k : BitVec 4) : (scanOne s k).ai = (s.ai) := rfl
@[simp] theorem scanOne_d (s : State) (k : BitVec 4) : (scanOne s k).d = (s.d) := rfl
@[simp] theorem scanOne_y (s : State) (k : BitVec 4) : (scanOne s k).y = (s.y) := rfl
@[simp] theorem scanOne_x (s : State) (k : BitVec 4) : (scanOne s k).x = (s.x) := rfl
@[simp] theorem scanOne_ma2 (s : State) (k : BitVec 4) : (scanOne s k).ma2 = (s.ma2) := rfl
@[simp] theorem scanOne_ma1 (s : State) (k : BitVec 4) : (scanOne s k).ma1 = (s.ma1) := rfl
@[simp] theorem scanOne_ma0 (s : State) (k : BitVec 4) : (scanOne s k).ma0 = (s.ma0) := rfl
@[simp] theorem scanOne_cf (s : State) (k : BitVec 4) : (scanOne s k).cf = (s.cf) := rfl
@[simp] theorem scanOne_ia1 (s : State) (k : BitVec 4) : (scanOne s k).ia1 = (s.ia1) := rfl
@[simp] theorem scanOne_ia0 (s : State) (k : BitVec 4) : (scanOne s k).ia0 = (s.ia0) := rfl
@[simp] theorem scanOne_w (s : State) (k : BitVec 4) : (scanOne s k).w = (s.w) := rfl
@[simp] theorem scanOne_p (s : State) (k : BitVec 4) : (scanOne s k).p = (s.p) := rfl
@[simp] theorem scanOne_ba (s : State) (k : BitVec 4) : (scanOne s k).ba = (s.ba) := rfl
@[simp] theorem scanOne_cm (s : State) (k : BitVec 4) : (scanOne s k).cm = (s.cm) := rfl
@[simp] theorem scanOne_sm (s : State) (k : BitVec 4) : (scanOne s k).sm = (s.sm) := rfl
@[simp] theorem scanOne_run (s : State) (k : BitVec 4) : (scanOne s k).run = (s.run) := rfl
@[simp] theorem scanOne_ex (s : State) (k : BitVec 4) : (scanOne s k).ex = (s.ex) := rfl
@[simp] theorem scanOne_flt (s : State) (k : BitVec 4) : (scanOne s k).flt = (s.flt) := rfl
@[simp] theorem scanOne_bstm (s : State) (k : BitVec 4) : (scanOne s k).bstm = (s.bstm) := rfl
@[simp] theorem scanOne_pypc (s : State) (k : BitVec 4) : (scanOne s k).pypc = (s.pypc) := rfl
@[simp] theorem scanOne_pywc (s : State) (k : BitVec 4) : (scanOne s k).pywc = (s.pywc) := rfl
@[simp] theorem scanOne_scm (s : State) (k : BitVec 4) : (scanOne s k).scm = (s.scm) := rfl
@[simp] theorem scanOne_seq (s : State) (k : BitVec 4) : (scanOne s k).seq = (s.seq) := rfl
@[simp] theorem scanOne_pending (s : State) (k : BitVec 4) : (scanOne s k).pending = (s.pending) := rfl
@[simp] theorem scanOne_adapterWrite (s : State) (k : BitVec 4) : (scanOne s k).adapterWrite = (s.adapterWrite) := rfl
@[simp] theorem scanOne_scanCounter (s : State) (k : BitVec 4) : (scanOne s k).scanCounter = (s.scanCounter) := rfl
@[simp] theorem scanOne_canTimer (s : State) (k : BitVec 4) : (scanOne s k).canTimer = (s.canTimer) := rfl
@[simp] theorem scanOne_sanTimer (s : State) (k : BitVec 4) : (scanOne s k).sanTimer = (s.sanTimer) := rfl
@[simp] theorem scanOne_stored (s : State) (k : BitVec 4) : (scanOne s k).stored = (s.stored) := rfl
@[simp] theorem scanOne_haltFault (s : State) (k : BitVec 4) : (scanOne s k).haltFault = (s.haltFault) := rfl
@[simp] theorem scanOne_clusterWait (s : State) (k : BitVec 4) : (scanOne s k).clusterWait = (s.clusterWait) := rfl
@[simp] theorem scanOne_lm (s : State) (k : BitVec 4) : (scanOne s k).lm = (s.lm) := rfl
@[simp] theorem scanOne_mm (s : State) (k : BitVec 4) : (scanOne s k).mm = (s.mm) := rfl
@[simp] theorem scanOne_clusters (s : State) (k : BitVec 4) : (scanOne s k).clusters = (s.clusters.set k.toNat (scanCluster (clusterOf s k) s.free) k.isLt) := rfl
@[simp] theorem scanOne_env (s : State) (k : BitVec 4) : (scanOne s k).env = (s.env) := rfl
@[simp] theorem scanOne_free (s : State) (k : BitVec 4) : (scanOne s k).free = (if scanDraws (clusterOf s k) then s.free + 1 else s.free) := rfl

/-! ### adapterRead -/

@[simp] theorem adapterRead_cfg (s : State) (k : BitVec 4) : (adapterRead s k).cfg = (s.cfg) := rfl
@[simp] theorem adapterRead_d (s : State) (k : BitVec 4) : (adapterRead s k).d = (s.d) := rfl
@[simp] theorem adapterRead_y (s : State) (k : BitVec 4) : (adapterRead s k).y = (s.y) := rfl
@[simp] theorem adapterRead_x (s : State) (k : BitVec 4) : (adapterRead s k).x = (s.x) := rfl
@[simp] theorem adapterRead_ma2 (s : State) (k : BitVec 4) : (adapterRead s k).ma2 = (s.ma2) := rfl
@[simp] theorem adapterRead_ma1 (s : State) (k : BitVec 4) : (adapterRead s k).ma1 = (s.ma1) := rfl
@[simp] theorem adapterRead_ma0 (s : State) (k : BitVec 4) : (adapterRead s k).ma0 = (s.ma0) := rfl
@[simp] theorem adapterRead_ia1 (s : State) (k : BitVec 4) : (adapterRead s k).ia1 = (s.ia1) := rfl
@[simp] theorem adapterRead_ia0 (s : State) (k : BitVec 4) : (adapterRead s k).ia0 = (s.ia0) := rfl
@[simp] theorem adapterRead_w (s : State) (k : BitVec 4) : (adapterRead s k).w = (s.w) := rfl
@[simp] theorem adapterRead_p (s : State) (k : BitVec 4) : (adapterRead s k).p = (s.p) := rfl
@[simp] theorem adapterRead_ba (s : State) (k : BitVec 4) : (adapterRead s k).ba = (s.ba) := rfl
@[simp] theorem adapterRead_cm (s : State) (k : BitVec 4) : (adapterRead s k).cm = (s.cm) := rfl
@[simp] theorem adapterRead_sm (s : State) (k : BitVec 4) : (adapterRead s k).sm = (s.sm) := rfl
@[simp] theorem adapterRead_run (s : State) (k : BitVec 4) : (adapterRead s k).run = (s.run) := rfl
@[simp] theorem adapterRead_ex (s : State) (k : BitVec 4) : (adapterRead s k).ex = (s.ex) := rfl
@[simp] theorem adapterRead_flt (s : State) (k : BitVec 4) : (adapterRead s k).flt = (s.flt) := rfl
@[simp] theorem adapterRead_bstm (s : State) (k : BitVec 4) : (adapterRead s k).bstm = (s.bstm) := rfl
@[simp] theorem adapterRead_pypc (s : State) (k : BitVec 4) : (adapterRead s k).pypc = (s.pypc) := rfl
@[simp] theorem adapterRead_pywc (s : State) (k : BitVec 4) : (adapterRead s k).pywc = (s.pywc) := rfl
@[simp] theorem adapterRead_scm (s : State) (k : BitVec 4) : (adapterRead s k).scm = (s.scm) := rfl
@[simp] theorem adapterRead_seq (s : State) (k : BitVec 4) : (adapterRead s k).seq = (s.seq) := rfl
@[simp] theorem adapterRead_pending (s : State) (k : BitVec 4) : (adapterRead s k).pending = (s.pending) := rfl
@[simp] theorem adapterRead_adapterWrite (s : State) (k : BitVec 4) : (adapterRead s k).adapterWrite = (s.adapterWrite) := rfl
@[simp] theorem adapterRead_sanTimer (s : State) (k : BitVec 4) : (adapterRead s k).sanTimer = (s.sanTimer) := rfl
@[simp] theorem adapterRead_stored (s : State) (k : BitVec 4) : (adapterRead s k).stored = (s.stored) := rfl
@[simp] theorem adapterRead_haltFault (s : State) (k : BitVec 4) : (adapterRead s k).haltFault = (s.haltFault) := rfl
@[simp] theorem adapterRead_clusterWait (s : State) (k : BitVec 4) : (adapterRead s k).clusterWait = (s.clusterWait) := rfl
@[simp] theorem adapterRead_lm (s : State) (k : BitVec 4) : (adapterRead s k).lm = (s.lm) := rfl
@[simp] theorem adapterRead_mm (s : State) (k : BitVec 4) : (adapterRead s k).mm = (s.mm) := rfl

/-! ### atClusterError -/

@[simp] theorem atClusterError_cfg (s u : State) : (atClusterError s u).cfg = (u.cfg) := rfl
@[simp] theorem atClusterError_aa (s u : State) : (atClusterError s u).aa = (u.aa) := rfl
@[simp] theorem atClusterError_ac (s u : State) : (atClusterError s u).ac = (pick s.cfg.clusterErrorPrecise s.ac u.ac) := rfl
@[simp] theorem atClusterError_ai (s u : State) : (atClusterError s u).ai = (pick s.cfg.clusterErrorPrecise s.ai u.ai) := rfl
@[simp] theorem atClusterError_d (s u : State) : (atClusterError s u).d = (u.d) := rfl
@[simp] theorem atClusterError_y (s u : State) : (atClusterError s u).y = (u.y) := rfl
@[simp] theorem atClusterError_x (s u : State) : (atClusterError s u).x = (u.x) := rfl
@[simp] theorem atClusterError_ma2 (s u : State) : (atClusterError s u).ma2 = (u.ma2) := rfl
@[simp] theorem atClusterError_ma1 (s u : State) : (atClusterError s u).ma1 = (u.ma1) := rfl
@[simp] theorem atClusterError_ma0 (s u : State) : (atClusterError s u).ma0 = (u.ma0) := rfl
@[simp] theorem atClusterError_cf (s u : State) : (atClusterError s u).cf = (u.cf) := rfl
@[simp] theorem atClusterError_ia1 (s u : State) : (atClusterError s u).ia1 = (u.ia1) := rfl
@[simp] theorem atClusterError_ia0 (s u : State) : (atClusterError s u).ia0 = (u.ia0) := rfl
@[simp] theorem atClusterError_w (s u : State) : (atClusterError s u).w = (u.w) := rfl
@[simp] theorem atClusterError_p (s u : State) : (atClusterError s u).p = (u.p) := rfl
@[simp] theorem atClusterError_ba (s u : State) : (atClusterError s u).ba = (u.ba) := rfl
@[simp] theorem atClusterError_cm (s u : State) : (atClusterError s u).cm = (u.cm) := rfl
@[simp] theorem atClusterError_sm (s u : State) : (atClusterError s u).sm = (u.sm) := rfl
@[simp] theorem atClusterError_run (s u : State) : (atClusterError s u).run = (u.run) := rfl
@[simp] theorem atClusterError_ex (s u : State) : (atClusterError s u).ex = (u.ex) := rfl
@[simp] theorem atClusterError_flt (s u : State) : (atClusterError s u).flt = (u.flt) := rfl
@[simp] theorem atClusterError_bstm (s u : State) : (atClusterError s u).bstm = (u.bstm) := rfl
@[simp] theorem atClusterError_pypc (s u : State) : (atClusterError s u).pypc = (u.pypc) := rfl
@[simp] theorem atClusterError_pywc (s u : State) : (atClusterError s u).pywc = (u.pywc) := rfl
@[simp] theorem atClusterError_scm (s u : State) : (atClusterError s u).scm = (u.scm) := rfl
@[simp] theorem atClusterError_seq (s u : State) : (atClusterError s u).seq = (u.seq) := rfl
@[simp] theorem atClusterError_pending (s u : State) : (atClusterError s u).pending = (u.pending) := rfl
@[simp] theorem atClusterError_adapterWrite (s u : State) : (atClusterError s u).adapterWrite = (u.adapterWrite) := rfl
@[simp] theorem atClusterError_scanCounter (s u : State) : (atClusterError s u).scanCounter = (u.scanCounter) := rfl
@[simp] theorem atClusterError_canTimer (s u : State) : (atClusterError s u).canTimer = (u.canTimer) := rfl
@[simp] theorem atClusterError_sanTimer (s u : State) : (atClusterError s u).sanTimer = (u.sanTimer) := rfl
@[simp] theorem atClusterError_stored (s u : State) : (atClusterError s u).stored = (u.stored) := rfl
@[simp] theorem atClusterError_haltFault (s u : State) : (atClusterError s u).haltFault = (u.haltFault) := rfl
@[simp] theorem atClusterError_clusterWait (s u : State) : (atClusterError s u).clusterWait = (u.clusterWait) := rfl
@[simp] theorem atClusterError_lm (s u : State) : (atClusterError s u).lm = (u.lm) := rfl
@[simp] theorem atClusterError_mm (s u : State) : (atClusterError s u).mm = (u.mm) := rfl
@[simp] theorem atClusterError_clusters (s u : State) : (atClusterError s u).clusters = (u.clusters) := rfl
@[simp] theorem atClusterError_env (s u : State) : (atClusterError s u).env = (u.env) := rfl
@[simp] theorem atClusterError_free (s u : State) : (atClusterError s u).free = (u.free) := rfl

/-! ### loadLiterals -/

@[simp] theorem loadLiterals_cfg (s : State) (a : BitVec 2) (b c : Byte) : (loadLiterals s a b c).cfg = (s.cfg) := rfl
@[simp] theorem loadLiterals_aa (s : State) (a : BitVec 2) (b c : Byte) : (loadLiterals s a b c).aa = (s.aa) := rfl
@[simp] theorem loadLiterals_ac (s : State) (a : BitVec 2) (b c : Byte) : (loadLiterals s a b c).ac = (pick (a.getLsbD 1) b s.ac) := rfl
@[simp] theorem loadLiterals_ai (s : State) (a : BitVec 2) (b c : Byte) : (loadLiterals s a b c).ai = (pick (a.getLsbD 0) c s.ai) := rfl
@[simp] theorem loadLiterals_d (s : State) (a : BitVec 2) (b c : Byte) : (loadLiterals s a b c).d = (s.d) := rfl
@[simp] theorem loadLiterals_y (s : State) (a : BitVec 2) (b c : Byte) : (loadLiterals s a b c).y = (s.y) := rfl
@[simp] theorem loadLiterals_x (s : State) (a : BitVec 2) (b c : Byte) : (loadLiterals s a b c).x = (s.x) := rfl
@[simp] theorem loadLiterals_ma2 (s : State) (a : BitVec 2) (b c : Byte) : (loadLiterals s a b c).ma2 = (s.ma2) := rfl
@[simp] theorem loadLiterals_ma1 (s : State) (a : BitVec 2) (b c : Byte) : (loadLiterals s a b c).ma1 = (s.ma1) := rfl
@[simp] theorem loadLiterals_ma0 (s : State) (a : BitVec 2) (b c : Byte) : (loadLiterals s a b c).ma0 = (s.ma0) := rfl
@[simp] theorem loadLiterals_cf (s : State) (a : BitVec 2) (b c : Byte) : (loadLiterals s a b c).cf = (s.cf) := rfl
@[simp] theorem loadLiterals_ia1 (s : State) (a : BitVec 2) (b c : Byte) : (loadLiterals s a b c).ia1 = (s.ia1) := rfl
@[simp] theorem loadLiterals_ia0 (s : State) (a : BitVec 2) (b c : Byte) : (loadLiterals s a b c).ia0 = (s.ia0) := rfl
@[simp] theorem loadLiterals_w (s : State) (a : BitVec 2) (b c : Byte) : (loadLiterals s a b c).w = (s.w) := rfl
@[simp] theorem loadLiterals_p (s : State) (a : BitVec 2) (b c : Byte) : (loadLiterals s a b c).p = (s.p) := rfl
@[simp] theorem loadLiterals_ba (s : State) (a : BitVec 2) (b c : Byte) : (loadLiterals s a b c).ba = (s.ba) := rfl
@[simp] theorem loadLiterals_cm (s : State) (a : BitVec 2) (b c : Byte) : (loadLiterals s a b c).cm = (s.cm) := rfl
@[simp] theorem loadLiterals_sm (s : State) (a : BitVec 2) (b c : Byte) : (loadLiterals s a b c).sm = (s.sm) := rfl
@[simp] theorem loadLiterals_run (s : State) (a : BitVec 2) (b c : Byte) : (loadLiterals s a b c).run = (s.run) := rfl
@[simp] theorem loadLiterals_ex (s : State) (a : BitVec 2) (b c : Byte) : (loadLiterals s a b c).ex = (s.ex) := rfl
@[simp] theorem loadLiterals_flt (s : State) (a : BitVec 2) (b c : Byte) : (loadLiterals s a b c).flt = (s.flt) := rfl
@[simp] theorem loadLiterals_bstm (s : State) (a : BitVec 2) (b c : Byte) : (loadLiterals s a b c).bstm = (s.bstm) := rfl
@[simp] theorem loadLiterals_pypc (s : State) (a : BitVec 2) (b c : Byte) : (loadLiterals s a b c).pypc = (s.pypc) := rfl
@[simp] theorem loadLiterals_pywc (s : State) (a : BitVec 2) (b c : Byte) : (loadLiterals s a b c).pywc = (s.pywc) := rfl
@[simp] theorem loadLiterals_scm (s : State) (a : BitVec 2) (b c : Byte) : (loadLiterals s a b c).scm = (s.scm) := rfl
@[simp] theorem loadLiterals_seq (s : State) (a : BitVec 2) (b c : Byte) : (loadLiterals s a b c).seq = (s.seq) := rfl
@[simp] theorem loadLiterals_pending (s : State) (a : BitVec 2) (b c : Byte) : (loadLiterals s a b c).pending = (s.pending) := rfl
@[simp] theorem loadLiterals_adapterWrite (s : State) (a : BitVec 2) (b c : Byte) : (loadLiterals s a b c).adapterWrite = (s.adapterWrite) := rfl
@[simp] theorem loadLiterals_scanCounter (s : State) (a : BitVec 2) (b c : Byte) : (loadLiterals s a b c).scanCounter = (s.scanCounter) := rfl
@[simp] theorem loadLiterals_canTimer (s : State) (a : BitVec 2) (b c : Byte) : (loadLiterals s a b c).canTimer = (s.canTimer) := rfl
@[simp] theorem loadLiterals_sanTimer (s : State) (a : BitVec 2) (b c : Byte) : (loadLiterals s a b c).sanTimer = (s.sanTimer) := rfl
@[simp] theorem loadLiterals_stored (s : State) (a : BitVec 2) (b c : Byte) : (loadLiterals s a b c).stored = (s.stored) := rfl
@[simp] theorem loadLiterals_haltFault (s : State) (a : BitVec 2) (b c : Byte) : (loadLiterals s a b c).haltFault = (s.haltFault) := rfl
@[simp] theorem loadLiterals_clusterWait (s : State) (a : BitVec 2) (b c : Byte) : (loadLiterals s a b c).clusterWait = (s.clusterWait) := rfl
@[simp] theorem loadLiterals_lm (s : State) (a : BitVec 2) (b c : Byte) : (loadLiterals s a b c).lm = (s.lm) := rfl
@[simp] theorem loadLiterals_mm (s : State) (a : BitVec 2) (b c : Byte) : (loadLiterals s a b c).mm = (s.mm) := rfl
@[simp] theorem loadLiterals_clusters (s : State) (a : BitVec 2) (b c : Byte) : (loadLiterals s a b c).clusters = (s.clusters) := rfl
@[simp] theorem loadLiterals_env (s : State) (a : BitVec 2) (b c : Byte) : (loadLiterals s a b c).env = (s.env) := rfl
@[simp] theorem loadLiterals_free (s : State) (a : BitVec 2) (b c : Byte) : (loadLiterals s a b c).free = (s.free) := rfl

/-! ### responsiveRead -/

@[simp] theorem responsiveRead_cfg (s : State) : (responsiveRead s).cfg = (s.cfg) := rfl
@[simp] theorem responsiveRead_aa (s : State) : (responsiveRead s).aa = (s.aa) := rfl
@[simp] theorem responsiveRead_d (s : State) : (responsiveRead s).d = (s.d) := rfl
@[simp] theorem responsiveRead_y (s : State) : (responsiveRead s).y = (s.y) := rfl
@[simp] theorem responsiveRead_x (s : State) : (responsiveRead s).x = (s.x) := rfl
@[simp] theorem responsiveRead_ma2 (s : State) : (responsiveRead s).ma2 = (s.ma2) := rfl
@[simp] theorem responsiveRead_ma1 (s : State) : (responsiveRead s).ma1 = (s.ma1) := rfl
@[simp] theorem responsiveRead_ma0 (s : State) : (responsiveRead s).ma0 = (s.ma0) := rfl
@[simp] theorem responsiveRead_ia1 (s : State) : (responsiveRead s).ia1 = (s.ia1) := rfl
@[simp] theorem responsiveRead_ia0 (s : State) : (responsiveRead s).ia0 = (s.ia0) := rfl
@[simp] theorem responsiveRead_w (s : State) : (responsiveRead s).w = (s.w) := rfl
@[simp] theorem responsiveRead_p (s : State) : (responsiveRead s).p = (s.p) := rfl
@[simp] theorem responsiveRead_ba (s : State) : (responsiveRead s).ba = (s.ba) := rfl
@[simp] theorem responsiveRead_cm (s : State) : (responsiveRead s).cm = (s.cm) := rfl
@[simp] theorem responsiveRead_sm (s : State) : (responsiveRead s).sm = (s.sm) := rfl
@[simp] theorem responsiveRead_run (s : State) : (responsiveRead s).run = (s.run) := rfl
@[simp] theorem responsiveRead_ex (s : State) : (responsiveRead s).ex = (s.ex) := rfl
@[simp] theorem responsiveRead_flt (s : State) : (responsiveRead s).flt = (s.flt) := rfl
@[simp] theorem responsiveRead_bstm (s : State) : (responsiveRead s).bstm = (s.bstm) := rfl
@[simp] theorem responsiveRead_pypc (s : State) : (responsiveRead s).pypc = (s.pypc) := rfl
@[simp] theorem responsiveRead_pywc (s : State) : (responsiveRead s).pywc = (s.pywc) := rfl
@[simp] theorem responsiveRead_scm (s : State) : (responsiveRead s).scm = (s.scm) := rfl
@[simp] theorem responsiveRead_seq (s : State) : (responsiveRead s).seq = (s.seq) := rfl
@[simp] theorem responsiveRead_pending (s : State) : (responsiveRead s).pending = (s.pending) := rfl
@[simp] theorem responsiveRead_adapterWrite (s : State) : (responsiveRead s).adapterWrite = (s.adapterWrite) := rfl
@[simp] theorem responsiveRead_scanCounter (s : State) : (responsiveRead s).scanCounter = (s.scanCounter) := rfl
@[simp] theorem responsiveRead_canTimer (s : State) : (responsiveRead s).canTimer = (s.canTimer) := rfl
@[simp] theorem responsiveRead_sanTimer (s : State) : (responsiveRead s).sanTimer = (s.sanTimer) := rfl
@[simp] theorem responsiveRead_stored (s : State) : (responsiveRead s).stored = (s.stored) := rfl
@[simp] theorem responsiveRead_haltFault (s : State) : (responsiveRead s).haltFault = (s.haltFault) := rfl
@[simp] theorem responsiveRead_clusterWait (s : State) : (responsiveRead s).clusterWait = (s.clusterWait) := rfl
@[simp] theorem responsiveRead_lm (s : State) : (responsiveRead s).lm = (s.lm) := rfl
@[simp] theorem responsiveRead_mm (s : State) : (responsiveRead s).mm = (s.mm) := rfl
@[simp] theorem responsiveRead_free (s : State) : (responsiveRead s).free = (s.free) := rfl

/-! ### waitForRead -/

@[simp] theorem waitForRead_cfg (s : State) : (waitForRead s).cfg = (s.cfg) := rfl
@[simp] theorem waitForRead_aa (s : State) : (waitForRead s).aa = (s.aa) := rfl
@[simp] theorem waitForRead_ac (s : State) : (waitForRead s).ac = (s.ac) := rfl
@[simp] theorem waitForRead_ai (s : State) : (waitForRead s).ai = (s.ai) := rfl
@[simp] theorem waitForRead_d (s : State) : (waitForRead s).d = (s.d) := rfl
@[simp] theorem waitForRead_y (s : State) : (waitForRead s).y = (s.y) := rfl
@[simp] theorem waitForRead_x (s : State) : (waitForRead s).x = (s.x) := rfl
@[simp] theorem waitForRead_ma2 (s : State) : (waitForRead s).ma2 = (s.ma2) := rfl
@[simp] theorem waitForRead_ma1 (s : State) : (waitForRead s).ma1 = (s.ma1) := rfl
@[simp] theorem waitForRead_ma0 (s : State) : (waitForRead s).ma0 = (s.ma0) := rfl
@[simp] theorem waitForRead_cf (s : State) : (waitForRead s).cf = (s.cf) := rfl
@[simp] theorem waitForRead_ia1 (s : State) : (waitForRead s).ia1 = (s.ia1) := rfl
@[simp] theorem waitForRead_ia0 (s : State) : (waitForRead s).ia0 = (s.ia0) := rfl
@[simp] theorem waitForRead_w (s : State) : (waitForRead s).w = (s.w) := rfl
@[simp] theorem waitForRead_p (s : State) : (waitForRead s).p = (s.p) := rfl
@[simp] theorem waitForRead_ba (s : State) : (waitForRead s).ba = (s.ba) := rfl
@[simp] theorem waitForRead_cm (s : State) : (waitForRead s).cm = (s.cm) := rfl
@[simp] theorem waitForRead_sm (s : State) : (waitForRead s).sm = (s.sm) := rfl
@[simp] theorem waitForRead_run (s : State) : (waitForRead s).run = (s.run) := rfl
@[simp] theorem waitForRead_ex (s : State) : (waitForRead s).ex = (s.ex) := rfl
@[simp] theorem waitForRead_flt (s : State) : (waitForRead s).flt = (s.flt) := rfl
@[simp] theorem waitForRead_bstm (s : State) : (waitForRead s).bstm = (s.bstm) := rfl
@[simp] theorem waitForRead_pypc (s : State) : (waitForRead s).pypc = (s.pypc) := rfl
@[simp] theorem waitForRead_pywc (s : State) : (waitForRead s).pywc = (s.pywc) := rfl
@[simp] theorem waitForRead_scm (s : State) : (waitForRead s).scm = (s.scm) := rfl
@[simp] theorem waitForRead_seq (s : State) : (waitForRead s).seq = (s.seq) := rfl
@[simp] theorem waitForRead_pending (s : State) : (waitForRead s).pending = (s.pending) := rfl
@[simp] theorem waitForRead_adapterWrite (s : State) : (waitForRead s).adapterWrite = (s.adapterWrite) := rfl
@[simp] theorem waitForRead_scanCounter (s : State) : (waitForRead s).scanCounter = (s.scanCounter) := rfl
@[simp] theorem waitForRead_canTimer (s : State) : (waitForRead s).canTimer = (s.canTimer) := rfl
@[simp] theorem waitForRead_sanTimer (s : State) : (waitForRead s).sanTimer = (s.sanTimer) := rfl
@[simp] theorem waitForRead_stored (s : State) : (waitForRead s).stored = (s.stored) := rfl
@[simp] theorem waitForRead_haltFault (s : State) : (waitForRead s).haltFault = (s.haltFault) := rfl
@[simp] theorem waitForRead_clusterWait (s : State) : (waitForRead s).clusterWait = (true) := rfl
@[simp] theorem waitForRead_lm (s : State) : (waitForRead s).lm = (s.lm) := rfl
@[simp] theorem waitForRead_mm (s : State) : (waitForRead s).mm = (s.mm) := rfl
@[simp] theorem waitForRead_clusters (s : State) : (waitForRead s).clusters = (s.clusters) := rfl
@[simp] theorem waitForRead_env (s : State) : (waitForRead s).env = (s.env) := rfl
@[simp] theorem waitForRead_free (s : State) : (waitForRead s).free = (s.free + 1) := rfl

/-! ### readFailed -/

@[simp] theorem readFailed_cfg (s : State) : (readFailed s).cfg = (s.cfg) := rfl
@[simp] theorem readFailed_aa (s : State) : (readFailed s).aa = (s.aa) := rfl
@[simp] theorem readFailed_ac (s : State) : (readFailed s).ac = (s.ac) := rfl
@[simp] theorem readFailed_ai (s : State) : (readFailed s).ai = (s.ai) := rfl
@[simp] theorem readFailed_d (s : State) : (readFailed s).d = (s.d) := rfl
@[simp] theorem readFailed_y (s : State) : (readFailed s).y = (s.y) := rfl
@[simp] theorem readFailed_x (s : State) : (readFailed s).x = (s.x) := rfl
@[simp] theorem readFailed_ma2 (s : State) : (readFailed s).ma2 = (s.ma2) := rfl
@[simp] theorem readFailed_ma1 (s : State) : (readFailed s).ma1 = (s.ma1) := rfl
@[simp] theorem readFailed_ma0 (s : State) : (readFailed s).ma0 = (s.ma0) := rfl
@[simp] theorem readFailed_cf (s : State) : (readFailed s).cf = (s.cf) := rfl
@[simp] theorem readFailed_ia1 (s : State) : (readFailed s).ia1 = (s.ia1) := rfl
@[simp] theorem readFailed_ia0 (s : State) : (readFailed s).ia0 = (s.ia0) := rfl
@[simp] theorem readFailed_w (s : State) : (readFailed s).w = (s.w) := rfl
@[simp] theorem readFailed_p (s : State) : (readFailed s).p = (s.p) := rfl
@[simp] theorem readFailed_ba (s : State) : (readFailed s).ba = (s.ba) := rfl
@[simp] theorem readFailed_cm (s : State) : (readFailed s).cm = (s.cm) := rfl
@[simp] theorem readFailed_sm (s : State) : (readFailed s).sm = (s.sm) := rfl
@[simp] theorem readFailed_run (s : State) : (readFailed s).run = (s.run) := rfl
@[simp] theorem readFailed_ex (s : State) : (readFailed s).ex = (s.ex) := rfl
@[simp] theorem readFailed_flt (s : State) : (readFailed s).flt = (s.flt) := rfl
@[simp] theorem readFailed_bstm (s : State) : (readFailed s).bstm = (s.bstm) := rfl
@[simp] theorem readFailed_pypc (s : State) : (readFailed s).pypc = (s.pypc) := rfl
@[simp] theorem readFailed_pywc (s : State) : (readFailed s).pywc = (s.pywc) := rfl
@[simp] theorem readFailed_scm (s : State) : (readFailed s).scm = (s.scm) := rfl
@[simp] theorem readFailed_seq (s : State) : (readFailed s).seq = (s.seq) := rfl
@[simp] theorem readFailed_pending (s : State) : (readFailed s).pending = (s.pending) := rfl
@[simp] theorem readFailed_adapterWrite (s : State) : (readFailed s).adapterWrite = (s.adapterWrite) := rfl
@[simp] theorem readFailed_scanCounter (s : State) : (readFailed s).scanCounter = (s.scanCounter) := rfl
@[simp] theorem readFailed_canTimer (s : State) : (readFailed s).canTimer = (s.canTimer) := rfl
@[simp] theorem readFailed_sanTimer (s : State) : (readFailed s).sanTimer = (s.sanTimer) := rfl
@[simp] theorem readFailed_stored (s : State) : (readFailed s).stored = (s.stored) := rfl
@[simp] theorem readFailed_haltFault (s : State) : (readFailed s).haltFault = (s.haltFault) := rfl
@[simp] theorem readFailed_clusterWait (s : State) : (readFailed s).clusterWait = (s.clusterWait) := rfl
@[simp] theorem readFailed_lm (s : State) : (readFailed s).lm = (s.lm) := rfl
@[simp] theorem readFailed_mm (s : State) : (readFailed s).mm = (s.mm) := rfl
@[simp] theorem readFailed_clusters (s : State) : (readFailed s).clusters = (s.clusters) := rfl
@[simp] theorem readFailed_env (s : State) : (readFailed s).env = (exchangeTaken s.env) := rfl
@[simp] theorem readFailed_free (s : State) : (readFailed s).free = (s.free + 1) := rfl

/-! ### saveForSubroutine -/

@[simp] theorem saveForSubroutine_cfg (s : State) : (saveForSubroutine s).cfg = (s.cfg) := rfl
@[simp] theorem saveForSubroutine_aa (s : State) : (saveForSubroutine s).aa = (s.aa) := rfl
@[simp] theorem saveForSubroutine_ac (s : State) : (saveForSubroutine s).ac = (s.ac) := rfl
@[simp] theorem saveForSubroutine_ai (s : State) : (saveForSubroutine s).ai = (s.ai) := rfl
@[simp] theorem saveForSubroutine_d (s : State) : (saveForSubroutine s).d = (s.d) := rfl
@[simp] theorem saveForSubroutine_y (s : State) : (saveForSubroutine s).y = (s.y) := rfl
@[simp] theorem saveForSubroutine_x (s : State) : (saveForSubroutine s).x = (s.x) := rfl
@[simp] theorem saveForSubroutine_ma2 (s : State) : (saveForSubroutine s).ma2 = (s.cf) := rfl
@[simp] theorem saveForSubroutine_ma1 (s : State) : (saveForSubroutine s).ma1 = (s.ia1) := rfl
@[simp] theorem saveForSubroutine_ma0 (s : State) : (saveForSubroutine s).ma0 = (s.ia0) := rfl
@[simp] theorem saveForSubroutine_cf (s : State) : (saveForSubroutine s).cf = (s.cf) := rfl
@[simp] theorem saveForSubroutine_ia1 (s : State) : (saveForSubroutine s).ia1 = (s.ia1) := rfl
@[simp] theorem saveForSubroutine_ia0 (s : State) : (saveForSubroutine s).ia0 = (s.ia0) := rfl
@[simp] theorem saveForSubroutine_w (s : State) : (saveForSubroutine s).w = (s.w) := rfl
@[simp] theorem saveForSubroutine_p (s : State) : (saveForSubroutine s).p = (s.p) := rfl
@[simp] theorem saveForSubroutine_ba (s : State) : (saveForSubroutine s).ba = (s.ba) := rfl
@[simp] theorem saveForSubroutine_cm (s : State) : (saveForSubroutine s).cm = (s.cm) := rfl
@[simp] theorem saveForSubroutine_sm (s : State) : (saveForSubroutine s).sm = (s.sm.set 0 (putRight (smWord s 0) (ma s))) := rfl
@[simp] theorem saveForSubroutine_run (s : State) : (saveForSubroutine s).run = (s.run) := rfl
@[simp] theorem saveForSubroutine_ex (s : State) : (saveForSubroutine s).ex = (s.ex) := rfl
@[simp] theorem saveForSubroutine_flt (s : State) : (saveForSubroutine s).flt = (s.flt) := rfl
@[simp] theorem saveForSubroutine_bstm (s : State) : (saveForSubroutine s).bstm = (s.bstm) := rfl
@[simp] theorem saveForSubroutine_pypc (s : State) : (saveForSubroutine s).pypc = (s.pypc) := rfl
@[simp] theorem saveForSubroutine_pywc (s : State) : (saveForSubroutine s).pywc = (s.pywc) := rfl
@[simp] theorem saveForSubroutine_scm (s : State) : (saveForSubroutine s).scm = (s.scm) := rfl
@[simp] theorem saveForSubroutine_seq (s : State) : (saveForSubroutine s).seq = (s.seq) := rfl
@[simp] theorem saveForSubroutine_pending (s : State) : (saveForSubroutine s).pending = (s.pending) := rfl
@[simp] theorem saveForSubroutine_adapterWrite (s : State) : (saveForSubroutine s).adapterWrite = (s.adapterWrite) := rfl
@[simp] theorem saveForSubroutine_scanCounter (s : State) : (saveForSubroutine s).scanCounter = (s.scanCounter) := rfl
@[simp] theorem saveForSubroutine_canTimer (s : State) : (saveForSubroutine s).canTimer = (s.canTimer) := rfl
@[simp] theorem saveForSubroutine_sanTimer (s : State) : (saveForSubroutine s).sanTimer = (s.sanTimer) := rfl
@[simp] theorem saveForSubroutine_stored (s : State) : (saveForSubroutine s).stored = (s.stored) := rfl
@[simp] theorem saveForSubroutine_haltFault (s : State) : (saveForSubroutine s).haltFault = (s.haltFault) := rfl
@[simp] theorem saveForSubroutine_clusterWait (s : State) : (saveForSubroutine s).clusterWait = (s.clusterWait) := rfl
@[simp] theorem saveForSubroutine_lm (s : State) : (saveForSubroutine s).lm = (s.lm) := rfl
@[simp] theorem saveForSubroutine_mm (s : State) : (saveForSubroutine s).mm = (s.mm) := rfl
@[simp] theorem saveForSubroutine_clusters (s : State) : (saveForSubroutine s).clusters = (s.clusters) := rfl
@[simp] theorem saveForSubroutine_env (s : State) : (saveForSubroutine s).env = (s.env) := rfl
@[simp] theorem saveForSubroutine_free (s : State) : (saveForSubroutine s).free = (s.free) := rfl

/-! ### lmLoad -/

@[simp] theorem lmLoad_cfg (s : State) (a : BitVec 14) : (lmLoad s a).cfg = (s.cfg) := rfl
@[simp] theorem lmLoad_aa (s : State) (a : BitVec 14) : (lmLoad s a).aa = (s.aa) := rfl
@[simp] theorem lmLoad_ac (s : State) (a : BitVec 14) : (lmLoad s a).ac = (s.ac) := rfl
@[simp] theorem lmLoad_ai (s : State) (a : BitVec 14) : (lmLoad s a).ai = (s.ai) := rfl
@[simp] theorem lmLoad_d (s : State) (a : BitVec 14) : (lmLoad s a).d = (s.d) := rfl
@[simp] theorem lmLoad_y (s : State) (a : BitVec 14) : (lmLoad s a).y = (s.y) := rfl
@[simp] theorem lmLoad_x (s : State) (a : BitVec 14) : (lmLoad s a).x = (s.x) := rfl
@[simp] theorem lmLoad_ma2 (s : State) (a : BitVec 14) : (lmLoad s a).ma2 = (s.ma2) := rfl
@[simp] theorem lmLoad_ma1 (s : State) (a : BitVec 14) : (lmLoad s a).ma1 = (s.ma1) := rfl
@[simp] theorem lmLoad_ma0 (s : State) (a : BitVec 14) : (lmLoad s a).ma0 = (s.ma0) := rfl
@[simp] theorem lmLoad_cf (s : State) (a : BitVec 14) : (lmLoad s a).cf = (s.cf) := rfl
@[simp] theorem lmLoad_ia1 (s : State) (a : BitVec 14) : (lmLoad s a).ia1 = (s.ia1) := rfl
@[simp] theorem lmLoad_ia0 (s : State) (a : BitVec 14) : (lmLoad s a).ia0 = (s.ia0) := rfl
@[simp] theorem lmLoad_w (s : State) (a : BitVec 14) : (lmLoad s a).w = (memRead s.lm a.toNat) := rfl
@[simp] theorem lmLoad_p (s : State) (a : BitVec 14) : (lmLoad s a).p = (s.p) := rfl
@[simp] theorem lmLoad_ba (s : State) (a : BitVec 14) : (lmLoad s a).ba = (s.ba) := rfl
@[simp] theorem lmLoad_cm (s : State) (a : BitVec 14) : (lmLoad s a).cm = (s.cm) := rfl
@[simp] theorem lmLoad_sm (s : State) (a : BitVec 14) : (lmLoad s a).sm = (s.sm) := rfl
@[simp] theorem lmLoad_run (s : State) (a : BitVec 14) : (lmLoad s a).run = (s.run) := rfl
@[simp] theorem lmLoad_ex (s : State) (a : BitVec 14) : (lmLoad s a).ex = (s.ex) := rfl
@[simp] theorem lmLoad_flt (s : State) (a : BitVec 14) : (lmLoad s a).flt = (s.flt) := rfl
@[simp] theorem lmLoad_bstm (s : State) (a : BitVec 14) : (lmLoad s a).bstm = (s.bstm) := rfl
@[simp] theorem lmLoad_pypc (s : State) (a : BitVec 14) : (lmLoad s a).pypc = (s.pypc) := rfl
@[simp] theorem lmLoad_pywc (s : State) (a : BitVec 14) : (lmLoad s a).pywc = (true) := rfl
@[simp] theorem lmLoad_scm (s : State) (a : BitVec 14) : (lmLoad s a).scm = (true) := rfl
@[simp] theorem lmLoad_seq (s : State) (a : BitVec 14) : (lmLoad s a).seq = (s.seq) := rfl
@[simp] theorem lmLoad_pending (s : State) (a : BitVec 14) : (lmLoad s a).pending = (s.pending) := rfl
@[simp] theorem lmLoad_adapterWrite (s : State) (a : BitVec 14) : (lmLoad s a).adapterWrite = (s.adapterWrite) := rfl
@[simp] theorem lmLoad_scanCounter (s : State) (a : BitVec 14) : (lmLoad s a).scanCounter = (s.scanCounter) := rfl
@[simp] theorem lmLoad_canTimer (s : State) (a : BitVec 14) : (lmLoad s a).canTimer = (s.canTimer) := rfl
@[simp] theorem lmLoad_sanTimer (s : State) (a : BitVec 14) : (lmLoad s a).sanTimer = (s.sanTimer) := rfl
@[simp] theorem lmLoad_stored (s : State) (a : BitVec 14) : (lmLoad s a).stored = (s.stored) := rfl
@[simp] theorem lmLoad_haltFault (s : State) (a : BitVec 14) : (lmLoad s a).haltFault = (s.haltFault) := rfl
@[simp] theorem lmLoad_clusterWait (s : State) (a : BitVec 14) : (lmLoad s a).clusterWait = (s.clusterWait) := rfl
@[simp] theorem lmLoad_lm (s : State) (a : BitVec 14) : (lmLoad s a).lm = (s.lm) := rfl
@[simp] theorem lmLoad_mm (s : State) (a : BitVec 14) : (lmLoad s a).mm = (s.mm) := rfl
@[simp] theorem lmLoad_clusters (s : State) (a : BitVec 14) : (lmLoad s a).clusters = (s.clusters) := rfl
@[simp] theorem lmLoad_env (s : State) (a : BitVec 14) : (lmLoad s a).env = (s.env) := rfl
@[simp] theorem lmLoad_free (s : State) (a : BitVec 14) : (lmLoad s a).free = (s.free) := rfl

/-! ### lmDone -/

@[simp] theorem lmDone_cfg (s : State) : (lmDone s).cfg = (s.cfg) := rfl
@[simp] theorem lmDone_aa (s : State) : (lmDone s).aa = (s.aa) := rfl
@[simp] theorem lmDone_ac (s : State) : (lmDone s).ac = (s.ac) := rfl
@[simp] theorem lmDone_ai (s : State) : (lmDone s).ai = (s.ai) := rfl
@[simp] theorem lmDone_d (s : State) : (lmDone s).d = (s.d) := rfl
@[simp] theorem lmDone_y (s : State) : (lmDone s).y = (s.y) := rfl
@[simp] theorem lmDone_x (s : State) : (lmDone s).x = (s.x) := rfl
@[simp] theorem lmDone_ma2 (s : State) : (lmDone s).ma2 = (s.ma2) := rfl
@[simp] theorem lmDone_ma1 (s : State) : (lmDone s).ma1 = (s.ma1) := rfl
@[simp] theorem lmDone_ma0 (s : State) : (lmDone s).ma0 = (s.ma0) := rfl
@[simp] theorem lmDone_cf (s : State) : (lmDone s).cf = (s.cf) := rfl
@[simp] theorem lmDone_ia1 (s : State) : (lmDone s).ia1 = (s.ia1) := rfl
@[simp] theorem lmDone_ia0 (s : State) : (lmDone s).ia0 = (s.ia0) := rfl
@[simp] theorem lmDone_w (s : State) : (lmDone s).w = (s.w) := rfl
@[simp] theorem lmDone_p (s : State) : (lmDone s).p = (s.p) := rfl
@[simp] theorem lmDone_ba (s : State) : (lmDone s).ba = (s.ba) := rfl
@[simp] theorem lmDone_cm (s : State) : (lmDone s).cm = (s.cm) := rfl
@[simp] theorem lmDone_sm (s : State) : (lmDone s).sm = (s.sm) := rfl
@[simp] theorem lmDone_run (s : State) : (lmDone s).run = (s.run) := rfl
@[simp] theorem lmDone_ex (s : State) : (lmDone s).ex = (s.ex) := rfl
@[simp] theorem lmDone_flt (s : State) : (lmDone s).flt = (s.flt) := rfl
@[simp] theorem lmDone_bstm (s : State) : (lmDone s).bstm = (s.bstm) := rfl
@[simp] theorem lmDone_pypc (s : State) : (lmDone s).pypc = (s.pypc) := rfl
@[simp] theorem lmDone_pywc (s : State) : (lmDone s).pywc = (false) := rfl
@[simp] theorem lmDone_scm (s : State) : (lmDone s).scm = (false) := rfl
@[simp] theorem lmDone_seq (s : State) : (lmDone s).seq = (s.seq) := rfl
@[simp] theorem lmDone_pending (s : State) : (lmDone s).pending = (s.pending) := rfl
@[simp] theorem lmDone_adapterWrite (s : State) : (lmDone s).adapterWrite = (s.adapterWrite) := rfl
@[simp] theorem lmDone_scanCounter (s : State) : (lmDone s).scanCounter = (s.scanCounter) := rfl
@[simp] theorem lmDone_canTimer (s : State) : (lmDone s).canTimer = (s.canTimer) := rfl
@[simp] theorem lmDone_sanTimer (s : State) : (lmDone s).sanTimer = (s.sanTimer) := rfl
@[simp] theorem lmDone_stored (s : State) : (lmDone s).stored = (s.stored) := rfl
@[simp] theorem lmDone_haltFault (s : State) : (lmDone s).haltFault = (s.haltFault) := rfl
@[simp] theorem lmDone_clusterWait (s : State) : (lmDone s).clusterWait = (s.clusterWait) := rfl
@[simp] theorem lmDone_lm (s : State) : (lmDone s).lm = (s.lm) := rfl
@[simp] theorem lmDone_mm (s : State) : (lmDone s).mm = (s.mm) := rfl
@[simp] theorem lmDone_clusters (s : State) : (lmDone s).clusters = (s.clusters) := rfl
@[simp] theorem lmDone_env (s : State) : (lmDone s).env = (s.env) := rfl
@[simp] theorem lmDone_free (s : State) : (lmDone s).free = (s.free) := rfl

/-! ### lmStopped -/

@[simp] theorem lmStopped_cfg (fetch : Bool) (s : State) : (lmStopped fetch s).cfg = (s.cfg) := rfl
@[simp] theorem lmStopped_aa (fetch : Bool) (s : State) : (lmStopped fetch s).aa = (s.aa) := rfl
@[simp] theorem lmStopped_ac (fetch : Bool) (s : State) : (lmStopped fetch s).ac = (s.ac) := rfl
@[simp] theorem lmStopped_ai (fetch : Bool) (s : State) : (lmStopped fetch s).ai = (s.ai) := rfl
@[simp] theorem lmStopped_d (fetch : Bool) (s : State) : (lmStopped fetch s).d = (s.d) := rfl
@[simp] theorem lmStopped_y (fetch : Bool) (s : State) : (lmStopped fetch s).y = (s.y) := rfl
@[simp] theorem lmStopped_x (fetch : Bool) (s : State) : (lmStopped fetch s).x = (s.x) := rfl
@[simp] theorem lmStopped_ma2 (fetch : Bool) (s : State) : (lmStopped fetch s).ma2 = (s.ma2) := rfl
@[simp] theorem lmStopped_ma1 (fetch : Bool) (s : State) : (lmStopped fetch s).ma1 = (s.ma1) := rfl
@[simp] theorem lmStopped_ma0 (fetch : Bool) (s : State) : (lmStopped fetch s).ma0 = (s.ma0) := rfl
@[simp] theorem lmStopped_cf (fetch : Bool) (s : State) : (lmStopped fetch s).cf = (setBit s.cf 4 (!fetch && transfers s)) := rfl
@[simp] theorem lmStopped_ia1 (fetch : Bool) (s : State) : (lmStopped fetch s).ia1 = (s.ia1) := rfl
@[simp] theorem lmStopped_ia0 (fetch : Bool) (s : State) : (lmStopped fetch s).ia0 = (s.ia0) := rfl
@[simp] theorem lmStopped_w (fetch : Bool) (s : State) : (lmStopped fetch s).w = (s.w) := rfl
@[simp] theorem lmStopped_p (fetch : Bool) (s : State) : (lmStopped fetch s).p = (s.p) := rfl
@[simp] theorem lmStopped_ba (fetch : Bool) (s : State) : (lmStopped fetch s).ba = (s.ba) := rfl
@[simp] theorem lmStopped_cm (fetch : Bool) (s : State) : (lmStopped fetch s).cm = (s.cm) := rfl
@[simp] theorem lmStopped_sm (fetch : Bool) (s : State) : (lmStopped fetch s).sm = (s.sm) := rfl
@[simp] theorem lmStopped_run (fetch : Bool) (s : State) : (lmStopped fetch s).run = (s.run && !stopImmediate s) := rfl
@[simp] theorem lmStopped_ex (fetch : Bool) (s : State) : (lmStopped fetch s).ex = (!fetch && transfers s) := rfl
@[simp] theorem lmStopped_flt (fetch : Bool) (s : State) : (lmStopped fetch s).flt = (s.flt) := rfl
@[simp] theorem lmStopped_bstm (fetch : Bool) (s : State) : (lmStopped fetch s).bstm = (s.bstm) := rfl
@[simp] theorem lmStopped_pypc (fetch : Bool) (s : State) : (lmStopped fetch s).pypc = (s.pypc) := rfl
@[simp] theorem lmStopped_pywc (fetch : Bool) (s : State) : (lmStopped fetch s).pywc = (false) := rfl
@[simp] theorem lmStopped_scm (fetch : Bool) (s : State) : (lmStopped fetch s).scm = (false) := rfl
@[simp] theorem lmStopped_seq (fetch : Bool) (s : State) : (lmStopped fetch s).seq = (s.seq) := rfl
@[simp] theorem lmStopped_pending (fetch : Bool) (s : State) : (lmStopped fetch s).pending = (s.pending) := rfl
@[simp] theorem lmStopped_adapterWrite (fetch : Bool) (s : State) : (lmStopped fetch s).adapterWrite = (s.adapterWrite) := rfl
@[simp] theorem lmStopped_scanCounter (fetch : Bool) (s : State) : (lmStopped fetch s).scanCounter = (s.scanCounter) := rfl
@[simp] theorem lmStopped_canTimer (fetch : Bool) (s : State) : (lmStopped fetch s).canTimer = (s.canTimer) := rfl
@[simp] theorem lmStopped_sanTimer (fetch : Bool) (s : State) : (lmStopped fetch s).sanTimer = (s.sanTimer) := rfl
@[simp] theorem lmStopped_stored (fetch : Bool) (s : State) : (lmStopped fetch s).stored = (s.stored) := rfl
@[simp] theorem lmStopped_haltFault (fetch : Bool) (s : State) : (lmStopped fetch s).haltFault = (s.haltFault) := rfl
@[simp] theorem lmStopped_clusterWait (fetch : Bool) (s : State) : (lmStopped fetch s).clusterWait = (false) := rfl
@[simp] theorem lmStopped_lm (fetch : Bool) (s : State) : (lmStopped fetch s).lm = (s.lm) := rfl
@[simp] theorem lmStopped_mm (fetch : Bool) (s : State) : (lmStopped fetch s).mm = (s.mm) := rfl
@[simp] theorem lmStopped_clusters (fetch : Bool) (s : State) : (lmStopped fetch s).clusters = (s.clusters) := rfl
@[simp] theorem lmStopped_env (fetch : Bool) (s : State) : (lmStopped fetch s).env = (s.env) := rfl
@[simp] theorem lmStopped_free (fetch : Bool) (s : State) : (lmStopped fetch s).free = (s.free) := rfl

/-! ### lmStore -/

@[simp] theorem lmStore_cfg (s : State) (a : BitVec 14) : (lmStore s a).cfg = (s.cfg) := rfl
@[simp] theorem lmStore_aa (s : State) (a : BitVec 14) : (lmStore s a).aa = (s.aa) := rfl
@[simp] theorem lmStore_ac (s : State) (a : BitVec 14) : (lmStore s a).ac = (s.ac) := rfl
@[simp] theorem lmStore_ai (s : State) (a : BitVec 14) : (lmStore s a).ai = (s.ai) := rfl
@[simp] theorem lmStore_d (s : State) (a : BitVec 14) : (lmStore s a).d = (s.d) := rfl
@[simp] theorem lmStore_y (s : State) (a : BitVec 14) : (lmStore s a).y = (s.y) := rfl
@[simp] theorem lmStore_x (s : State) (a : BitVec 14) : (lmStore s a).x = (s.x) := rfl
@[simp] theorem lmStore_ma2 (s : State) (a : BitVec 14) : (lmStore s a).ma2 = (s.ma2) := rfl
@[simp] theorem lmStore_ma1 (s : State) (a : BitVec 14) : (lmStore s a).ma1 = (s.ma1) := rfl
@[simp] theorem lmStore_ma0 (s : State) (a : BitVec 14) : (lmStore s a).ma0 = (s.ma0) := rfl
@[simp] theorem lmStore_cf (s : State) (a : BitVec 14) : (lmStore s a).cf = (s.cf) := rfl
@[simp] theorem lmStore_ia1 (s : State) (a : BitVec 14) : (lmStore s a).ia1 = (s.ia1) := rfl
@[simp] theorem lmStore_ia0 (s : State) (a : BitVec 14) : (lmStore s a).ia0 = (s.ia0) := rfl
@[simp] theorem lmStore_w (s : State) (a : BitVec 14) : (lmStore s a).w = (withParity s.w) := rfl
@[simp] theorem lmStore_p (s : State) (a : BitVec 14) : (lmStore s a).p = (s.p) := rfl
@[simp] theorem lmStore_ba (s : State) (a : BitVec 14) : (lmStore s a).ba = (s.ba) := rfl
@[simp] theorem lmStore_cm (s : State) (a : BitVec 14) : (lmStore s a).cm = (s.cm) := rfl
@[simp] theorem lmStore_sm (s : State) (a : BitVec 14) : (lmStore s a).sm = (s.sm) := rfl
@[simp] theorem lmStore_run (s : State) (a : BitVec 14) : (lmStore s a).run = (s.run) := rfl
@[simp] theorem lmStore_ex (s : State) (a : BitVec 14) : (lmStore s a).ex = (s.ex) := rfl
@[simp] theorem lmStore_flt (s : State) (a : BitVec 14) : (lmStore s a).flt = (s.flt) := rfl
@[simp] theorem lmStore_bstm (s : State) (a : BitVec 14) : (lmStore s a).bstm = (s.bstm) := rfl
@[simp] theorem lmStore_pypc (s : State) (a : BitVec 14) : (lmStore s a).pypc = (s.pypc) := rfl
@[simp] theorem lmStore_pywc (s : State) (a : BitVec 14) : (lmStore s a).pywc = (s.pywc) := rfl
@[simp] theorem lmStore_scm (s : State) (a : BitVec 14) : (lmStore s a).scm = (s.scm) := rfl
@[simp] theorem lmStore_seq (s : State) (a : BitVec 14) : (lmStore s a).seq = (s.seq) := rfl
@[simp] theorem lmStore_pending (s : State) (a : BitVec 14) : (lmStore s a).pending = (s.pending) := rfl
@[simp] theorem lmStore_adapterWrite (s : State) (a : BitVec 14) : (lmStore s a).adapterWrite = (s.adapterWrite) := rfl
@[simp] theorem lmStore_scanCounter (s : State) (a : BitVec 14) : (lmStore s a).scanCounter = (s.scanCounter) := rfl
@[simp] theorem lmStore_canTimer (s : State) (a : BitVec 14) : (lmStore s a).canTimer = (s.canTimer) := rfl
@[simp] theorem lmStore_sanTimer (s : State) (a : BitVec 14) : (lmStore s a).sanTimer = (s.sanTimer) := rfl
@[simp] theorem lmStore_stored (s : State) (a : BitVec 14) : (lmStore s a).stored = (s.stored) := rfl
@[simp] theorem lmStore_haltFault (s : State) (a : BitVec 14) : (lmStore s a).haltFault = (s.haltFault) := rfl
@[simp] theorem lmStore_clusterWait (s : State) (a : BitVec 14) : (lmStore s a).clusterWait = (s.clusterWait) := rfl
@[simp] theorem lmStore_lm (s : State) (a : BitVec 14) : (lmStore s a).lm = (memWrite s.lm a.toNat (withParity s.w)) := rfl
@[simp] theorem lmStore_mm (s : State) (a : BitVec 14) : (lmStore s a).mm = (s.mm) := rfl
@[simp] theorem lmStore_clusters (s : State) (a : BitVec 14) : (lmStore s a).clusters = (s.clusters) := rfl
@[simp] theorem lmStore_env (s : State) (a : BitVec 14) : (lmStore s a).env = (s.env) := rfl
@[simp] theorem lmStore_free (s : State) (a : BitVec 14) : (lmStore s a).free = (s.free) := rfl

/-! ### requestAccess -/

@[simp] theorem requestAccess_cfg (s : State) (kind : AccessKind) : (requestAccess s kind).cfg = (s.cfg) := rfl
@[simp] theorem requestAccess_aa (s : State) (kind : AccessKind) : (requestAccess s kind).aa = (s.aa) := rfl
@[simp] theorem requestAccess_ac (s : State) (kind : AccessKind) : (requestAccess s kind).ac = (s.ac) := rfl
@[simp] theorem requestAccess_ai (s : State) (kind : AccessKind) : (requestAccess s kind).ai = (s.ai) := rfl
@[simp] theorem requestAccess_d (s : State) (kind : AccessKind) : (requestAccess s kind).d = (s.d) := rfl
@[simp] theorem requestAccess_y (s : State) (kind : AccessKind) : (requestAccess s kind).y = (s.y) := rfl
@[simp] theorem requestAccess_x (s : State) (kind : AccessKind) : (requestAccess s kind).x = (s.x) := rfl
@[simp] theorem requestAccess_ma2 (s : State) (kind : AccessKind) : (requestAccess s kind).ma2 = (s.ma2) := rfl
@[simp] theorem requestAccess_ma1 (s : State) (kind : AccessKind) : (requestAccess s kind).ma1 = (s.ma1) := rfl
@[simp] theorem requestAccess_ma0 (s : State) (kind : AccessKind) : (requestAccess s kind).ma0 = (s.ma0) := rfl
@[simp] theorem requestAccess_cf (s : State) (kind : AccessKind) : (requestAccess s kind).cf = (s.cf) := rfl
@[simp] theorem requestAccess_ia1 (s : State) (kind : AccessKind) : (requestAccess s kind).ia1 = (s.ia1) := rfl
@[simp] theorem requestAccess_ia0 (s : State) (kind : AccessKind) : (requestAccess s kind).ia0 = (s.ia0) := rfl
@[simp] theorem requestAccess_w (s : State) (kind : AccessKind) : (requestAccess s kind).w = (if kind.writes then withParity s.w else s.w) := rfl
@[simp] theorem requestAccess_p (s : State) (kind : AccessKind) : (requestAccess s kind).p = (s.p) := rfl
@[simp] theorem requestAccess_ba (s : State) (kind : AccessKind) : (requestAccess s kind).ba = (hostAddress s.cfg.mainframe ((ma s).extractLsb' 0 20)) := rfl
@[simp] theorem requestAccess_cm (s : State) (kind : AccessKind) : (requestAccess s kind).cm = (s.cm) := rfl
@[simp] theorem requestAccess_sm (s : State) (kind : AccessKind) : (requestAccess s kind).sm = (s.sm) := rfl
@[simp] theorem requestAccess_run (s : State) (kind : AccessKind) : (requestAccess s kind).run = (s.run) := rfl
@[simp] theorem requestAccess_ex (s : State) (kind : AccessKind) : (requestAccess s kind).ex = (s.ex) := rfl
@[simp] theorem requestAccess_flt (s : State) (kind : AccessKind) : (requestAccess s kind).flt = (s.flt) := rfl
@[simp] theorem requestAccess_bstm (s : State) (kind : AccessKind) : (requestAccess s kind).bstm = (s.bstm) := rfl
@[simp] theorem requestAccess_pypc (s : State) (kind : AccessKind) : (requestAccess s kind).pypc = (s.pypc) := rfl
@[simp] theorem requestAccess_pywc (s : State) (kind : AccessKind) : (requestAccess s kind).pywc = (s.pywc) := rfl
@[simp] theorem requestAccess_scm (s : State) (kind : AccessKind) : (requestAccess s kind).scm = (s.scm) := rfl
@[simp] theorem requestAccess_seq (s : State) (kind : AccessKind) : (requestAccess s kind).seq = (s.seq) := rfl
@[simp] theorem requestAccess_pending (s : State) (kind : AccessKind) : (requestAccess s kind).pending = (some { kind := kind, data := if kind.writes then withParity s.w else s.w, granted := false }) := rfl
@[simp] theorem requestAccess_adapterWrite (s : State) (kind : AccessKind) : (requestAccess s kind).adapterWrite = (s.adapterWrite) := rfl
@[simp] theorem requestAccess_scanCounter (s : State) (kind : AccessKind) : (requestAccess s kind).scanCounter = (s.scanCounter) := rfl
@[simp] theorem requestAccess_canTimer (s : State) (kind : AccessKind) : (requestAccess s kind).canTimer = (s.canTimer) := rfl
@[simp] theorem requestAccess_sanTimer (s : State) (kind : AccessKind) : (requestAccess s kind).sanTimer = (s.sanTimer) := rfl
@[simp] theorem requestAccess_stored (s : State) (kind : AccessKind) : (requestAccess s kind).stored = (s.stored) := rfl
@[simp] theorem requestAccess_haltFault (s : State) (kind : AccessKind) : (requestAccess s kind).haltFault = (s.haltFault) := rfl
@[simp] theorem requestAccess_clusterWait (s : State) (kind : AccessKind) : (requestAccess s kind).clusterWait = (s.clusterWait) := rfl
@[simp] theorem requestAccess_lm (s : State) (kind : AccessKind) : (requestAccess s kind).lm = (s.lm) := rfl
@[simp] theorem requestAccess_mm (s : State) (kind : AccessKind) : (requestAccess s kind).mm = (s.mm) := rfl
@[simp] theorem requestAccess_clusters (s : State) (kind : AccessKind) : (requestAccess s kind).clusters = (s.clusters) := rfl
@[simp] theorem requestAccess_env (s : State) (kind : AccessKind) : (requestAccess s kind).env = (s.env) := rfl
@[simp] theorem requestAccess_free (s : State) (kind : AccessKind) : (requestAccess s kind).free = (s.free) := rfl

/-! ### scrambleWMA -/

@[simp] theorem scrambleWMA_cfg (s : State) : (scrambleWMA s).cfg = (s.cfg) := rfl
@[simp] theorem scrambleWMA_aa (s : State) : (scrambleWMA s).aa = (s.aa) := rfl
@[simp] theorem scrambleWMA_ac (s : State) : (scrambleWMA s).ac = (s.ac) := rfl
@[simp] theorem scrambleWMA_ai (s : State) : (scrambleWMA s).ai = (s.ai) := rfl
@[simp] theorem scrambleWMA_d (s : State) : (scrambleWMA s).d = (s.d) := rfl
@[simp] theorem scrambleWMA_y (s : State) : (scrambleWMA s).y = (s.y) := rfl
@[simp] theorem scrambleWMA_x (s : State) : (scrambleWMA s).x = (s.x) := rfl
@[simp] theorem scrambleWMA_cf (s : State) : (scrambleWMA s).cf = (s.cf) := rfl
@[simp] theorem scrambleWMA_ia1 (s : State) : (scrambleWMA s).ia1 = (s.ia1) := rfl
@[simp] theorem scrambleWMA_ia0 (s : State) : (scrambleWMA s).ia0 = (s.ia0) := rfl
@[simp] theorem scrambleWMA_p (s : State) : (scrambleWMA s).p = (s.p) := rfl
@[simp] theorem scrambleWMA_ba (s : State) : (scrambleWMA s).ba = (s.ba) := rfl
@[simp] theorem scrambleWMA_cm (s : State) : (scrambleWMA s).cm = (s.cm) := rfl
@[simp] theorem scrambleWMA_sm (s : State) : (scrambleWMA s).sm = (s.sm) := rfl
@[simp] theorem scrambleWMA_run (s : State) : (scrambleWMA s).run = (s.run) := rfl
@[simp] theorem scrambleWMA_ex (s : State) : (scrambleWMA s).ex = (s.ex) := rfl
@[simp] theorem scrambleWMA_flt (s : State) : (scrambleWMA s).flt = (s.flt) := rfl
@[simp] theorem scrambleWMA_bstm (s : State) : (scrambleWMA s).bstm = (s.bstm) := rfl
@[simp] theorem scrambleWMA_pypc (s : State) : (scrambleWMA s).pypc = (s.pypc) := rfl
@[simp] theorem scrambleWMA_pywc (s : State) : (scrambleWMA s).pywc = (s.pywc) := rfl
@[simp] theorem scrambleWMA_scm (s : State) : (scrambleWMA s).scm = (s.scm) := rfl
@[simp] theorem scrambleWMA_seq (s : State) : (scrambleWMA s).seq = (s.seq) := rfl
@[simp] theorem scrambleWMA_pending (s : State) : (scrambleWMA s).pending = (s.pending) := rfl
@[simp] theorem scrambleWMA_adapterWrite (s : State) : (scrambleWMA s).adapterWrite = (s.adapterWrite) := rfl
@[simp] theorem scrambleWMA_scanCounter (s : State) : (scrambleWMA s).scanCounter = (s.scanCounter) := rfl
@[simp] theorem scrambleWMA_canTimer (s : State) : (scrambleWMA s).canTimer = (s.canTimer) := rfl
@[simp] theorem scrambleWMA_sanTimer (s : State) : (scrambleWMA s).sanTimer = (s.sanTimer) := rfl
@[simp] theorem scrambleWMA_stored (s : State) : (scrambleWMA s).stored = (s.stored) := rfl
@[simp] theorem scrambleWMA_haltFault (s : State) : (scrambleWMA s).haltFault = (s.haltFault) := rfl
@[simp] theorem scrambleWMA_clusterWait (s : State) : (scrambleWMA s).clusterWait = (s.clusterWait) := rfl
@[simp] theorem scrambleWMA_lm (s : State) : (scrambleWMA s).lm = (s.lm) := rfl
@[simp] theorem scrambleWMA_mm (s : State) : (scrambleWMA s).mm = (s.mm) := rfl
@[simp] theorem scrambleWMA_clusters (s : State) : (scrambleWMA s).clusters = (s.clusters) := rfl
@[simp] theorem scrambleWMA_env (s : State) : (scrambleWMA s).env = (s.env) := rfl

/-! ### settleTimers -/

@[simp] theorem settleTimers_cfg (s : State) : (settleTimers s).cfg = (s.cfg) := rfl
@[simp] theorem settleTimers_aa (s : State) : (settleTimers s).aa = (s.aa) := rfl
@[simp] theorem settleTimers_ac (s : State) : (settleTimers s).ac = (s.ac) := rfl
@[simp] theorem settleTimers_ai (s : State) : (settleTimers s).ai = (s.ai) := rfl
@[simp] theorem settleTimers_d (s : State) : (settleTimers s).d = (s.d) := rfl
@[simp] theorem settleTimers_y (s : State) : (settleTimers s).y = (s.y) := rfl
@[simp] theorem settleTimers_x (s : State) : (settleTimers s).x = (s.x) := rfl
@[simp] theorem settleTimers_ma2 (s : State) : (settleTimers s).ma2 = (s.ma2) := rfl
@[simp] theorem settleTimers_ma1 (s : State) : (settleTimers s).ma1 = (s.ma1) := rfl
@[simp] theorem settleTimers_ma0 (s : State) : (settleTimers s).ma0 = (s.ma0) := rfl
@[simp] theorem settleTimers_cf (s : State) : (settleTimers s).cf = (s.cf) := rfl
@[simp] theorem settleTimers_ia1 (s : State) : (settleTimers s).ia1 = (s.ia1) := rfl
@[simp] theorem settleTimers_ia0 (s : State) : (settleTimers s).ia0 = (s.ia0) := rfl
@[simp] theorem settleTimers_w (s : State) : (settleTimers s).w = (s.w) := rfl
@[simp] theorem settleTimers_p (s : State) : (settleTimers s).p = (s.p) := rfl
@[simp] theorem settleTimers_ba (s : State) : (settleTimers s).ba = (s.ba) := rfl
@[simp] theorem settleTimers_cm (s : State) : (settleTimers s).cm = (s.cm) := rfl
@[simp] theorem settleTimers_sm (s : State) : (settleTimers s).sm = (s.sm) := rfl
@[simp] theorem settleTimers_run (s : State) : (settleTimers s).run = (s.run) := rfl
@[simp] theorem settleTimers_ex (s : State) : (settleTimers s).ex = (s.ex) := rfl
@[simp] theorem settleTimers_flt (s : State) : (settleTimers s).flt = (s.flt) := rfl
@[simp] theorem settleTimers_bstm (s : State) : (settleTimers s).bstm = (s.bstm) := rfl
@[simp] theorem settleTimers_pypc (s : State) : (settleTimers s).pypc = (s.pypc) := rfl
@[simp] theorem settleTimers_pywc (s : State) : (settleTimers s).pywc = (s.pywc) := rfl
@[simp] theorem settleTimers_scm (s : State) : (settleTimers s).scm = (s.scm) := rfl
@[simp] theorem settleTimers_seq (s : State) : (settleTimers s).seq = (s.seq) := rfl
@[simp] theorem settleTimers_pending (s : State) : (settleTimers s).pending = (s.pending) := rfl
@[simp] theorem settleTimers_adapterWrite (s : State) : (settleTimers s).adapterWrite = (s.adapterWrite) := rfl
@[simp] theorem settleTimers_scanCounter (s : State) : (settleTimers s).scanCounter = (s.scanCounter) := rfl
@[simp] theorem settleTimers_canTimer (s : State) : (settleTimers s).canTimer = (if canOn s then s.canTimer else 0) := rfl
@[simp] theorem settleTimers_sanTimer (s : State) : (settleTimers s).sanTimer = (if i23 s then s.sanTimer else 0) := rfl
@[simp] theorem settleTimers_stored (s : State) : (settleTimers s).stored = (s.stored) := rfl
@[simp] theorem settleTimers_haltFault (s : State) : (settleTimers s).haltFault = (s.haltFault) := rfl
@[simp] theorem settleTimers_clusterWait (s : State) : (settleTimers s).clusterWait = (s.clusterWait) := rfl
@[simp] theorem settleTimers_lm (s : State) : (settleTimers s).lm = (s.lm) := rfl
@[simp] theorem settleTimers_mm (s : State) : (settleTimers s).mm = (s.mm) := rfl
@[simp] theorem settleTimers_clusters (s : State) : (settleTimers s).clusters = (s.clusters) := rfl
@[simp] theorem settleTimers_env (s : State) : (settleTimers s).env = (s.env) := rfl
@[simp] theorem settleTimers_free (s : State) : (settleTimers s).free = (s.free) := rfl

/-! ### fetchRequested -/

@[simp] theorem fetchRequested_cfg (s : State) : (fetchRequested s).cfg = (s.cfg) := rfl
@[simp] theorem fetchRequested_aa (s : State) : (fetchRequested s).aa = (s.aa) := rfl
@[simp] theorem fetchRequested_ac (s : State) : (fetchRequested s).ac = (s.ac) := rfl
@[simp] theorem fetchRequested_ai (s : State) : (fetchRequested s).ai = (s.ai) := rfl
@[simp] theorem fetchRequested_d (s : State) : (fetchRequested s).d = (s.d) := rfl
@[simp] theorem fetchRequested_y (s : State) : (fetchRequested s).y = (s.y) := rfl
@[simp] theorem fetchRequested_x (s : State) : (fetchRequested s).x = (s.x) := rfl
@[simp] theorem fetchRequested_ma2 (s : State) : (fetchRequested s).ma2 = (s.ma2) := rfl
@[simp] theorem fetchRequested_ma1 (s : State) : (fetchRequested s).ma1 = (s.ma1) := rfl
@[simp] theorem fetchRequested_ma0 (s : State) : (fetchRequested s).ma0 = (s.ma0) := rfl
@[simp] theorem fetchRequested_cf (s : State) : (fetchRequested s).cf = (setBit s.cf 2 false) := rfl
@[simp] theorem fetchRequested_ia1 (s : State) : (fetchRequested s).ia1 = (s.ia1) := rfl
@[simp] theorem fetchRequested_ia0 (s : State) : (fetchRequested s).ia0 = (s.ia0) := rfl
@[simp] theorem fetchRequested_w (s : State) : (fetchRequested s).w = (s.w) := rfl
@[simp] theorem fetchRequested_p (s : State) : (fetchRequested s).p = (s.p) := rfl
@[simp] theorem fetchRequested_ba (s : State) : (fetchRequested s).ba = (fetchAddress s) := rfl
@[simp] theorem fetchRequested_cm (s : State) : (fetchRequested s).cm = (s.cm) := rfl
@[simp] theorem fetchRequested_sm (s : State) : (fetchRequested s).sm = (s.sm) := rfl
@[simp] theorem fetchRequested_run (s : State) : (fetchRequested s).run = (s.run) := rfl
@[simp] theorem fetchRequested_ex (s : State) : (fetchRequested s).ex = (s.ex) := rfl
@[simp] theorem fetchRequested_flt (s : State) : (fetchRequested s).flt = (s.flt) := rfl
@[simp] theorem fetchRequested_bstm (s : State) : (fetchRequested s).bstm = (s.bstm) := rfl
@[simp] theorem fetchRequested_pypc (s : State) : (fetchRequested s).pypc = (s.pypc) := rfl
@[simp] theorem fetchRequested_pywc (s : State) : (fetchRequested s).pywc = (s.pywc) := rfl
@[simp] theorem fetchRequested_scm (s : State) : (fetchRequested s).scm = (s.scm) := rfl
@[simp] theorem fetchRequested_seq (s : State) : (fetchRequested s).seq = (s.seq) := rfl
@[simp] theorem fetchRequested_pending (s : State) : (fetchRequested s).pending = (s.pending) := rfl
@[simp] theorem fetchRequested_adapterWrite (s : State) : (fetchRequested s).adapterWrite = (s.adapterWrite) := rfl
@[simp] theorem fetchRequested_scanCounter (s : State) : (fetchRequested s).scanCounter = (s.scanCounter) := rfl
@[simp] theorem fetchRequested_canTimer (s : State) : (fetchRequested s).canTimer = (s.canTimer) := rfl
@[simp] theorem fetchRequested_sanTimer (s : State) : (fetchRequested s).sanTimer = (s.sanTimer) := rfl
@[simp] theorem fetchRequested_stored (s : State) : (fetchRequested s).stored = (s.stored) := rfl
@[simp] theorem fetchRequested_haltFault (s : State) : (fetchRequested s).haltFault = (s.haltFault) := rfl
@[simp] theorem fetchRequested_clusterWait (s : State) : (fetchRequested s).clusterWait = (s.clusterWait) := rfl
@[simp] theorem fetchRequested_lm (s : State) : (fetchRequested s).lm = (s.lm) := rfl
@[simp] theorem fetchRequested_mm (s : State) : (fetchRequested s).mm = (s.mm) := rfl
@[simp] theorem fetchRequested_clusters (s : State) : (fetchRequested s).clusters = (s.clusters) := rfl
@[simp] theorem fetchRequested_env (s : State) : (fetchRequested s).env = (errorTaken s.env) := rfl
@[simp] theorem fetchRequested_free (s : State) : (fetchRequested s).free = (s.free) := rfl

/-! ### accumulate -/

@[simp] theorem accumulate_cfg (s : State) (v : Byte) : (accumulate s v).cfg = (s.cfg) := rfl
@[simp] theorem accumulate_aa (s : State) (v : Byte) : (accumulate s v).aa = (s.aa) := rfl
@[simp] theorem accumulate_ac (s : State) (v : Byte) : (accumulate s v).ac = (s.ac) := rfl
@[simp] theorem accumulate_ai (s : State) (v : Byte) : (accumulate s v).ai = (s.ai) := rfl
@[simp] theorem accumulate_d (s : State) (v : Byte) : (accumulate s v).d = (s.d) := rfl
@[simp] theorem accumulate_y (s : State) (v : Byte) : (accumulate s v).y = (s.y) := rfl
@[simp] theorem accumulate_x (s : State) (v : Byte) : (accumulate s v).x = (s.x) := rfl
@[simp] theorem accumulate_ma2 (s : State) (v : Byte) : (accumulate s v).ma2 = (s.ma2) := rfl
@[simp] theorem accumulate_ma1 (s : State) (v : Byte) : (accumulate s v).ma1 = (s.ma1) := rfl
@[simp] theorem accumulate_ma0 (s : State) (v : Byte) : (accumulate s v).ma0 = (s.ma0) := rfl
@[simp] theorem accumulate_cf (s : State) (v : Byte) : (accumulate s v).cf = (s.cf) := rfl
@[simp] theorem accumulate_ia1 (s : State) (v : Byte) : (accumulate s v).ia1 = (s.ia1) := rfl
@[simp] theorem accumulate_ia0 (s : State) (v : Byte) : (accumulate s v).ia0 = (s.ia0) := rfl
@[simp] theorem accumulate_w (s : State) (v : Byte) : (accumulate s v).w = (s.w) := rfl
@[simp] theorem accumulate_ba (s : State) (v : Byte) : (accumulate s v).ba = (s.ba) := rfl
@[simp] theorem accumulate_cm (s : State) (v : Byte) : (accumulate s v).cm = (s.cm) := rfl
@[simp] theorem accumulate_sm (s : State) (v : Byte) : (accumulate s v).sm = (s.sm) := rfl
@[simp] theorem accumulate_run (s : State) (v : Byte) : (accumulate s v).run = (s.run) := rfl
@[simp] theorem accumulate_ex (s : State) (v : Byte) : (accumulate s v).ex = (s.ex) := rfl
@[simp] theorem accumulate_flt (s : State) (v : Byte) : (accumulate s v).flt = (s.flt) := rfl
@[simp] theorem accumulate_bstm (s : State) (v : Byte) : (accumulate s v).bstm = (s.bstm) := rfl
@[simp] theorem accumulate_pypc (s : State) (v : Byte) : (accumulate s v).pypc = (s.pypc) := rfl
@[simp] theorem accumulate_pywc (s : State) (v : Byte) : (accumulate s v).pywc = (s.pywc) := rfl
@[simp] theorem accumulate_scm (s : State) (v : Byte) : (accumulate s v).scm = (s.scm) := rfl
@[simp] theorem accumulate_pending (s : State) (v : Byte) : (accumulate s v).pending = (s.pending) := rfl
@[simp] theorem accumulate_adapterWrite (s : State) (v : Byte) : (accumulate s v).adapterWrite = (s.adapterWrite) := rfl
@[simp] theorem accumulate_scanCounter (s : State) (v : Byte) : (accumulate s v).scanCounter = (s.scanCounter) := rfl
@[simp] theorem accumulate_canTimer (s : State) (v : Byte) : (accumulate s v).canTimer = (s.canTimer) := rfl
@[simp] theorem accumulate_sanTimer (s : State) (v : Byte) : (accumulate s v).sanTimer = (s.sanTimer) := rfl
@[simp] theorem accumulate_stored (s : State) (v : Byte) : (accumulate s v).stored = (s.stored) := rfl
@[simp] theorem accumulate_haltFault (s : State) (v : Byte) : (accumulate s v).haltFault = (s.haltFault) := rfl
@[simp] theorem accumulate_clusterWait (s : State) (v : Byte) : (accumulate s v).clusterWait = (s.clusterWait) := rfl
@[simp] theorem accumulate_lm (s : State) (v : Byte) : (accumulate s v).lm = (s.lm) := rfl
@[simp] theorem accumulate_mm (s : State) (v : Byte) : (accumulate s v).mm = (s.mm) := rfl
@[simp] theorem accumulate_clusters (s : State) (v : Byte) : (accumulate s v).clusters = (s.clusters) := rfl
@[simp] theorem accumulate_env (s : State) (v : Byte) : (accumulate s v).env = (s.env) := rfl
@[simp] theorem accumulate_free (s : State) (v : Byte) : (accumulate s v).free = (s.free) := rfl

/-! ### startAccumulated -/

@[simp] theorem startAccumulated_cfg (s : State) : (startAccumulated s).cfg = (s.cfg) := rfl
@[simp] theorem startAccumulated_aa (s : State) : (startAccumulated s).aa = (s.aa) := rfl
@[simp] theorem startAccumulated_ac (s : State) : (startAccumulated s).ac = (s.ac) := rfl
@[simp] theorem startAccumulated_ai (s : State) : (startAccumulated s).ai = (s.ai) := rfl
@[simp] theorem startAccumulated_d (s : State) : (startAccumulated s).d = (s.d) := rfl
@[simp] theorem startAccumulated_y (s : State) : (startAccumulated s).y = (s.y) := rfl
@[simp] theorem startAccumulated_x (s : State) : (startAccumulated s).x = (s.x) := rfl
@[simp] theorem startAccumulated_ma2 (s : State) : (startAccumulated s).ma2 = (s.ma2) := rfl
@[simp] theorem startAccumulated_ma1 (s : State) : (startAccumulated s).ma1 = (s.ma1) := rfl
@[simp] theorem startAccumulated_ma0 (s : State) : (startAccumulated s).ma0 = (s.ma0) := rfl
@[simp] theorem startAccumulated_cf (s : State) : (startAccumulated s).cf = (setBit s.cf 4 true) := rfl
@[simp] theorem startAccumulated_ia1 (s : State) : (startAccumulated s).ia1 = (iaHigh (ia s + 1)) := rfl
@[simp] theorem startAccumulated_ia0 (s : State) : (startAccumulated s).ia0 = (iaLow (ia s + 1)) := rfl
@[simp] theorem startAccumulated_w (s : State) : (startAccumulated s).w = (s.w) := rfl
@[simp] theorem startAccumulated_p (s : State) : (startAccumulated s).p = (s.p) := rfl
@[simp] theorem startAccumulated_ba (s : State) : (startAccumulated s).ba = (s.ba) := rfl
@[simp] theorem startAccumulated_cm (s : State) : (startAccumulated s).cm = (s.cm) := rfl
@[simp] theorem startAccumulated_sm (s : State) : (startAccumulated s).sm = (s.sm) := rfl
@[simp] theorem startAccumulated_run (s : State) : (startAccumulated s).run = (s.run) := rfl
@[simp] theorem startAccumulated_ex (s : State) : (startAccumulated s).ex = (true) := rfl
@[simp] theorem startAccumulated_flt (s : State) : (startAccumulated s).flt = (s.flt) := rfl
@[simp] theorem startAccumulated_bstm (s : State) : (startAccumulated s).bstm = (s.bstm) := rfl
@[simp] theorem startAccumulated_pypc (s : State) : (startAccumulated s).pypc = (s.pypc) := rfl
@[simp] theorem startAccumulated_pywc (s : State) : (startAccumulated s).pywc = (s.pywc) := rfl
@[simp] theorem startAccumulated_scm (s : State) : (startAccumulated s).scm = (s.scm) := rfl
@[simp] theorem startAccumulated_seq (s : State) : (startAccumulated s).seq = (s.seq) := rfl
@[simp] theorem startAccumulated_pending (s : State) : (startAccumulated s).pending = (s.pending) := rfl
@[simp] theorem startAccumulated_adapterWrite (s : State) : (startAccumulated s).adapterWrite = (s.adapterWrite) := rfl
@[simp] theorem startAccumulated_scanCounter (s : State) : (startAccumulated s).scanCounter = (s.scanCounter) := rfl
@[simp] theorem startAccumulated_canTimer (s : State) : (startAccumulated s).canTimer = (s.canTimer) := rfl
@[simp] theorem startAccumulated_sanTimer (s : State) : (startAccumulated s).sanTimer = (s.sanTimer) := rfl
@[simp] theorem startAccumulated_stored (s : State) : (startAccumulated s).stored = (s.stored) := rfl
@[simp] theorem startAccumulated_haltFault (s : State) : (startAccumulated s).haltFault = (s.haltFault) := rfl
@[simp] theorem startAccumulated_clusterWait (s : State) : (startAccumulated s).clusterWait = (s.clusterWait) := rfl
@[simp] theorem startAccumulated_lm (s : State) : (startAccumulated s).lm = (s.lm) := rfl
@[simp] theorem startAccumulated_mm (s : State) : (startAccumulated s).mm = (s.mm) := rfl
@[simp] theorem startAccumulated_clusters (s : State) : (startAccumulated s).clusters = (s.clusters) := rfl
@[simp] theorem startAccumulated_env (s : State) : (startAccumulated s).env = (s.env) := rfl
@[simp] theorem startAccumulated_free (s : State) : (startAccumulated s).free = (s.free) := rfl

/-! ### reply -/

@[simp] theorem reply_cfg (s : State) (r : ScanReply) : (reply s r).cfg = (s.cfg) := rfl
@[simp] theorem reply_aa (s : State) (r : ScanReply) : (reply s r).aa = (s.aa) := rfl
@[simp] theorem reply_ac (s : State) (r : ScanReply) : (reply s r).ac = (s.ac) := rfl
@[simp] theorem reply_ai (s : State) (r : ScanReply) : (reply s r).ai = (s.ai) := rfl
@[simp] theorem reply_d (s : State) (r : ScanReply) : (reply s r).d = (s.d) := rfl
@[simp] theorem reply_y (s : State) (r : ScanReply) : (reply s r).y = (s.y) := rfl
@[simp] theorem reply_x (s : State) (r : ScanReply) : (reply s r).x = (s.x) := rfl
@[simp] theorem reply_ma2 (s : State) (r : ScanReply) : (reply s r).ma2 = (s.ma2) := rfl
@[simp] theorem reply_ma1 (s : State) (r : ScanReply) : (reply s r).ma1 = (s.ma1) := rfl
@[simp] theorem reply_ma0 (s : State) (r : ScanReply) : (reply s r).ma0 = (s.ma0) := rfl
@[simp] theorem reply_cf (s : State) (r : ScanReply) : (reply s r).cf = (s.cf) := rfl
@[simp] theorem reply_ia1 (s : State) (r : ScanReply) : (reply s r).ia1 = (s.ia1) := rfl
@[simp] theorem reply_ia0 (s : State) (r : ScanReply) : (reply s r).ia0 = (s.ia0) := rfl
@[simp] theorem reply_w (s : State) (r : ScanReply) : (reply s r).w = (s.w) := rfl
@[simp] theorem reply_p (s : State) (r : ScanReply) : (reply s r).p = (s.p) := rfl
@[simp] theorem reply_ba (s : State) (r : ScanReply) : (reply s r).ba = (s.ba) := rfl
@[simp] theorem reply_cm (s : State) (r : ScanReply) : (reply s r).cm = (s.cm) := rfl
@[simp] theorem reply_sm (s : State) (r : ScanReply) : (reply s r).sm = (s.sm) := rfl
@[simp] theorem reply_run (s : State) (r : ScanReply) : (reply s r).run = (s.run) := rfl
@[simp] theorem reply_ex (s : State) (r : ScanReply) : (reply s r).ex = (s.ex) := rfl
@[simp] theorem reply_flt (s : State) (r : ScanReply) : (reply s r).flt = (s.flt) := rfl
@[simp] theorem reply_bstm (s : State) (r : ScanReply) : (reply s r).bstm = (s.bstm) := rfl
@[simp] theorem reply_pypc (s : State) (r : ScanReply) : (reply s r).pypc = (s.pypc) := rfl
@[simp] theorem reply_pywc (s : State) (r : ScanReply) : (reply s r).pywc = (s.pywc) := rfl
@[simp] theorem reply_scm (s : State) (r : ScanReply) : (reply s r).scm = (s.scm) := rfl
@[simp] theorem reply_seq (s : State) (r : ScanReply) : (reply s r).seq = (s.seq) := rfl
@[simp] theorem reply_pending (s : State) (r : ScanReply) : (reply s r).pending = (s.pending) := rfl
@[simp] theorem reply_adapterWrite (s : State) (r : ScanReply) : (reply s r).adapterWrite = (s.adapterWrite) := rfl
@[simp] theorem reply_scanCounter (s : State) (r : ScanReply) : (reply s r).scanCounter = (s.scanCounter) := rfl
@[simp] theorem reply_canTimer (s : State) (r : ScanReply) : (reply s r).canTimer = (s.canTimer) := rfl
@[simp] theorem reply_sanTimer (s : State) (r : ScanReply) : (reply s r).sanTimer = (s.sanTimer) := rfl
@[simp] theorem reply_stored (s : State) (r : ScanReply) : (reply s r).stored = (s.stored) := rfl
@[simp] theorem reply_haltFault (s : State) (r : ScanReply) : (reply s r).haltFault = (s.haltFault) := rfl
@[simp] theorem reply_clusterWait (s : State) (r : ScanReply) : (reply s r).clusterWait = (s.clusterWait) := rfl
@[simp] theorem reply_lm (s : State) (r : ScanReply) : (reply s r).lm = (s.lm) := rfl
@[simp] theorem reply_mm (s : State) (r : ScanReply) : (reply s r).mm = (s.mm) := rfl
@[simp] theorem reply_clusters (s : State) (r : ScanReply) : (reply s r).clusters = (s.clusters) := rfl
@[simp] theorem reply_env (s : State) (r : ScanReply) : (reply s r).env = ({ s.env with scanReply := r }) := rfl
@[simp] theorem reply_free (s : State) (r : ScanReply) : (reply s r).free = (s.free) := rfl

/-! ### inputTaken -/

@[simp] theorem inputTaken_cfg (s : State) (rest : List Input) : (inputTaken s rest).cfg = (s.cfg) := rfl
@[simp] theorem inputTaken_aa (s : State) (rest : List Input) : (inputTaken s rest).aa = (s.aa) := rfl
@[simp] theorem inputTaken_ac (s : State) (rest : List Input) : (inputTaken s rest).ac = (s.ac) := rfl
@[simp] theorem inputTaken_ai (s : State) (rest : List Input) : (inputTaken s rest).ai = (s.ai) := rfl
@[simp] theorem inputTaken_d (s : State) (rest : List Input) : (inputTaken s rest).d = (s.d) := rfl
@[simp] theorem inputTaken_y (s : State) (rest : List Input) : (inputTaken s rest).y = (s.y) := rfl
@[simp] theorem inputTaken_x (s : State) (rest : List Input) : (inputTaken s rest).x = (s.x) := rfl
@[simp] theorem inputTaken_ma2 (s : State) (rest : List Input) : (inputTaken s rest).ma2 = (s.ma2) := rfl
@[simp] theorem inputTaken_ma1 (s : State) (rest : List Input) : (inputTaken s rest).ma1 = (s.ma1) := rfl
@[simp] theorem inputTaken_ma0 (s : State) (rest : List Input) : (inputTaken s rest).ma0 = (s.ma0) := rfl
@[simp] theorem inputTaken_cf (s : State) (rest : List Input) : (inputTaken s rest).cf = (s.cf) := rfl
@[simp] theorem inputTaken_ia1 (s : State) (rest : List Input) : (inputTaken s rest).ia1 = (s.ia1) := rfl
@[simp] theorem inputTaken_ia0 (s : State) (rest : List Input) : (inputTaken s rest).ia0 = (s.ia0) := rfl
@[simp] theorem inputTaken_w (s : State) (rest : List Input) : (inputTaken s rest).w = (s.w) := rfl
@[simp] theorem inputTaken_p (s : State) (rest : List Input) : (inputTaken s rest).p = (s.p) := rfl
@[simp] theorem inputTaken_ba (s : State) (rest : List Input) : (inputTaken s rest).ba = (s.ba) := rfl
@[simp] theorem inputTaken_cm (s : State) (rest : List Input) : (inputTaken s rest).cm = (s.cm) := rfl
@[simp] theorem inputTaken_sm (s : State) (rest : List Input) : (inputTaken s rest).sm = (s.sm) := rfl
@[simp] theorem inputTaken_run (s : State) (rest : List Input) : (inputTaken s rest).run = (s.run) := rfl
@[simp] theorem inputTaken_ex (s : State) (rest : List Input) : (inputTaken s rest).ex = (s.ex) := rfl
@[simp] theorem inputTaken_flt (s : State) (rest : List Input) : (inputTaken s rest).flt = (s.flt) := rfl
@[simp] theorem inputTaken_bstm (s : State) (rest : List Input) : (inputTaken s rest).bstm = (s.bstm) := rfl
@[simp] theorem inputTaken_pypc (s : State) (rest : List Input) : (inputTaken s rest).pypc = (s.pypc) := rfl
@[simp] theorem inputTaken_pywc (s : State) (rest : List Input) : (inputTaken s rest).pywc = (s.pywc) := rfl
@[simp] theorem inputTaken_scm (s : State) (rest : List Input) : (inputTaken s rest).scm = (s.scm) := rfl
@[simp] theorem inputTaken_seq (s : State) (rest : List Input) : (inputTaken s rest).seq = (s.seq) := rfl
@[simp] theorem inputTaken_pending (s : State) (rest : List Input) : (inputTaken s rest).pending = (s.pending) := rfl
@[simp] theorem inputTaken_adapterWrite (s : State) (rest : List Input) : (inputTaken s rest).adapterWrite = (s.adapterWrite) := rfl
@[simp] theorem inputTaken_scanCounter (s : State) (rest : List Input) : (inputTaken s rest).scanCounter = (s.scanCounter) := rfl
@[simp] theorem inputTaken_canTimer (s : State) (rest : List Input) : (inputTaken s rest).canTimer = (s.canTimer) := rfl
@[simp] theorem inputTaken_sanTimer (s : State) (rest : List Input) : (inputTaken s rest).sanTimer = (s.sanTimer) := rfl
@[simp] theorem inputTaken_stored (s : State) (rest : List Input) : (inputTaken s rest).stored = (s.stored) := rfl
@[simp] theorem inputTaken_haltFault (s : State) (rest : List Input) : (inputTaken s rest).haltFault = (s.haltFault) := rfl
@[simp] theorem inputTaken_clusterWait (s : State) (rest : List Input) : (inputTaken s rest).clusterWait = (s.clusterWait) := rfl
@[simp] theorem inputTaken_lm (s : State) (rest : List Input) : (inputTaken s rest).lm = (s.lm) := rfl
@[simp] theorem inputTaken_mm (s : State) (rest : List Input) : (inputTaken s rest).mm = (s.mm) := rfl
@[simp] theorem inputTaken_clusters (s : State) (rest : List Input) : (inputTaken s rest).clusters = (s.clusters) := rfl
@[simp] theorem inputTaken_env (s : State) (rest : List Input) : (inputTaken s rest).env = ({ s.env with inputs := rest }) := rfl
@[simp] theorem inputTaken_free (s : State) (rest : List Input) : (inputTaken s rest).free = (s.free) := rfl

/-! ### Updates by cases -/

/-! ### setColumn -/

@[simp] theorem setColumn_cfg (s : State) (c : BitVec 3) (h : Half) : (setColumn s c h).cfg = s.cfg := by unfold setColumn; split <;> rfl
@[simp] theorem setColumn_p (s : State) (c : BitVec 3) (h : Half) : (setColumn s c h).p = s.p := by unfold setColumn; split <;> rfl
@[simp] theorem setColumn_ba (s : State) (c : BitVec 3) (h : Half) : (setColumn s c h).ba = s.ba := by unfold setColumn; split <;> rfl
@[simp] theorem setColumn_cm (s : State) (c : BitVec 3) (h : Half) : (setColumn s c h).cm = s.cm := by unfold setColumn; split <;> rfl
@[simp] theorem setColumn_sm (s : State) (c : BitVec 3) (h : Half) : (setColumn s c h).sm = s.sm := by unfold setColumn; split <;> rfl
@[simp] theorem setColumn_run (s : State) (c : BitVec 3) (h : Half) : (setColumn s c h).run = s.run := by unfold setColumn; split <;> rfl
@[simp] theorem setColumn_ex (s : State) (c : BitVec 3) (h : Half) : (setColumn s c h).ex = s.ex := by unfold setColumn; split <;> rfl
@[simp] theorem setColumn_flt (s : State) (c : BitVec 3) (h : Half) : (setColumn s c h).flt = s.flt := by unfold setColumn; split <;> rfl
@[simp] theorem setColumn_bstm (s : State) (c : BitVec 3) (h : Half) : (setColumn s c h).bstm = s.bstm := by unfold setColumn; split <;> rfl
@[simp] theorem setColumn_pypc (s : State) (c : BitVec 3) (h : Half) : (setColumn s c h).pypc = s.pypc := by unfold setColumn; split <;> rfl
@[simp] theorem setColumn_pywc (s : State) (c : BitVec 3) (h : Half) : (setColumn s c h).pywc = s.pywc := by unfold setColumn; split <;> rfl
@[simp] theorem setColumn_scm (s : State) (c : BitVec 3) (h : Half) : (setColumn s c h).scm = s.scm := by unfold setColumn; split <;> rfl
@[simp] theorem setColumn_seq (s : State) (c : BitVec 3) (h : Half) : (setColumn s c h).seq = s.seq := by unfold setColumn; split <;> rfl
@[simp] theorem setColumn_pending (s : State) (c : BitVec 3) (h : Half) : (setColumn s c h).pending = s.pending := by unfold setColumn; split <;> rfl
@[simp] theorem setColumn_adapterWrite (s : State) (c : BitVec 3) (h : Half) : (setColumn s c h).adapterWrite = s.adapterWrite := by unfold setColumn; split <;> rfl
@[simp] theorem setColumn_scanCounter (s : State) (c : BitVec 3) (h : Half) : (setColumn s c h).scanCounter = s.scanCounter := by unfold setColumn; split <;> rfl
@[simp] theorem setColumn_canTimer (s : State) (c : BitVec 3) (h : Half) : (setColumn s c h).canTimer = s.canTimer := by unfold setColumn; split <;> rfl
@[simp] theorem setColumn_sanTimer (s : State) (c : BitVec 3) (h : Half) : (setColumn s c h).sanTimer = s.sanTimer := by unfold setColumn; split <;> rfl
@[simp] theorem setColumn_stored (s : State) (c : BitVec 3) (h : Half) : (setColumn s c h).stored = s.stored := by unfold setColumn; split <;> rfl
@[simp] theorem setColumn_haltFault (s : State) (c : BitVec 3) (h : Half) : (setColumn s c h).haltFault = s.haltFault := by unfold setColumn; split <;> rfl
@[simp] theorem setColumn_clusterWait (s : State) (c : BitVec 3) (h : Half) : (setColumn s c h).clusterWait = s.clusterWait := by unfold setColumn; split <;> rfl
@[simp] theorem setColumn_lm (s : State) (c : BitVec 3) (h : Half) : (setColumn s c h).lm = s.lm := by unfold setColumn; split <;> rfl
@[simp] theorem setColumn_mm (s : State) (c : BitVec 3) (h : Half) : (setColumn s c h).mm = s.mm := by unfold setColumn; split <;> rfl
@[simp] theorem setColumn_clusters (s : State) (c : BitVec 3) (h : Half) : (setColumn s c h).clusters = s.clusters := by unfold setColumn; split <;> rfl
@[simp] theorem setColumn_env (s : State) (c : BitVec 3) (h : Half) : (setColumn s c h).env = s.env := by unfold setColumn; split <;> rfl
@[simp] theorem setColumn_free (s : State) (c : BitVec 3) (h : Half) : (setColumn s c h).free = s.free := by unfold setColumn; split <;> rfl

/-! ### setRows -/

@[simp] theorem setRows_cfg (s : State) (c sel : BitVec 3) (h : Half) : (setRows s c sel h).cfg = s.cfg := by simp [setRows]
@[simp] theorem setRows_p (s : State) (c sel : BitVec 3) (h : Half) : (setRows s c sel h).p = s.p := by simp [setRows]
@[simp] theorem setRows_ba (s : State) (c sel : BitVec 3) (h : Half) : (setRows s c sel h).ba = s.ba := by simp [setRows]
@[simp] theorem setRows_cm (s : State) (c sel : BitVec 3) (h : Half) : (setRows s c sel h).cm = s.cm := by simp [setRows]
@[simp] theorem setRows_sm (s : State) (c sel : BitVec 3) (h : Half) : (setRows s c sel h).sm = s.sm := by simp [setRows]
@[simp] theorem setRows_run (s : State) (c sel : BitVec 3) (h : Half) : (setRows s c sel h).run = s.run := by simp [setRows]
@[simp] theorem setRows_ex (s : State) (c sel : BitVec 3) (h : Half) : (setRows s c sel h).ex = s.ex := by simp [setRows]
@[simp] theorem setRows_flt (s : State) (c sel : BitVec 3) (h : Half) : (setRows s c sel h).flt = s.flt := by simp [setRows]
@[simp] theorem setRows_bstm (s : State) (c sel : BitVec 3) (h : Half) : (setRows s c sel h).bstm = s.bstm := by simp [setRows]
@[simp] theorem setRows_pypc (s : State) (c sel : BitVec 3) (h : Half) : (setRows s c sel h).pypc = s.pypc := by simp [setRows]
@[simp] theorem setRows_pywc (s : State) (c sel : BitVec 3) (h : Half) : (setRows s c sel h).pywc = s.pywc := by simp [setRows]
@[simp] theorem setRows_scm (s : State) (c sel : BitVec 3) (h : Half) : (setRows s c sel h).scm = s.scm := by simp [setRows]
@[simp] theorem setRows_seq (s : State) (c sel : BitVec 3) (h : Half) : (setRows s c sel h).seq = s.seq := by simp [setRows]
@[simp] theorem setRows_pending (s : State) (c sel : BitVec 3) (h : Half) : (setRows s c sel h).pending = s.pending := by simp [setRows]
@[simp] theorem setRows_adapterWrite (s : State) (c sel : BitVec 3) (h : Half) : (setRows s c sel h).adapterWrite = s.adapterWrite := by simp [setRows]
@[simp] theorem setRows_scanCounter (s : State) (c sel : BitVec 3) (h : Half) : (setRows s c sel h).scanCounter = s.scanCounter := by simp [setRows]
@[simp] theorem setRows_canTimer (s : State) (c sel : BitVec 3) (h : Half) : (setRows s c sel h).canTimer = s.canTimer := by simp [setRows]
@[simp] theorem setRows_sanTimer (s : State) (c sel : BitVec 3) (h : Half) : (setRows s c sel h).sanTimer = s.sanTimer := by simp [setRows]
@[simp] theorem setRows_stored (s : State) (c sel : BitVec 3) (h : Half) : (setRows s c sel h).stored = s.stored := by simp [setRows]
@[simp] theorem setRows_haltFault (s : State) (c sel : BitVec 3) (h : Half) : (setRows s c sel h).haltFault = s.haltFault := by simp [setRows]
@[simp] theorem setRows_clusterWait (s : State) (c sel : BitVec 3) (h : Half) : (setRows s c sel h).clusterWait = s.clusterWait := by simp [setRows]
@[simp] theorem setRows_lm (s : State) (c sel : BitVec 3) (h : Half) : (setRows s c sel h).lm = s.lm := by simp [setRows]
@[simp] theorem setRows_mm (s : State) (c sel : BitVec 3) (h : Half) : (setRows s c sel h).mm = s.mm := by simp [setRows]
@[simp] theorem setRows_clusters (s : State) (c sel : BitVec 3) (h : Half) : (setRows s c sel h).clusters = s.clusters := by simp [setRows]
@[simp] theorem setRows_env (s : State) (c sel : BitVec 3) (h : Half) : (setRows s c sel h).env = s.env := by simp [setRows]
@[simp] theorem setRows_free (s : State) (c sel : BitVec 3) (h : Half) : (setRows s c sel h).free = s.free := by simp [setRows]

/-! ### writeByte -/

@[simp] theorem writeByte_cfg (s : State) (l : ByteLoc) (v : Byte) : (writeByte s l v).cfg = s.cfg := by cases l <;> simp [writeByte]
@[simp] theorem writeByte_p (s : State) (l : ByteLoc) (v : Byte) : (writeByte s l v).p = s.p := by cases l <;> simp [writeByte]
@[simp] theorem writeByte_ba (s : State) (l : ByteLoc) (v : Byte) : (writeByte s l v).ba = s.ba := by cases l <;> simp [writeByte]
@[simp] theorem writeByte_cm (s : State) (l : ByteLoc) (v : Byte) : (writeByte s l v).cm = s.cm := by cases l <;> simp [writeByte]
@[simp] theorem writeByte_run (s : State) (l : ByteLoc) (v : Byte) : (writeByte s l v).run = s.run := by cases l <;> simp [writeByte]
@[simp] theorem writeByte_ex (s : State) (l : ByteLoc) (v : Byte) : (writeByte s l v).ex = s.ex := by cases l <;> simp [writeByte]
@[simp] theorem writeByte_flt (s : State) (l : ByteLoc) (v : Byte) : (writeByte s l v).flt = s.flt := by cases l <;> simp [writeByte]
@[simp] theorem writeByte_bstm (s : State) (l : ByteLoc) (v : Byte) : (writeByte s l v).bstm = s.bstm := by cases l <;> simp [writeByte]
@[simp] theorem writeByte_pypc (s : State) (l : ByteLoc) (v : Byte) : (writeByte s l v).pypc = s.pypc := by cases l <;> simp [writeByte]
@[simp] theorem writeByte_pywc (s : State) (l : ByteLoc) (v : Byte) : (writeByte s l v).pywc = s.pywc := by cases l <;> simp [writeByte]
@[simp] theorem writeByte_scm (s : State) (l : ByteLoc) (v : Byte) : (writeByte s l v).scm = s.scm := by cases l <;> simp [writeByte]
@[simp] theorem writeByte_seq (s : State) (l : ByteLoc) (v : Byte) : (writeByte s l v).seq = s.seq := by cases l <;> simp [writeByte]
@[simp] theorem writeByte_pending (s : State) (l : ByteLoc) (v : Byte) : (writeByte s l v).pending = s.pending := by cases l <;> simp [writeByte]
@[simp] theorem writeByte_adapterWrite (s : State) (l : ByteLoc) (v : Byte) : (writeByte s l v).adapterWrite = s.adapterWrite := by cases l <;> simp [writeByte]
@[simp] theorem writeByte_scanCounter (s : State) (l : ByteLoc) (v : Byte) : (writeByte s l v).scanCounter = s.scanCounter := by cases l <;> simp [writeByte]
@[simp] theorem writeByte_canTimer (s : State) (l : ByteLoc) (v : Byte) : (writeByte s l v).canTimer = s.canTimer := by cases l <;> simp [writeByte]
@[simp] theorem writeByte_sanTimer (s : State) (l : ByteLoc) (v : Byte) : (writeByte s l v).sanTimer = s.sanTimer := by cases l <;> simp [writeByte]
@[simp] theorem writeByte_stored (s : State) (l : ByteLoc) (v : Byte) : (writeByte s l v).stored = s.stored := by cases l <;> simp [writeByte]
@[simp] theorem writeByte_haltFault (s : State) (l : ByteLoc) (v : Byte) : (writeByte s l v).haltFault = s.haltFault := by cases l <;> simp [writeByte]
@[simp] theorem writeByte_clusterWait (s : State) (l : ByteLoc) (v : Byte) : (writeByte s l v).clusterWait = s.clusterWait := by cases l <;> simp [writeByte]
@[simp] theorem writeByte_lm (s : State) (l : ByteLoc) (v : Byte) : (writeByte s l v).lm = s.lm := by cases l <;> simp [writeByte]
@[simp] theorem writeByte_mm (s : State) (l : ByteLoc) (v : Byte) : (writeByte s l v).mm = s.mm := by cases l <;> simp [writeByte]
@[simp] theorem writeByte_clusters (s : State) (l : ByteLoc) (v : Byte) : (writeByte s l v).clusters = s.clusters := by cases l <;> simp [writeByte]
@[simp] theorem writeByte_env (s : State) (l : ByteLoc) (v : Byte) : (writeByte s l v).env = s.env := by cases l <;> simp [writeByte]
@[simp] theorem writeByte_free (s : State) (l : ByteLoc) (v : Byte) : (writeByte s l v).free = s.free := by cases l <;> simp [writeByte]

/-! ### writeHalf -/

@[simp] theorem writeHalf_cfg (s : State) (l : HalfLoc) (h : Half) : (writeHalf s l h).cfg = s.cfg := by cases l <;> simp [writeHalf]
@[simp] theorem writeHalf_p (s : State) (l : HalfLoc) (h : Half) : (writeHalf s l h).p = s.p := by cases l <;> simp [writeHalf]
@[simp] theorem writeHalf_ba (s : State) (l : HalfLoc) (h : Half) : (writeHalf s l h).ba = s.ba := by cases l <;> simp [writeHalf]
@[simp] theorem writeHalf_cm (s : State) (l : HalfLoc) (h : Half) : (writeHalf s l h).cm = s.cm := by cases l <;> simp [writeHalf]
@[simp] theorem writeHalf_run (s : State) (l : HalfLoc) (h : Half) : (writeHalf s l h).run = s.run := by cases l <;> simp [writeHalf]
@[simp] theorem writeHalf_ex (s : State) (l : HalfLoc) (h : Half) : (writeHalf s l h).ex = s.ex := by cases l <;> simp [writeHalf]
@[simp] theorem writeHalf_flt (s : State) (l : HalfLoc) (h : Half) : (writeHalf s l h).flt = s.flt := by cases l <;> simp [writeHalf]
@[simp] theorem writeHalf_bstm (s : State) (l : HalfLoc) (h : Half) : (writeHalf s l h).bstm = s.bstm := by cases l <;> simp [writeHalf]
@[simp] theorem writeHalf_pypc (s : State) (l : HalfLoc) (h : Half) : (writeHalf s l h).pypc = s.pypc := by cases l <;> simp [writeHalf]
@[simp] theorem writeHalf_pywc (s : State) (l : HalfLoc) (h : Half) : (writeHalf s l h).pywc = s.pywc := by cases l <;> simp [writeHalf]
@[simp] theorem writeHalf_scm (s : State) (l : HalfLoc) (h : Half) : (writeHalf s l h).scm = s.scm := by cases l <;> simp [writeHalf]
@[simp] theorem writeHalf_seq (s : State) (l : HalfLoc) (h : Half) : (writeHalf s l h).seq = s.seq := by cases l <;> simp [writeHalf]
@[simp] theorem writeHalf_pending (s : State) (l : HalfLoc) (h : Half) : (writeHalf s l h).pending = s.pending := by cases l <;> simp [writeHalf]
@[simp] theorem writeHalf_adapterWrite (s : State) (l : HalfLoc) (h : Half) : (writeHalf s l h).adapterWrite = s.adapterWrite := by cases l <;> simp [writeHalf]
@[simp] theorem writeHalf_scanCounter (s : State) (l : HalfLoc) (h : Half) : (writeHalf s l h).scanCounter = s.scanCounter := by cases l <;> simp [writeHalf]
@[simp] theorem writeHalf_canTimer (s : State) (l : HalfLoc) (h : Half) : (writeHalf s l h).canTimer = s.canTimer := by cases l <;> simp [writeHalf]
@[simp] theorem writeHalf_sanTimer (s : State) (l : HalfLoc) (h : Half) : (writeHalf s l h).sanTimer = s.sanTimer := by cases l <;> simp [writeHalf]
@[simp] theorem writeHalf_stored (s : State) (l : HalfLoc) (h : Half) : (writeHalf s l h).stored = s.stored := by cases l <;> simp [writeHalf]
@[simp] theorem writeHalf_haltFault (s : State) (l : HalfLoc) (h : Half) : (writeHalf s l h).haltFault = s.haltFault := by cases l <;> simp [writeHalf]
@[simp] theorem writeHalf_clusterWait (s : State) (l : HalfLoc) (h : Half) : (writeHalf s l h).clusterWait = s.clusterWait := by cases l <;> simp [writeHalf]
@[simp] theorem writeHalf_lm (s : State) (l : HalfLoc) (h : Half) : (writeHalf s l h).lm = s.lm := by cases l <;> simp [writeHalf]
@[simp] theorem writeHalf_mm (s : State) (l : HalfLoc) (h : Half) : (writeHalf s l h).mm = s.mm := by cases l <;> simp [writeHalf]
@[simp] theorem writeHalf_clusters (s : State) (l : HalfLoc) (h : Half) : (writeHalf s l h).clusters = s.clusters := by cases l <;> simp [writeHalf]
@[simp] theorem writeHalf_env (s : State) (l : HalfLoc) (h : Half) : (writeHalf s l h).env = s.env := by cases l <;> simp [writeHalf]
@[simp] theorem writeHalf_free (s : State) (l : HalfLoc) (h : Half) : (writeHalf s l h).free = s.free := by cases l <;> simp [writeHalf]

/-! ### finish -/

@[simp] theorem finish_cfg (fetch : Bool) (s : State) : (finish fetch s).cfg = s.cfg := by cases fetch <;> rfl
@[simp] theorem finish_aa (fetch : Bool) (s : State) : (finish fetch s).aa = s.aa := by cases fetch <;> rfl
@[simp] theorem finish_ac (fetch : Bool) (s : State) : (finish fetch s).ac = s.ac := by cases fetch <;> rfl
@[simp] theorem finish_ai (fetch : Bool) (s : State) : (finish fetch s).ai = s.ai := by cases fetch <;> rfl
@[simp] theorem finish_d (fetch : Bool) (s : State) : (finish fetch s).d = s.d := by cases fetch <;> rfl
@[simp] theorem finish_y (fetch : Bool) (s : State) : (finish fetch s).y = s.y := by cases fetch <;> rfl
@[simp] theorem finish_x (fetch : Bool) (s : State) : (finish fetch s).x = s.x := by cases fetch <;> rfl
@[simp] theorem finish_ma2 (fetch : Bool) (s : State) : (finish fetch s).ma2 = s.ma2 := by cases fetch <;> rfl
@[simp] theorem finish_ma1 (fetch : Bool) (s : State) : (finish fetch s).ma1 = s.ma1 := by cases fetch <;> rfl
@[simp] theorem finish_ma0 (fetch : Bool) (s : State) : (finish fetch s).ma0 = s.ma0 := by cases fetch <;> rfl
@[simp] theorem finish_w (fetch : Bool) (s : State) : (finish fetch s).w = s.w := by cases fetch <;> rfl
@[simp] theorem finish_ba (fetch : Bool) (s : State) : (finish fetch s).ba = s.ba := by cases fetch <;> rfl
@[simp] theorem finish_cm (fetch : Bool) (s : State) : (finish fetch s).cm = s.cm := by cases fetch <;> rfl
@[simp] theorem finish_sm (fetch : Bool) (s : State) : (finish fetch s).sm = s.sm := by cases fetch <;> rfl
@[simp] theorem finish_flt (fetch : Bool) (s : State) : (finish fetch s).flt = s.flt := by cases fetch <;> rfl
@[simp] theorem finish_bstm (fetch : Bool) (s : State) : (finish fetch s).bstm = s.bstm := by cases fetch <;> rfl
@[simp] theorem finish_pypc (fetch : Bool) (s : State) : (finish fetch s).pypc = s.pypc := by cases fetch <;> rfl
@[simp] theorem finish_pywc (fetch : Bool) (s : State) : (finish fetch s).pywc = s.pywc := by cases fetch <;> rfl
@[simp] theorem finish_scm (fetch : Bool) (s : State) : (finish fetch s).scm = s.scm := by cases fetch <;> rfl
@[simp] theorem finish_seq (fetch : Bool) (s : State) : (finish fetch s).seq = s.seq := by cases fetch <;> rfl
@[simp] theorem finish_pending (fetch : Bool) (s : State) : (finish fetch s).pending = s.pending := by cases fetch <;> rfl
@[simp] theorem finish_adapterWrite (fetch : Bool) (s : State) : (finish fetch s).adapterWrite = s.adapterWrite := by cases fetch <;> rfl
@[simp] theorem finish_scanCounter (fetch : Bool) (s : State) : (finish fetch s).scanCounter = s.scanCounter := by cases fetch <;> rfl
@[simp] theorem finish_canTimer (fetch : Bool) (s : State) : (finish fetch s).canTimer = s.canTimer := by cases fetch <;> rfl
@[simp] theorem finish_sanTimer (fetch : Bool) (s : State) : (finish fetch s).sanTimer = s.sanTimer := by cases fetch <;> rfl
@[simp] theorem finish_stored (fetch : Bool) (s : State) : (finish fetch s).stored = s.stored := by cases fetch <;> rfl
@[simp] theorem finish_haltFault (fetch : Bool) (s : State) : (finish fetch s).haltFault = s.haltFault := by cases fetch <;> rfl
@[simp] theorem finish_lm (fetch : Bool) (s : State) : (finish fetch s).lm = s.lm := by cases fetch <;> rfl
@[simp] theorem finish_mm (fetch : Bool) (s : State) : (finish fetch s).mm = s.mm := by cases fetch <;> rfl
@[simp] theorem finish_clusters (fetch : Bool) (s : State) : (finish fetch s).clusters = s.clusters := by cases fetch <;> rfl
@[simp] theorem finish_env (fetch : Bool) (s : State) : (finish fetch s).env = s.env := by cases fetch <;> rfl
@[simp] theorem finish_free (fetch : Bool) (s : State) : (finish fetch s).free = s.free := by cases fetch <;> rfl

/-! ### storeBesideMA -/

@[simp] theorem storeBesideMA_cfg (s : State) (l : HalfLoc) (h : Half) : (storeBesideMA s l h).cfg = s.cfg := by unfold storeBesideMA; split <;> (try split) <;> simp
@[simp] theorem storeBesideMA_p (s : State) (l : HalfLoc) (h : Half) : (storeBesideMA s l h).p = s.p := by unfold storeBesideMA; split <;> (try split) <;> simp
@[simp] theorem storeBesideMA_ba (s : State) (l : HalfLoc) (h : Half) : (storeBesideMA s l h).ba = s.ba := by unfold storeBesideMA; split <;> (try split) <;> simp
@[simp] theorem storeBesideMA_cm (s : State) (l : HalfLoc) (h : Half) : (storeBesideMA s l h).cm = s.cm := by unfold storeBesideMA; split <;> (try split) <;> simp
@[simp] theorem storeBesideMA_run (s : State) (l : HalfLoc) (h : Half) : (storeBesideMA s l h).run = s.run := by unfold storeBesideMA; split <;> (try split) <;> simp
@[simp] theorem storeBesideMA_ex (s : State) (l : HalfLoc) (h : Half) : (storeBesideMA s l h).ex = s.ex := by unfold storeBesideMA; split <;> (try split) <;> simp
@[simp] theorem storeBesideMA_flt (s : State) (l : HalfLoc) (h : Half) : (storeBesideMA s l h).flt = s.flt := by unfold storeBesideMA; split <;> (try split) <;> simp
@[simp] theorem storeBesideMA_bstm (s : State) (l : HalfLoc) (h : Half) : (storeBesideMA s l h).bstm = s.bstm := by unfold storeBesideMA; split <;> (try split) <;> simp
@[simp] theorem storeBesideMA_pypc (s : State) (l : HalfLoc) (h : Half) : (storeBesideMA s l h).pypc = s.pypc := by unfold storeBesideMA; split <;> (try split) <;> simp
@[simp] theorem storeBesideMA_pywc (s : State) (l : HalfLoc) (h : Half) : (storeBesideMA s l h).pywc = s.pywc := by unfold storeBesideMA; split <;> (try split) <;> simp
@[simp] theorem storeBesideMA_scm (s : State) (l : HalfLoc) (h : Half) : (storeBesideMA s l h).scm = s.scm := by unfold storeBesideMA; split <;> (try split) <;> simp
@[simp] theorem storeBesideMA_seq (s : State) (l : HalfLoc) (h : Half) : (storeBesideMA s l h).seq = s.seq := by unfold storeBesideMA; split <;> (try split) <;> simp
@[simp] theorem storeBesideMA_pending (s : State) (l : HalfLoc) (h : Half) : (storeBesideMA s l h).pending = s.pending := by unfold storeBesideMA; split <;> (try split) <;> simp
@[simp] theorem storeBesideMA_adapterWrite (s : State) (l : HalfLoc) (h : Half) : (storeBesideMA s l h).adapterWrite = s.adapterWrite := by unfold storeBesideMA; split <;> (try split) <;> simp
@[simp] theorem storeBesideMA_scanCounter (s : State) (l : HalfLoc) (h : Half) : (storeBesideMA s l h).scanCounter = s.scanCounter := by unfold storeBesideMA; split <;> (try split) <;> simp
@[simp] theorem storeBesideMA_canTimer (s : State) (l : HalfLoc) (h : Half) : (storeBesideMA s l h).canTimer = s.canTimer := by unfold storeBesideMA; split <;> (try split) <;> simp
@[simp] theorem storeBesideMA_sanTimer (s : State) (l : HalfLoc) (h : Half) : (storeBesideMA s l h).sanTimer = s.sanTimer := by unfold storeBesideMA; split <;> (try split) <;> simp
@[simp] theorem storeBesideMA_stored (s : State) (l : HalfLoc) (h : Half) : (storeBesideMA s l h).stored = s.stored := by unfold storeBesideMA; split <;> (try split) <;> simp
@[simp] theorem storeBesideMA_haltFault (s : State) (l : HalfLoc) (h : Half) : (storeBesideMA s l h).haltFault = s.haltFault := by unfold storeBesideMA; split <;> (try split) <;> simp
@[simp] theorem storeBesideMA_clusterWait (s : State) (l : HalfLoc) (h : Half) : (storeBesideMA s l h).clusterWait = s.clusterWait := by unfold storeBesideMA; split <;> (try split) <;> simp
@[simp] theorem storeBesideMA_lm (s : State) (l : HalfLoc) (h : Half) : (storeBesideMA s l h).lm = s.lm := by unfold storeBesideMA; split <;> (try split) <;> simp
@[simp] theorem storeBesideMA_mm (s : State) (l : HalfLoc) (h : Half) : (storeBesideMA s l h).mm = s.mm := by unfold storeBesideMA; split <;> (try split) <;> simp
@[simp] theorem storeBesideMA_clusters (s : State) (l : HalfLoc) (h : Half) : (storeBesideMA s l h).clusters = s.clusters := by unfold storeBesideMA; split <;> (try split) <;> simp
@[simp] theorem storeBesideMA_env (s : State) (l : HalfLoc) (h : Half) : (storeBesideMA s l h).env = s.env := by unfold storeBesideMA; split <;> (try split) <;> simp

/-! ### moveHalves -/

@[simp] theorem moveHalves_cfg (s : State) (b : Byte) (src dst : HalfLoc) : (moveHalves s b src dst).cfg = s.cfg := by simp [moveHalves]
@[simp] theorem moveHalves_ba (s : State) (b : Byte) (src dst : HalfLoc) : (moveHalves s b src dst).ba = s.ba := by simp [moveHalves]
@[simp] theorem moveHalves_cm (s : State) (b : Byte) (src dst : HalfLoc) : (moveHalves s b src dst).cm = s.cm := by simp [moveHalves]
@[simp] theorem moveHalves_run (s : State) (b : Byte) (src dst : HalfLoc) : (moveHalves s b src dst).run = s.run := by simp [moveHalves]
@[simp] theorem moveHalves_ex (s : State) (b : Byte) (src dst : HalfLoc) : (moveHalves s b src dst).ex = s.ex := by simp [moveHalves]
@[simp] theorem moveHalves_flt (s : State) (b : Byte) (src dst : HalfLoc) : (moveHalves s b src dst).flt = s.flt := by simp [moveHalves]
@[simp] theorem moveHalves_bstm (s : State) (b : Byte) (src dst : HalfLoc) : (moveHalves s b src dst).bstm = s.bstm := by simp [moveHalves]
@[simp] theorem moveHalves_pypc (s : State) (b : Byte) (src dst : HalfLoc) : (moveHalves s b src dst).pypc = s.pypc := by simp [moveHalves]
@[simp] theorem moveHalves_pywc (s : State) (b : Byte) (src dst : HalfLoc) : (moveHalves s b src dst).pywc = s.pywc := by simp [moveHalves]
@[simp] theorem moveHalves_scm (s : State) (b : Byte) (src dst : HalfLoc) : (moveHalves s b src dst).scm = s.scm := by simp [moveHalves]
@[simp] theorem moveHalves_seq (s : State) (b : Byte) (src dst : HalfLoc) : (moveHalves s b src dst).seq = s.seq := by simp [moveHalves]
@[simp] theorem moveHalves_pending (s : State) (b : Byte) (src dst : HalfLoc) : (moveHalves s b src dst).pending = s.pending := by simp [moveHalves]
@[simp] theorem moveHalves_adapterWrite (s : State) (b : Byte) (src dst : HalfLoc) : (moveHalves s b src dst).adapterWrite = s.adapterWrite := by simp [moveHalves]
@[simp] theorem moveHalves_scanCounter (s : State) (b : Byte) (src dst : HalfLoc) : (moveHalves s b src dst).scanCounter = s.scanCounter := by simp [moveHalves]
@[simp] theorem moveHalves_canTimer (s : State) (b : Byte) (src dst : HalfLoc) : (moveHalves s b src dst).canTimer = s.canTimer := by simp [moveHalves]
@[simp] theorem moveHalves_sanTimer (s : State) (b : Byte) (src dst : HalfLoc) : (moveHalves s b src dst).sanTimer = s.sanTimer := by simp [moveHalves]
@[simp] theorem moveHalves_stored (s : State) (b : Byte) (src dst : HalfLoc) : (moveHalves s b src dst).stored = s.stored := by simp [moveHalves]
@[simp] theorem moveHalves_haltFault (s : State) (b : Byte) (src dst : HalfLoc) : (moveHalves s b src dst).haltFault = s.haltFault := by simp [moveHalves]
@[simp] theorem moveHalves_clusterWait (s : State) (b : Byte) (src dst : HalfLoc) : (moveHalves s b src dst).clusterWait = s.clusterWait := by simp [moveHalves]
@[simp] theorem moveHalves_lm (s : State) (b : Byte) (src dst : HalfLoc) : (moveHalves s b src dst).lm = s.lm := by simp [moveHalves]
@[simp] theorem moveHalves_mm (s : State) (b : Byte) (src dst : HalfLoc) : (moveHalves s b src dst).mm = s.mm := by simp [moveHalves]
@[simp] theorem moveHalves_clusters (s : State) (b : Byte) (src dst : HalfLoc) : (moveHalves s b src dst).clusters = s.clusters := by simp [moveHalves]
@[simp] theorem moveHalves_env (s : State) (b : Byte) (src dst : HalfLoc) : (moveHalves s b src dst).env = s.env := by simp [moveHalves]

/-! ### smrdEffect -/

@[simp] theorem smrdEffect_cfg (s : State) (src dst : HalfLoc) : (smrdEffect s src dst).cfg = s.cfg := by unfold smrdEffect; simp only; split <;> (try split) <;> (try split) <;> simp
@[simp] theorem smrdEffect_p (s : State) (src dst : HalfLoc) : (smrdEffect s src dst).p = s.p := by unfold smrdEffect; simp only; split <;> (try split) <;> (try split) <;> simp
@[simp] theorem smrdEffect_ba (s : State) (src dst : HalfLoc) : (smrdEffect s src dst).ba = s.ba := by unfold smrdEffect; simp only; split <;> (try split) <;> (try split) <;> simp
@[simp] theorem smrdEffect_cm (s : State) (src dst : HalfLoc) : (smrdEffect s src dst).cm = s.cm := by unfold smrdEffect; simp only; split <;> (try split) <;> (try split) <;> simp
@[simp] theorem smrdEffect_run (s : State) (src dst : HalfLoc) : (smrdEffect s src dst).run = s.run := by unfold smrdEffect; simp only; split <;> (try split) <;> (try split) <;> simp
@[simp] theorem smrdEffect_ex (s : State) (src dst : HalfLoc) : (smrdEffect s src dst).ex = s.ex := by unfold smrdEffect; simp only; split <;> (try split) <;> (try split) <;> simp
@[simp] theorem smrdEffect_flt (s : State) (src dst : HalfLoc) : (smrdEffect s src dst).flt = s.flt := by unfold smrdEffect; simp only; split <;> (try split) <;> (try split) <;> simp
@[simp] theorem smrdEffect_bstm (s : State) (src dst : HalfLoc) : (smrdEffect s src dst).bstm = s.bstm := by unfold smrdEffect; simp only; split <;> (try split) <;> (try split) <;> simp
@[simp] theorem smrdEffect_pypc (s : State) (src dst : HalfLoc) : (smrdEffect s src dst).pypc = s.pypc := by unfold smrdEffect; simp only; split <;> (try split) <;> (try split) <;> simp
@[simp] theorem smrdEffect_pywc (s : State) (src dst : HalfLoc) : (smrdEffect s src dst).pywc = s.pywc := by unfold smrdEffect; simp only; split <;> (try split) <;> (try split) <;> simp
@[simp] theorem smrdEffect_scm (s : State) (src dst : HalfLoc) : (smrdEffect s src dst).scm = s.scm := by unfold smrdEffect; simp only; split <;> (try split) <;> (try split) <;> simp
@[simp] theorem smrdEffect_seq (s : State) (src dst : HalfLoc) : (smrdEffect s src dst).seq = s.seq := by unfold smrdEffect; simp only; split <;> (try split) <;> (try split) <;> simp
@[simp] theorem smrdEffect_pending (s : State) (src dst : HalfLoc) : (smrdEffect s src dst).pending = s.pending := by unfold smrdEffect; simp only; split <;> (try split) <;> (try split) <;> simp
@[simp] theorem smrdEffect_adapterWrite (s : State) (src dst : HalfLoc) : (smrdEffect s src dst).adapterWrite = s.adapterWrite := by unfold smrdEffect; simp only; split <;> (try split) <;> (try split) <;> simp
@[simp] theorem smrdEffect_scanCounter (s : State) (src dst : HalfLoc) : (smrdEffect s src dst).scanCounter = s.scanCounter := by unfold smrdEffect; simp only; split <;> (try split) <;> (try split) <;> simp
@[simp] theorem smrdEffect_canTimer (s : State) (src dst : HalfLoc) : (smrdEffect s src dst).canTimer = s.canTimer := by unfold smrdEffect; simp only; split <;> (try split) <;> (try split) <;> simp
@[simp] theorem smrdEffect_sanTimer (s : State) (src dst : HalfLoc) : (smrdEffect s src dst).sanTimer = s.sanTimer := by unfold smrdEffect; simp only; split <;> (try split) <;> (try split) <;> simp
@[simp] theorem smrdEffect_stored (s : State) (src dst : HalfLoc) : (smrdEffect s src dst).stored = s.stored := by unfold smrdEffect; simp only; split <;> (try split) <;> (try split) <;> simp
@[simp] theorem smrdEffect_haltFault (s : State) (src dst : HalfLoc) : (smrdEffect s src dst).haltFault = s.haltFault := by unfold smrdEffect; simp only; split <;> (try split) <;> (try split) <;> simp
@[simp] theorem smrdEffect_clusterWait (s : State) (src dst : HalfLoc) : (smrdEffect s src dst).clusterWait = s.clusterWait := by unfold smrdEffect; simp only; split <;> (try split) <;> (try split) <;> simp
@[simp] theorem smrdEffect_lm (s : State) (src dst : HalfLoc) : (smrdEffect s src dst).lm = s.lm := by unfold smrdEffect; simp only; split <;> (try split) <;> (try split) <;> simp
@[simp] theorem smrdEffect_mm (s : State) (src dst : HalfLoc) : (smrdEffect s src dst).mm = s.mm := by unfold smrdEffect; simp only; split <;> (try split) <;> (try split) <;> simp
@[simp] theorem smrdEffect_clusters (s : State) (src dst : HalfLoc) : (smrdEffect s src dst).clusters = s.clusters := by unfold smrdEffect; simp only; split <;> (try split) <;> (try split) <;> simp
@[simp] theorem smrdEffect_env (s : State) (src dst : HalfLoc) : (smrdEffect s src dst).env = s.env := by unfold smrdEffect; simp only; split <;> (try split) <;> (try split) <;> simp
@[simp] theorem smrdEffect_free (s : State) (src dst : HalfLoc) : (smrdEffect s src dst).free = s.free := by unfold smrdEffect; simp only; split <;> (try split) <;> (try split) <;> simp

/-! ### smwdStore -/

@[simp] theorem smwdStore_cfg (s : State) (dst : HalfLoc) (v : Word) : (smwdStore s dst v).cfg = s.cfg := by unfold smwdStore; split <;> simp
@[simp] theorem smwdStore_p (s : State) (dst : HalfLoc) (v : Word) : (smwdStore s dst v).p = s.p := by unfold smwdStore; split <;> simp
@[simp] theorem smwdStore_ba (s : State) (dst : HalfLoc) (v : Word) : (smwdStore s dst v).ba = s.ba := by unfold smwdStore; split <;> simp
@[simp] theorem smwdStore_cm (s : State) (dst : HalfLoc) (v : Word) : (smwdStore s dst v).cm = s.cm := by unfold smwdStore; split <;> simp
@[simp] theorem smwdStore_run (s : State) (dst : HalfLoc) (v : Word) : (smwdStore s dst v).run = s.run := by unfold smwdStore; split <;> simp
@[simp] theorem smwdStore_ex (s : State) (dst : HalfLoc) (v : Word) : (smwdStore s dst v).ex = s.ex := by unfold smwdStore; split <;> simp
@[simp] theorem smwdStore_flt (s : State) (dst : HalfLoc) (v : Word) : (smwdStore s dst v).flt = s.flt := by unfold smwdStore; split <;> simp
@[simp] theorem smwdStore_bstm (s : State) (dst : HalfLoc) (v : Word) : (smwdStore s dst v).bstm = s.bstm := by unfold smwdStore; split <;> simp
@[simp] theorem smwdStore_pypc (s : State) (dst : HalfLoc) (v : Word) : (smwdStore s dst v).pypc = s.pypc := by unfold smwdStore; split <;> simp
@[simp] theorem smwdStore_pywc (s : State) (dst : HalfLoc) (v : Word) : (smwdStore s dst v).pywc = s.pywc := by unfold smwdStore; split <;> simp
@[simp] theorem smwdStore_scm (s : State) (dst : HalfLoc) (v : Word) : (smwdStore s dst v).scm = s.scm := by unfold smwdStore; split <;> simp
@[simp] theorem smwdStore_seq (s : State) (dst : HalfLoc) (v : Word) : (smwdStore s dst v).seq = s.seq := by unfold smwdStore; split <;> simp
@[simp] theorem smwdStore_pending (s : State) (dst : HalfLoc) (v : Word) : (smwdStore s dst v).pending = s.pending := by unfold smwdStore; split <;> simp
@[simp] theorem smwdStore_adapterWrite (s : State) (dst : HalfLoc) (v : Word) : (smwdStore s dst v).adapterWrite = s.adapterWrite := by unfold smwdStore; split <;> simp
@[simp] theorem smwdStore_scanCounter (s : State) (dst : HalfLoc) (v : Word) : (smwdStore s dst v).scanCounter = s.scanCounter := by unfold smwdStore; split <;> simp
@[simp] theorem smwdStore_canTimer (s : State) (dst : HalfLoc) (v : Word) : (smwdStore s dst v).canTimer = s.canTimer := by unfold smwdStore; split <;> simp
@[simp] theorem smwdStore_sanTimer (s : State) (dst : HalfLoc) (v : Word) : (smwdStore s dst v).sanTimer = s.sanTimer := by unfold smwdStore; split <;> simp
@[simp] theorem smwdStore_stored (s : State) (dst : HalfLoc) (v : Word) : (smwdStore s dst v).stored = s.stored := by unfold smwdStore; split <;> simp
@[simp] theorem smwdStore_haltFault (s : State) (dst : HalfLoc) (v : Word) : (smwdStore s dst v).haltFault = s.haltFault := by unfold smwdStore; split <;> simp
@[simp] theorem smwdStore_clusterWait (s : State) (dst : HalfLoc) (v : Word) : (smwdStore s dst v).clusterWait = s.clusterWait := by unfold smwdStore; split <;> simp
@[simp] theorem smwdStore_lm (s : State) (dst : HalfLoc) (v : Word) : (smwdStore s dst v).lm = s.lm := by unfold smwdStore; split <;> simp
@[simp] theorem smwdStore_mm (s : State) (dst : HalfLoc) (v : Word) : (smwdStore s dst v).mm = s.mm := by unfold smwdStore; split <;> simp
@[simp] theorem smwdStore_clusters (s : State) (dst : HalfLoc) (v : Word) : (smwdStore s dst v).clusters = s.clusters := by unfold smwdStore; split <;> simp
@[simp] theorem smwdStore_env (s : State) (dst : HalfLoc) (v : Word) : (smwdStore s dst v).env = s.env := by unfold smwdStore; split <;> simp

/-! ### laomStore -/

@[simp] theorem laomStore_cfg (s : State) (dst : ByteLoc) (t : Byte) : (laomStore s dst t).cfg = s.cfg := by cases dst <;> simp [laomStore]
@[simp] theorem laomStore_p (s : State) (dst : ByteLoc) (t : Byte) : (laomStore s dst t).p = s.p := by cases dst <;> simp [laomStore]
@[simp] theorem laomStore_ba (s : State) (dst : ByteLoc) (t : Byte) : (laomStore s dst t).ba = s.ba := by cases dst <;> simp [laomStore]
@[simp] theorem laomStore_cm (s : State) (dst : ByteLoc) (t : Byte) : (laomStore s dst t).cm = s.cm := by cases dst <;> simp [laomStore]
@[simp] theorem laomStore_run (s : State) (dst : ByteLoc) (t : Byte) : (laomStore s dst t).run = s.run := by cases dst <;> simp [laomStore]
@[simp] theorem laomStore_ex (s : State) (dst : ByteLoc) (t : Byte) : (laomStore s dst t).ex = s.ex := by cases dst <;> simp [laomStore]
@[simp] theorem laomStore_flt (s : State) (dst : ByteLoc) (t : Byte) : (laomStore s dst t).flt = s.flt := by cases dst <;> simp [laomStore]
@[simp] theorem laomStore_bstm (s : State) (dst : ByteLoc) (t : Byte) : (laomStore s dst t).bstm = s.bstm := by cases dst <;> simp [laomStore]
@[simp] theorem laomStore_pypc (s : State) (dst : ByteLoc) (t : Byte) : (laomStore s dst t).pypc = s.pypc := by cases dst <;> simp [laomStore]
@[simp] theorem laomStore_pywc (s : State) (dst : ByteLoc) (t : Byte) : (laomStore s dst t).pywc = s.pywc := by cases dst <;> simp [laomStore]
@[simp] theorem laomStore_scm (s : State) (dst : ByteLoc) (t : Byte) : (laomStore s dst t).scm = s.scm := by cases dst <;> simp [laomStore]
@[simp] theorem laomStore_seq (s : State) (dst : ByteLoc) (t : Byte) : (laomStore s dst t).seq = s.seq := by cases dst <;> simp [laomStore]
@[simp] theorem laomStore_pending (s : State) (dst : ByteLoc) (t : Byte) : (laomStore s dst t).pending = s.pending := by cases dst <;> simp [laomStore]
@[simp] theorem laomStore_adapterWrite (s : State) (dst : ByteLoc) (t : Byte) : (laomStore s dst t).adapterWrite = s.adapterWrite := by cases dst <;> simp [laomStore]
@[simp] theorem laomStore_scanCounter (s : State) (dst : ByteLoc) (t : Byte) : (laomStore s dst t).scanCounter = s.scanCounter := by cases dst <;> simp [laomStore]
@[simp] theorem laomStore_canTimer (s : State) (dst : ByteLoc) (t : Byte) : (laomStore s dst t).canTimer = s.canTimer := by cases dst <;> simp [laomStore]
@[simp] theorem laomStore_sanTimer (s : State) (dst : ByteLoc) (t : Byte) : (laomStore s dst t).sanTimer = s.sanTimer := by cases dst <;> simp [laomStore]
@[simp] theorem laomStore_stored (s : State) (dst : ByteLoc) (t : Byte) : (laomStore s dst t).stored = s.stored := by cases dst <;> simp [laomStore]
@[simp] theorem laomStore_haltFault (s : State) (dst : ByteLoc) (t : Byte) : (laomStore s dst t).haltFault = s.haltFault := by cases dst <;> simp [laomStore]
@[simp] theorem laomStore_clusterWait (s : State) (dst : ByteLoc) (t : Byte) : (laomStore s dst t).clusterWait = s.clusterWait := by cases dst <;> simp [laomStore]
@[simp] theorem laomStore_lm (s : State) (dst : ByteLoc) (t : Byte) : (laomStore s dst t).lm = s.lm := by cases dst <;> simp [laomStore]
@[simp] theorem laomStore_mm (s : State) (dst : ByteLoc) (t : Byte) : (laomStore s dst t).mm = s.mm := by cases dst <;> simp [laomStore]
@[simp] theorem laomStore_clusters (s : State) (dst : ByteLoc) (t : Byte) : (laomStore s dst t).clusters = s.clusters := by cases dst <;> simp [laomStore]
@[simp] theorem laomStore_env (s : State) (dst : ByteLoc) (t : Byte) : (laomStore s dst t).env = s.env := by cases dst <;> simp [laomStore]

/-! ### parityToAI -/

@[simp] theorem parityToAI_cfg (s : State) (cl : ByteLoc) (x : Bool) : (parityToAI s cl x).cfg = s.cfg := by unfold parityToAI; split <;> rfl
@[simp] theorem parityToAI_aa (s : State) (cl : ByteLoc) (x : Bool) : (parityToAI s cl x).aa = s.aa := by unfold parityToAI; split <;> rfl
@[simp] theorem parityToAI_ac (s : State) (cl : ByteLoc) (x : Bool) : (parityToAI s cl x).ac = s.ac := by unfold parityToAI; split <;> rfl
@[simp] theorem parityToAI_ai (s : State) (cl : ByteLoc) (x : Bool) : (parityToAI s cl x).ai = s.ai := by unfold parityToAI; split <;> rfl
@[simp] theorem parityToAI_d (s : State) (cl : ByteLoc) (x : Bool) : (parityToAI s cl x).d = s.d := by unfold parityToAI; split <;> rfl
@[simp] theorem parityToAI_y (s : State) (cl : ByteLoc) (x : Bool) : (parityToAI s cl x).y = s.y := by unfold parityToAI; split <;> rfl
@[simp] theorem parityToAI_x (s : State) (cl : ByteLoc) (x : Bool) : (parityToAI s cl x).x = s.x := by unfold parityToAI; split <;> rfl
@[simp] theorem parityToAI_ma2 (s : State) (cl : ByteLoc) (x : Bool) : (parityToAI s cl x).ma2 = s.ma2 := by unfold parityToAI; split <;> rfl
@[simp] theorem parityToAI_ma1 (s : State) (cl : ByteLoc) (x : Bool) : (parityToAI s cl x).ma1 = s.ma1 := by unfold parityToAI; split <;> rfl
@[simp] theorem parityToAI_ma0 (s : State) (cl : ByteLoc) (x : Bool) : (parityToAI s cl x).ma0 = s.ma0 := by unfold parityToAI; split <;> rfl
@[simp] theorem parityToAI_ia1 (s : State) (cl : ByteLoc) (x : Bool) : (parityToAI s cl x).ia1 = s.ia1 := by unfold parityToAI; split <;> rfl
@[simp] theorem parityToAI_ia0 (s : State) (cl : ByteLoc) (x : Bool) : (parityToAI s cl x).ia0 = s.ia0 := by unfold parityToAI; split <;> rfl
@[simp] theorem parityToAI_w (s : State) (cl : ByteLoc) (x : Bool) : (parityToAI s cl x).w = s.w := by unfold parityToAI; split <;> rfl
@[simp] theorem parityToAI_p (s : State) (cl : ByteLoc) (x : Bool) : (parityToAI s cl x).p = s.p := by unfold parityToAI; split <;> rfl
@[simp] theorem parityToAI_ba (s : State) (cl : ByteLoc) (x : Bool) : (parityToAI s cl x).ba = s.ba := by unfold parityToAI; split <;> rfl
@[simp] theorem parityToAI_cm (s : State) (cl : ByteLoc) (x : Bool) : (parityToAI s cl x).cm = s.cm := by unfold parityToAI; split <;> rfl
@[simp] theorem parityToAI_sm (s : State) (cl : ByteLoc) (x : Bool) : (parityToAI s cl x).sm = s.sm := by unfold parityToAI; split <;> rfl
@[simp] theorem parityToAI_run (s : State) (cl : ByteLoc) (x : Bool) : (parityToAI s cl x).run = s.run := by unfold parityToAI; split <;> rfl
@[simp] theorem parityToAI_ex (s : State) (cl : ByteLoc) (x : Bool) : (parityToAI s cl x).ex = s.ex := by unfold parityToAI; split <;> rfl
@[simp] theorem parityToAI_flt (s : State) (cl : ByteLoc) (x : Bool) : (parityToAI s cl x).flt = s.flt := by unfold parityToAI; split <;> rfl
@[simp] theorem parityToAI_bstm (s : State) (cl : ByteLoc) (x : Bool) : (parityToAI s cl x).bstm = s.bstm := by unfold parityToAI; split <;> rfl
@[simp] theorem parityToAI_pypc (s : State) (cl : ByteLoc) (x : Bool) : (parityToAI s cl x).pypc = s.pypc := by unfold parityToAI; split <;> rfl
@[simp] theorem parityToAI_pywc (s : State) (cl : ByteLoc) (x : Bool) : (parityToAI s cl x).pywc = s.pywc := by unfold parityToAI; split <;> rfl
@[simp] theorem parityToAI_scm (s : State) (cl : ByteLoc) (x : Bool) : (parityToAI s cl x).scm = s.scm := by unfold parityToAI; split <;> rfl
@[simp] theorem parityToAI_seq (s : State) (cl : ByteLoc) (x : Bool) : (parityToAI s cl x).seq = s.seq := by unfold parityToAI; split <;> rfl
@[simp] theorem parityToAI_pending (s : State) (cl : ByteLoc) (x : Bool) : (parityToAI s cl x).pending = s.pending := by unfold parityToAI; split <;> rfl
@[simp] theorem parityToAI_adapterWrite (s : State) (cl : ByteLoc) (x : Bool) : (parityToAI s cl x).adapterWrite = s.adapterWrite := by unfold parityToAI; split <;> rfl
@[simp] theorem parityToAI_scanCounter (s : State) (cl : ByteLoc) (x : Bool) : (parityToAI s cl x).scanCounter = s.scanCounter := by unfold parityToAI; split <;> rfl
@[simp] theorem parityToAI_canTimer (s : State) (cl : ByteLoc) (x : Bool) : (parityToAI s cl x).canTimer = s.canTimer := by unfold parityToAI; split <;> rfl
@[simp] theorem parityToAI_sanTimer (s : State) (cl : ByteLoc) (x : Bool) : (parityToAI s cl x).sanTimer = s.sanTimer := by unfold parityToAI; split <;> rfl
@[simp] theorem parityToAI_stored (s : State) (cl : ByteLoc) (x : Bool) : (parityToAI s cl x).stored = s.stored := by unfold parityToAI; split <;> rfl
@[simp] theorem parityToAI_haltFault (s : State) (cl : ByteLoc) (x : Bool) : (parityToAI s cl x).haltFault = s.haltFault := by unfold parityToAI; split <;> rfl
@[simp] theorem parityToAI_clusterWait (s : State) (cl : ByteLoc) (x : Bool) : (parityToAI s cl x).clusterWait = s.clusterWait := by unfold parityToAI; split <;> rfl
@[simp] theorem parityToAI_lm (s : State) (cl : ByteLoc) (x : Bool) : (parityToAI s cl x).lm = s.lm := by unfold parityToAI; split <;> rfl
@[simp] theorem parityToAI_mm (s : State) (cl : ByteLoc) (x : Bool) : (parityToAI s cl x).mm = s.mm := by unfold parityToAI; split <;> rfl
@[simp] theorem parityToAI_clusters (s : State) (cl : ByteLoc) (x : Bool) : (parityToAI s cl x).clusters = s.clusters := by unfold parityToAI; split <;> rfl
@[simp] theorem parityToAI_env (s : State) (cl : ByteLoc) (x : Bool) : (parityToAI s cl x).env = s.env := by unfold parityToAI; split <;> rfl
@[simp] theorem parityToAI_free (s : State) (cl : ByteLoc) (x : Bool) : (parityToAI s cl x).free = s.free := by unfold parityToAI; split <;> rfl

/-! ### storeByteResult -/

@[simp] theorem storeByteResult_cfg (s : State) (l : ByteLoc) (r : ByteResult) : (storeByteResult s l r).cfg = s.cfg := by simp [storeByteResult]
@[simp] theorem storeByteResult_ba (s : State) (l : ByteLoc) (r : ByteResult) : (storeByteResult s l r).ba = s.ba := by simp [storeByteResult]
@[simp] theorem storeByteResult_cm (s : State) (l : ByteLoc) (r : ByteResult) : (storeByteResult s l r).cm = s.cm := by simp [storeByteResult]
@[simp] theorem storeByteResult_flt (s : State) (l : ByteLoc) (r : ByteResult) : (storeByteResult s l r).flt = s.flt := by simp [storeByteResult]
@[simp] theorem storeByteResult_bstm (s : State) (l : ByteLoc) (r : ByteResult) : (storeByteResult s l r).bstm = s.bstm := by simp [storeByteResult]
@[simp] theorem storeByteResult_pypc (s : State) (l : ByteLoc) (r : ByteResult) : (storeByteResult s l r).pypc = s.pypc := by simp [storeByteResult]
@[simp] theorem storeByteResult_pywc (s : State) (l : ByteLoc) (r : ByteResult) : (storeByteResult s l r).pywc = s.pywc := by simp [storeByteResult]
@[simp] theorem storeByteResult_scm (s : State) (l : ByteLoc) (r : ByteResult) : (storeByteResult s l r).scm = s.scm := by simp [storeByteResult]
@[simp] theorem storeByteResult_seq (s : State) (l : ByteLoc) (r : ByteResult) : (storeByteResult s l r).seq = s.seq := by simp [storeByteResult]
@[simp] theorem storeByteResult_pending (s : State) (l : ByteLoc) (r : ByteResult) : (storeByteResult s l r).pending = s.pending := by simp [storeByteResult]
@[simp] theorem storeByteResult_adapterWrite (s : State) (l : ByteLoc) (r : ByteResult) : (storeByteResult s l r).adapterWrite = s.adapterWrite := by simp [storeByteResult]
@[simp] theorem storeByteResult_scanCounter (s : State) (l : ByteLoc) (r : ByteResult) : (storeByteResult s l r).scanCounter = s.scanCounter := by simp [storeByteResult]
@[simp] theorem storeByteResult_canTimer (s : State) (l : ByteLoc) (r : ByteResult) : (storeByteResult s l r).canTimer = s.canTimer := by simp [storeByteResult]
@[simp] theorem storeByteResult_sanTimer (s : State) (l : ByteLoc) (r : ByteResult) : (storeByteResult s l r).sanTimer = s.sanTimer := by simp [storeByteResult]
@[simp] theorem storeByteResult_stored (s : State) (l : ByteLoc) (r : ByteResult) : (storeByteResult s l r).stored = s.stored := by simp [storeByteResult]
@[simp] theorem storeByteResult_haltFault (s : State) (l : ByteLoc) (r : ByteResult) : (storeByteResult s l r).haltFault = s.haltFault := by simp [storeByteResult]
@[simp] theorem storeByteResult_lm (s : State) (l : ByteLoc) (r : ByteResult) : (storeByteResult s l r).lm = s.lm := by simp [storeByteResult]
@[simp] theorem storeByteResult_mm (s : State) (l : ByteLoc) (r : ByteResult) : (storeByteResult s l r).mm = s.mm := by simp [storeByteResult]
@[simp] theorem storeByteResult_clusters (s : State) (l : ByteLoc) (r : ByteResult) : (storeByteResult s l r).clusters = s.clusters := by simp [storeByteResult]
@[simp] theorem storeByteResult_env (s : State) (l : ByteLoc) (r : ByteResult) : (storeByteResult s l r).env = s.env := by simp [storeByteResult]
@[simp] theorem storeByteResult_free (s : State) (l : ByteLoc) (r : ByteResult) : (storeByteResult s l r).free = s.free := by simp [storeByteResult]

/-! ### storeHalfResult -/

@[simp] theorem storeHalfResult_cfg (s : State) (l : HalfLoc) (r : HalfResult) : (storeHalfResult s l r).cfg = s.cfg := by simp [storeHalfResult]
@[simp] theorem storeHalfResult_ba (s : State) (l : HalfLoc) (r : HalfResult) : (storeHalfResult s l r).ba = s.ba := by simp [storeHalfResult]
@[simp] theorem storeHalfResult_cm (s : State) (l : HalfLoc) (r : HalfResult) : (storeHalfResult s l r).cm = s.cm := by simp [storeHalfResult]
@[simp] theorem storeHalfResult_flt (s : State) (l : HalfLoc) (r : HalfResult) : (storeHalfResult s l r).flt = s.flt := by simp [storeHalfResult]
@[simp] theorem storeHalfResult_bstm (s : State) (l : HalfLoc) (r : HalfResult) : (storeHalfResult s l r).bstm = s.bstm := by simp [storeHalfResult]
@[simp] theorem storeHalfResult_pypc (s : State) (l : HalfLoc) (r : HalfResult) : (storeHalfResult s l r).pypc = s.pypc := by simp [storeHalfResult]
@[simp] theorem storeHalfResult_pywc (s : State) (l : HalfLoc) (r : HalfResult) : (storeHalfResult s l r).pywc = s.pywc := by simp [storeHalfResult]
@[simp] theorem storeHalfResult_scm (s : State) (l : HalfLoc) (r : HalfResult) : (storeHalfResult s l r).scm = s.scm := by simp [storeHalfResult]
@[simp] theorem storeHalfResult_seq (s : State) (l : HalfLoc) (r : HalfResult) : (storeHalfResult s l r).seq = s.seq := by simp [storeHalfResult]
@[simp] theorem storeHalfResult_pending (s : State) (l : HalfLoc) (r : HalfResult) : (storeHalfResult s l r).pending = s.pending := by simp [storeHalfResult]
@[simp] theorem storeHalfResult_adapterWrite (s : State) (l : HalfLoc) (r : HalfResult) : (storeHalfResult s l r).adapterWrite = s.adapterWrite := by simp [storeHalfResult]
@[simp] theorem storeHalfResult_scanCounter (s : State) (l : HalfLoc) (r : HalfResult) : (storeHalfResult s l r).scanCounter = s.scanCounter := by simp [storeHalfResult]
@[simp] theorem storeHalfResult_canTimer (s : State) (l : HalfLoc) (r : HalfResult) : (storeHalfResult s l r).canTimer = s.canTimer := by simp [storeHalfResult]
@[simp] theorem storeHalfResult_sanTimer (s : State) (l : HalfLoc) (r : HalfResult) : (storeHalfResult s l r).sanTimer = s.sanTimer := by simp [storeHalfResult]
@[simp] theorem storeHalfResult_stored (s : State) (l : HalfLoc) (r : HalfResult) : (storeHalfResult s l r).stored = s.stored := by simp [storeHalfResult]
@[simp] theorem storeHalfResult_haltFault (s : State) (l : HalfLoc) (r : HalfResult) : (storeHalfResult s l r).haltFault = s.haltFault := by simp [storeHalfResult]
@[simp] theorem storeHalfResult_lm (s : State) (l : HalfLoc) (r : HalfResult) : (storeHalfResult s l r).lm = s.lm := by simp [storeHalfResult]
@[simp] theorem storeHalfResult_mm (s : State) (l : HalfLoc) (r : HalfResult) : (storeHalfResult s l r).mm = s.mm := by simp [storeHalfResult]
@[simp] theorem storeHalfResult_clusters (s : State) (l : HalfLoc) (r : HalfResult) : (storeHalfResult s l r).clusters = s.clusters := by simp [storeHalfResult]
@[simp] theorem storeHalfResult_env (s : State) (l : HalfLoc) (r : HalfResult) : (storeHalfResult s l r).env = s.env := by simp [storeHalfResult]
@[simp] theorem storeHalfResult_free (s : State) (l : HalfLoc) (r : HalfResult) : (storeHalfResult s l r).free = s.free := by simp [storeHalfResult]

end Sys2Proof.Machine
end

