-- ==== Sys2Proof/Laws/Operands.lean ====
section
/-! SUPPORT. What the operand operations do, said once by places: a stored byte or half-word changes exactly the places its
location names. -/

namespace Sys2Proof.Machine

/-! ### Locations that addresses name -/

/-- A byte location with a byte number of a word, 0 to 5. -/
def ByteLoc.valid : ByteLoc → Prop
  | .smByte _ n | .wByte n => n.toNat < 6
  | .none | .regs _ _ | .smTag _ | .wTag => True

theorem sub_one_lt_six (m : BitVec 3) (h0 : m ≠ 0) (h7 : m ≠ 7) : (m - 1).toNat < 6 := by
  revert m; decide

/-- Every address that names a byte names a valid one (R136). -/
theorem byteLoc_valid {a : Byte} {l : ByteLoc} (h : byteLoc a = .ok l) : l.valid := by
  unfold byteLoc at h
  split at h
  · cases h; trivial
  · cases h
  · split at h
    · cases h; trivial
    · split at h
      · cases h; trivial
      · rename_i h0 h7
        cases h
        exact sub_one_lt_six _ h0 h7
  · split at h
    · split at h
      · cases h; trivial
      · split at h
        · cases h; trivial
        · rename_i h0 h7
          cases h
          exact sub_one_lt_six _ h0 h7
    · cases h

theorem dstA_valid {l : ByteLoc} (h : l.valid) (a : BitVec 3) : (dstA a l).valid := by
  unfold dstA
  split <;> first | exact h | trivial

/-! ### Places of a word -/

/-- Byte n of a word as the operations take it is the byte of its bit numbers (R85). -/
theorem wordByte_eq_extract (w : Word) (n : BitVec 3) (h : n.toNat < 6) : wordByte w n = w.extractLsb' (40 - 8 * n.toNat) 8 := by
  have e : n = 0 ∨ n = 1 ∨ n = 2 ∨ n = 3 ∨ n = 4 ∨ n = 5 := by
    revert n; decide
  rcases e with rfl | rfl | rfl | rfl | rfl | rfl
  · exact (extract_byte_left w 0 (by decide)).symm
  · exact (extract_byte_left w 1 (by decide)).symm
  · exact (extract_byte_left w 2 (by decide)).symm
  · exact (extract_byte_right w 3 (by decide) (by decide)).symm
  · exact (extract_byte_right w 4 (by decide) (by decide)).symm
  · exact (extract_byte_right w 5 (by decide) (by decide)).symm

/-- A byte of a word is a row of its half. -/
theorem extract_byte (w : Word) (n : Fin 6) : w.extractLsb' (40 - 8 * n.val) 8 =
    halfRow (if n.val < 3 then wordLeft w else wordRight w) (2 - n.val % 3) := by
  obtain ⟨n, hn⟩ := n
  have e : n = 0 ∨ n = 1 ∨ n = 2 ∨ n = 3 ∨ n = 4 ∨ n = 5 := by omega
  rcases e with rfl | rfl | rfl | rfl | rfl | rfl
  · exact extract_byte_left w 0 (by decide)
  · exact extract_byte_left w 1 (by decide)
  · exact extract_byte_left w 2 (by decide)
  · simpa using extract_byte_right w 3 (by decide) (by decide)
  · simpa using extract_byte_right w 4 (by decide) (by decide)
  · simpa using extract_byte_right w 5 (by decide) (by decide)

theorem extract_40 (w : Word) : w.extractLsb' 40 8 = row2 (wordLeft w) := extract_byte_left w 0 (by decide)
theorem extract_32 (w : Word) : w.extractLsb' 32 8 = row1 (wordLeft w) := extract_byte_left w 1 (by decide)
theorem extract_24 (w : Word) : w.extractLsb' 24 8 = row0 (wordLeft w) := extract_byte_left w 2 (by decide)
theorem extract_16 (w : Word) : w.extractLsb' 16 8 = row2 (wordRight w) :=
  extract_byte_right w 3 (by decide) (by decide)
theorem extract_8 (w : Word) : w.extractLsb' 8 8 = row1 (wordRight w) := extract_byte_right w 4 (by decide) (by decide)
theorem extract_0 (w : Word) : w.extractLsb' 0 8 = row0 (wordRight w) := extract_byte_right w 5 (by decide) (by decide)

@[simp] theorem tag_putByte (w : Word) (n : BitVec 3) (v : Byte) : wordTag (putByte w n v) = wordTag w := by
  unfold putByte; split <;> simp

/-- The bytes of a word with one byte replaced. -/
theorem extract_putByte (w : Word) (n : BitVec 3) (h : n.toNat < 6) (v : Byte) (m : Fin 6) :
    (putByte w n v).extractLsb' (40 - 8 * m.val) 8 = if n.toNat = m.val then v else w.extractLsb' (40 - 8 * m.val) 8 := by
  have e : n = 0 ∨ n = 1 ∨ n = 2 ∨ n = 3 ∨ n = 4 ∨ n = 5 := by revert n; decide
  have f : m = 0 ∨ m = 1 ∨ m = 2 ∨ m = 3 ∨ m = 4 ∨ m = 5 := by revert m; decide
  rw [extract_byte, extract_byte]
  rcases e with rfl | rfl | rfl | rfl | rfl | rfl <;> rcases f with rfl | rfl | rfl | rfl | rfl | rfl <;>
    simp [putByte, byteInRight, byteRow, putRow, halfRow_zero, halfRow_one, halfRow_two]

/-! ### Places of a state -/

/-- A scratchpad word after one was replaced. -/
@[simp] theorem smWord_setSM (s : State) (k j : BitVec 3) (v : Word) :
    smWord (setSM s k v) j = if k = j then v else smWord s j := by
  unfold smWord setSM
  simp only [Vector.getElem_set, BitVec.toNat_inj]

/-- The places after a scratchpad word is replaced. -/
theorem value_setSM (s : State) (k : BitVec 3) (v : Word) (p : Place) :
    p.value (setSM s k v) =
      match p with
      | .sm j n => if k = j then v.extractLsb' (40 - 8 * n.val) 8 else p.value s
      | .smTag j => if k = j then (v.extractLsb' 48 4).setWidth 8 else p.value s
      | _ => p.value s := by
  cases p <;> simp [Place.value] <;> split <;> rfl

theorem smWord_congr {s t : State} (h : t.sm = s.sm) (k : BitVec 3) : smWord t k = smWord s k := by
  unfold smWord; simp [h]

/-- Two states with equal registers, W and scratchpad hold the same in every place. -/
theorem value_congr {s t : State} (p : Place) (aa : t.aa = s.aa) (ac : t.ac = s.ac) (ai : t.ai = s.ai) (d : t.d = s.d)
    (y : t.y = s.y) (x : t.x = s.x) (ma2 : t.ma2 = s.ma2) (ma1 : t.ma1 = s.ma1) (ma0 : t.ma0 = s.ma0) (cf : t.cf = s.cf)
    (ia1 : t.ia1 = s.ia1) (ia0 : t.ia0 = s.ia0) (w : t.w = s.w) (sm : t.sm = s.sm) : p.value t = p.value s := by
  cases p <;> simp [Place.value, *, smWord_congr sm]

/-- A stored half-word changes exactly the places its location names. -/
theorem value_writeHalf (s : State) (l : HalfLoc) (h : Half) (p : Place) :
    p.value (writeHalf s l h) = halfStored l h p (p.value s) := by
  cases l with
  | regs c sel =>
    have e : c = 0 ∨ c = 1 ∨ c = 2 ∨ c = 3 ∨ c = 4 ∨ c = 5 ∨ c = 6 ∨ c = 7 := by revert c; decide
    simp only [writeHalf, setRows]
    cases p with
    | w n =>
      obtain ⟨n, hn⟩ := n
      have f : n = 0 ∨ n = 1 ∨ n = 2 ∨ n = 3 ∨ n = 4 ∨ n = 5 := by omega
      rcases e with rfl | rfl | rfl | rfl | rfl | rfl | rfl | rfl <;>
        rcases f with rfl | rfl | rfl | rfl | rfl | rfl <;>
        simp [setColumn, column, Place.value, halfStored, HalfLoc.covers, selects, Place.cell, Place.row,
          extract_40, extract_32, extract_24, extract_16, extract_8, extract_0, halfRow_zero, halfRow_one, halfRow_two]
    | _ =>
      rcases e with rfl | rfl | rfl | rfl | rfl | rfl | rfl | rfl <;>
        simp [setColumn, column, Place.value, halfStored, HalfLoc.covers, selects, Place.cell, Place.row, extract_tag,
          halfRow_zero, halfRow_one, halfRow_two, smWord]
  | smHalf k right =>
    simp only [writeHalf, value_setSM]
    cases p with
    | sm j n =>
      have f : n = 0 ∨ n = 1 ∨ n = 2 ∨ n = 3 ∨ n = 4 ∨ n = 5 := by revert n; decide
      by_cases hk : k = j
      · subst hk
        cases right <;> rcases f with rfl | rfl | rfl | rfl | rfl | rfl <;>
          simp [extract_40, extract_32, extract_24, extract_16, extract_8, extract_0, halfStored, HalfLoc.covers, Place.row,
            Place.value, halfRow_zero, halfRow_one, halfRow_two]
      · simp [hk, Ne.symm hk, halfStored, HalfLoc.covers, Place.value]
    | smTag j =>
      by_cases hk : k = j
      · subst hk
        cases right <;> simp [halfStored, HalfLoc.covers, Place.value, extract_tag]
      · simp [hk, halfStored, HalfLoc.covers, Place.value]
    | _ => simp [halfStored, HalfLoc.covers]

/-- A byte kept in a tag field is what the tag field takes from the byte path (D4). -/
theorem kept_tag (right : Bool) (v : Byte) :
    (byteToTag right v).setWidth 8 = if right then v &&& 0x0F else v >>> 4 := by
  apply BitVec.eq_of_getLsbD_eq
  intro i hi
  have e : i = 0 ∨ i = 1 ∨ i = 2 ∨ i = 3 ∨ i = 4 ∨ i = 5 ∨ i = 6 ∨ i = 7 := by omega
  cases right <;> rcases e with rfl | rfl | rfl | rfl | rfl | rfl | rfl | rfl <;> simp [byteToTag]

/-- A stored byte changes exactly the places its location names. -/
theorem value_writeByte (s : State) (l : ByteLoc) (hl : l.valid) (v : Byte) (p : Place) :
    p.value (writeByte s l v) = byteStored s l v p (p.value s) := by
  cases l with
  | none => simp [writeByte, byteStored, ByteLoc.covers]
  | regs c sel =>
    have e := value_writeHalf s (.regs c sel) (rows v v v) p
    simp only [writeHalf] at e
    simp only [writeByte, e, halfStored, byteStored, HalfLoc.covers, ByteLoc.covers]
    by_cases hc : selects c sel p = true
    · have hr : p.row = 0 ∨ p.row = 1 ∨ p.row = 2 := by
        cases p <;> simp [Place.row]
        all_goals omega
      have ht : p.isTag = false := by cases p <;> simp_all [Place.isTag, selects, Place.cell]
      rcases hr with hr | hr | hr <;> simp [hc, hr, ht, Place.kept, halfRow_zero, halfRow_one, halfRow_two]
    · simp [hc]
  | smByte k n =>
    simp only [writeByte, value_setSM]
    cases p with
    | sm j m =>
      by_cases hk : k = j
      · subst hk
        simp [extract_putByte _ _ hl, byteStored, ByteLoc.covers, Place.kept, Place.isTag, Place.value]
      · simp [hk, Ne.symm hk, byteStored, ByteLoc.covers]
    | smTag j =>
      by_cases hk : k = j
      · subst hk
        simp [extract_tag, byteStored, ByteLoc.covers, Place.value]
      · simp [hk, byteStored, ByteLoc.covers]
    | _ => simp [byteStored, ByteLoc.covers]
  | smTag k =>
    simp only [writeByte, value_setSM]
    cases p with
    | sm j m =>
      by_cases hk : k = j
      · subst hk
        simp [extract_byte, byteStored, ByteLoc.covers, Place.value]
      · simp [hk, byteStored, ByteLoc.covers]
    | smTag j =>
      by_cases hk : k = j
      · subst hk
        simp [extract_tag, kept_tag, byteStored, ByteLoc.covers, Place.kept, Place.isTag]
      · simp [hk, Ne.symm hk, byteStored, ByteLoc.covers]
    | _ => simp [byteStored, ByteLoc.covers]
  | wByte n =>
    cases p with
    | w m => simp [writeByte, Place.value, extract_putByte _ _ hl, byteStored, ByteLoc.covers, Place.kept, Place.isTag]
    | wTag => simp [writeByte, Place.value, extract_tag, byteStored, ByteLoc.covers]
    | _ => simp [writeByte, byteStored, ByteLoc.covers, Place.value, smWord]
  | wTag =>
    cases p with
    | w m => simp [writeByte, Place.value, extract_byte, byteStored, ByteLoc.covers]
    | wTag => simp [writeByte, Place.value, extract_tag, kept_tag, byteStored, ByteLoc.covers, Place.kept, Place.isTag]
    | _ => simp [writeByte, byteStored, ByteLoc.covers, Place.value, smWord]

end Sys2Proof.Machine
end

