-- ==== Sys2Proof/Laws/Ops.lean ====
section
/-! SUPPORT. What the end of an instruction does, said once: for every way an instruction ends, how the program goes on, what CF
becomes, and that nothing else changes. -/

namespace Sys2Proof.Machine

/-! ### Locations that name IA -/

theorem byte_namesIA (l : ByteLoc) : l.namesIA = l.ordersFetch := by
  cases l <;> simp [ByteLoc.namesIA, ByteLoc.covers, ByteLoc.ordersFetch, selects, Place.cell, Bool.and_or_distrib_left]

theorem half_namesIA (l : HalfLoc) : l.namesIA = l.ordersFetch := by
  cases l <;> simp [HalfLoc.namesIA, HalfLoc.covers, HalfLoc.ordersFetch, selects, Place.cell, Bool.and_or_distrib_left]

/-! ### Frames -/

theorem memoryKept_refl (s : State) : MemoryKept s s := ⟨fun _ => rfl, fun _ => rfl⟩

theorem memoryKept_of {s t : State} (hl : t.lm = s.lm) (hm : t.mm = s.mm) : MemoryKept s t :=
  ⟨fun _ => by rw [hl], fun _ => by rw [hm]⟩

theorem restKept_refl (s : State) : RestKept s s :=
  ⟨rfl, rfl, rfl, rfl, rfl, rfl, rfl, rfl, rfl, rfl, rfl, rfl, rfl, rfl, rfl, rfl, rfl, rfl, memoryKept_of rfl rfl⟩

theorem memoryKept_trans {s t u : State} (h : MemoryKept s t) (g : MemoryKept t u) : MemoryKept s u :=
  ⟨fun a => (g.lm a).trans (h.lm a), fun a => (g.mm a).trans (h.mm a)⟩

theorem restKept_trans {s t u : State} (h : RestKept s t) (g : RestKept t u) : RestKept s u :=
  ⟨g.cfg.trans h.cfg, g.cm.trans h.cm, g.ba.trans h.ba, g.flt.trans h.flt, g.bstm.trans h.bstm, g.seq.trans h.seq,
    g.pypc.trans h.pypc, g.pywc.trans h.pywc, g.scm.trans h.scm, g.pending.trans h.pending,
    g.adapterWrite.trans h.adapterWrite, g.scanCounter.trans h.scanCounter, g.canTimer.trans h.canTimer,
    g.sanTimer.trans h.sanTimer, g.stored.trans h.stored, g.haltFault.trans h.haltFault, g.clusters.trans h.clusters,
    g.env.trans h.env, memoryKept_trans h.memory g.memory⟩

theorem restKept_release (u : State) : RestKept u (release u) :=
  ⟨rfl, rfl, rfl, rfl, rfl, rfl, rfl, rfl, rfl, rfl, rfl, rfl, rfl, rfl, rfl, rfl, rfl, rfl, memoryKept_of rfl rfl⟩

theorem restKept_releaseFetch (u : State) : RestKept u (releaseFetch u) :=
  ⟨rfl, rfl, rfl, rfl, rfl, rfl, rfl, rfl, rfl, rfl, rfl, rfl, rfl, rfl, rfl, rfl, rfl, rfl, memoryKept_of rfl rfl⟩

theorem restKept_finish (fetch : Bool) (u : State) : RestKept u (finish fetch u) := by
  cases fetch
  · exact restKept_release u
  · exact restKept_releaseFetch u

theorem restKept_noteIndirect (s : State) (b : Byte) : RestKept s (noteIndirect s b) :=
  ⟨rfl, rfl, rfl, rfl, rfl, rfl, rfl, rfl, rfl, rfl, rfl, rfl, rfl, rfl, rfl, rfl, rfl, rfl, memoryKept_of rfl rfl⟩

theorem restKept_setFlags (s : State) (c z : Bool) : RestKept s (setFlags s c z) :=
  ⟨rfl, rfl, rfl, rfl, rfl, rfl, rfl, rfl, rfl, rfl, rfl, rfl, rfl, rfl, rfl, rfl, rfl, rfl, memoryKept_of rfl rfl⟩

theorem restKept_setHalfFlags (s : State) (c z : Bool) : RestKept s (setHalfFlags s c z) :=
  ⟨rfl, rfl, rfl, rfl, rfl, rfl, rfl, rfl, rfl, rfl, rfl, rfl, rfl, rfl, rfl, rfl, rfl, rfl, memoryKept_of rfl rfl⟩

theorem restKept_setMA (s : State) (h : Half) : RestKept s (setMA s h) :=
  ⟨rfl, rfl, rfl, rfl, rfl, rfl, rfl, rfl, rfl, rfl, rfl, rfl, rfl, rfl, rfl, rfl, rfl, rfl, memoryKept_of rfl rfl⟩

theorem restKept_writeByte (s : State) (l : ByteLoc) (v : Byte) : RestKept s (writeByte s l v) := by
  constructor <;> simp [memoryKept_of]

theorem restKept_writeHalf (s : State) (l : HalfLoc) (h : Half) : RestKept s (writeHalf s l h) := by
  constructor <;> simp [memoryKept_of]

theorem restKept_storeBesideMA (s : State) (l : HalfLoc) (h : Half) : RestKept s (storeBesideMA s l h) := by
  constructor <;> simp [memoryKept_of]

/-- The half-word move touches registers and the scratchpad only. -/
theorem restKept_moveHalves (s : State) (b : Byte) (src dst : HalfLoc) : RestKept s (moveHalves s b src dst) :=
  restKept_trans (restKept_noteIndirect s b) (restKept_trans (restKept_setMA _ _) (restKept_storeBesideMA _ _ _))

/-! ### How the program goes on -/

theorem value_finish (fetch : Bool) (u : State) (p : Place) (hp : p.isControl = false) :
    p.value (finish fetch u) = p.value u := by
  cases p <;> first | exact absurd hp (by decide) | (cases fetch <;> rfl)

theorem cfIs_finish (fetch : Bool) (u : State) : CfIs (finish fetch u) u.cf := by
  intro k hk
  cases fetch <;> simp only [finish, if_true, Bool.false_eq_true, if_false, release_cf, releaseFetch_cf, pick] <;> split <;>
    simp [getLsbD_setBit, hk]

theorem transfers_eq_follows (s : State) : transfers s = follows s false := by
  have h : i00 s = (ia s).getLsbD 0 := by
    unfold i00 ia
    rw [BitVec.getLsbD_append]
    rfl
  have g : (!holdPL s) = decide (s.env.panel.hold ≠ .holdPL) := by
    simp [holdPL]
  unfold transfers follows
  rw [h, g]
  cases (ia s).getLsbD 0 <;> cases s.bstm <;> cases decide (s.env.panel.hold ≠ .holdPL) <;> rfl

/-- Everything `finish` does to the order of the program (R177 to R180, R462, R464). -/
theorem goesOn_finish {s u : State} (fetch : Bool) (hr : wordRight u.p = wordRight s.p) (ht : wordTag u.p = wordTag s.p)
    (he : u.env.panel = s.env.panel) (hb : u.bstm = s.bstm) (hrun : u.run = s.run) (hi : fetch = false → ia u = ia s) :
    GoesOn s (finish fetch u) fetch (ia u) := by
  have hh : holdPL u = decide (s.env.panel.hold = .holdPL) := by unfold holdPL; rw [he]
  have hs : (!stopImmediate u) = decide (s.env.panel.stop ≠ .immediate) := by simp [stopImmediate, he]
  have hf : stopOnFetch u = decide (s.env.panel.stop = .onFetch) := by unfold stopOnFetch; rw [he]
  cases fetch with
  | true =>
    have hfol : follows s true = false := by simp [follows]
    exact {
      ia := by rw [hfol]; rfl
      ex := by rw [hfol]; simp [finish, hh]
      i20 := fun hn => by simp [finish, hh, hn, pick, getElem_setBit, hfol]
      left := fun h => by rw [hfol] at h; cases h
      right := by simpa [finish] using hr
      tag := by simpa [finish] using ht
      run := by rw [hfol]; simp [finish, hs, hrun] }
  | false =>
    have hi' := hi rfl
    have hfol : transfers u = follows s false := by
      rw [transfers_eq_follows]; unfold follows; rw [hi', hb, he]
    have hia : ia (finish false u) = if follows s false then ia u + 1 else ia u := by
      simp only [finish, Bool.false_eq_true, if_false, ia, release_ia1, release_ia0, hfol, pick]
      split
      · exact ia_of_bytes _
      · rfl
    exact {
      ia := hia
      ex := by simp [finish, hh, hfol]
      i20 := fun hn => by simp [finish, hh, hn, pick, getElem_setBit, hfol]
      left := fun h => by simp [finish, hfol, h, pick, hr]
      right := by
        simp only [finish, Bool.false_eq_true, if_false, release_p, pick]
        split <;> simpa using hr
      tag := by
        simp only [finish, Bool.false_eq_true, if_false, release_p, pick]
        split <;> simpa using ht
      run := by simp [finish, hs, hf, hrun, hfol] }

/-- Everything a taken branch does (R178, R498). -/
theorem branched_branchTo {s u : State} (but : Place → Bool) (target : InstrAddr) (hp : u.p = s.p)
    (he : u.env.panel = s.env.panel) (hrun : u.run = s.run)
    (places : ∀ p : Place, p.isControl = false → but p = false → p.value u = p.value s) :
    Branched s (branchTo u target) but u.cf target := by
  have hh : holdPL u = decide (s.env.panel.hold = .holdPL) := by unfold holdPL; rw [he]
  have hs : (!stopImmediate u) = decide (s.env.panel.stop ≠ .immediate) := by simp [stopImmediate, he]
  exact {
    places := fun p h1 h2 => by
      rw [← places p h1 h2]
      cases p <;> first | exact absurd h1 (by decide) | rfl
    cf := fun k hk => by
      simp only [branchTo_cf, pick]
      split <;> simp [getLsbD_setBit, getLsbD_withFlags, getLsbD_flagged, hk]
    ia := by simp [ia]
    ex := by simp [hh]
    i20 := fun hn => by simp [hh, hn, pick, getElem_setBit]
    bstm := rfl
    seq := rfl
    p := by simpa using hp
    run := by simp [hs, hrun] }

/-- A branch changes nothing else. -/
theorem restKept_branchTo (u : State) (target : InstrAddr) :
    RestKept u { branchTo u target with bstm := u.bstm, seq := u.seq } :=
  ⟨rfl, rfl, rfl, rfl, rfl, rfl, rfl, rfl, rfl, rfl, rfl, rfl, rfl, rfl, rfl, rfl, rfl, rfl, memoryKept_of rfl rfl⟩

/-- An instruction that ends in sequence after changing only the places of `but`. -/
theorem passedOver_release {s u : State} (but : Place → Bool) (hr : wordRight u.p = wordRight s.p)
    (ht : wordTag u.p = wordTag s.p) (he : u.env.panel = s.env.panel) (hb : u.bstm = s.bstm) (hrun : u.run = s.run)
    (hi : ia u = ia s) (places : ∀ p : Place, p.isControl = false → but p = false → p.value u = p.value s) :
    PassedOver s (release u) but u.cf where
  places := fun p h1 h2 => (value_finish false u p h1).trans (places p h1 h2)
  cf := cfIs_finish false u
  next := by
    have g := goesOn_finish (s := s) (u := u) false hr ht he hb hrun fun _ => hi
    rw [hi] at g
    exact g

/-- The copy of Y into P-L as the statements say it. -/
theorem noteIndirect_eq_yCopied (s : State) (b : Byte) : noteIndirect s b = yCopied s b := by
  have e (p : Word) (y : Byte) : putLeft p (rows (row2 (wordLeft p)) y (row0 (wordLeft p))) =
      p.extractLsb' 40 12 ++ y ++ p.extractLsb' 0 32 := by
    apply BitVec.eq_of_getLsbD_eq
    intro k hk
    simp only [putLeft, makeWord, rows, row2, row0, wordLeft, wordRight, wordTag, BitVec.getLsbD_append, BitVec.getLsbD_extractLsb']
    repeat' split
    all_goals first | omega | rfl | (simp (disch := omega) only [decide_eq_true, Bool.true_and]; try (congr 1; omega))
  unfold noteIndirect yCopied isIndirect addrForm pLeft
  simp only [decide_eq_true_eq, e]
  split <;> rfl

@[simp] theorem right_noteIndirect (s : State) (b : Byte) : wordRight (noteIndirect s b).p = wordRight s.p := by
  simp only [noteIndirect_p]; split <;> simp

@[simp] theorem tag_noteIndirect (s : State) (b : Byte) : wordTag (noteIndirect s b).p = wordTag s.p := by
  simp only [noteIndirect_p]; split <;> simp

@[simp] theorem value_noteIndirect (s : State) (b : Byte) (p : Place) : p.value (noteIndirect s b) = p.value s :=
  value_congr p rfl rfl rfl rfl rfl rfl rfl rfl rfl rfl rfl rfl rfl rfl

@[simp] theorem ia_noteIndirect (s : State) (b : Byte) : ia (noteIndirect s b) = ia s := rfl

/-- The places after flags are set: CF alone changes. -/
theorem value_withCf (s : State) (v : Byte) (p : Place) :
    p.value { s with cf := v } = if p = .cf then v else p.value s := by
  cases p <;> simp [Place.value, smWord]

/-- CF written through its operations equals CF as statements write it. -/
theorem withFlags_eq_flagged (cf : Byte) (c z : Bool) : withFlags cf c z = flagged cf c z := by
  apply BitVec.eq_of_getLsbD_eq
  intro i _
  rw [getLsbD_withFlags, getLsbD_flagged]

theorem halfFlags_eq (cf : Byte) (c z : Bool) : setBit (withFlags cf c z) 2 false = halfFlagged cf c z := by
  apply BitVec.eq_of_getLsbD_eq
  intro i _
  rw [getLsbD_setBit, getLsbD_withFlags, getLsbD_halfFlagged]
  by_cases h0 : i = 0
  · subst h0; simp
  · by_cases h1 : i = 1
    · subst h1; simp
    · by_cases h2 : i = 2 <;> simp [h0, h1, h2]

theorem setBit5_eq (cf : Byte) (v : Bool) : setBit cf 5 v = withI21 cf v := by
  apply BitVec.eq_of_getLsbD_eq
  intro i _
  rw [getLsbD_setBit, getLsbD_withI21]
  by_cases h : i = 5 <;> simp [h]

theorem setBit7_eq (cf : Byte) (v : Bool) : setBit cf 7 v = withI23 cf v := by
  apply BitVec.eq_of_getLsbD_eq
  intro i _
  rw [getLsbD_setBit, getLsbD_withI23]
  by_cases h : i = 7 <;> simp [h]

/-- IA by its two places. -/
theorem ia_eq_places (s : State) : ia s = Place.value s .ia1 ++ Place.value s .ia0 := rfl

/-- One byte stored over a CF already set, and the instruction ended. -/
theorem storedByte_finish {s u : State} {l : ByteLoc} (hl : l.valid) (v : Byte) (hu : RestKept s u)
    (hr : wordRight u.p = wordRight s.p) (ht : wordTag u.p = wordTag s.p) (hrun : u.run = s.run)
    (places : ∀ p : Place, p ≠ .cf → p.value u = p.value s) :
    StoredByte s (finish l.ordersFetch (writeByte u l v)) l v u.cf := by
  have k : ∀ p : Place, p.kept u v = p.kept s v := fun p => by unfold Place.kept; rw [hu.cfg]
  have st : ∀ (p : Place) (o : Byte), byteStored u l v p o = byteStored s l v p o := fun p o => by
    unfold byteStored; rw [k]
  have pl : ∀ p : Place, p ≠ .cf → p.value (writeByte u l v) = byteStored s l v p (p.value s) := fun p hp => by
    rw [value_writeByte _ _ hl, st, places p hp]
  have hi : ia (writeByte u l v) = byteStored s l v .ia1 s.ia1 ++ byteStored s l v .ia0 s.ia0 := by
    rw [ia_eq_places, pl _ (by simp), pl _ (by simp)]; rfl
  have hp : (writeByte u l v).p = u.p := by simp
  exact {
    places := fun p hp => by
      rw [value_finish _ _ _ hp, pl p (by rintro rfl; cases hp)]
    cf := by
      have e : (writeByte u l v).cf = byteStored s l v .cf u.cf := by
        have := value_writeByte u l hl v .cf
        rw [st] at this
        exact this
      rw [← e]
      exact cfIs_finish _ _
    next := by
      rw [byte_namesIA, ← hi]
      refine goesOn_finish _ (by rw [hp]; exact hr) (by rw [hp]; exact ht) ?_ ?_ ?_ ?_
      · simp [hu.env]
      · simp [hu.bstm]
      · simp [hrun]
      · intro h
        have hn : l.namesIA = false := by rw [byte_namesIA]; exact h
        simp only [ByteLoc.namesIA, Bool.or_eq_false_iff] at hn
        rw [hi]
        simp [byteStored, hn.1, hn.2, ia]
    rest := restKept_trans hu (restKept_trans (restKept_writeByte u l v) (restKept_finish _ _)) }

/-- One half-word stored over a CF already set, and the instruction ended. -/
theorem storedHalf_finish {s u : State} {l : HalfLoc} (h : Half) (hu : RestKept s u)
    (hr : wordRight u.p = wordRight s.p) (ht : wordTag u.p = wordTag s.p) (hrun : u.run = s.run)
    (places : ∀ p : Place, p ≠ .cf → p.value u = p.value s) :
    StoredHalf s (finish l.ordersFetch (writeHalf u l h)) l h u.cf := by
  have pl : ∀ p : Place, p ≠ .cf → p.value (writeHalf u l h) = halfStored l h p (p.value s) := fun p hp => by
    rw [value_writeHalf, places p hp]
  have hi : ia (writeHalf u l h) = halfStored l h .ia1 s.ia1 ++ halfStored l h .ia0 s.ia0 := by
    rw [ia_eq_places, pl _ (by simp), pl _ (by simp)]; rfl
  have hp : (writeHalf u l h).p = u.p := by simp
  exact {
    places := fun p hp => by
      rw [value_finish _ _ _ hp, pl p (by rintro rfl; cases hp)]
    cf := by
      have e : (writeHalf u l h).cf = halfStored l h .cf u.cf := value_writeHalf u l h .cf
      rw [← e]
      exact cfIs_finish _ _
    next := by
      rw [half_namesIA, ← hi]
      refine goesOn_finish _ (by rw [hp]; exact hr) (by rw [hp]; exact ht) ?_ ?_ ?_ ?_
      · simp [hu.env]
      · simp [hu.bstm]
      · simp [hrun]
      · intro hf
        have hn : l.namesIA = false := by rw [half_namesIA]; exact hf
        simp only [HalfLoc.namesIA, Bool.or_eq_false_iff] at hn
        rw [hi]
        simp [halfStored, hn.1, hn.2, ia]
    rest := restKept_trans hu (restKept_trans (restKept_writeHalf u l h) (restKept_finish _ _)) }

/-! ### Faults -/

/-- CF with I20 as it is noted at a fault condition. -/
theorem cfNoted_eq (s : State) : cfNoted s = cfAtFault s := by
  unfold cfNoted cfAtFault pick
  split
  · rfl
  · generalize s.cf = cf
    revert cf
    decide +kernel

/-- CF after the fault entry: I19 set, CF0, CF1 and I20 cleared. -/
theorem cf_afterFault (cf : Byte) :
    setBit (setBit (withFlags cf false false) 3 true) 4 false =
      cf.extractLsb' 5 3 ++ 0#1 ++ 1#1 ++ cf.extractLsb' 2 1 ++ 0#2 := by
  revert cf
  decide +kernel

/-- Everything executing the fault instruction does to the registers a fault saves and loads (R355). -/
theorem faultTaken_executeFault (s : State) :
    FaultTaken s (executeFault s) (faultSaveWord s) s.cf (pBranchAddress s) where
  saved := by simp [smWord, ma, rows, wordRight_putRight]
  ma2 := rfl
  ma1 := rfl
  ma0 := rfl
  ia := by simp [ia, ia_of_bytes]
  cf := by rw [executeFault_cf]; exact cf_afterFault _
  ex := rfl
  flt := rfl
  bstm := rfl
  seq := rfl

end Sys2Proof.Machine
end

