-- ==== Sys2Proof/Laws/Bytes.lean ====
section
/-! SUPPORT. The byte and half-word operations of groups 3 and 4 as the statements write them, and what storing a result does. -/

namespace Sys2Proof.Machine

/-- The sum is the operation of the statements (R292). -/
theorem byteAdd_op (a b : Byte) (c : Bool) :
    byteAdd a b c = ⟨ByteOp.add.value a b c, ByteOp.add.carry a b c, ByteOp.add.zero a b c⟩ := by
  unfold byteAdd ByteOp.value ByteOp.carry ByteOp.zero ByteOp.value ByteOp.exact
  simp only [ByteResult.mk.injEq]
  refine ⟨?_, ?_, ?_⟩
  · apply BitVec.eq_of_toNat_eq
    simp [BitVec.toNat_ofInt]
    omega
  · exact decide_eq_decide.2 (by omega)
  · have : (BitVec.ofNat 8 (a.toNat + b.toNat + c.toNat)) =
        BitVec.ofInt 8 (↑a.toNat + ↑b.toNat + ↑c.toNat) := by
      apply BitVec.eq_of_toNat_eq
      simp [BitVec.toNat_ofInt]
      omega
    rw [this]; rfl

/-- The difference is the operation of the statements (R296). -/
theorem byteSub_op (a b : Byte) (c : Bool) :
    byteSub a b c = ⟨ByteOp.sub.value a b c, ByteOp.sub.carry a b c, ByteOp.sub.zero a b c⟩ := by
  have e : a - b - (BitVec.ofBool c).setWidth 8 = BitVec.ofInt 8 (↑a.toNat - (↑b.toNat + ↑c.toNat)) := by
      apply BitVec.eq_of_toNat_eq
      cases c <;> simp [BitVec.toNat_ofInt, BitVec.toNat_sub] <;> omega
  unfold byteSub ByteOp.value ByteOp.carry ByteOp.zero ByteOp.value ByteOp.exact
  simp only [ByteResult.mk.injEq]
  refine ⟨e, ?_, ?_⟩
  · have := a.isLt
    exact decide_eq_decide.2 (by omega)
  · rw [e]; rfl

/-- The difference with the literal as minuend (R298). -/
theorem byteSubFrom_op (a b : Byte) (c : Bool) :
    byteSub b a c = ⟨ByteOp.subFrom.value a b c, ByteOp.subFrom.carry a b c, ByteOp.subFrom.zero a b c⟩ :=
  byteSub_op b a c

/-- A logical result is its own value, fits, and is tested for zero. -/
theorem logic_op (r : Byte) :
    byteLogic r = ⟨BitVec.ofInt 8 r.toNat, decide ((r.toNat : Int) < 0 ∨ 255 < (r.toNat : Int)),
      decide (BitVec.ofInt 8 (r.toNat : Int) = 0)⟩ := by
  have e : BitVec.ofInt 8 (r.toNat : Int) = r := by
    apply BitVec.eq_of_toNat_eq
    simp
  have := r.isLt
  unfold byteLogic
  rw [e]
  simp only [ByteResult.mk.injEq, true_and]
  refine ⟨?_, rfl⟩
  symm
  simp; omega

/-- The AND (R300). -/
theorem byteAnd_op (a b : Byte) (c : Bool) :
    byteAnd a b c = ⟨ByteOp.and.value a b c, ByteOp.and.carry a b c, ByteOp.and.zero a b c⟩ :=
  logic_op _
/-- The OR (R305). -/
theorem byteOr_op (a b : Byte) (c : Bool) :
    byteOr a b c = ⟨ByteOp.or.value a b c, ByteOp.or.carry a b c, ByteOp.or.zero a b c⟩ :=
  logic_op _
/-- The exclusive OR (R309). -/
theorem byteXor_op (a b : Byte) (c : Bool) :
    byteXor a b c = ⟨ByteOp.xor.value a b c, ByteOp.xor.carry a b c, ByteOp.xor.zero a b c⟩ :=
  logic_op _

/-- A byte result stored with its flags, after the designation was noted or not. -/
theorem storeByteResult_spec (s : State) (b : Byte) (noted : Bool) (l : ByteLoc) (hl : l.valid) (r : ByteResult) :
    StoredByte s (storeByteResult (if noted then noteIndirect s b else s) l r) l r.value (flagged s.cf r.carry r.zero) := by
  have e : (if noted then noteIndirect s b else s).cf = s.cf := by cases noted <;> rfl
  have h := storedByte_finish (s := s) (u := setFlags (if noted then noteIndirect s b else s) r.carry r.zero) hl r.value
    (restKept_trans (by cases noted; exact restKept_refl s; exact restKept_noteIndirect s b) (restKept_setFlags _ _ _))
    (by cases noted; rfl; exact right_noteIndirect s b)
    (by cases noted; rfl; exact tag_noteIndirect s b) (by cases noted <;> rfl)
    (fun p hp => by
      show p.value { (if noted then noteIndirect s b else s) with cf := _ } = _
      rw [value_withCf, if_neg hp]
      cases noted <;> simp)
  rw [setFlags_cf, withFlags_eq_flagged, e] at h
  exact h

/-- A half-word result stored with its flags, after the designation was noted or not. -/
theorem storeHalfResult_spec (s : State) (b : Byte) (noted : Bool) (l : HalfLoc) (r : HalfResult) :
    StoredHalf s (storeHalfResult (if noted then noteIndirect s b else s) l r) l r.value
      (halfFlagged s.cf r.carry r.zero) := by
  have e : (if noted then noteIndirect s b else s).cf = s.cf := by cases noted <;> rfl
  have h := storedHalf_finish (s := s) (l := l)
    (u := setHalfFlags (if noted then noteIndirect s b else s) r.carry r.zero) r.value
    (restKept_trans (by cases noted; exact restKept_refl s; exact restKept_noteIndirect s b) (restKept_setHalfFlags _ _ _))
    (by cases noted; rfl; exact right_noteIndirect s b)
    (by cases noted; rfl; exact tag_noteIndirect s b) (by cases noted <;> rfl)
    (fun p hp => by
      show p.value { (if noted then noteIndirect s b else s) with cf := _ } = _
      rw [value_withCf, if_neg hp]
      cases noted <;> simp)
  rw [setHalfFlags_cf, halfFlags_eq, e] at h
  exact h

/-- The 24-bit sum by exact arithmetic (R271). -/
theorem halfAdd_int (m v : Half) (r : Int) (hr : r = (m.toNat : Int) + v.toNat) :
    halfAdd m v = ⟨BitVec.ofInt 24 r, decide (r < 0 ∨ 16777215 < r), decide (BitVec.ofInt 24 r = 0)⟩ := by
  have e : m + v = BitVec.ofInt 24 r := by
    apply BitVec.eq_of_toNat_eq
    subst hr
    simp [BitVec.toNat_ofInt]; omega
  unfold halfAdd
  simp only [HalfResult.mk.injEq]
  exact ⟨e, decide_eq_decide.2 (by omega), by rw [e]; rfl⟩

/-- The 24-bit difference by exact arithmetic (R275). -/
theorem halfSub_int (m v : Half) (r : Int) (hr : r = (m.toNat : Int) - v.toNat) :
    halfSub m v = ⟨BitVec.ofInt 24 r, decide (r < 0 ∨ 16777215 < r), decide (BitVec.ofInt 24 r = 0)⟩ := by
  have e : m - v = BitVec.ofInt 24 r := by
    apply BitVec.eq_of_toNat_eq
    subst hr
    simp [BitVec.toNat_ofInt, BitVec.toNat_sub]; omega
  have := m.isLt
  unfold halfSub
  simp only [HalfResult.mk.injEq]
  exact ⟨e, decide_eq_decide.2 (by omega), by rw [e]; rfl⟩

end Sys2Proof.Machine
end

