-- ==== Sys2Proof/Laws/Cluster.lean ====
section
/-! SUPPORT. What the operations on clusters do, in the terms of the statements: who is served, which clusters call, what a
read exchange leaves. -/

namespace Sys2Proof.Machine

@[simp] theorem storeAdapter_present (c : Cluster) (a : BitVec 4) (v : Adapter) : (storeAdapter c a v).present = c.present := rfl
@[simp] theorem storeAdapter_mr (c : Cluster) (a : BitVec 4) (v : Adapter) : (storeAdapter c a v).mr = c.mr := rfl
@[simp] theorem storeAdapter_singleStep (c : Cluster) (a : BitVec 4) (v : Adapter) :
    (storeAdapter c a v).singleStep = c.singleStep := rfl
@[simp] theorem storeAdapter_cir (c : Cluster) (a : BitVec 4) (v : Adapter) : (storeAdapter c a v).cir = c.cir := rfl
@[simp] theorem storeAdapter_confirm (c : Cluster) (a : BitVec 4) (v : Adapter) :
    (storeAdapter c a v).confirm = c.confirm := rfl
@[simp] theorem storeAdapter_xp (c : Cluster) (a : BitVec 4) (v : Adapter) : (storeAdapter c a v).xp = c.xp := rfl
@[simp] theorem storeAdapter_engaged (c : Cluster) (a : BitVec 4) (v : Adapter) :
    (storeAdapter c a v).engaged = c.engaged := rfl
@[simp] theorem storeAdapter_rt (c : Cluster) (a : BitVec 4) (v : Adapter) : (storeAdapter c a v).rt = c.rt := rfl

/-- The nine bits between the first and the last of eleven. -/
theorem middle_of_append (x y : BitVec 1) (v : BitVec 9) : ((x ++ v ++ y : BitVec 11)).extractLsb' 1 9 = v := by
  apply BitVec.eq_of_getLsbD_eq
  intro i hi
  have h : 1 + i - 1 = i := by omega
  have g : ¬ (1 + i < 1) := by omega
  rw [BitVec.getLsbD_extractLsb', BitVec.getLsbD_append, BitVec.getLsbD_append]
  simp [hi, h, g]

/-- The character put into C1 is the one that stands there (R411). -/
@[simp] theorem c1Char_putC1 (a : Adapter) (v : BitVec 9) (full : Bool) :
    c1Char { a with c1 := putC1 a v, c1Full := full } = v := middle_of_append _ _ v

/-- BI is all that settling it changes. -/
theorem settleBi_eq (a : Adapter) : settleBi a = { a with bi := (settleBi a).bi } := rfl

/-- The path from C1 to C2 (R411, R412): a character that waits over an empty C2 moves up with Data Present, and else nothing
happens. -/
theorem moveUp_cases (a : Adapter) :
    (a.c1Full = true ∧ a.c2.getLsbD 9 = false ∧
        ∃ bi, moveUp a = { a with c2 := 1#1 ++ c1Char a, c1Full := false, dataPresent := true, bi := bi }) ∨
      (¬ (a.c1Full = true ∧ a.c2.getLsbD 9 = false) ∧ moveUp a = a) := by
  unfold moveUp
  split
  next h => exact .inl ⟨by simp_all, by simp_all, _, settleBi_eq _⟩
  next h => exact .inr ⟨by simpa using h, rfl⟩

/-- Nothing moves up to an occupied C2 (R412). -/
theorem moveUp_occupied (a : Adapter) (h : a.c2.getLsbD 9 = true) : moveUp a = a := by
  obtain ⟨-, h', -⟩ | ⟨-, e⟩ := moveUp_cases a
  · rw [h] at h'; cases h'
  · exact e

/-- A character received with C1 and C2 empty is in C2 (R434). -/
theorem receiveCharacter_empty (a : Adapter) (v : BitVec 9) (h1 : a.c1Full = false) (h2 : a.c2.getLsbD 9 = false) :
    ∃ bi, receiveCharacter a v =
      { a with c1 := putC1 a v, c1Full := false, c2 := 1#1 ++ v, dataPresent := true, bi := bi } := by
  have hu : moveUp a = a := by simp [moveUp, h1]
  obtain ⟨-, -, bi, h⟩ | ⟨h, -⟩ := moveUp_cases { a with c1 := putC1 a v, c1Full := true }
  · rw [c1Char_putC1] at h
    exact ⟨bi, by simp only [receiveCharacter, hu, h1, Bool.false_eq_true, if_false, h]⟩
  · exact absurd ⟨rfl, h2⟩ h

/-- A character received while C2 is occupied waits in C1, and is lost with Buffer Overflow where C1 is filled too (R418). -/
theorem receiveCharacter_waits (a : Adapter) (v : BitVec 9) (h2 : a.c2.getLsbD 9 = true) :
    receiveCharacter a v = if a.c1Full then recordStatus a 9 else { a with c1 := putC1 a v, c1Full := true } := by
  simp only [receiveCharacter, moveUp_occupied a h2, moveUp_occupied { a with c1 := putC1 a v, c1Full := true } h2]

/-- After a read exchange the CIR is free. -/
@[simp] theorem readCir_cir (c : Cluster) (u : Crosspoint) : (readCir c u).cir = { c.cir with cs := .notOccupied } := by
  unfold readCir; split <;> rfl

/-- After a read exchange Access Confirm names the adapter, and whether it was its program timer. -/
@[simp] theorem readCir_confirm (c : Cluster) (u : Crosspoint) :
    (readCir c u).confirm = { ad := c.cir.ad, occupied := true, timer := decide (c.cir.cc = 11) } := by
  unfold readCir; split <;> rfl

/-- After a read exchange no unit is served. -/
@[simp] theorem readCir_engaged (c : Cluster) (u : Crosspoint) : (readCir c u).engaged = false := by
  unfold readCir; split <;> rfl

/-- The cluster last replaced. -/
@[simp] theorem clusterOf_setCluster_self (s : State) (k : BitVec 4) (c : Cluster) : clusterOf (setCluster s k c) k = c := by
  simp [clusterOf, setCluster]

/-- Another cluster than the one replaced. -/
theorem clusterOf_setCluster_ne (s : State) (k j : BitVec 4) (c : Cluster) (h : j ≠ k) :
    clusterOf (setCluster s k c) j = clusterOf s j := by
  have : k.toNat ≠ j.toNat := fun e => h (BitVec.eq_of_toNat_eq e.symm)
  simp [clusterOf, setCluster, this]

/-- The name of this DCP at a crosspoint register. -/
theorem thisDcp_eq (s : State) : thisDcp s = if s.cfg.exchange = .one then .dcp1 else .dcp2 := by
  unfold thisDcp crosspointOf; cases s.cfg.exchange <;> rfl

/-- A cluster held for this DCP serves another unit. -/
theorem heldFor_iff (s : State) (k : BitVec 4) : heldFor (clusterOf s k) (thisDcp s) = true ↔ servesOther s k := by
  simp only [heldFor, connected, disconnected, servesOther, thisDcp_eq, Bool.and_eq_true, decide_eq_true_eq]
  cases (clusterOf s k).xp <;> simp [and_assoc]

/-- The waiting clusters are those that call. -/
theorem mem_waiting (s : State) (k : BitVec 4) : k ∈ waiting s ↔ calls s k := by
  have hk : k ∈ (List.range 16).map (BitVec.ofNat 4) :=
    List.mem_map.2 ⟨k.toNat, List.mem_range.2 k.isLt, by simp⟩
  rw [waiting, List.mem_filter]
  simp only [attention, calls, hk, true_and, Bool.and_eq_true, decide_eq_true_eq, and_assoc]

/-- CAN is on when a cluster calls (R48). -/
theorem canOn_iff (s : State) : canOn s = true ↔ ∃ k, calls s k := by
  rw [canOn, Bool.not_eq_true', List.isEmpty_eq_false_iff_exists_mem]
  exact exists_congr fun k => mem_waiting s k

/-- BRAN branches on SAN (R226), and on a cluster that calls where the installation follows R385 (log 68). -/
theorem branCondition_iff (s : State) :
    branCondition s = true ↔ i23 s = true ∨ (s.cfg.branTestsCan = true ∧ ∃ k, calls s k) := by
  rw [branCondition, Bool.or_eq_true, Bool.and_eq_true, canOn_iff]

/-- The adapter cluster error as R360, R364 and D29 have it: AC and AI are those before the instruction. -/
theorem atClusterError_precise (s u : State) (h : s.cfg.clusterErrorPrecise = true) :
    atClusterError s u = { u with ac := s.ac, ai := s.ai } := by
  simp [atClusterError, h, pick]

/-- The adapter cluster error in an installation that follows the corner cases of R202 and R203: AC and AI are what the instruction has made them. -/
theorem atClusterError_literals (s u : State) (h : s.cfg.clusterErrorPrecise = false) : atClusterError s u = u := by
  simp [atClusterError, h, pick]

/-- Everything a write exchange can answer (R402, R408). -/
theorem writeReply_cases (s : State) (k : BitVec 4) :
    (reachable s k = false ∧ writeReply s k = .absent) ∨
      (reachable s k = true ∧ ((clusterOf s k).cir.cs = .forCluster ∨ servesOther s k) ∧ writeReply s k = .wait) ∨
      (takesWrite s k ∧ writeReply s k = .accepted) := by
  unfold writeReply takesWrite
  have h := heldFor_iff s k
  cases hr : reachable s k with
  | false => simp
  | true =>
    cases hh : holdsWrite (clusterOf s k) (thisDcp s) with
    | true =>
      right; left
      simp only [holdsWrite, Bool.or_eq_true, decide_eq_true_eq, h] at hh
      simp [hh]
    | false =>
      right; right
      simp only [holdsWrite, Bool.or_eq_false_iff, decide_eq_false_iff_not] at hh
      have : ¬ servesOther s k := fun g => by simp [h.2 g] at hh
      simp [hh.1, this]

end Sys2Proof.Machine
end

