-- ==== Sys2Proof/Laws/Interlock.lean ====
section
/-! SUPPORT. The interlock R505: the machine's table of the instructions that wait for a main memory access is the one the
statements use. -/

namespace Sys2Proof.Machine

/-- The places of MA and of W. -/
def placesWMA : List Place := [.ma2, .ma1, .ma0, .wTag] ++ (List.finRange 6).map .w

theorem mem_placesWMA (p : Place) : p ∈ placesWMA ↔ (p.isMA = true ∨ p.isW = true) := by
  cases p <;> simp [placesWMA, Place.isMA, Place.isW]

/-- The byte address names one of these places, over all 256 addresses. -/
theorem addressTouches_eq_any :
    ∀ a : Byte, addressTouches a =
      (match byteLoc a with
       | .ok l => placesWMA.any l.covers
       | .error _ => false) := by
  decide +kernel

theorem addressTouches_iff (a : Byte) : addressTouches a = true ↔ namesWMA a := by
  rw [addressTouches_eq_any]
  unfold namesWMA
  cases h : byteLoc a with
  | error _ => simp
  | ok l =>
    simp only [List.any_eq_true, mem_placesWMA]
    exact ⟨fun ⟨p, hp, hc⟩ => ⟨l, p, rfl, hc, hp⟩, fun ⟨_, p, hl, hc, hp⟩ => by cases hl; exact ⟨p, hp, hc⟩⟩

theorem requestsAccess_iff (i : Instr) : requestsAccess i = true ↔ asksForAccess i := by
  cases i <;> simp [requestsAccess, asksForAccess]

/-- The breakpoint switches as the machine and as the statements say them. -/
theorem bkpBranches_iff (s : State) (a : BitVec 3) :
    bkpBranches s a = true ↔ s.env.panel.bkp = .branch ∧ codeAgrees s a := by
  have e (w : CodeSwitch) (b : Bool) : switchMatches w b = true ↔ switchAgrees w b := by
    cases w <;> cases b <;> simp [switchMatches, switchAgrees]
  simp [bkpBranches, bkpMatches, codeAgrees, e, and_assoc]

theorem heldByMM_iff (s : State) (i : Instr) : heldByMM s i = true ↔ waitsForAccess s i := by
  cases i <;>
    simp [heldByMM, waitsForAccess, asksForAccess, aNamesMA, addressTouches_iff, bkpBranches_iff, or_assoc]

end Sys2Proof.Machine
end

