-- ==== Sys2Proof/Laws/Memory.lean ====
section
/-! SUPPORT. The laws of memory: a read after a write, at the same place and at another one, for cells and for words, and that
every memory operation keeps the canonical form. -/

namespace Sys2Proof.Machine

/-! ### Cells -/

theorem wf_cons {words : Nat} {c : Host.Cell} {m : Memory} :
    Memory.wf words (c :: m) = true ↔ cellWf words c = true ∧ startsAbove c.1 m = true ∧ Memory.wf words m = true := by
  simp [Memory.wf, and_assoc]

theorem startsAbove_mono {j k : Nat} {m : Memory} (h : j ≤ k) (hm : startsAbove k m = true) : startsAbove j m = true := by
  cases m with
  | nil => rfl
  | cons c m => simp only [startsAbove, decide_eq_true_eq] at hm ⊢; omega

/-- A memory whose first address lies above a has nothing listed at a. -/
theorem cellRead_of_startsAbove {words a : Nat} {m : Memory} (hw : Memory.wf words m = true)
    (h : startsAbove a m = true) : cellRead m a = unlisted a := by
  induction m with
  | nil => rfl
  | cons c m ih =>
    obtain ⟨k, u⟩ := c
    simp only [startsAbove, decide_eq_true_eq] at h
    obtain ⟨_, h2, h3⟩ := wf_cons.1 hw
    rw [cellRead, if_neg (by omega)]
    exact ih h3 (startsAbove_mono (Nat.le_of_lt h) h2)

theorem cellRead_cellCons {words a : Nat} {v : Byte} {m : Memory} (hw : Memory.wf words m = true)
    (h : startsAbove a m = true) (b : Nat) : cellRead (cellCons a v m) b = if b = a then v else cellRead m b := by
  unfold cellCons
  split
  · rename_i e
    split
    · rename_i e2
      rw [e2, cellRead_of_startsAbove hw h, e]
    · rfl
  · simp only [cellRead]
    by_cases hb : a = b
    · simp [hb]
    · simp [hb, Ne.symm hb]

/-- A read after a write: the value written at its address, every other cell as before. -/
theorem cellRead_cellWrite {words : Nat} {m : Memory} (hw : Memory.wf words m = true) (a : Nat) (v : Byte) (b : Nat) :
    cellRead (cellWrite m a v) b = if b = a then v else cellRead m b := by
  induction m with
  | nil => exact cellRead_cellCons (words := words) rfl rfl b
  | cons c m ih =>
    obtain ⟨k, u⟩ := c
    obtain ⟨_, h2, h3⟩ := wf_cons.1 hw
    rw [cellWrite]
    split
    · rename_i h
      exact cellRead_cellCons hw (by simpa [startsAbove] using h) b
    · split
      · rename_i e
        subst e
        rw [cellRead_cellCons h3 h2]
        split
        · rfl
        · rename_i hb
          simp [cellRead, Ne.symm hb]
      · simp only [cellRead, ih h3]
        split
        · rename_i e
          subst e
          split
          · omega
          · rfl
        · rfl

theorem startsAbove_cellCons {j a : Nat} {v : Byte} {m : Memory} (hj : j < a) (h : startsAbove j m = true) :
    startsAbove j (cellCons a v m) = true := by
  unfold cellCons
  split
  · exact h
  · simpa [startsAbove] using hj

theorem startsAbove_cellWrite {words j a : Nat} {v : Byte} {m : Memory} (hw : Memory.wf words m = true) (hj : j < a)
    (h : startsAbove j m = true) : startsAbove j (cellWrite m a v) = true := by
  cases m with
  | nil => exact startsAbove_cellCons hj h
  | cons c m =>
    obtain ⟨k, u⟩ := c
    obtain ⟨_, h2, _⟩ := wf_cons.1 hw
    have hk : j < k := by simpa [startsAbove] using h
    rw [cellWrite]
    split
    · exact startsAbove_cellCons hj h
    · split
      · exact startsAbove_cellCons hj (startsAbove_mono (Nat.le_of_lt hk) h2)
      · simpa [startsAbove] using hk

theorem wf_cellCons {words a : Nat} {v : Byte} {m : Memory} (hw : Memory.wf words m = true) (h : startsAbove a m = true)
    (hc : v ≠ unlisted a → cellWf words (a, v) = true) : Memory.wf words (cellCons a v m) = true := by
  unfold cellCons
  split
  · exact hw
  · rename_i hv
    exact wf_cons.2 ⟨hc hv, h, hw⟩

/-- Writing a cell that exists keeps the canonical form. -/
theorem wf_cellWrite {words : Nat} {m : Memory} (hw : Memory.wf words m = true) (a : Nat) (v : Byte)
    (hc : v ≠ unlisted a → cellWf words (a, v) = true) : Memory.wf words (cellWrite m a v) = true := by
  induction m with
  | nil => exact wf_cellCons rfl rfl hc
  | cons c m ih =>
    obtain ⟨k, u⟩ := c
    obtain ⟨h1, h2, h3⟩ := wf_cons.1 hw
    rw [cellWrite]
    split
    · rename_i h
      exact wf_cellCons hw (by simpa [startsAbove] using h) hc
    · split
      · rename_i e
        subst e
        exact wf_cellCons h3 h2 hc
      · exact wf_cons.2 ⟨h1, startsAbove_cellWrite h3 (by omega) h2, ih h3⟩

/-- A memory in canonical form for some words is so for more words. -/
theorem wf_mono {m n : Nat} (h : m ≤ n) {l : Memory} (hw : Memory.wf m l = true) : Memory.wf n l = true := by
  induction l with
  | nil => rfl
  | cons c l ih =>
    obtain ⟨h1, h2, h3⟩ := wf_cons.1 hw
    refine wf_cons.2 ⟨?_, h2, ih h3⟩
    simp only [cellWf, Bool.and_eq_true, decide_eq_true_eq] at h1 ⊢
    refine ⟨⟨⟨h1.1.1.1, ?_⟩, h1.1.2⟩, h1.2⟩
    omega

/-! ### Words -/

theorem cellWf_byte {words a k : Nat} {v : Byte} (h : a < words) (hk : k < 6) (hv : v ≠ unlisted (8 * a + k)) :
    cellWf words (8 * a + k, v) = true := by
  have h1 : k % 8 ≠ 7 := by omega
  have h2 : k % 8 ≠ 6 := by omega
  have h3 : 8 * a + k < 8 * words := by omega
  simp [cellWf, h1, h2, h3, hv]

theorem cellWf_tag {words a : Nat} {v : BitVec 4} (h : a < words)
    (hv : v.setWidth 8 ≠ unlisted (8 * a + 6)) : cellWf words (8 * a + 6, v.setWidth 8) = true := by
  have h3 : 8 * a + 6 < 8 * words := by omega
  have h4 : v.toNat % 256 < 16 := by
    have := v.isLt
    omega
  simp [cellWf, h3, hv, h4]

/-- The six bytes of a word written keep the canonical form. -/
theorem wf_memWrite48 {words a : Nat} {m : Memory} (hw : Memory.wf words m = true) (h : a < words) (v : Word) :
    Memory.wf words (memWrite48 m a v) = true := by
  have c : ∀ k : Nat, k < 6 → ∀ u : Byte, u ≠ unlisted (8 * a + k) → cellWf words (8 * a + k, u) = true :=
    fun k hk u hu => cellWf_byte h hk hu
  exact wf_cellWrite (wf_cellWrite (wf_cellWrite (wf_cellWrite (wf_cellWrite (wf_cellWrite hw _ _
    (c 0 (by omega) _)) _ _ (c 1 (by omega) _)) _ _ (c 2 (by omega) _)) _ _ (c 3 (by omega) _)) _ _ (c 4 (by omega) _)) _ _
    (c 5 (by omega) _)

/-- A whole word written keeps the canonical form. -/
theorem wf_memWrite {words a : Nat} {m : Memory} (hw : Memory.wf words m = true) (h : a < words) (v : Word) :
    Memory.wf words (memWrite m a v) = true :=
  wf_cellWrite (wf_memWrite48 hw h v) _ _ fun hv => cellWf_tag h hv

/-- The cells after the six bytes of a word are written. -/
theorem cellRead_memWrite48 {words a : Nat} {m : Memory} (hw : Memory.wf words m = true) (h : a < words) (v : Word) (b : Nat) :
    cellRead (memWrite48 m a v) b =
      if b = 8 * a + 5 then row0 (wordRight v) else if b = 8 * a + 4 then row1 (wordRight v)
      else if b = 8 * a + 3 then row2 (wordRight v) else if b = 8 * a + 2 then row0 (wordLeft v)
      else if b = 8 * a + 1 then row1 (wordLeft v) else if b = 8 * a then row2 (wordLeft v) else cellRead m b := by
  have c : ∀ k : Nat, k < 6 → ∀ u : Byte, u ≠ unlisted (8 * a + k) → cellWf words (8 * a + k, u) = true :=
    fun k hk u hu => cellWf_byte h hk hu
  have w0 := wf_cellWrite hw (8 * a) (row2 (wordLeft v)) (c 0 (by omega) _)
  have w1 := wf_cellWrite w0 (8 * a + 1) (row1 (wordLeft v)) (c 1 (by omega) _)
  have w2 := wf_cellWrite w1 (8 * a + 2) (row0 (wordLeft v)) (c 2 (by omega) _)
  have w3 := wf_cellWrite w2 (8 * a + 3) (row2 (wordRight v)) (c 3 (by omega) _)
  have w4 := wf_cellWrite w3 (8 * a + 4) (row1 (wordRight v)) (c 4 (by omega) _)
  unfold memWrite48
  rw [cellRead_cellWrite w4, cellRead_cellWrite w3, cellRead_cellWrite w2, cellRead_cellWrite w1, cellRead_cellWrite w0,
    cellRead_cellWrite hw]

/-- The cells after a whole word is written. -/
theorem cellRead_memWrite {words a : Nat} {m : Memory} (hw : Memory.wf words m = true) (h : a < words) (v : Word) (b : Nat) :
    cellRead (memWrite m a v) b =
      if b = 8 * a + 6 then (wordTag v).setWidth 8 else cellRead (memWrite48 m a v) b := by
  unfold memWrite
  rw [cellRead_cellWrite (wf_memWrite48 hw h v)]

/-- A write of a whole word leaves every cell of the other words alone. -/
theorem cellRead_memWrite_other {words a : Nat} {m : Memory} (hw : Memory.wf words m = true) (h : a < words) (v : Word)
    (b : Nat) (hb : b < 8 * a ∨ 8 * a + 7 ≤ b) : cellRead (memWrite m a v) b = cellRead m b := by
  rw [cellRead_memWrite hw h, cellRead_memWrite48 hw h]
  simp [show b ≠ 8 * a + 6 by omega, show b ≠ 8 * a + 5 by omega, show b ≠ 8 * a + 4 by omega, show b ≠ 8 * a + 3 by omega,
    show b ≠ 8 * a + 2 by omega, show b ≠ 8 * a + 1 by omega, show b ≠ 8 * a by omega]

/-- A word put together from the right is the same word. -/
theorem append_right_eq_makeWord (t : BitVec 4) (l r : Half) : (t ++ (l ++ r) : Word) = makeWord t l r := by
  have hr : wordRight (t ++ (l ++ r) : Word) = r := by
    apply BitVec.eq_of_getLsbD_eq
    intro i hi
    simp only [wordRight, BitVec.getLsbD_extractLsb']
    rw [BitVec.getLsbD_append, BitVec.getLsbD_append]
    simp [hi, show i < 24 + 24 by omega]
  have hl : wordLeft (t ++ (l ++ r) : Word) = l := by
    apply BitVec.eq_of_getLsbD_eq
    intro i hi
    simp only [wordLeft, BitVec.getLsbD_extractLsb']
    rw [BitVec.getLsbD_append, BitVec.getLsbD_append]
    simp [hi, show ¬ 48 ≤ 24 + i by omega]
  have ht : wordTag (t ++ (l ++ r) : Word) = t := extractLsb'_append_high t (l ++ r)
  exact word_eq (by rw [ht, wordTag_makeWord]) (by rw [hl, wordLeft_makeWord]) (by rw [hr, wordRight_makeWord])

/-- A word read where it was just written is the word written. -/
theorem memRead_memWrite {words a : Nat} {m : Memory} (hw : Memory.wf words m = true) (h : a < words) (v : Word) :
    memRead (memWrite m a v) a = v := by
  have d : ∀ b, b ≠ 8 * a + 6 → cellRead (memWrite m a v) b = cellRead (memWrite48 m a v) b := fun b hb => by
    rw [cellRead_memWrite hw h, if_neg hb]
  have c6 : cellRead (memWrite m a v) (8 * a + 6) = (wordTag v).setWidth 8 := by rw [cellRead_memWrite hw h, if_pos rfl]
  have c0 : cellRead (memWrite m a v) (8 * a) = row2 (wordLeft v) := by
    rw [d _ (by omega), cellRead_memWrite48 hw h]; simp
  have c1 : cellRead (memWrite m a v) (8 * a + 1) = row1 (wordLeft v) := by
    rw [d _ (by omega), cellRead_memWrite48 hw h]; simp
  have c2 : cellRead (memWrite m a v) (8 * a + 2) = row0 (wordLeft v) := by
    rw [d _ (by omega), cellRead_memWrite48 hw h]; simp
  have c3 : cellRead (memWrite m a v) (8 * a + 3) = row2 (wordRight v) := by
    rw [d _ (by omega), cellRead_memWrite48 hw h]; simp
  have c4 : cellRead (memWrite m a v) (8 * a + 4) = row1 (wordRight v) := by
    rw [d _ (by omega), cellRead_memWrite48 hw h]; simp
  have c5 : cellRead (memWrite m a v) (8 * a + 5) = row0 (wordRight v) := by
    rw [d _ (by omega), cellRead_memWrite48 hw h]; simp
  have e : ((wordTag v).setWidth 8).setWidth 4 = wordTag v := by
    apply BitVec.eq_of_getLsbD_eq
    intro i hi
    simp [hi]
  unfold memRead
  rw [c0, c1, c2, c3, c4, c5, c6, e, rows_eta, rows_eta, append_right_eq_makeWord, makeWord_eta]

/-- A word read elsewhere is as before. -/
theorem memRead_memWrite_other {words a : Nat} {m : Memory} (hw : Memory.wf words m = true) (h : a < words) (v : Word)
    (b : Nat) (hb : b ≠ a) : memRead (memWrite m a v) b = memRead m b := by
  have o : ∀ k : Nat, k < 7 → cellRead (memWrite m a v) (8 * b + k) = cellRead m (8 * b + k) :=
    fun k hk => cellRead_memWrite_other hw h v _ (by omega)
  unfold memRead
  rw [o 6 (by omega), o 1 (by omega), o 2 (by omega), o 3 (by omega), o 4 (by omega), o 5 (by omega)]
  have := o 0 (by omega)
  simp only [Nat.add_zero] at this
  rw [this]

/-- The cells of a B 5700 word after it is written (R88). -/
theorem cellRead_memWrite48_other {words a : Nat} {m : Memory} (hw : Memory.wf words m = true) (h : a < words) (v : Word)
    (b : Nat) (hb : b < 8 * a ∨ 8 * a + 6 ≤ b) : cellRead (memWrite48 m a v) b = cellRead m b := by
  rw [cellRead_memWrite48 hw h]
  simp [show b ≠ 8 * a + 5 by omega, show b ≠ 8 * a + 4 by omega, show b ≠ 8 * a + 3 by omega, show b ≠ 8 * a + 2 by omega,
    show b ≠ 8 * a + 1 by omega, show b ≠ 8 * a by omega]

theorem noTags_cellWrite {m : Memory} (hm : noTags m = true) {a : Nat} (ha : a % 8 ≠ 6) (v : Byte) :
    noTags (cellWrite m a v) = true := by
  have c : ∀ l : Memory, noTags l = true → noTags (cellCons a v l) = true := by
    intro l hl
    unfold cellCons
    split
    · exact hl
    · simpa [noTags, ha] using hl
  induction m with
  | nil => exact c [] rfl
  | cons d m ih =>
    obtain ⟨k, u⟩ := d
    have hm2 : k % 8 ≠ 6 ∧ noTags m = true := by simpa [noTags] using hm
    rw [cellWrite]
    split
    · exact c _ hm
    · split
      · exact c _ hm2.2
      · simpa [noTags, hm2.1] using ih hm2.2

/-- A B 5700 write stores no tag field (R88). -/
theorem noTags_memWrite48 {m : Memory} (hm : noTags m = true) (a : Nat) (v : Word) : noTags (memWrite48 m a v) = true :=
  noTags_cellWrite (noTags_cellWrite (noTags_cellWrite (noTags_cellWrite (noTags_cellWrite (noTags_cellWrite hm
    (by omega) _) (by omega) _) (by omega) _) (by omega) _) (by omega) _) (by omega) _

/-! ### The memories of a state -/

theorem memoryOk_iff (s : State) : s.memoryOk = true ↔
    Memory.wf (4096 * s.cfg.lmModules.val) s.lm = true ∧ Memory.wf (mmWords s.cfg.mainframe) s.mm = true ∧
      (s.cfg.mainframe = .b6700 ∨ noTags s.mm = true) ∧ s.ba.toNat < mmWords s.cfg.mainframe := by
  simp [State.memoryOk, and_assoc]

/-- The address of an access names a word of main memory (R83). -/
theorem hostAddress_lt (m : Mainframe) (a : SysAddr) : (hostAddress m a).toNat < mmWords m := by
  cases m with
  | b6700 => exact a.isLt
  | b5700 =>
    simp only [hostAddress, mmWords, BitVec.toNat_setWidth]
    have := (a.extractLsb' 0 15).isLt
    omega

/-- Storing a word that exists keeps main memory in canonical form, and on a B 5700 without tag fields. -/
theorem hostStore_ok (m : Mainframe) {l : Memory} (hw : Memory.wf (mmWords m) l = true)
    (ht : m = .b6700 ∨ noTags l = true) {a : SysAddr} (ha : a.toNat < mmWords m) (v : Word) :
    Memory.wf (mmWords m) (hostStore m l a v) = true ∧ (m = .b6700 ∨ noTags (hostStore m l a v) = true) := by
  cases m with
  | b6700 => exact ⟨wf_memWrite hw ha v, .inl rfl⟩
  | b5700 => exact ⟨wf_memWrite48 hw ha v, .inr (noTags_memWrite48 (ht.resolve_left (by simp)) _ v)⟩

end Sys2Proof.Machine
end

