-- ==== Sys2Proof/Laws/Moves.lean ====
section
/-! SUPPORT. The half-word move of group 2 by places: what the move leaves in every place, and what an instruction that moves
and then ends has done. -/

namespace Sys2Proof.Machine

/-- The places after MA is loaded. -/
theorem value_setMA (s : State) (h : Half) (p : Place) :
    p.value (setMA s h) = if p.isMA then halfRow h p.row else p.value s := by
  cases p <;> simp [Place.value, Place.isMA, Place.row, halfRow_zero, halfRow_one, halfRow_two, smWord]

/-- A column other than MA selects no MA row. -/
theorem covers_other (c sel : BitVec 3) (p : Place) (h : c ≠ 3#3) (hp : p.isMA = true) : selects c sel p = false := by
  cases p <;> simp_all [Place.isMA, selects, Place.cell]
/-- The MA column selects MA rows only. -/
theorem covers_MA (sel : BitVec 3) (p : Place) (hp : p.isMA = false) : selects 3#3 sel p = false := by
  cases p <;> simp_all [Place.isMA, selects, Place.cell]
  split <;> simp

/-- A half-word stored beside the load of MA: nothing is said of MA rows that are named (U10). -/
theorem value_storeBesideMA (s : State) (l : HalfLoc) (h : Half) (p : Place) :
    (p.isMA = false → p.value (storeBesideMA s l h) = halfStored l h p (p.value s)) ∧
    (l.covers p = false → p.value (storeBesideMA s l h) = p.value s) := by
  unfold storeBesideMA
  cases l with
  | smHalf k r =>
    simp only [value_writeHalf]
    exact ⟨fun _ => trivial, fun hc => by simp [halfStored, hc]⟩
  | regs c sel =>
    have e : ∀ (h : Half), p.value (setRows s c sel h) = halfStored (.regs c sel) h p (p.value s) :=
      fun h => value_writeHalf s (.regs c sel) h p
    have e3 : ∀ (h : Half) n,
        p.value { setRows s 3 sel h with free := n } = halfStored (.regs 3 sel) h p (p.value s) := fun h n => by
      rw [← value_writeHalf s (.regs 3 sel) h p]
      exact value_congr p rfl rfl rfl rfl rfl rfl rfl rfl rfl rfl rfl rfl rfl rfl
    dsimp only
    split
    · rename_i hc
      subst hc
      rw [e3]
      constructor
      · intro hp
        simp [halfStored, HalfLoc.covers, covers_MA sel p hp]
      · intro hc
        have hc2 : selects 3#3 sel p = false := hc
        simp [halfStored, HalfLoc.covers, hc2]
    · rw [e]
      exact ⟨fun _ => rfl, fun hc => by simp [halfStored, hc]⟩

/-- What the move leaves in every place (R240). -/
theorem value_moveHalves (s : State) (b : Byte) (src dst : HalfLoc) (p : Place) :
    (p.isMA = false → p.value (moveHalves s b src dst) = halfStored dst (ma s) p (p.value s)) ∧
    (p.isMA = true → dst.covers p = false → p.value (moveHalves s b src dst) = halfRow (readHalf s src) p.row) := by
  unfold moveHalves
  have h := value_storeBesideMA (setMA (noteIndirect s b) (readHalf s src)) dst (ma s) p
  constructor
  · intro hp
    rw [h.1 hp, value_setMA, hp]
    simp
  · intro hp hc
    rw [h.2 hc, value_setMA, hp]
    simp

/-- IA after the move. -/
theorem ia_moveHalves (s : State) (b : Byte) (src dst : HalfLoc) :
    ia (moveHalves s b src dst) = halfStored dst (ma s) .ia1 s.ia1 ++ halfStored dst (ma s) .ia0 s.ia0 := by
  rw [ia_eq_places, (value_moveHalves s b src dst .ia1).1 rfl, (value_moveHalves s b src dst .ia0).1 rfl]; rfl

/-- A move, what the instruction then does to the places of `but`, and an end `e` that keeps the places and CF but for I20. -/
theorem halfMoved_of {s u e : State} {b : Byte} {src dst : HalfLoc} (but : Place → Bool)
    (hv : ∀ p, but p = false → p.value u = p.value (moveHalves s b src dst))
    (hbut : ∀ p, p.isControl = true ∨ p.isMA = true → but p = false)
    (he : ∀ p : Place, p.isControl = false → p.value e = p.value u) (hc : CfIs e u.cf) :
    HalfMoved s e src dst but := by
  have m := value_moveHalves s b src dst
  have hcf : u.cf = halfStored dst (ma s) .cf s.cf := (hv .cf (hbut _ (.inl rfl))).trans ((m .cf).1 rfl)
  exact {
    stored := fun p hc hn hm hbp => by
      rw [he _ hn, hv p hbp, (m p).1 hm]
      simp [halfStored, hc]
    loaded := fun p hm hc => by
      have hn : p.isControl = false := by cases p <;> simp_all [Place.isMA, Place.isControl]
      rw [he _ hn, hv p (hbut _ (.inr hm)), (m p).2 hm hc]
    kept := fun p hc hn hm hbp => by
      rw [he _ hn, hv p hbp, (m p).1 hm]
      simp [halfStored, hc]
    cf := by rw [← hcf]; exact hc }

/-- The same with the instruction's own end. -/
theorem moved_finish {s u : State} {b : Byte} {src dst : HalfLoc} (but : Place → Bool)
    (hv : ∀ p, but p = false → p.value u = p.value (moveHalves s b src dst))
    (hbut : ∀ p, p.isControl = true ∨ p.isMA = true → but p = false)
    (hp : u.p = (moveHalves s b src dst).p) (he : u.env = s.env) (hb : u.bstm = s.bstm) (hr : u.run = s.run) :
    Moved s (finish dst.ordersFetch u) src dst but := by
  have hia : ia u = movedIA s dst := by
    rw [movedIA, ← ia_moveHalves, ia_eq_places, ia_eq_places, hv _ (hbut _ (.inl rfl)), hv _ (hbut _ (.inl rfl))]
  refine ⟨halfMoved_of but hv hbut (fun p hn => value_finish _ _ _ hn) (cfIs_finish _ _), ?_⟩
  rw [← hia, half_namesIA]
  refine goesOn_finish _ ?_ ?_ (by rw [he]) hb hr ?_
  · rw [hp]; simp [moveHalves]; exact right_noteIndirect s b
  · rw [hp]; simp [moveHalves]; exact tag_noteIndirect s b
  · intro hf
    have hn : dst.namesIA = false := by rw [half_namesIA]; exact hf
    simp only [HalfLoc.namesIA, Bool.or_eq_false_iff] at hn
    rw [hia]; simp [movedIA, halfStored, hn.1, hn.2, ia]

/-- W is neither control nor MA. -/
theorem isW_but (p : Place) (h : p.isControl = true ∨ p.isMA = true) : p.isW = false := by
  cases p <;> simp_all [Place.isControl, Place.isMA, Place.isW]
/-- The tag field of W is neither control nor MA. -/
theorem wTag_but (p : Place) (h : p.isControl = true ∨ p.isMA = true) : among [.wTag] p = false := by
  cases p <;> simp_all [Place.isControl, Place.isMA, among]

/-- Two states with equal registers but W hold the same in every place outside W. -/
theorem value_congr_but_W {s t : State} (p : Place) (hp : p.isW = false) (aa : t.aa = s.aa) (ac : t.ac = s.ac)
    (ai : t.ai = s.ai) (d : t.d = s.d) (y : t.y = s.y) (x : t.x = s.x) (ma2 : t.ma2 = s.ma2) (ma1 : t.ma1 = s.ma1)
    (ma0 : t.ma0 = s.ma0) (cf : t.cf = s.cf) (ia1 : t.ia1 = s.ia1) (ia0 : t.ia0 = s.ia0) (sm : t.sm = s.sm) :
    p.value t = p.value s := by
  cases p <;> simp_all [Place.value, smWord_congr sm, Place.isW]

/-- Generated parity changes the tag field of W only. -/
theorem value_parityW (s : State) (p : Place) (hp : among [.wTag] p = false) :
    p.value { s with w := withParity s.w } = p.value s := by
  cases p with
  | w n => simp [Place.value, extract_byte]
  | wTag => simp [among] at hp
  | _ => rfl

end Sys2Proof.Machine
end

