-- ==== Sys2Proof/Laws/PerInstr.lean ====
section
/-! SUPPORT. The B and C fields in the encoding, said for every instruction: the low sixteen bits of its word are its operand
bytes (R121). -/

namespace Sys2Proof.Laws.OperandBytes

/-- The B and C fields of an instruction, in the order in which they stand in its word (R121). -/
def operands : Instr → BitVec 16
  | .idle b c => b ++ c
  | .bkp _ b c => b ++ c
  | .awi _ b c => b ++ c
  | .awrr _ b c => b ++ c
  | .mskw b c => b ++ c
  | .mskr b c => b ++ c
  | .nop00011 _ b c => b ++ c
  | .shft b c => b ++ c
  | .heyu b c => b ++ c
  | .arwn b c => b ++ c
  | .arin b c => b ++ c
  | .dbyz b c => b ++ c
  | .dbyn b c => b ++ c
  | .bran b c => b ++ c
  | .goto _ b c => b ++ c
  | .gox _ b c => b ++ c
  | .goi _ b c => b ++ c
  | .move b c => b ++ c
  | .lmri b c => b ++ c
  | .smrd b c => b ++ c
  | .lmrd b c => b ++ c
  | .move01000 b c => b ++ c
  | .lmwi b c => b ++ c
  | .smwd b c => b ++ c
  | .lmwd b c => b ++ c
  | .move01001 _ b c => b ++ c
  | .mmr b c => b ++ c
  | .mmr01001 b c => b ++ c
  | .mmwu b c => b ++ c
  | .mmwr b c => b ++ c
  | .mmwp b c => b ++ c
  | .mwrp b c => b ++ c
  | .had _ b c => b ++ c
  | .hsb _ b c => b ++ c
  | .hadb _ b c => b ++ c
  | .hsbb _ b c => b ++ c
  | .tran _ b c => b ++ c
  | .pary _ b c => b ++ c
  | .leo01111 _ b c => b ++ c
  | .sub _ b c => b ++ c
  | .lor _ b c => b ++ c
  | .lorb _ b c => b ++ c
  | .lorc _ b c => b ++ c
  | .laom _ b c => b ++ c
  | .lan _ b c => b ++ c
  | .lanb _ b c => b ++ c
  | .lanc _ b c => b ++ c
  | .subb _ b c => b ++ c
  | .leo _ b c => b ++ c
  | .leob _ b c => b ++ c
  | .leoc _ b c => b ++ c
  | .subc _ b c => b ++ c
  | .add _ b c => b ++ c
  | .addb _ b c => b ++ c
  | .addc _ b c => b ++ c
  | .undef00000 _ b c => b ++ c
  | .undef00011 _ b c => b ++ c
  | .undef00100 _ b c => b ++ c
  | .undef01010 _ b c => b ++ c
  | .undef01011 _ b c => b ++ c

/-- The low sixteen bits of the word are the operand bytes. -/
def Statement (i : Instr) : Prop := (encode i).extractLsb' 0 16 = operands i

theorem of_fields (op : BitVec 5) (a : BitVec 3) (b c : Byte) : (fields op a b c).extractLsb' 0 16 = b ++ c := by
  apply BitVec.eq_of_getLsbD_eq
  intro i hi
  simp only [fields, BitVec.getLsbD_extractLsb', BitVec.getLsbD_append, hi, decide_true, Bool.true_and, Nat.zero_add]
  by_cases h : i < 8
  · simp [h]
  · simp [h, show i - 8 < 8 by omega]

theorem idle (b c : Byte) : Statement (.idle b c) := of_fields _ _ b c
theorem bkp (a : BitVec 3) (b c : Byte) : Statement (.bkp a b c) := of_fields _ _ b c
theorem awi (a : BitVec 2) (b c : Byte) : Statement (.awi a b c) := of_fields _ _ b c
theorem awrr (a : BitVec 2) (b c : Byte) : Statement (.awrr a b c) := of_fields _ _ b c
theorem mskw (b c : Byte) : Statement (.mskw b c) := of_fields _ _ b c
theorem mskr (b c : Byte) : Statement (.mskr b c) := of_fields _ _ b c
theorem nop00011 (a : BitVec 1) (b c : Byte) : Statement (.nop00011 a b c) := of_fields _ _ b c
theorem shft (b c : Byte) : Statement (.shft b c) := of_fields _ _ b c
theorem heyu (b c : Byte) : Statement (.heyu b c) := of_fields _ _ b c
theorem arwn (b c : Byte) : Statement (.arwn b c) := of_fields _ _ b c
theorem arin (b c : Byte) : Statement (.arin b c) := of_fields _ _ b c
theorem dbyz (b c : Byte) : Statement (.dbyz b c) := of_fields _ _ b c
theorem dbyn (b c : Byte) : Statement (.dbyn b c) := of_fields _ _ b c
theorem bran (b c : Byte) : Statement (.bran b c) := of_fields _ _ b c
theorem goto (a : BitVec 3) (b c : Byte) : Statement (.goto a b c) := of_fields _ _ b c
theorem gox (a : BitVec 3) (b c : Byte) : Statement (.gox a b c) := of_fields _ _ b c
theorem goi (a : BitVec 3) (b c : Byte) : Statement (.goi a b c) := of_fields _ _ b c
theorem move (b c : Byte) : Statement (.move b c) := of_fields _ _ b c
theorem lmri (b c : Byte) : Statement (.lmri b c) := of_fields _ _ b c
theorem smrd (b c : Byte) : Statement (.smrd b c) := of_fields _ _ b c
theorem lmrd (b c : Byte) : Statement (.lmrd b c) := of_fields _ _ b c
theorem move01000 (b c : Byte) : Statement (.move01000 b c) := of_fields _ _ b c
theorem lmwi (b c : Byte) : Statement (.lmwi b c) := of_fields _ _ b c
theorem smwd (b c : Byte) : Statement (.smwd b c) := of_fields _ _ b c
theorem lmwd (b c : Byte) : Statement (.lmwd b c) := of_fields _ _ b c
theorem move01001 (a : BitVec 1) (b c : Byte) : Statement (.move01001 a b c) := of_fields _ _ b c
theorem mmr (b c : Byte) : Statement (.mmr b c) := of_fields _ _ b c
theorem mmr01001 (b c : Byte) : Statement (.mmr01001 b c) := of_fields _ _ b c
theorem mmwu (b c : Byte) : Statement (.mmwu b c) := of_fields _ _ b c
theorem mmwr (b c : Byte) : Statement (.mmwr b c) := of_fields _ _ b c
theorem mmwp (b c : Byte) : Statement (.mmwp b c) := of_fields _ _ b c
theorem mwrp (b c : Byte) : Statement (.mwrp b c) := of_fields _ _ b c
theorem had (a : BitVec 2) (b c : Byte) : Statement (.had a b c) := of_fields _ _ b c
theorem hsb (a : BitVec 2) (b c : Byte) : Statement (.hsb a b c) := of_fields _ _ b c
theorem hadb (a : BitVec 2) (b c : Byte) : Statement (.hadb a b c) := of_fields _ _ b c
theorem hsbb (a : BitVec 2) (b c : Byte) : Statement (.hsbb a b c) := of_fields _ _ b c
theorem tran (a : BitVec 3) (b c : Byte) : Statement (.tran a b c) := of_fields _ _ b c
theorem pary (a : BitVec 1) (b c : Byte) : Statement (.pary a b c) := of_fields _ _ b c
theorem leo01111 (a : BitVec 3) (b c : Byte) : Statement (.leo01111 a b c) := of_fields _ _ b c
theorem sub (a : BitVec 3) (b c : Byte) : Statement (.sub a b c) := of_fields _ _ b c
theorem lor (a : BitVec 3) (b c : Byte) : Statement (.lor a b c) := of_fields _ _ b c
theorem lorb (a : BitVec 3) (b c : Byte) : Statement (.lorb a b c) := of_fields _ _ b c
theorem lorc (a : BitVec 3) (b c : Byte) : Statement (.lorc a b c) := of_fields _ _ b c
theorem laom (a : BitVec 3) (b c : Byte) : Statement (.laom a b c) := of_fields _ _ b c
theorem lan (a : BitVec 3) (b c : Byte) : Statement (.lan a b c) := of_fields _ _ b c
theorem lanb (a : BitVec 3) (b c : Byte) : Statement (.lanb a b c) := of_fields _ _ b c
theorem lanc (a : BitVec 3) (b c : Byte) : Statement (.lanc a b c) := of_fields _ _ b c
theorem subb (a : BitVec 3) (b c : Byte) : Statement (.subb a b c) := of_fields _ _ b c
theorem leo (a : BitVec 3) (b c : Byte) : Statement (.leo a b c) := of_fields _ _ b c
theorem leob (a : BitVec 3) (b c : Byte) : Statement (.leob a b c) := of_fields _ _ b c
theorem leoc (a : BitVec 3) (b c : Byte) : Statement (.leoc a b c) := of_fields _ _ b c
theorem subc (a : BitVec 3) (b c : Byte) : Statement (.subc a b c) := of_fields _ _ b c
theorem add (a : BitVec 3) (b c : Byte) : Statement (.add a b c) := of_fields _ _ b c
theorem addb (a : BitVec 3) (b c : Byte) : Statement (.addb a b c) := of_fields _ _ b c
theorem addc (a : BitVec 3) (b c : Byte) : Statement (.addc a b c) := of_fields _ _ b c
theorem undef00000 (a : BitVec 3) (b c : Byte) : Statement (.undef00000 a b c) := of_fields _ _ b c
theorem undef00011 (a : BitVec 1) (b c : Byte) : Statement (.undef00011 a b c) := of_fields _ _ b c
theorem undef00100 (a : BitVec 2) (b c : Byte) : Statement (.undef00100 a b c) := of_fields _ _ b c
theorem undef01010 (a : BitVec 3) (b c : Byte) : Statement (.undef01010 a b c) := of_fields _ _ b c
theorem undef01011 (a : BitVec 3) (b c : Byte) : Statement (.undef01011 a b c) := of_fields _ _ b c

end Sys2Proof.Laws.OperandBytes
end

