-- ==== Sys2Proof/Tests/Slice0.lean ====
section
/-! SUPPORT. Tests: the checks of WellFormed, the decoding of written-out words, small steps whose results are those of
95_test_vectors.md (the vector is named in each docstring), and one witness for every statement that has hypotheses. -/

namespace Sys2Proof.Tests

open Sys2Proof Sys2Proof.Machine

-- One theorem after another: many evaluations by the kernel at once each take a thread.
set_option Elab.async false

/-! ### Helpers -/

/-- The outcome is a next state with this property. -/
def ends (r : Result) (f : State → Bool) : Bool :=
  match r with
  | .next t => f t
  | .fault _ => false
  | .refused _ => false

theorem goes {r : Result} (h : ends r (fun _ => true) = true) : ∃ t, r = .next t := by
  cases r with
  | next t => exact ⟨t, rfl⟩
  | fault _ => cases h
  | refused _ => cases h

/-- The common start state of the vectors: the instruction is the L half of local memory word hex 80, the protect bit is
bit 5. -/
def base : State :=
  { State.reset with
    cfg := { Config.default with mmProtectBit := 5 }
    run := true
    ex := true
    ia1 := 0x81
    ia0 := 0x01
    cf := 0x10 }

/-- The start of the fetch vectors: nothing in P-L, IA as given. -/
def fetchAt (a : InstrAddr) : State := { base with ex := false, cf := 0, ia1 := iaHigh a, ia0 := iaLow a }

/-- Scratchpad word k, local memory word a, main memory word a replaced. -/
def sm (k : BitVec 3) (v : Word) (s : State) : State := setSM s k v

def lm (a : Nat) (v : Word) (s : State) : State := { s with lm := memWrite s.lm a v }

def mm (a : Nat) (v : Word) (s : State) : State := { s with mm := memWrite s.mm a v }

/-- Cluster k calls with this word for the DCP. -/
def calling (k a : BitVec 4) (cc : BitVec 5) (dc : BitVec 9) (s : State) : State :=
  setCluster s k { clusterOf s k with cir := { cs := .forDcp, ad := a, cc := cc, dc := dc } }

/-- Cluster k is not fitted. -/
def unfitted (k : BitVec 4) (s : State) : State := setCluster s k { clusterOf s k with present := false }

/-- The breakpoint switches. -/
def bkpSwitches (w : BkpSwitch) (c2 c1 c0 : CodeSwitch) (s : State) : State :=
  { s with env := { s.env with panel := { s.env.panel with bkp := w, code2 := c2, code1 := c1, code0 := c0 } } }

/-- A B 5700. -/
def onB5700 (s : State) : State := { s with cfg := { s.cfg with mainframe := .b5700 } }

/-- The installation that follows the table of R508 on SMRD to the letter. -/
def smrdRuns (s : State) : State := { s with cfg := { s.cfg with smrdSameWordFaults := false } }

/-- The installation that follows the corner cases of R202 and R203 at the adapter cluster error. -/
def literalErrors (s : State) : State := { s with cfg := { s.cfg with clusterErrorPrecise := false } }

/-- The installation whose BRAN tests CAN too (R385). -/
def branOnCan (s : State) : State := { s with cfg := { s.cfg with branTestsCan := true } }

/-- The MA register, CF, as set by a vector. -/
def withMA (h : Half) (s : State) : State := setMA s h

/-! ### WellFormed: an ill-formed term for each check -/

theorem test_undef00000_is_not_idle : (Instr.undef00000 0 0x12 0x34).wellFormed = false := by decide

theorem test_undef00100_is_not_bran : (Instr.undef00100 0 0x80 0x40).wellFormed = false := by decide

theorem test_leo01111_is_not_pary :
    (Instr.leo01111 0 0 0).wellFormed = false ∧ (Instr.leo01111 1 0 0).wellFormed = false := by decide

theorem test_rows_that_overlap_are_told_apart :
    (Instr.undef00000 1 0 0).wellFormed = true ∧ (Instr.undef00100 1 0 0).wellFormed = true ∧
      (Instr.leo01111 2 0 0).wellFormed = true := by decide

/-! ### Decoding: words written out from the encodings of R145 to R147, OP, A, B and C -/

theorem test_decode_group0 :
    decode (0b00000#5 ++ 0b000#3 ++ 0x00#8 ++ 0x00#8) = .idle 0 0 ∧
    decode (0b00001#5 ++ 0b101#3 ++ 0x80#8 ++ 0x10#8) = .bkp 5 0x80 0x10 ∧
    decode (0b00010#5 ++ 0b011#3 ++ 0x0B#8 ++ 0x85#8) = .awi 3 0x0B 0x85 ∧
    decode (0b00010#5 ++ 0b110#3 ++ 0x12#8 ++ 0x00#8) = .awrr 2 0x12 0 ∧
    decode (0b00011#5 ++ 0b000#3 ++ 0x00#8 ++ 0x00#8) = .mskw 0 0 ∧
    decode (0b00011#5 ++ 0b001#3 ++ 0x00#8 ++ 0x00#8) = .mskr 0 0 ∧
    decode (0b00011#5 ++ 0b011#3 ++ 0x00#8 ++ 0x00#8) = .nop00011 1 0 0 ∧
    decode (0b00011#5 ++ 0b100#3 ++ 0x03#8 ++ 0x0F#8) = .shft 3 0x0F ∧
    decode (0b00011#5 ++ 0b101#3 ++ 0x03#8 ++ 0x00#8) = .heyu 3 0 := by decide

theorem test_decode_undefined :
    decode (0b00000#5 ++ 0b010#3 ++ 0x12#8 ++ 0x34#8) = .undef00000 2 0x12 0x34 ∧
    decode (0b00011#5 ++ 0b111#3 ++ 0x00#8 ++ 0x01#8) = .undef00011 1 0 1 ∧
    decode (0b00100#5 ++ 0b101#3 ++ 0x80#8 ++ 0x40#8) = .undef00100 1 0x80 0x40 ∧
    decode (0b01010#5 ++ 0b000#3 ++ 0x00#8 ++ 0x00#8) = .undef01010 0 0 0 ∧
    decode (0b01011#5 ++ 0b111#3 ++ 0x00#8 ++ 0x00#8) = .undef01011 7 0 0 := by decide

theorem test_decode_group1 :
    decode (0b00100#5 ++ 0b000#3 ++ 0x80#8 ++ 0x40#8) = .arwn 0x80 0x40 ∧
    decode (0b00100#5 ++ 0b001#3 ++ 0x80#8 ++ 0x40#8) = .arin 0x80 0x40 ∧
    decode (0b00100#5 ++ 0b010#3 ++ 0x80#8 ++ 0x10#8) = .dbyz 0x80 0x10 ∧
    decode (0b00100#5 ++ 0b011#3 ++ 0x80#8 ++ 0x10#8) = .dbyn 0x80 0x10 ∧
    decode (0b00100#5 ++ 0b100#3 ++ 0x00#8 ++ 0x06#8) = .bran 0 6 ∧
    decode (0b00101#5 ++ 0b111#3 ++ 0x80#8 ++ 0x21#8) = .goto 7 0x80 0x21 ∧
    decode (0b00110#5 ++ 0b010#3 ++ 0x81#8 ++ 0x00#8) = .gox 2 0x81 0 ∧
    decode (0b00111#5 ++ 0b100#3 ++ 0x81#8 ++ 0x00#8) = .goi 4 0x81 0 := by decide

theorem test_decode_group2_moves :
    decode (0b01000#5 ++ 0b000#3 ++ 0x98#8 ++ 0x17#8) = .move 0x98 0x17 ∧
    decode (0b01000#5 ++ 0b100#3 ++ 0x98#8 ++ 0x17#8) = .move01000 0x98 0x17 ∧
    decode (0b01001#5 ++ 0b010#3 ++ 0x98#8 ++ 0x17#8) = .move01001 1 0x98 0x17 ∧
    decode (0b01000#5 ++ 0b010#3 ++ 0x98#8 ++ 0x00#8) = .smrd 0x98 0 ∧
    decode (0b01000#5 ++ 0b110#3 ++ 0x1F#8 ++ 0xA8#8) = .smwd 0x1F 0xA8 := by decide

theorem test_decode_group2_memory :
    decode (0b01000#5 ++ 0b001#3 ++ 0x1F#8 ++ 0x00#8) = .lmri 0x1F 0 ∧
    decode (0b01000#5 ++ 0b011#3 ++ 0x01#8 ++ 0x23#8) = .lmrd 1 0x23 ∧
    decode (0b01000#5 ++ 0b101#3 ++ 0x1F#8 ++ 0x00#8) = .lmwi 0x1F 0 ∧
    decode (0b01000#5 ++ 0b111#3 ++ 0x00#8 ++ 0x10#8) = .lmwd 0 0x10 ∧
    decode (0b01001#5 ++ 0b001#3 ++ 0x9C#8 ++ 0x00#8) = .mmr 0x9C 0 ∧
    decode (0b01001#5 ++ 0b011#3 ++ 0x1F#8 ++ 0x00#8) = .mmr01001 0x1F 0 ∧
    decode (0b01001#5 ++ 0b100#3 ++ 0x1F#8 ++ 0x00#8) = .mmwu 0x1F 0 ∧
    decode (0b01001#5 ++ 0b101#3 ++ 0x1F#8 ++ 0x00#8) = .mmwr 0x1F 0 ∧
    decode (0b01001#5 ++ 0b110#3 ++ 0x1F#8 ++ 0x00#8) = .mmwp 0x1F 0 ∧
    decode (0b01001#5 ++ 0b111#3 ++ 0x1F#8 ++ 0x00#8) = .mwrp 0x1F 0 := by decide

theorem test_decode_group3 :
    decode (0b01100#5 ++ 0b011#3 ++ 0x10#8 ++ 0x18#8) = .had 3 0x10 0x18 ∧
    decode (0b01100#5 ++ 0b100#3 ++ 0x9C#8 ++ 0x00#8) = .hsb 0 0x9C 0 ∧
    decode (0b01101#5 ++ 0b000#3 ++ 0x02#8 ++ 0x18#8) = .hadb 0 2 0x18 ∧
    decode (0b01101#5 ++ 0b111#3 ++ 0x01#8 ++ 0x18#8) = .hsbb 3 1 0x18 ∧
    decode (0b01110#5 ++ 0b101#3 ++ 0x11#8 ++ 0x09#8) = .tran 5 0x11 0x09 ∧
    decode (0b01111#5 ++ 0b001#3 ++ 0x09#8 ++ 0x00#8) = .pary 1 0x09 0 ∧
    decode (0b01111#5 ++ 0b010#3 ++ 0x09#8 ++ 0x11#8) = .leo01111 2 0x09 0x11 := by decide

theorem test_decode_group4_arithmetic :
    decode (0b11101#5 ++ 0b010#3 ++ 0x12#8 ++ 0x11#8) = .add 2 0x12 0x11 ∧
    decode (0b11110#5 ++ 0b011#3 ++ 0x01#8 ++ 0x12#8) = .addb 3 1 0x12 ∧
    decode (0b11111#5 ++ 0b001#3 ++ 0x11#8 ++ 0x01#8) = .addc 1 0x11 1 ∧
    decode (0b10000#5 ++ 0b010#3 ++ 0x12#8 ++ 0x00#8) = .sub 2 0x12 0 ∧
    decode (0b11000#5 ++ 0b100#3 ++ 0x30#8 ++ 0x14#8) = .subb 4 0x30 0x14 ∧
    decode (0b11100#5 ++ 0b011#3 ++ 0x12#8 ++ 0x00#8) = .subc 3 0x12 0 ∧
    decode (0b10100#5 ++ 0b101#3 ++ 0x11#8 ++ 0x0F#8) = .laom 5 0x11 0x0F := by decide

theorem test_decode_group4_logic :
    decode (0b10101#5 ++ 0b010#3 ++ 0x12#8 ++ 0x11#8) = .lan 2 0x12 0x11 ∧
    decode (0b10110#5 ++ 0b001#3 ++ 0x0F#8 ++ 0x11#8) = .lanb 1 0x0F 0x11 ∧
    decode (0b10111#5 ++ 0b011#3 ++ 0x0A#8 ++ 0x1F#8) = .lanc 3 0x0A 0x1F ∧
    decode (0b10001#5 ++ 0b000#3 ++ 0x09#8 ++ 0xFE#8) = .lor 0 0x09 0xFE ∧
    decode (0b10010#5 ++ 0b000#3 ++ 0x41#8 ++ 0x09#8) = .lorb 0 0x41 0x09 ∧
    decode (0b10011#5 ++ 0b100#3 ++ 0x11#8 ++ 0x0F#8) = .lorc 4 0x11 0x0F ∧
    decode (0b11001#5 ++ 0b010#3 ++ 0x09#8 ++ 0x11#8) = .leo 2 0x09 0x11 ∧
    decode (0b11010#5 ++ 0b010#3 ++ 0xFF#8 ++ 0x11#8) = .leob 2 0xFF 0x11 ∧
    decode (0b11011#5 ++ 0b100#3 ++ 0x14#8 ++ 0x01#8) = .leoc 4 0x14 1 := by decide

/-- A short byte sequence is rejected by name, a long one leaves its rest. -/
theorem test_decode_bytes :
    decodeBytes [0x18, 0x00] = .error .truncated ∧ decodeBytes [0x18, 0x00, 0x00, 0x55] = .ok (.mskw 0 0, [0x55]) := by
  exact ⟨rfl, rfl⟩

/-! ### An instruction placed where the next step fetches it -/

theorem test_first_step_runs_the_placed_instruction :
    ends (step (State.reset.withFetchWord 24 0xD2FF11)) (fun t => t.x == 0xFF && t.run) = true ∧
    ends (step (State.reset.withFetchWord 24 0x2F8021)) (fun t => ia t == 0x8021 && !t.ex) = true := by decide +kernel

/-! ### One step of each instruction, with the results of the vectors -/

/-- Vector V001. -/
theorem test_idle_is_held :
    ends (exec (.idle 0 0) (base)) (fun t => t.ex && t.p == 0 && ia t == 0x8101) = true := by
  decide +kernel

/-- Vector V002. -/
theorem test_undef00000_is_held :
    ends (exec (.undef00000 2 0x12 0x34) (base)) (fun t => t.ex && ia t == 0x8101) = true := by
  decide +kernel

/-- Vector V004. -/
theorem test_undef00100_is_held :
    ends (exec (.undef00100 1 0x80 0x40) (base)) (fun t => t.ex && ia t == 0x8101) = true := by
  decide +kernel

/-- Vector V003. -/
theorem test_undef01010_is_held :
    ends (exec (.undef01010 0 0 0) (base)) (fun t => t.ex && ia t == 0x8101) = true := by
  decide +kernel

/-- R146. -/
theorem test_undef00011_is_held :
    ends (exec (.undef00011 0 0 0) (base)) (fun t => t.ex && ia t == 0x8101) = true := by
  decide +kernel

/-- R146. -/
theorem test_undef01011_is_held :
    ends (exec (.undef01011 0 0 0) (base)) (fun t => t.ex && ia t == 0x8101) = true := by
  decide +kernel

/-- Vector V005. -/
theorem test_nop00011_keeps_flags :
    ends (exec (.nop00011 0 0 0) ({ base with x := 0x55, cf := 0x13 })) (fun t => t.x == 0x55 && cf0 t && cf1 t && ia t == 0x8102) = true := by
  decide +kernel

/-- Vector V007. -/
theorem test_bkp_branches :
    ends (exec (.bkp 5 0x80 0x10)
      (bkpSwitches .branch .one .off .one (withMA 0x000123 { base with cf := 0x12, ia1 := 0x80, ia0 := 0x45 })))
      (fun t => ma t == 0x128045 && smWord t 0 == 0x123 && ia t == 0x8010 && !cf1 t) = true := by
  decide +kernel

/-- Vector V008. -/
theorem test_bkp_code_must_agree :
    ends (exec (.bkp 5 0x80 0x10)
      (bkpSwitches .branch .zero .off .one (withMA 0x000123 { base with cf := 0x12 })))
      (fun t => ma t == 0x000123 && ia t == 0x8102 && cf1 t) = true := by
  decide +kernel

/-- Vector V011. -/
theorem test_awi_sends :
    ends (exec (.awi 0 0 0)
      ({ base with aa := 0x23, ac := 0x09, ai := 0xC1, cf := 0x30 }))
      (fun t => (clusterOf t 2).cir == { cs := .forCluster, ad := 3, cc := 9, dc := 0x1C1 } && t.ai == 0xC1) = true := by
  decide +kernel

/-- Vector V014, but for AI, which R360, R364 and D29 leave as it was. -/
theorem test_awi_not_answered :
    ends (exec (.awi 3 0 0x14) (unfitted 9 { base with aa := 0x93 })) (fun t => t.ai == 0 && ma t == 0x108101 && t.cf == 0x08 && ia t == 0x8003 && i19 t && !t.ex) = true := by
  decide +kernel

/-- Vector W1. -/
theorem test_awrr_brings_the_answer :
    ends (exec (.awrr 2 0x12 0)
      (setCluster { base with aa := 0x23 } 2 (setAdapter Cluster.cleared 3 { Adapter.cleared with bc := 4, bi := 3 })))
      (fun t => t.ac == 0x12 && t.ai == 0x43 && !i21 t && t.aa == 0x23) = true := by
  decide +kernel

/-- Vector W2. -/
theorem test_awrr_control_sets_bc0 :
    ends (exec (.awrr 2 0x1A 0)
      (setCluster { base with aa := 0x23 } 2 (setAdapter Cluster.cleared 3 { Adapter.cleared with bc := 4, bi := 3 })))
      (fun t => t.ac == 0x1A && t.ai == 0x53 && (adapterOf (clusterOf t 2) 3).bc == 5) = true := by
  decide +kernel

/-- Vector V015. -/
theorem test_mskw_loads_the_mask :
    ends (exec (.mskw 0 0) ({ base with ac := 0x80, ai := 0x01 })) (fun t => t.cm == 0x8001) = true := by
  decide +kernel

/-- Vector V016. -/
theorem test_mskr_reads_the_mask :
    ends (exec (.mskr 0 0) ({ base with cm := 0x8001, aa := 0x5A, cf := 0x30 })) (fun t => t.aa == 0 && t.ac == 0x80 && t.ai == 0x01 && t.cf == 0x10) = true := by
  decide +kernel

/-- Vector V017. -/
theorem test_shft_concatenates :
    ends (exec (.shft 3 0x0F) (withMA 0x123456 { base with cf := 0x13 })) (fun t => ma t == 0x012345 && t.cf == 0x10) = true := by
  decide +kernel

/-- A7, 010101. -/
theorem test_shft_end_around_skips :
    ends (exec (.shft 0 0x15) (withMA 0x818181 base)) (fun t => ma t == 0xC08140) = true := by
  decide +kernel

/-- Vector V026. -/
theorem test_heyu_signals :
    ends (exec (.heyu 3 0) (base)) (fun t => t.env.hostAttention && t.cf == 0x10) = true := by
  decide +kernel

/-- Vector V030. -/
theorem test_arwn_reads :
    ends (exec (.arwn 0x80 0x40)
      (calling 0 3 1 0x0C1 { base with cm := 1, aa := 0xFF, ac := 0xFF, cf := 0x11 }))
      (fun t => t.aa == 0x03 && t.ac == 0x01 && t.ai == 0xC1 && cf0 t && ia t == 0x8102) = true := by
  decide +kernel

/-- Vector V033. -/
theorem test_arwn_branches_on_san :
    ends (exec (.arwn 0x80 0x40) (calling 0 3 1 0x0C1 { base with cf := 0x90 })) (fun t => !i23 t && ia t == 0x8040 && t.aa == 0) = true := by
  decide +kernel

/-- Vector V037. -/
theorem test_arin_branches :
    ends (exec (.arin 0x80 0x40) (calling 2 3 1 0x141 { base with cm := 4 })) (fun t => t.aa == 0x23 && t.ac == 0x01 && t.ai == 0x41 && i21 t && ia t == 0x8040) = true := by
  decide +kernel

/-- Vector V036. -/
theorem test_arin_goes_on :
    ends (exec (.arin 0x80 0x40) ({ base with cm := 4, cf := 0x92 })) (fun t => i23 t && cf1 t && ia t == 0x8102) = true := by
  decide +kernel

/-- Vector V038. -/
theorem test_dbyz_decrements :
    ends (exec (.dbyz 0x80 0x10) ({ base with y := 1, cf := 0x11 })) (fun t => t.y == 0 && cf0 t && ia t == 0x8102) = true := by
  decide +kernel

/-- Vector V039. -/
theorem test_dbyz_branches_on_zero :
    ends (exec (.dbyz 0x80 0x10) ({ base with cf := 0x11 })) (fun t => t.y == 0 && !cf0 t && ia t == 0x8010) = true := by
  decide +kernel

/-- Vector V041. -/
theorem test_dbyn_branches_on_one :
    ends (exec (.dbyn 0x80 0x10) ({ base with y := 1 })) (fun t => t.y == 0 && ia t == 0x8010) = true := by
  decide +kernel

/-- Vector V042. -/
theorem test_dbyn_falls_through :
    ends (exec (.dbyn 0x80 0x10) ({ base with cf := 0x12 })) (fun t => t.y == 0 && cf1 t && ia t == 0x8102) = true := by
  decide +kernel

/-- Vector V043. -/
theorem test_bran_clears_san :
    ends (exec (.bran 0 6) ({ base with cf := 0x93 })) (fun t => t.cf == 0x00 && ia t == 0x0006) = true := by
  decide +kernel

/-- Vector V044. -/
theorem test_bran_falls_through :
    ends (exec (.bran 0 6) ({ base with cf := 0x13 })) (fun t => t.cf == 0x13 && ia t == 0x8102) = true := by
  decide +kernel

/-- Vector V047. -/
theorem test_goto_never_branches :
    ends (exec (.goto 0 0x80 0x21) ({ base with cf := 0x13 })) (fun t => t.cf == 0x13 && ia t == 0x8102) = true := by
  decide +kernel

/-- Vector V046. -/
theorem test_goto_on_equal :
    ends (exec (.goto 4 0 0) ({ base with cf := 0x11 })) (fun t => t.cf == 0x11 && ia t == 0x8102) = true := by
  decide +kernel

/-- Vector V049. -/
theorem test_gox_wraps :
    ends (exec (.gox 7 0xFF 0xFE) ({ base with x := 5 })) (fun t => ia t == 0x0003) = true := by
  decide +kernel

/-- Vector V051. -/
theorem test_goi_adds_the_addressed_byte :
    ends (exec (.goi 7 0x81 0) (sm 3 0x0000004000000 { base with y := 0x9B })) (fun t => ia t == 0x8104) = true := by
  decide +kernel

/-- Vector V053. -/
theorem test_goi_falls_through :
    ends (exec (.goi 4 0x81 0) ({ base with y := 0x11, x := 2 })) (fun t => ia t == 0x8102) = true := by
  decide +kernel

/-- Vector V064. -/
theorem test_move_stores_selected_rows :
    ends (exec (.move 0 0x12) (withMA 0xAABBCC base)) (fun t => t.y == 0xBB && ma t == 0 && t.d == 0 && t.x == 0) = true := by
  decide +kernel

/-- Vector V065. -/
theorem test_move_returns_from_a_fault :
    ends (exec (.move 0x84 0x27)
      (sm 0 0x123 (withMA 0x128045 { base with cf := 0x18, ia1 := 0x80, ia0 := 0x62 })))
      (fun t => ma t == 0x000123 && ia t == 0x8045 && cf1 t && !i19 t && !t.ex) = true := by
  decide +kernel

/-- Vector V068. -/
theorem test_move01000_moves :
    ends (exec (.move01000 0x98 0x17) (sm 3 0x0010203000000 (withMA 0xAABBCC base))) (fun t => ma t == 0x010203 && t.d == 0xAA && t.y == 0xBB && t.x == 0xCC) = true := by
  decide +kernel

/-- Vector V069. -/
theorem test_move01001_goes_indirect :
    ends (exec (.move01001 1 0x40 0x40)
      (sm 3 0x0010203000000 (withMA 0xAABBCC { base with y := 0x98, d := 0x17 })))
      (fun t => ma t == 0x010203 && t.d == 0xAA && t.y == 0xBB && t.x == 0xCC) = true := by
  decide +kernel

/-- Vector V070. -/
theorem test_smrd_takes_the_tag :
    ends (exec (.smrd 0x98 0) (sm 3 0xE123456789ABC (withMA 0x777 base))) (fun t => t.w == 0xE123456789ABC && ma t == 0x777) = true := by
  decide +kernel

/-- Vector V072. -/
theorem test_smrd_ors_into_w :
    ends (exec (.smrd 0x98 0x37) (sm 3 0x6123456000F00 (withMA 0xF1 base))) (fun t => t.w == 0x6123456000FF1) = true := by
  decide +kernel

/-- Vector V074. -/
theorem test_smwd_stores_the_word :
    ends (exec (.smwd 0x1F 0xA8) (withMA 0x777 { base with w := 0x6000000000040 })) (fun t => smWord t 5 == 0x6000000000040 && ma t == 0x777) = true := by
  decide +kernel

/-- Vector V075. -/
theorem test_smwd_stores_left_half :
    ends (exec (.smwd 0 0x0F) (withMA 0x777 { base with w := 0x02301C5000000, cf := 0x30 })) (fun t => t.aa == 0x23 && t.ac == 0x01 && t.ai == 0xC5 && ma t == 0 && i21 t) = true := by
  decide +kernel

/-- Vector V077. -/
theorem test_lmri_reads :
    ends (exec (.lmri 0x9C 0) (lm 0x123 0xE112233445566 (sm 3 0x123 (withMA 0x999 base)))) (fun t => ma t == 0x123 && t.w == 0xE112233445566) = true := by
  decide +kernel

/-- Vector V079. -/
theorem test_lmri_checks_parity :
    ends (exec (.lmri 0x1F 0) (lm 0x123 0x6112233445566 (withMA 0x123 base))) (fun t => t.w == 0x6112233445566 && smWord t 0 == 0x123 && ia t == 0x8002 && i19 t && !t.ex) = true := by
  decide +kernel

/-- Vector V080. -/
theorem test_lmrd_reads :
    ends (exec (.lmrd 1 0x23) (lm 0x123 0xE112233445566 (withMA 0x999 base))) (fun t => t.w == 0xE112233445566 && ma t == 0x999) = true := by
  decide +kernel

/-- Vector V081. -/
theorem test_lmrd_past_the_module :
    ends (exec (.lmrd 0x10 0) (withMA 0x999 base)) (fun t => ma t == 0x108101 && smWord t 0 == 0x999 && t.cf == 0x08 && ia t == 0x8001 && i19 t && !t.ex) = true := by
  decide +kernel

/-- Vector V083. -/
theorem test_lmwi_generates_parity :
    ends (exec (.lmwi 0x1F 0) (withMA 0x200 { base with w := 0x62F8000000000 })) (fun t => t.w == 0xE2F8000000000 && memRead t.lm 0x200 == 0xE2F8000000000) = true := by
  decide +kernel

/-- Vector V084. -/
theorem test_lmwd_drops_wrong_parity :
    ends (exec (.lmwd 0 0x10) (withMA 0x999 { base with w := 0x8000000000001 })) (fun t => t.w == 1 && memRead t.lm 0x10 == 1 && memRead t.lm 0x11 == 0) = true := by
  decide +kernel

/-- Vector V086. -/
theorem test_mmr_requests :
    ends (exec (.mmr 0x9C 0) (sm 3 0x12345 base)) (fun t => ma t == 0x012345 && t.ba == 0x12345 && t.pending == some { kind := .read, data := 0, granted := false }) = true := by
  decide +kernel

/-- Vector V092. -/
theorem test_mmr01001_requests :
    ends (exec (.mmr01001 0x1F 0) (withMA 0x300100 base)) (fun t => t.ba == 0x00100 && macc t == false && mcyn t) = true := by
  decide +kernel

/-- Vector V087. -/
theorem test_mmwu_requests :
    ends (exec (.mmwu 0x1F 0) (withMA 0x100 { base with w := 0xAB })) (fun t => t.pending == some { kind := .write, data := 0xAB, granted := false } && t.mm == []) = true := by
  decide +kernel

/-- Vector V088. -/
theorem test_mmwr_requests :
    ends (exec (.mmwr 0x1F 0) (withMA 0x100 { base with w := 0xAA })) (fun t => t.pending == some { kind := .writeRead, data := 0x80000000000AA, granted := false }) = true := by
  decide +kernel

/-- Vector M2. -/
theorem test_mmwp_denied :
    ends (exec (.mmwp 0x1F 0) (mm 0x100 0x20 (withMA 0x100 { base with w := 0x40 }))) (fun t => (mmCompletes { t with run := true }).mm == (mm 0x100 0x20 base).mm && ia (mmCompletes t) == 0x8004 && (mmCompletes t).w == 0x40) = true := by
  decide +kernel

/-- Vector M3. -/
theorem test_mwrp_permitted :
    ends (exec (.mwrp 0x1F 0) (mm 0x100 0x10 (withMA 0x100 { base with w := 0x40 }))) (fun t => memRead (mmCompletes t).mm 0x100 == 0x40 && (mmCompletes t).w == 0x10 && (mmCompletes t).pending.isNone) = true := by
  decide +kernel

/-- Vector V100. -/
theorem test_had_ignores_the_carry :
    ends (exec (.had 0 0x10 0x18) (withMA 0x00FFFF { base with x := 1, cf := 0x11 })) (fun t => ma t == 0x010000 && t.cf == 0x10) = true := by
  decide +kernel

/-- Vector V102. -/
theorem test_had_carries :
    ends (exec (.had 0 0x10 0) (withMA 0x800000 { base with d := 0x80 })) (fun t => ma t == 0x800000 && t.cf == 0x13) = true := by
  decide +kernel

/-- Vector V108. -/
theorem test_hadb_literal_is_not_indirect :
    ends (exec (.hadb 0 0x41 0x18) (withMA 1 { base with y := 0x99 })) (fun t => ma t == 0x42) = true := by
  decide +kernel

/-- Vector V110. -/
theorem test_hsb_borrows :
    ends (exec (.hsb 0 0x9C 0) (sm 3 0x200 (withMA 0x100 base))) (fun t => ma t == 0x100 && t.cf == 0x11) = true := by
  decide +kernel

/-- Vector V112. -/
theorem test_hsbb_wraps :
    ends (exec (.hsbb 0 1 0x18) (base)) (fun t => ma t == 0xFFFFFF && t.cf == 0x11) = true := by
  decide +kernel

/-- Vector V115. -/
theorem test_tran_ebcdic_to_usascii :
    ends (exec (.tran 0 0x09 0xFE) ({ base with ai := 0xC1 })) (fun t => t.w == 0x41) = true := by
  decide +kernel

/-- Vector V132. -/
theorem test_tran_carry_of_b5700 :
    ends (exec (.tran 5 0x09 0x11) (onB5700 { base with ai := 0x0D })) (fun t => t.x == 0x2C && t.cf == 0x11) = true := by
  decide +kernel

/-- Vector V135. -/
theorem test_pary_sets_the_ninth_bit :
    ends (exec (.pary 1 0x11 0x09) ({ base with x := 0x41, cf := 0x11 })) (fun t => t.ai == 0x41 && t.cf == 0x30) = true := by
  decide +kernel

/-- Vector V136. -/
theorem test_pary_checks_nine_bits :
    ends (exec (.pary 1 0x09 0) ({ base with ai := 0x41, cf := 0x30 })) (fun t => t.cf == 0x32) = true := by
  decide +kernel

/-- Vector V142. -/
theorem test_leo01111_compares :
    ends (exec (.leo01111 2 0x09 0x11) ({ base with x := 0x5A, ai := 0x5A })) (fun t => t.x == 0 && t.cf == 0x12) = true := by
  decide +kernel

/-- Vector V150. -/
theorem test_add_takes_the_carry :
    ends (exec (.add 2 0x12 0x11) ({ base with x := 0xF0, y := 0x20, cf := 0x11 })) (fun t => t.x == 0x11 && t.cf == 0x11) = true := by
  decide +kernel

/-- Vector V156. -/
theorem test_add_to_cf_keeps_the_byte :
    ends (exec (.add 0 0x12 0x24) ({ base with y := 0x83 })) (fun t => t.cf == 0x93) = true := by
  decide +kernel

/-- Vector V158. -/
theorem test_addb_wraps :
    ends (exec (.addb 3 1 0x12) ({ base with y := 0xFF })) (fun t => t.y == 0 && t.cf == 0x13) = true := by
  decide +kernel

/-- Vector V161. -/
theorem test_addc_back_to_b :
    ends (exec (.addc 1 0x11 1) ({ base with x := 0x10 })) (fun t => t.x == 0x11 && t.cf == 0x10) = true := by
  decide +kernel

/-- Vector V162. -/
theorem test_addc_back_to_scratchpad_faults :
    ends (exec (.addc 1 0x9E 1) (sm 3 7 base)) (fun t => smWord t 3 == 7 && ia t == 0x8008 && i19 t && !t.ex) = true := by
  decide +kernel

/-- Vector V168. -/
theorem test_sub_borrows :
    ends (exec (.sub 2 0x12 0x11) ({ base with cf := 0x11 })) (fun t => t.x == 0xFF && t.cf == 0x11) = true := by
  decide +kernel

/-- Vector V165. -/
theorem test_sub_compares :
    ends (exec (.sub 2 0x12 0) ({ base with x := 5, y := 7 })) (fun t => t.x == 5 && t.cf == 0x11) = true := by
  decide +kernel

/-- Vector V171. -/
theorem test_subb_subtracts_the_literal :
    ends (exec (.subb 4 0x38 0x14) ({ base with d := 0x37 })) (fun t => t.d == 0xFF && t.cf == 0x11) = true := by
  decide +kernel

/-- Vector V173. -/
theorem test_subc_subtracts_from_the_literal :
    ends (exec (.subc 2 0x12 0x0A) ({ base with y := 3 })) (fun t => t.x == 7 && t.cf == 0x10) = true := by
  decide +kernel

/-- Vector V174. -/
theorem test_lan_clears_the_carry :
    ends (exec (.lan 2 0x12 0x11) ({ base with x := 0x3C, y := 0x0F, cf := 0x11 })) (fun t => t.x == 0x0C && t.cf == 0x10) = true := by
  decide +kernel

/-- Vector V176. -/
theorem test_lanb_masks :
    ends (exec (.lanb 1 0x0F 0x11) ({ base with aa := 0x23 })) (fun t => t.x == 3) = true := by
  decide +kernel

/-- Vector V178. -/
theorem test_lanc_tests_san :
    ends (exec (.lanc 0 0x24 0x80) ({ base with cf := 0x91 })) (fun t => t.cf == 0x90) = true := by
  decide +kernel

/-- Vector V180. -/
theorem test_lanc_back_to_scratchpad :
    ends (exec (.lanc 1 0x9A 0x0F) (sm 3 0x000F500000000 base)) (fun t => smWord t 3 == 0x0000500000000) = true := by
  decide +kernel

/-- Vector V183. -/
theorem test_laom_takes_its_own_row :
    ends (exec (.laom 3 0x11 0x0F) (withMA 0x00C005 { base with x := 0x37 })) (fun t => t.y == 0xC7) = true := by
  decide +kernel

/-- Vector V184. -/
theorem test_laom_only_tests :
    ends (exec (.laom 0 0x11 0x0F) (withMA 0xFFFFFF { base with x := 0x30 })) (fun t => t.cf == 0x12) = true := by
  decide +kernel

/-- Vector V186. -/
theorem test_lor_gathers_rows :
    ends (exec (.lor 0 0x0F 0x11) ({ base with aa := 0x20, ac := 0x01, ai := 0x40 })) (fun t => t.x == 0x61) = true := by
  decide +kernel

/-- Vector V189. -/
theorem test_lor_reads_the_tag :
    ends (exec (.lor 0 0xFF 0x11) ({ base with w := 0xE000000000000 })) (fun t => t.x == 0x0E) = true := by
  decide +kernel

/-- Vector V192. -/
theorem test_lorb_spreads_over_rows :
    ends (exec (.lorb 0 0x55 0x17) (base)) (fun t => t.d == 0x55 && t.y == 0x55 && t.x == 0x55) = true := by
  decide +kernel

/-- Vector V195. -/
theorem test_lorb_to_ia_orders_a_fetch :
    ends (exec (.lorb 0 0x40 0x21) (base)) (fun t => ia t == 0x8140 && !t.ex) = true := by
  decide +kernel

/-- Vector V198. -/
theorem test_lorc_stores_in_d :
    ends (exec (.lorc 4 0x11 0x0F) ({ base with x := 0xA0 })) (fun t => t.d == 0xAF) = true := by
  decide +kernel

/-- Vector V200. -/
theorem test_leo_to_the_same_scratchpad_faults :
    ends (exec (.leo 0 0x99 0x99) (sm 3 0x0550000000000 base)) (fun t => smWord t 3 == 0x0550000000000 && ia t == 0x8008 && i19 t && !t.ex) = true := by
  decide +kernel

/-- Vector V201. -/
theorem test_leob_inverts :
    ends (exec (.leob 2 0xFF 0x11) ({ base with x := 0x0F })) (fun t => t.x == 0xF0) = true := by
  decide +kernel

/-- Vector V202. -/
theorem test_leoc_flips_one_bit :
    ends (exec (.leoc 4 0x14 1) ({ base with d := 6 })) (fun t => t.d == 7) = true := by
  decide +kernel

/-! ### Fetch, faults and orders, with the results of the vectors -/

/-- Vector F01: L is executed, R is in P-L. -/
theorem test_fetch_local :
    ends (step (lm 0x10 0xE905512906611 (fetchAt 0x8020)))
      (fun t => t.y == 0x55 && t.cf == 0x10 && ia t == 0x8022 && t.ex && wordLeft t.p == 0x906611) = true := by
  decide +kernel

/-- Vector F04: the R half of a word of main memory, relative to the base address. -/
theorem test_fetch_main :
    ends (step (mm 0x409 0xE905512906611 (sm 0 0x0000800000000 (fetchAt 0x0013))))
      (fun t => t.x == 0x66 && ia t == 0x0014 && t.ba == 0x409 && !t.ex) = true := by
  decide +kernel

/-- Vector F09: a wrong tag. -/
theorem test_fetch_wrong_tag :
    ends (step (lm 0x10 0x8905512906611 (fetchAt 0x8020)))
      (fun t => ma t == 0x008020 && t.cf == 0x08 && ia t == 0x8008 && wordLeft t.p == 0x088008) = true := by
  decide +kernel

/-- Vector F14: out of control, taken from local memory. -/
theorem test_out_of_control :
    ends (step (lm 0x10 0x8905512906611 { fetchAt 0x8020 with cf := 0x08 }))
      (fun t => ma t == 0x088020 && ia t == 0x0010 && wordLeft t.p == 0x080010 && t.run) = true := by
  decide +kernel

/-- Vector S1: Initialize of a DCP that runs the IDLE of V001. -/
theorem test_initialise :
    (scanOut base 0 0x400 true).run = true ∧ wordLeft (smWord (scanOut base 0 0x400 true) 0) = 0x000800 ∧
      ma (scanOut base 0 0x400 true) = 0x108101 ∧ ia (scanOut base 0 0x400 true) = 0 ∧
      (scanOut base 0 0x400 true).cf = 0x08 := by decide +kernel

/-- Vector F16: with RUN off nothing is done. -/
theorem test_stopped : step { fetchAt 0x8020 with run := false } = .fault .stopped := by rfl

/-! ### Clusters and the bootstrap -/

/-- An adapter of this type and command. -/
def adapter (ty : BitVec 6) (bc : BitVec 3) : Adapter := { Adapter.cleared with ty := ty, bc := bc }

/-- R458 (TY hex 14, a character 41 with parity bit 1), Table 5-6 with R426 (45.5 bps: five bits and the shift bit;
110 bps: seven and the parity bit) and the rows 3:3 and 5:2
of Table 5-8. -/
theorem test_characters :
    (lineEvent Cluster.cleared (adapter 0x14 2) (.received 0x141)).c2 = 0x341 ∧
      (lineEvent Cluster.cleared (adapter 0x11 2) (.received 0x1FF)).c2 = 0x23F ∧
      (lineEvent Cluster.cleared (adapter 0x14 2) (.received 0x1FF)).c2 = 0x37F ∧
      (lineEvent Cluster.cleared (adapter 0x14 2) (.received 0x141)).bi = 3 ∧
      (lineEvent Cluster.cleared (adapter 0x14 4) .transmitted).bi = 2 ∧
      (lineEvent Cluster.cleared (adapter 0x07 2) (.received 0x141)).dataPresent = false := by decide +kernel

/-- R411, R412, R418: a character goes through C1 to C2; a second one waits in C1, a third one is lost with Buffer Overflow, and the
waiting one moves up when the first has been read. -/
theorem test_two_characters :
    (let a := lineEvent Cluster.cleared (adapter 0x14 2) (.received 0x141)
     let b := lineEvent Cluster.cleared a (.received 0x042)
     let o := lineEvent Cluster.cleared b (.received 0x043)
     let d := lineEvent Cluster.cleared (causeTaken b .dataPresent) .c1ToC2
     a.c1 = 0x282 ∧ a.c2 = 0x341 ∧ a.c1Full = false ∧
       b.c1 = 0x084 ∧ b.c2 = 0x341 ∧ b.control = false ∧ lineEvent Cluster.cleared b .c1ToC2 = b ∧
       o.bi = 9 ∧ o.control = true ∧ o.c1 = 0x084 ∧ o.c2 = 0x341 ∧
       d.c2 = 0x242 ∧ d.dataPresent = true ∧ d.c1Full = false) := by decide +kernel

/-- Table 5-8 has Data Present for Receive and Byte Request for Transmit only: BC 4 receives nothing, BC 2 transmits nothing, Finish
Transmit sends the last character without a Byte Request; a Data Present that waits does not hide a Byte Request. -/
theorem test_data_causes_by_command :
    (lineEvent Cluster.cleared (adapter 0x14 4) (.received 0x41)).dataPresent = false ∧
      (lineEvent Cluster.cleared (adapter 0x14 2) .transmitted).byteRequest = false ∧
      (lineEvent Cluster.cleared { adapter 0x14 6 with c2 := 0x241 } .transmitted).byteRequest = false ∧
      (lineEvent Cluster.cleared { adapter 0x14 6 with c2 := 0x241 } .transmitted).c2 = 0x041 ∧
      (lineEvent Cluster.cleared { adapter 0x14 4 with dataPresent := true } .transmitted).bi = 2 := by decide +kernel

/-- R354 at a Halt of a B 6700 that finds EX off and I20 on, as a BKP stop leaves them. -/
theorem test_halt_notes_ex :
    (haltNow { fetchAt 0x8010 with cf := 0x10 }).cf = 0 ∧ (haltNow base).cf = 0x10 := by decide +kernel

/-- R201, R377: a hold by a cluster that a stop has ended does not delay a Halt when IDLE, set by hand, runs. -/
theorem test_idle_after_stopped_hold_is_halted :
    (let s := onB5700 { base with run := false, clusterWait := true, p := 0 }
     ends (step { panelStep s .pulse with stored := some .halt }) (fun t => !t.run && !t.ex)) = true := by decide +kernel

/-- Table 5-5 (Sync Fill only with D0 = 1) and the columns of Table 5-8. -/
theorem test_status_by_type :
    (lineEvent Cluster.cleared (adapter 0x0C 4) (.status 9)).control = false ∧
      (lineEvent Cluster.cleared (adapter 0x0D 4) (.status 9)).control = true ∧
      (lineEvent Cluster.cleared (adapter 0x14 4) (.status 9)).control = false ∧
      (lineEvent Cluster.cleared (adapter 0x1F 3) (.status 13)).control = true ∧
      (lineEvent Cluster.cleared (adapter 0x0D 3) (.status 13)).control = false := by decide +kernel

/-- Table 5-5 (D0 = 0: every sync character edited; D0 = 1: the first two in Initiate Receive mode), the USASCII pattern of Table
5-4, and a touch-tone character of four bits (R441). -/
theorem test_sync_editing :
    (lineEvent Cluster.cleared (adapter 0x0C 2) (.received 0x016)).dataPresent = false ∧
      (lineEvent Cluster.cleared (adapter 0x0D 2) (.received 0x016)).dataPresent = true ∧
      (lineEvent Cluster.cleared (adapter 0x0D 3) (.received 0x016)).dataPresent = false ∧
      (lineEvent Cluster.cleared { adapter 0x0D 3 with syncs := 2 } (.received 0x016)).dataPresent = true ∧
      (lineEvent Cluster.cleared (adapter 0x02 2) (.received 0x1FF)).c2 = 0x20F := by decide +kernel

/-- R417, R418: ID BUFF after the read of a disconnect, which is not generated again until the three seconds are over; a data
cause in between hides it only while it waits. -/
theorem test_idle_buffer :
    (let a := causeTaken (lineEvent Cluster.cleared (adapter 0x14 2) (.status 13)) .control
     a.bi = 1 ∧ (lineEvent Cluster.cleared a (.status 13)).control = false ∧
       (causeTaken (lineEvent Cluster.cleared a (.received 0x41)) .dataPresent).bi = 1 ∧
       (lineEvent Cluster.cleared a .idBuffEnd).bi = 0 ∧
       (lineEvent Cluster.cleared (lineEvent Cluster.cleared a .idBuffEnd) (.status 13)).control = true) := by
  decide +kernel

/-- R408: the second DCP's interrogate holds ARWN and AWI off; its plain write with AC4 = 1 holds nobody off. -/
theorem test_second_unit :
    (let s := { base with cm := 1 }
     let shared (awrr : Bool) := scanOne (otherWriteStep s 0 3 0x12 0 awrr) 0
     canOn (shared true) && writeReply (shared true) 0 == .wait && writeReply (shared false) 0 == .accepted &&
       ends (exec (.arwn 0 0) (shared true)) (fun t => t.aa == 0 && t.clusterWait) &&
       ends (exec (.arwn 0 0) (shared false)) (fun t => t.aa == 3 && t.ac == 0x12) &&
       ends (exec (.arwn 0 0) (otherReadStep (shared true) 0)) (fun t => t.clusterWait && !canOn t)) = true := by
  decide +kernel

/-- R419: CT stands while PT runs. -/
theorem test_ct_disabled :
    (lineEvent Cluster.cleared { adapter 0x14 2 with pt := 0x85 } (.lineSide 0 0 0 0 3)).ct = 0 ∧
      (lineEvent Cluster.cleared { adapter 0x14 2 with pt := 0xFF } (.lineSide 0 0 0 0 3)).ct = 3 := by decide +kernel

/-- Table 5-12: a write returned to the DCP, writing inhibited, the single step flip-flop. -/
theorem test_maintenance_register :
    (let c := takeWrite { Cluster.cleared with mr := 0x0C, cir := { cs := .forCluster, ad := 3, cc := 0, dc := 0x14 } } 0
     c.cir.cs == .forDcp && (adapterOf c 3).ty == 0x14) = true ∧
    (let c := takeWrite { Cluster.cleared with mr := 0x04, cir := { cs := .forCluster, ad := 3, cc := 0, dc := 0x14 } } 0
     c.cir.cs == .notOccupied && (adapterOf c 3).ty == 0) = true ∧
    (takeWrite { Cluster.cleared with cir := { cs := .forCluster, ad := 0, cc := 7, dc := 2 } } 0).singleStep = true := by
  decide +kernel

/-- R477: a write that the cluster holds leaves AA3F to AA0F alone, one that it takes counts them up. -/
theorem test_panel_counts :
    (let p : ClusterPanel := { aaf := 0x23, acf := 0, aif := 0x14, scf := 0, enable := true, state := .clusterWrite }
     let s := setClusterPanel base p
     (panelOperate s).env.clusterPanel.aaf == 0x24 && (panelOperate (panelOperate s)).env.clusterPanel.aaf == 0x24 &&
       (panelOperate (scanOne (panelOperate s) 2)).env.clusterPanel.aaf == 0x25) = true := by
  decide +kernel

/-! ### Witnesses: for each statement with hypotheses a concrete state and operands that meet them, for each clause one at a
boundary of its range -/

/-- base with an instruction word in P. -/
def inP (v : Word) : State := { base with p := v }

/-- A main memory access pending at word a. -/
def awaiting (k : AccessKind) (data : Word) (a : SysAddr) (s : State) : State :=
  { s with ba := a, pending := some { kind := k, data := data, granted := false } }

theorem running_base : Running base := ⟨rfl, rfl, rfl, rfl⟩

theorem base_inv : base.Inv := by unfold State.Inv; decide +kernel

theorem witness_decodeOfEncode :
    (Instr.leo01111 2 0xFF 0xFF).wellFormed = true ∧ (Instr.undef00000 7 0 0).wellFormed = true ∧
      (Instr.addc 7 0xFF 0xFF).wellFormed = true := by decide

theorem witness_encodeOfDecode : (Instr.undef00100 3 0xFF 0xFF).wellFormed = true := by decide

theorem witness_masterClear :
    (awaiting .write 1 0xFFFFF base).env.inputs = [] ∧ base.env.inputs = [] ∧ base.pending = none ∧
      Input.panel (.clear false) ∈ [Input.masterClear false, .panel (.clear false)] ∧
      Input.masterClear true ∈ [Input.masterClear true, .panel (.clear true)] := ⟨rfl, rfl, rfl, by simp, by simp⟩

theorem witness_stepKeepsInvariant : base.Inv ∧ ∃ t, step base = .next t := ⟨base_inv, goes (by decide +kernel)⟩

theorem witness_stepKeepsConfig : ∃ t, step (inP 0x018000A000000) = .next t := goes (by decide +kernel)

theorem witness_onlyMskwWritesMask :
    (∀ b c, Instr.mskr 0 0 ≠ .mskw b c) ∧ ∃ t, exec (.mskr 0 0) base = .next t :=
  ⟨by (intro b c h; cases h), goes (by decide +kernel)⟩

theorem witness_onlyLmWritesStoreLocal :
    (∀ b c, Instr.lmrd 0x0F 0xFF ≠ .lmwi b c ∧ Instr.lmrd 0x0F 0xFF ≠ .lmwd b c) ∧
      ∃ t, exec (.lmrd 0x0F 0xFF) base = .next t :=
  ⟨fun _ _ => ⟨by (intro h; cases h), by (intro h; cases h)⟩, goes (by decide +kernel)⟩

theorem witness_execKeepsMainMemory : base.pending = none ∧ ∃ t, exec (.mmwu 0x1F 0) base = .next t :=
  ⟨rfl, goes (by decide +kernel)⟩

theorem witness_stepRunsInstructionInP :
    Running (inP 0x01C030F000000) ∧ (inP 0x01C030F000000).ex = true ∧ (inP 0x01C030F000000).pending = none ∧
      wordLeft (inP 0x01C030F000000).p = encode (.shft 3 0x0F) ∧ (Instr.shft 3 0x0F).wellFormed = true := by
  refine ⟨⟨rfl, rfl, rfl, rfl⟩, rfl, rfl, ?_, rfl⟩
  decide +kernel

/-- The first word of local memory and the last one of the module, in both halves. -/
theorem witness_stepFetchesLocal :
    let s := lm 0xFFF 0xE905512906611 (fetchAt 0x9FFF)
    let r := lm 0 0xE905512906611 (fetchAt 0x8000)
    (Running s ∧ s.ex = false ∧ s.env.panel.hold = .off ∧ s.env.panel.stop = .off ∧ s.bstm = false ∧ s.pending = none ∧
      s.adapterWrite = none ∧ (ia s).getLsbD 15 = true ∧ lmExists s ((ia s).extractLsb' 1 14) = true ∧
      oddParity (memRead s.lm ((ia s).extractLsb' 1 14).toNat) = true ∧
      (memRead s.lm ((ia s).extractLsb' 1 14).toNat).extractLsb' 48 3 = 6 ∧ (ia s).getLsbD 0 = true ∧
      wordRight (memRead s.lm ((ia s).extractLsb' 1 14).toNat) = encode (.lorb 0 0x66 0x11)) ∧
    Running r ∧ (ia r).getLsbD 15 = true ∧ lmExists r ((ia r).extractLsb' 1 14) = true ∧ (ia r).getLsbD 0 = false ∧
      wordLeft (memRead r.lm ((ia r).extractLsb' 1 14).toNat) = encode (.lorb 0 0x55 0x12) := by
  refine ⟨⟨⟨rfl, rfl, rfl, rfl⟩, rfl, rfl, rfl, rfl, rfl, rfl, ?_, ?_, ?_, ?_, ?_, ?_⟩, ⟨rfl, rfl, rfl, rfl⟩, ?_, ?_, ?_, ?_⟩
  all_goals decide +kernel

/-- The last word of main memory, reached by wrapping (vectors F05, F06). -/
theorem witness_stepFetchesMain :
    let s := mm 0xFFFFF 0xE905512000000 (sm 0 0x01FFFFE000000 (fetchAt 0x0000))
    Running s ∧ s.ex = false ∧ s.env.panel.hold = .off ∧ s.env.panel.stop = .off ∧ s.bstm = false ∧ s.pending = none ∧
      s.adapterWrite = none ∧ (ia s).getLsbD 15 = false ∧ mmValid s (fetchAddress s) = true ∧ fetchAddress s = 0xFFFFF ∧
      s.env.mmErrors.headD false = false ∧
      instrFromHost s.cfg.mainframe (memRead s.mm (fetchAddress s).toNat) = 0xE905512000000 ∧
      oddParity (0xE905512000000 : Word) = true ∧ (0xE905512000000 : Word).extractLsb' 48 3 = 6 ∧
      (ia s).getLsbD 0 = false ∧ wordLeft (0xE905512000000 : Word) = encode (.lorb 0 0x55 0x12) := by
  refine ⟨⟨rfl, rfl, rfl, rfl⟩, rfl, rfl, rfl, rfl, rfl, rfl, ?_, ?_, ?_, ?_, ?_, ?_, ?_, ?_, ?_⟩
  all_goals decide +kernel

theorem witness_fetchAddressIsRelative :
    base.cfg.mainframe = .b6700 ∧ (onB5700 base).cfg.mainframe = .b5700 := ⟨rfl, rfl⟩

/-- Local memory: the first address past the module, even parity, a wrong tag (vectors F08 to F10). -/
theorem witness_fetchFaults_local :
    (let s := fetchAt 0xA000
     Running s ∧ s.ex = false ∧ s.env.panel.hold = .off ∧ s.bstm = false ∧ s.pending = none ∧
       (ia s).getLsbD 15 = true ∧ lmExists s ((ia s).extractLsb' 1 14) = false) ∧
    (let s := lm 0xFFF 0x6905512906611 (fetchAt 0x9FFE)
     (ia s).getLsbD 15 = true ∧ lmExists s ((ia s).extractLsb' 1 14) = true ∧
       oddParity (memRead s.lm ((ia s).extractLsb' 1 14).toNat) = false) ∧
    (let s := lm 0 0x8905512906611 (fetchAt 0x8000)
     (ia s).getLsbD 15 = true ∧ lmExists s ((ia s).extractLsb' 1 14) = true ∧
       oddParity (memRead s.lm ((ia s).extractLsb' 1 14).toNat) = true ∧
       (memRead s.lm ((ia s).extractLsb' 1 14).toNat).extractLsb' 48 3 ≠ 6) := by
  refine ⟨⟨⟨rfl, rfl, rfl, rfl⟩, rfl, rfl, rfl, rfl, ?_, ?_⟩, ⟨?_, ?_, ?_⟩, ?_, ?_, ?_, ?_⟩
  all_goals decide +kernel

/-- Main memory: an address that does not exist, a reported error, even parity, a wrong tag (vectors F11 to F13). -/
theorem witness_fetchFaults_main :
    (let s := { fetchAt 0x0004 with cfg := { base.cfg with mmHoles := [(2, 2)] } }
     Running s ∧ s.ex = false ∧ s.env.panel.hold = .off ∧ s.bstm = false ∧ s.pending = none ∧
       (ia s).getLsbD 15 = false ∧ mmValid s (fetchAddress s) = false) ∧
    (let s := mm 0 0xE905512906611 { fetchAt 0x0000 with env := { Env.quiet with mmErrors := [true] } }
     Running s ∧ (ia s).getLsbD 15 = false ∧ mmValid s (fetchAddress s) = true ∧ s.env.mmErrors.headD false = true) ∧
    (let s := mm 0x3FFF 0x6905512906611 (fetchAt 0x7FFF)
     (ia s).getLsbD 15 = false ∧ mmValid s (fetchAddress s) = true ∧ s.env.mmErrors.headD false = false ∧
       oddParity (instrFromHost s.cfg.mainframe (memRead s.mm (fetchAddress s).toNat)) = false) ∧
    (let s := mm 0 0xD905512906611 (fetchAt 0x0000)
     (ia s).getLsbD 15 = false ∧ mmValid s (fetchAddress s) = true ∧
       oddParity (instrFromHost s.cfg.mainframe (memRead s.mm (fetchAddress s).toNat)) = true ∧
       (instrFromHost s.cfg.mainframe (memRead s.mm (fetchAddress s).toNat)).extractLsb' 48 3 ≠ 6) := by
  refine ⟨⟨⟨rfl, rfl, rfl, rfl⟩, rfl, rfl, rfl, rfl, ?_, ?_⟩, ⟨⟨rfl, rfl, rfl, rfl⟩, ?_, ?_, ?_⟩, ⟨?_, ?_, ?_, ?_⟩, ?_, ?_, ?_, ?_⟩
  all_goals decide +kernel

/-- I22 zero with an instruction that only uses MA; I22 one with an instruction that asks for an access itself; an instruction
that uses neither. -/
theorem waits {s : State} {i : Instr} (h : heldByMM s i = true) : waitsForAccess s i := (heldByMM_iff s i).mp h

theorem waitsNot {s : State} {i : Instr} (h : heldByMM s i = false) : ¬ waitsForAccess s i :=
  fun k => Bool.false_ne_true (h.symm.trans ((heldByMM_iff s i).mpr k))

theorem witness_accessCompletesFirst :
    (let s := mm 0xFFFFF 1 (awaiting .read 0 0xFFFFF (inP 0x01C030F000000))
     Running s ∧ s.ex = true ∧ s.adapterWrite = none ∧
       s.pending = some { kind := .read, data := 0, granted := false } ∧ wordLeft s.p = encode (.shft 3 0x0F) ∧
       (Instr.shft 3 0x0F).wellFormed = true ∧ waitsForAccess s (.shft 3 0x0F) ∧ s.cf.getLsbD 6 = false ∧
       (completeAccess s).2 = none ∧ ¬ waitsForAccess s (.goto 0 0 0)) ∧
    (let s := mm 0 1 (awaiting .read 0 0 { inP 0x0491F00000000 with cf := 0x50 })
     Running s ∧ s.ex = true ∧ s.adapterWrite = none ∧
       s.pending = some { kind := .read, data := 0, granted := false } ∧ wordLeft s.p = encode (.mmr 0x1F 0) ∧
       waitsForAccess s (.mmr 0x1F 0) ∧ s.cf.getLsbD 6 = true ∧ asksForAccess (.mmr 0x1F 0) ∧
       (completeAccess s).2 = none) := by
  refine ⟨⟨⟨rfl, rfl, rfl, rfl⟩, rfl, rfl, rfl, ?_, ?_, waits ?_, ?_, ?_, waitsNot ?_⟩, ⟨rfl, rfl, rfl, rfl⟩, rfl, rfl, rfl, ?_,
    waits ?_, ?_, (requestsAccess_iff _).mp ?_, ?_⟩
  all_goals decide +kernel

/-- An instruction that uses neither W nor MA in P-L; a read of a word of even parity, whose fault comes in place of SHFT. -/
theorem witness_accessCompletesFirst_other :
    (let s := awaiting .read 0 0 (inP 0x0280000000000)
     Running s ∧ s.ex = true ∧ s.adapterWrite = none ∧ wordLeft s.p = encode (.goto 0 0 0) ∧
       ¬ waitsForAccess s (.goto 0 0 0)) ∧
    (let s := awaiting .read 0 0xFFFFF (inP 0x01C030F000000)
     Running s ∧ s.ex = true ∧ wordLeft s.p = encode (.shft 3 0x0F) ∧ waitsForAccess s (.shft 3 0x0F) ∧
       s.cf.getLsbD 6 = false ∧ (completeAccess s).2 = some .mmParity ∧ s.env.panel.hold ≠ .holdPL ∧ s.env.inputs = []) ∧
    (awaiting .write 1 0 base).env.inputs = [] ∧ (completeAccess (awaiting .write 1 0 base)).2 = none := by
  refine ⟨⟨⟨rfl, rfl, rfl, rfl⟩, rfl, rfl, ?_, waitsNot ?_⟩, ⟨⟨rfl, rfl, rfl, rfl⟩, rfl, ?_, waits ?_, ?_, ?_, ?_, rfl⟩, rfl, ?_⟩
  all_goals decide +kernel

/-- The same state as the first one above, with a write, which raises no parity fault; HOLD P-L with the read. -/
theorem witness_accessCompletesFirst_write :
    let s := awaiting .write 1 0 (inP 0x01C030F000000)
    Running s ∧ s.ex = true ∧ wordLeft s.p = encode (.shft 3 0x0F) ∧ waitsForAccess s (.shft 3 0x0F) ∧
      s.cf.getLsbD 6 = false ∧ (completeAccess s).2 = none ∧
      (let r := awaiting .read 0 0xFFFFF
         { inP 0x01C030F000000 with env := { Env.quiet with panel := { Panel.normal with hold := .holdPL } } }
       Running r ∧ r.env.panel.hold = .holdPL ∧ waitsForAccess r (.shft 3 0x0F)) := by
  refine ⟨⟨rfl, rfl, rfl, rfl⟩, rfl, ?_, waits ?_, ?_, ?_, ⟨rfl, rfl, rfl, rfl⟩, rfl, waits ?_⟩
  all_goals decide +kernel

/-- R505 at its edges: the A field 100 and 101, a column with no row, a row of MA through Y, the tag field of W; a literal in B and in C
that looks like such an address; a BKP that branches and one that does not; GOI by its condition. -/
theorem witness_waitsForAccess :
    let s := { base with y := 0x19 }
    ¬ waitsForAccess s (.add 4 0x18 0x11) ∧ waitsForAccess s (.add 5 0x18 0x11) ∧ waitsForAccess s (.tran 5 0x40 0x11) ∧
      ¬ waitsForAccess s (.tran 5 0x11 0x11) ∧ waitsForAccess s (.pary 0 0x11 0xFF) ∧ ¬ waitsForAccess s (.lorb 0 0x19 0x11) ∧
      waitsForAccess s (.lorb 0 0 0x19) ∧ ¬ waitsForAccess s (.lorc 4 0x11 0x19) ∧ waitsForAccess s (.lorc 4 0x19 0) ∧
      waitsForAccess (bkpSwitches .branch .off .off .off s) (.bkp 0 0 0) ∧ ¬ waitsForAccess s (.bkp 0 0 0) ∧
      waitsForAccess s (.goi 7 0 0) ∧ ¬ waitsForAccess s (.goi 0 0 0) ∧ waitsForAccess s (.hadb 0 0 0x11) := by
  refine ⟨waitsNot ?_, waits ?_, waits ?_, waitsNot ?_, waits ?_, waitsNot ?_, waits ?_, waitsNot ?_, waits ?_, waits ?_,
    waitsNot ?_, waits ?_, waitsNot ?_, waits ?_⟩
  all_goals decide +kernel

theorem witness_idleCodesHold :
    Instr.idle 0xFF 0xFF ∈ [Instr.idle 0xFF 0xFF, .undef00000 7 0xFF 0xFF, .undef00011 1 0xFF 0xFF, .undef00100 3 0xFF 0xFF,
        .undef01010 7 0xFF 0xFF, .undef01011 7 0xFF 0xFF] ∧
      { base.cfg with undef00011 := .idle }.undef00011 = .idle := ⟨List.mem_cons_self, rfl⟩

theorem witness_noOperations :
    base.cfg.undef00011 = .noop ∧ base.env.panel.bkp = .off ∧
      (let s := bkpSwitches .branch .off .off .one base
       s.env.panel.bkp = .branch ∧ ¬ codeAgrees s 6) := by
  refine ⟨rfl, rfl, rfl, ?_⟩
  simp [codeAgrees, switchAgrees, bkpSwitches]

theorem witness_bkpStopsOrBranches :
    (let s := bkpSwitches .stop .off .off .off base
     codeAgrees s 7 ∧ s.env.panel.bkp = .stop) ∧
    (let s := bkpSwitches .branch .one .zero .one base
     codeAgrees s 5 ∧ s.env.panel.bkp = .branch) := by
  refine ⟨⟨?_, rfl⟩, ?_, rfl⟩ <;> simp [codeAgrees, switchAgrees, bkpSwitches]

/-- The answer to an interrogate of the second DCP waits in cluster 15. -/
def serving : State :=
  setCluster { base with aa := 0xF0, cm := 0x8000 } 15
    { Cluster.cleared with cir := { cs := .forDcp, ad := 0, cc := 0x12, dc := 0 }, xp := .dcp2, engaged := true }

/-- The next read exchange fails. -/
def failing (s : State) : State := { s with env := { s.env with exchangeFails := [true] } }

/-- The first and the last cluster; an interrupt that the write replaces. -/
theorem witness_adapterWriteAccepted :
    (let s := { base with aa := 0xFF }
     s.aa.extractLsb' 4 4 = 15 ∧ takesWrite s 15) ∧
    (base.aa.extractLsb' 4 4 = 0 ∧ takesWrite base 0) ∧ takesWrite (calling 0 3 2 0 base) 0 := by
  unfold takesWrite servesOther
  decide +kernel

theorem witness_adapterWriteNotAccepted :
    (let s := unfitted 9 { base with aa := 0x93 }
     s.aa.extractLsb' 4 4 = 9 ∧ reachable s 9 = false ∧ s.cfg.clusterErrorPrecise = true ∧
       reachable (literalErrors s) 9 = false ∧ (literalErrors s).cfg.clusterErrorPrecise = false) ∧
    (let s := setCluster { base with aa := 0xF0 } 15
       { Cluster.cleared with cir := { cs := .forCluster, ad := 0, cc := 0, dc := 0 } }
     s.aa.extractLsb' 4 4 = 15 ∧ reachable s 15 = true ∧ (clusterOf s 15).cir.cs = .forCluster) ∧
    (serving.aa.extractLsb' 4 4 = 15 ∧ reachable serving 15 = true ∧ servesOther serving 15) := by
  unfold servesOther
  decide +kernel

/-- AWRR with the interrogate of BC and BI as its literal; the answer comes, and does not come; with the first code without an
entry; with the write code of PT. -/
theorem witness_adapterInterrogated :
    let s := { base with aa := 0x23 }
    s.aa.extractLsb' 4 4 = 2 ∧ takesWrite s 2 ∧ takesWrite (failing s) 2 ∧
      (2 : BitVec 2).getLsbD 1 = true ∧ (0x12 : Byte).getLsbD 4 = true ∧
      answer (clusterOf s 2) (adapterOf (clusterOf s 2) (s.aa.extractLsb' 0 4)) ((0x12 : Byte).extractLsb' 0 5) =
        some (18, 0) ∧ s.env.exchangeFails.headD false = false ∧ (failing s).env.exchangeFails.headD false = true ∧
      (0x18 : Byte).getLsbD 4 = true ∧
      answer (clusterOf s 2) (adapterOf (clusterOf s 2) (s.aa.extractLsb' 0 4)) ((0x18 : Byte).extractLsb' 0 5) = none ∧
      (0x0B : Byte).getLsbD 4 = false ∧ (clusterOf s 2).mr.getLsbD 2 = false ∧
      (applyWrite (adapterOf (clusterOf s 2) 3) 0x0B 0x085).isSome = true := by
  unfold takesWrite servesOther
  decide +kernel

theorem witness_clusterFieldsReadBack :
    ∀ k ∈ [(0 : BitVec 5), 1, 9, 2, 3, 4, 5, 6, 14], (applyWrite Adapter.cleared k 0x1FF).isSome = true := by
  decide +kernel

theorem witness_shiftTable : (8 : Nat) ≤ 8 ∧ (0 : Nat) < 3 ∧ (2 : Nat) < 3 ∧ (0x0B : Byte).getLsbD 2 = false ∧
    (0x0E : Byte).getLsbD 0 = false := by decide

/-- The last cluster calls, and no other; it serves this DCP, or the second one. -/
theorem witness_adapterReadTaken :
    let s := calling 15 3 1 0x1C1 { base with cm := 0xFFFF }
    (calls s 15 ∧ ∀ j, calls s j → j = 15) ∧ s.env.exchangeFails.headD false = false ∧ ¬ servesOther s 15 ∧
      (calls serving 15 ∧ ∀ j, calls serving j → j = 15) ∧ servesOther serving 15 ∧
      (calls (failing s) 15 ∧ ∀ j, calls (failing s) j → j = 15) ∧
      (failing s).env.exchangeFails.headD false = true := by
  unfold calls servesOther
  decide +kernel

theorem witness_adapterReadNotNeeded :
    (∀ j, ¬ calls { base with cf := 0x90 } j) ∧ ({ base with cf := 0x90 } : State).cf.getLsbD 7 = true ∧
      (∀ j, ¬ calls base j) ∧ base.cf.getLsbD 7 = false := by
  unfold calls
  decide +kernel

theorem witness_decrementAndBranch :
    base.y = 0 ∧ ({ base with y := 1 } : State).y ≠ 0 ∧ ({ base with y := 0xFF } : State).y ≠ 0 := by decide +kernel

theorem witness_branOnAttention :
    ({ base with cf := 0x80 } : State).cf.getLsbD 7 = true ∧ base.cf.getLsbD 7 = false ∧ base.cfg.branTestsCan = false ∧
      (∀ k, ¬ calls (branOnCan base) k) ∧ (branOnCan base).cfg.branTestsCan = true ∧
      calls (branOnCan (calling 15 3 1 0x41 { base with cm := 0x8000 })) 15 := by
  unfold calls
  decide +kernel

theorem witness_conditionalBranches :
    condition base 0 = false ∧ condition base 7 = true ∧ byteLoc ({ base with y := 0xFF } : State).y = .ok .wTag := by
  refine ⟨?_, ?_, rfl⟩ <;> decide +kernel

/-- Less, equal and greater: CF0 and CF1 as a subtraction leaves them. -/
theorem witness_conditionalBranches_compare :
    (let s := { base with cf := 0x11 }
     s.cf.getLsbD 0 = ByteOp.sub.carry 0 0xFF false ∧ s.cf.getLsbD 1 = ByteOp.sub.zero 0 0xFF false) ∧
    (let s := { base with cf := 0x12 }
     s.cf.getLsbD 0 = ByteOp.sub.carry 0xFF 0xFF false ∧ s.cf.getLsbD 1 = ByteOp.sub.zero 0xFF 0xFF false) ∧
    base.cf.getLsbD 0 = ByteOp.sub.carry 0xFF 0 false ∧ base.cf.getLsbD 1 = ByteOp.sub.zero 0xFF 0 false := by
  decide +kernel

/-- The two halves of one scratchpad word, and a register column. -/
theorem witness_moveExchangesWithMA :
    halfLoc .g2 (bAddress base 0x98) = .ok (.smHalf 3 false) ∧ halfLoc .g2 (cAddress base 0x9C) = .ok (.smHalf 3 true) ∧
      sameSMHalf (.smHalf 3 false) (.smHalf 3 true) = false ∧ halfLoc .g2 (cAddress base 0x3F) = .ok (.regs 7 7) := by
  decide +kernel

/-- The last word of the module, by MA and by B:C, with odd parity. -/
theorem witness_localMemoryReads :
    let s := lm 0xFFF 1 (withMA 0xFFCFFF base)
    halfLoc .g2 (bAddress s 0x1F) = .ok (.regs 3 7) ∧ halfLoc .g2 (cAddress s 0) = .ok (.regs 0 0) ∧
      maLocal (moveHalves s 0x1F (.regs 3 7) (.regs 0 0)) = 0xFFF ∧ lmExists s 0xFFF = true ∧
      oddParity (memRead s.lm (0xFFF : BitVec 14).toNat) = true ∧ (0x0F : Byte).extractLsb' 0 6 ++ (0xFF : Byte) = 0xFFF#14 := by
  decide +kernel

theorem witness_localMemoryWrites :
    let s := withMA 0x000FFF { base with w := 0x62F8000000000 }
    s.memoryOk = true ∧ halfLoc .g2 (bAddress s 0x1F) = .ok (.regs 3 7) ∧ halfLoc .g2 (cAddress s 0) = .ok (.regs 0 0) ∧
      maLocal (moveHalves s 0x1F (.regs 3 7) (.regs 0 0)) = 0xFFF ∧ lmExists s 0xFFF = true ∧ lmExists s 0 = true := by
  decide +kernel

/-- The first word past the module; a word of even parity. -/
theorem witness_localMemoryFaults :
    let s := withMA 0x001000 base
    halfLoc .g2 (bAddress s 0x1F) = .ok (.regs 3 7) ∧ halfLoc .g2 (cAddress s 0) = .ok (.regs 0 0) ∧
      lmExists s (maLocal (moveHalves s 0x1F (.regs 3 7) (.regs 0 0))) = false ∧
      lmExists s ((0x10 : Byte).extractLsb' 0 6 ++ (0 : Byte)) = false ∧
      lmExists s ((0x0F : Byte).extractLsb' 0 6 ++ (0xFF : Byte)) = true ∧ s.env.panel.hold ≠ .holdPL ∧
      oddParity (memRead s.lm ((0x0F : Byte).extractLsb' 0 6 ++ (0xFF : Byte)).toNat) = false := by
  decide +kernel

/-- LMRI of a word of even parity, the last of the module, with MA as the source and W as the destination of the move. -/
theorem witness_localMemoryFaults_lmri :
    let s := withMA 0x000FFF base
    halfLoc .g2 (bAddress s 0x1F) = .ok (.regs 3 7) ∧ halfLoc .g2 (cAddress s 0x2F) = .ok (.regs 5 7) ∧
      maLocal (moveHalves s 0x1F (.regs 3 7) (.regs 5 7)) = 0xFFF ∧ lmExists s 0xFFF = true ∧
      s.env.panel.hold ≠ .holdPL ∧ oddParity (memRead s.lm (0xFFF : BitVec 14).toNat) = false := by
  decide +kernel

/-- A scratchpad word to W-R, to another scratchpad word and to itself; a register column. -/
theorem witness_scratchpadRead :
    halfLoc .g2 (bAddress base 0x98) = .ok (.smHalf 3 false) ∧ halfLoc .g2 (cAddress base 0x37) = .ok (.regs 6 7) ∧
      halfLoc .g2 (bAddress base 0x17) = .ok (.regs 2 7) ∧ halfLoc .g2 (cAddress base 0xBC) = .ok (.smHalf 7 true) ∧
      halfLoc .g2 (cAddress base 0x9C) = .ok (.smHalf 3 true) ∧ (smrdRuns base).cfg.smrdSameWordFaults = false := by
  decide +kernel

theorem witness_scratchpadWrite :
    halfLoc .g2 (bAddress base 0x1F) = .ok (.regs 3 7) ∧ halfLoc .g2 (cAddress base 0xBF) = .ok (.smHalf 7 true) ∧
      halfLoc .g2 (cAddress base 0x27) = .ok (.regs 4 7) := by decide +kernel

theorem witness_mainMemoryRequests :
    (Instr.mmwu 0x1F 0, AccessKind.write) ∈ [(Instr.mmr 0x1F 0, AccessKind.read), (.mmr01001 0x1F 0, .read),
        (.mmwu 0x1F 0, .write)] ∧
      base.cfg.mainframe = .b6700 ∧ (Instr.mwrp 0x1F 0, AccessKind.protectedWriteRead) ∈
        [(Instr.mmwr 0x1F 0, AccessKind.writeRead), (.mmwp 0x1F 0, .protectedWrite), (.mwrp 0x1F 0, .protectedWriteRead)] ∧
      halfLoc .g2 (bAddress base 0x1F) = .ok (.regs 3 7) ∧ halfLoc .g2 (cAddress base 0) = .ok (.regs 0 0) := by
  decide +kernel

/-- A word that does not exist; a denied write; a write that is allowed, at the last word; a read of even parity; a reported
error. -/
theorem witness_accessCompletion :
    (let s := { awaiting .read 0 0xFFFFF base with cfg := { base.cfg with mmHoles := [(0xFFFFF, 0xFFFFF)] } }
     s.memoryOk = true ∧ s.cfg.mainframe = .b6700 ∧ s.pending.isSome = true ∧ mmValid s s.ba = false) ∧
    (let s := mm 0 0x20 (awaiting .protectedWrite 0x40 0 base)
     s.memoryOk = true ∧ mmValid s s.ba = true ∧ s.env.mmErrors.headD false = false ∧
       (memRead s.mm s.ba.toNat).getLsbD s.cfg.mmProtectBit.val = true) ∧
    (let s := mm 0xFFFFF 0x10 (awaiting .protectedWriteRead 0x40 0xFFFFF base)
     s.memoryOk = true ∧ mmValid s s.ba = true ∧ oddParity (memRead s.mm s.ba.toNat) = true ∧
       (memRead s.mm s.ba.toNat).getLsbD s.cfg.mmProtectBit.val = false) ∧
    (let s := awaiting .read 0 0 base
     s.memoryOk = true ∧ mmValid s s.ba = true ∧ oddParity (memRead s.mm s.ba.toNat) = false) ∧
    (let s := { awaiting .write 1 0 base with env := { Env.quiet with mmErrors := [true] } }
     s.memoryOk = true ∧ mmValid s s.ba = true ∧ s.env.mmErrors.headD false = true) := by
  decide +kernel

/-- A B 5700 at its last word: what W receives and what memory keeps. -/
theorem witness_accessCompletion_b5700 :
    let s := onB5700 { awaiting .writeRead 0xF800000000001 0x7FFF base with mm := memWrite48 [] 0x7FFF 3 }
    s.memoryOk = true ∧ s.cfg.mainframe = .b5700 ∧ s.pending.isSome = true ∧ mmValid s s.ba = true ∧
      (let got : Word := 0x8000000000003
       got.extractLsb' 0 48 = (memRead s.mm s.ba.toNat).extractLsb' 0 48 ∧ got.extractLsb' 48 3 = 0 ∧
         oddParity got = true) ∧
      (0x0800000000001 : Word) = 0#4 ++ (0xF800000000001 : Word).extractLsb' 0 48 := by
  decide +kernel

/-- An addressed half-word with a borrow, a literal with a carry. -/
theorem witness_halfWordArithmetic :
    halfLoc .g3 (bAddress base 0x9C) = .ok (.smHalf 3 true) ∧ halfLoc .g3 (cAddress base 0x98) = .ok (.smHalf 3 false) ∧
      sameSMHalf (.smHalf 3 true) (.smHalf 3 false) = false ∧ halfLoc .g3 (cAddress base 0x18) = .ok (.regs 3 7) ∧
      (Instr.hsb 0 0x9C 0x98, true) ∈ [(Instr.had 0 0x9C 0x98, false), (.hsb 0 0x9C 0x98, true)] ∧
      (Instr.hadb 3 0xFF 0x18, false) ∈ [(Instr.hadb 3 0xFF 0x18, false), (.hsbb 3 0xFF 0x18, true)] := by
  decide +kernel

theorem witness_tranStoresTranslation :
    (let s := { base with ai := 0xC1 }
     byteLoc (bAddress s 0x09) = .ok (.regs 1 1) ∧ byteLoc (cAddress s 0xFE) = .ok (.wByte 5) ∧
       sameSMByte (.regs 1 1) (.wByte 5) = false ∧ Machine.translate s 0 (readByte s (.regs 1 1)) = .ok (0x41, false)) ∧
    (let s := onB5700 { base with ai := 0x61 }
     Machine.translate s 5 (readByte s (.regs 1 1)) = .ok (0x11, true)) := by
  refine ⟨⟨?_, ?_, ?_, ?_⟩, ?_⟩
  · decide +kernel
  · decide +kernel
  · decide +kernel
  · rfl
  · rfl

theorem witness_translatorCharts :
    ({ base.cfg with translatorPresent := false } : Config).translatorPresent = false ∧
      base.cfg.translatorPresent = true ∧ base.cfg.mainframe = .b6700 ∧ 0xC1 ≤ (0xC1 : Byte).toNat ∧
      (0xF9 : Byte).toNat ≤ 0xF9 ∧ (onB5700 base).cfg.mainframe = .b5700 ∧ (onB5700 base).cf.getLsbD 0 = false ∧
      0x30 ≤ (0x30 : Byte).toNat ∧ (0x5A : Byte).toNat ≤ 0x5A ∧ (0x3F : Byte).toNat < 64 := by decide +kernel

/-- AI as source and destination, I21 on. -/
theorem witness_paryChecksParity :
    let s := { base with ai := 0x41, cf := 0x30 }
    byteLoc (bAddress s 0x09) = .ok (.regs 1 1) ∧ byteLoc (cAddress s 0x0F) = .ok (.regs 1 7) ∧
      sameSMByte (.regs 1 1) (.regs 1 7) = false ∧
      (2 : Nat) = ((List.range 8).filter fun k => (readByte s (.regs 1 1)).getLsbD k).length ∧
      ByteLoc.covers (.regs 1 1) .ai = true := by
  decide +kernel

/-- One scratchpad byte as source and destination of OR, two registers of ADD with a carry in. -/
theorem witness_plainByteForms :
    byteLoc (bAddress base 0x99) = .ok (.smByte 3 0) ∧ byteLoc (cAddress base 0x99) = .ok (.smByte 3 0) ∧
      ByteOp.or.exempt = true ∧ byteLoc (bAddress base 0x12) = .ok (.regs 2 2) ∧
      byteLoc (cAddress base 0x27) = .ok (.regs 4 7) ∧ sameSMByte (.regs 2 2) (.regs 4 7) = false ∧
      ({ base with cf := 0x11 } : State).cf.getLsbD 0 = true := by decide +kernel

theorem witness_literalInBForms :
    byteLoc (cAddress base 0xFF) = .ok .wTag ∧ base.cf.getLsbD 0 = false := by decide +kernel

/-- A scratchpad byte back to itself by AND; ADD with A other than 001; a register back to itself. -/
theorem witness_literalInCForms :
    byteLoc (bAddress base 0x9A) = .ok (.smByte 3 1) ∧ ByteOp.and.exempt = true ∧ (7 : BitVec 3) ≠ 1 ∧
      byteLoc (bAddress base 0x11) = .ok (.regs 2 1) ∧ (ByteLoc.regs 2 1).isSM = false := by decide +kernel

/-- Every kind of destination of LAOM: none, a register, B back to a column, a scratchpad byte, a byte of W, a tag field. -/
theorem witness_laomPacksIntoMA :
    byteLoc (bAddress base 0x11) = .ok (.regs 2 1) ∧ dstA 0 (.regs 2 1) = .none ∧ dstA 7 (.regs 2 1) = .regs 3 4 ∧
      byteLoc (bAddress base 0x27) = .ok (.regs 4 7) ∧ dstA 1 (.regs 4 7) = .regs 4 7 ∧
      byteLoc (bAddress base 0xBE) = .ok (.smByte 7 5) ∧ dstA 1 (.smByte 7 5) = .smByte 7 5 ∧
      byteLoc (bAddress base 0xF9) = .ok (.wByte 0) ∧ dstA 1 (.wByte 0) = .wByte 0 ∧
      byteLoc (bAddress base 0xBF) = .ok (.smTag 7) ∧ dstA 1 (.smTag 7) = .smTag 7 ∧ dstA 1 .wTag = .wTag ∧
      byteLoc (bAddress base 0x38) = .ok (.regs 7 0) ∧ dstA 1 (.regs 7 0) = .regs 7 0 ∧ base.cfg.laomIncludesMa = true := by
  decide +kernel

/-- A column with no row bit names no place. -/
theorem witness_laomPacksIntoMA_nowhere : ∀ p : Place, selects 7 0 p = false := by
  intro p
  simp only [selects]
  split <;> simp

theorem witness_byteOperands :
    byteLoc 0x80 = .ok .none ∧ byteLoc 0x3F = .ok (.regs 7 7) ∧ ByteLoc.covers (.regs 1 1) .ai = true ∧
      byteLoc 0xBE = .ok (.smByte 7 5) ∧ ByteLoc.covers (.smByte 7 5) (.sm 7 5) = true ∧ byteLoc 0xFF = .ok .wTag ∧
      ByteLoc.covers .wTag .wTag = true ∧ HalfLoc.covers (.smHalf 7 true) (.sm 7 5) = true ∧
      HalfLoc.covers (.regs 5 4) (.w 0) = true ∧ (2 : Nat) < 3 := by decide +kernel

/-- A half-word address with one row: the other rows have no place. -/
theorem witness_byteOperands_rows : ∀ p : Place, HalfLoc.covers (.regs 2 4) p = true → p.row ≠ 0 := by
  intro p hp
  cases p with
  | w n => revert hp; revert n; decide
  | _ => simp_all [HalfLoc.covers, selects, Place.cell, Place.row]

theorem witness_addressForms :
    (6 : BitVec 3) ≠ 0 ∧ (6 : BitVec 3) ≠ 7 ∧ (0x7F : Byte).extractLsb' 6 2 = 1 ∧ (0x80 : Byte).extractLsb' 6 2 ≠ 1 := by
  decide

theorem witness_sameScratchpadFaults :
    halfLoc .g2 (bAddress base 0x98) = .ok (.smHalf 3 false) ∧ sameSMHalf (.smHalf 3 false) (.smHalf 3 false) = true ∧
      halfLoc .g3 (bAddress base 0xBC) = .ok (.smHalf 7 true) ∧ sameSMHalf (.smHalf 7 true) (.smHalf 7 true) = true ∧
      byteLoc (bAddress base 0x9F) = .ok (.smTag 3) ∧ sameSMByte (.smTag 3) (.smTag 3) = true ∧
      byteLoc (bAddress base 0xBE) = .ok (.smByte 7 5) ∧ (ByteLoc.smByte 7 5).isSM = true ∧
      base.cfg.smrdSameWordFaults = true ∧ halfLoc .g2 (cAddress base 0x9C) = .ok (.smHalf 3 true) := by decide +kernel

theorem witness_refusedForms :
    (onB5700 base).cfg.mainframe = .b5700 ∧ byteLoc (bAddress base 0x09) = .ok (.regs 1 1) ∧
      sameSMByte (.regs 1 1) (.regs 1 1) = false ∧ base.cfg.translatorPresent = true ∧ base.cfg.mainframe = .b6700 ∧
      (2 : BitVec 3) ∈ [(2 : BitVec 3), 3, 6, 7] ∧ (0 : BitVec 3) ∈ [(0 : BitVec 3), 2, 6, 7] ∧
      (0xFF : Byte).extractLsb' 6 2 = 3 ∧ (0xC1 : Byte).extractLsb' 3 3 ≠ 7 ∧ (0x7F : Byte).extractLsb' 6 2 = 1 ∧
      (0xBE : Byte).extractLsb' 6 2 = 2 ∧ (0xBE : Byte).extractLsb' 0 2 ≠ 0 := by decide +kernel

/-- Addresses that are refused: stated in the instruction, reached through Y and through D, as bytes and as half-words. -/
theorem witness_refusedForms_addresses :
    (let s := { base with y := 0x7F, d := 0xC0 }
     halfLoc .g2 (bAddress s 0x40) = .error .indirectTwice ∧ halfLoc .g2 (bAddress s 0x98) = .ok (.smHalf 3 false) ∧
       halfLoc .g2 (cAddress s 0x40) = .error .wByteInHalf ∧ halfLoc .g3 (bAddress s 0x9D) = .error .improperHalfCode ∧
       halfLoc .g3 (bAddress s 0x9C) = .ok (.smHalf 3 true) ∧ halfLoc .g3 (cAddress s 0xFF) = .error .wByteInHalf ∧
       byteLoc (bAddress s 0x40) = .error .indirectTwice ∧ byteLoc (bAddress s 0x09) = .ok (.regs 1 1) ∧
       byteLoc (cAddress s 0x40) = .error .wByteAddress ∧ condition s 7 = true ∧
       byteLoc s.y = .error .indirectTwice) := by
  decide +kernel

theorem witness_faultEntry :
    EntersFaults base ∧ base.cf.getLsbD 3 = false ∧ (ia base).getLsbD 15 = true ∧ EntersFaults (fetchAt 0) ∧
      (ia (fetchAt 0)).getLsbD 15 = false ∧ (fetchAt 0).ex = false ∧
      EntersFaults { fetchAt 0 with cf := 0x10 } := by
  refine ⟨⟨rfl, rfl, by decide, rfl⟩, ?_, ?_, ⟨rfl, rfl, by decide, rfl⟩, ?_, rfl, ⟨rfl, rfl, by decide, rfl⟩⟩
  all_goals decide +kernel

/-- The panel of base with these two switches. -/
def switched (h : HoldSwitch) (p : StopSwitch) (s : State) : State :=
  { s with env := { s.env with panel := { s.env.panel with hold := h, stop := p } } }

/-- R183, R364: under HOLD P-L the ignored fault leaves Y in the B field of P-L, for the invalid operator and for the address fault
of a local memory that has no word 3FFF. -/
theorem test_indirect_copy_survives_ignored_fault :
    (let s := switched .holdPL .off (withMA 0x3FFF { base with y := 0x98, p := 0x0404098000000 })
     ends (exec (.move 0x40 0x98) s) (fun t => wordLeft t.p == 0x409898) &&
       ends (exec (.lmwi 0x40 0x98) { s with y := 0x1F }) (fun t => wordLeft t.p == 0x401F98 && t.sm == s.sm)) = true := by
  decide +kernel

/-- SMRD within one scratchpad word by the table of R508 and by R246. -/
theorem test_smrd_same_word :
    (let s := sm 3 0x6123456789ABC (withMA 0x000777 base)
     ends (exec (.smrd 0x98 0x9C) (smrdRuns s)) (fun t => t.w == 0x6123456789ABC && smWord t 3 == 0x6123456000777) &&
       ends (exec (.smrd 0x98 0x9C) s) (fun t => t.w == 0 && ia t == 0x8008 && smWord t 3 == smWord s 3)) = true := by
  decide +kernel

/-- R360, R364 and D29: AWI without an answer leaves AC and AI; in the other installation they hold the literals, as R202 derives and
the vectors V014 and W3 show. -/
theorem test_awi_precise_error :
    (let s := unfitted 9 { base with aa := 0x93, ac := 0x55, ai := 0x66 }
     ends (exec (.awi 3 0x0B 0x14) s) (fun t => t.ac == 0x55 && t.ai == 0x66 && ia t == 0x8003) &&
       ends (exec (.awi 3 0x0B 0x14) (literalErrors s)) (fun t => t.ac == 0x0B && t.ai == 0x14 && ia t == 0x8003)) = true := by
  decide +kernel

/-- R385 against R226: BRAN with a calling cluster and SAN off, in both installations. -/
theorem test_bran_on_can :
    (let s := calling 2 3 1 0x41 { base with cm := 0xFFFF, cf := 0x13 }
     ends (exec (.bran 0 6) s) (fun t => t.cf == 0x13 && ia t == 0x8102) &&
       ends (exec (.bran 0 6) (branOnCan s)) (fun t => t.cf == 0x00 && ia t == 0x0006 && canOn t && t.aa == 0)) = true := by
  decide +kernel

/-- R401: the second DCP's CLR puts a shared cluster into CS = 11 and takes its interrupt away. -/
theorem test_second_unit_clears :
    (let s := calling 2 3 1 0x41 { base with cm := 0xFFFF }
     canOn s && !canOn (agentStep s (.otherClear 2)) &&
       (clusterOf (agentStep s (.otherClear 2)) 2).cir.cs == .masterCleared) = true := by
  decide +kernel

theorem witness_faultInFaultAndPanel :
    (let s := switched .holdPL .off base
     s.pending = none ∧ s.run = true ∧ s.env.panel.hold = .holdPL) ∧
    (let s := { base with cf := 0x08 }
     s.pending = none ∧ s.run = true ∧ s.env.panel.hold = .off ∧ s.env.panel.stop ≠ .immediate ∧ s.cf.getLsbD 3 = true ∧
       (ia s).getLsbD 15 = true) ∧
    (let s := { fetchAt 4 with cf := 0x08 }
     s.pending = none ∧ s.run = true ∧ s.env.panel.hold = .off ∧ s.cf.getLsbD 3 = true ∧ (ia s).getLsbD 15 = false) ∧
    (let s := switched .stopOnFault .off base
     s.pending = none ∧ s.run = true ∧ s.env.panel.hold = .stopOnFault) ∧
    (let s := switched .off .immediate base
     s.pending = none ∧ s.run = true ∧ s.env.panel.hold = .off ∧ s.env.panel.stop = .immediate ∧
       s.cf.getLsbD 3 = false) ∧
    (let s := { switched .off .immediate (inP 0x0080010000000) with flt := true }
     s.pending = none ∧ s.run = true ∧ s.env.inputs = [] ∧ s.stored = none ∧ s.flt = true ∧ s.haltFault = false ∧
       s.env.panel.hold ≠ .holdPL ∧ (wordLeft s.p).extractLsb' 0 5 = 16) := by
  decide +kernel

theorem witness_initializeOrder :
    base.cfg.mainframe = .b6700 ∧ base.pending = none ∧ base.env.panel.onLine = true ∧ base.env.panel.hold ≠ .holdPL ∧
      base.env.panel.stop ≠ .immediate := by decide +kernel

/-- A whole group at the source, the first instruction by hand being over; a group of which three bytes came before; two bytes,
then the rest of one group but its data byte. -/
theorem witness_bootstrapStep :
    (let s := { fetchAt 0 with bstm := true, env := { Env.quiet with bootIn := [0x90, 0x66, 0x11, 0x41, 0x90] } }
     Running s ∧ s.ex = false ∧ s.bstm = true ∧ s.env.panel.hold = .off ∧ s.env.panel.stop = .off ∧ s.pending = none ∧
       s.adapterWrite = none ∧ s.seq.toNat = 0 ∧ (Instr.lorb 0 0x66 0x11).wellFormed = true ∧
       s.env.bootIn = (encodeBytes (.lorb 0 0x66 0x11)).drop s.seq.toNat ++ 0x41 :: [0x90] ∧
       byteLoc s.cfg.bootDataDest = .ok (.regs 1 1)) ∧
    (let s := { fetchAt 0 with bstm := true, seq := 3, p := 0x0906611000000, env := { Env.quiet with bootIn := [0x41, 0x90] } }
     s.seq.toNat ≤ 3 ∧ s.env.bootIn = (encodeBytes (.lorb 0 0x66 0x11)).drop s.seq.toNat ++ 0x41 :: [0x90] ∧
       ∀ n, n < s.seq.toNat → halfRow (wordLeft s.p) (2 - n) = (encodeBytes (.lorb 0 0x66 0x11)).getD n 0) ∧
    (let s := { fetchAt 0 with bstm := true, seq := 2, env := { Env.quiet with bootIn := [0x11] } }
     Running s ∧ s.bstm = true ∧ s.seq.toNat + s.env.bootIn.length < 4) := by
  refine ⟨⟨⟨rfl, rfl, rfl, rfl⟩, rfl, rfl, rfl, rfl, rfl, rfl, rfl, ?_, ?_, ?_⟩, ?_, ⟨rfl, rfl, rfl, rfl⟩, rfl, ?_⟩
  all_goals decide +kernel

/-- The stored orders at the DCP's next step; a Halt that waits for a held ARWN. -/
theorem witness_hostOrders_stored :
    (let s := { onB5700 base with stored := some .initialise }
     s.env.inputs = [] ∧ s.stored = some .initialise ∧ s.pending = none) ∧
    (let s := { onB5700 base with stored := some .halt }
     s.env.inputs = [] ∧ s.stored = some .halt ∧ s.clusterWait = false ∧ ({ s with run := false } : State).run = false) ∧
    (let s := { onB5700 (inP 0x0200000000000) with stored := some .halt, clusterWait := true }
     s.env.inputs = [] ∧ s.stored = some .halt ∧ s.clusterWait = true ∧ s.run = true ∧ s.flt = false ∧ s.ex = true ∧
       s.pending = none ∧ s.adapterWrite = none ∧ wordLeft s.p = encode (.arwn 0 0) ∧ (∀ j, ¬ calls s j) ∧
       s.cf.getLsbD 7 = false) := by
  unfold calls
  decide +kernel

theorem witness_hostOrders :
    (base.cfg.mainframe = .b6700 ∧ base.env.panel.onLine = true ∧ base.env.panel.hold ≠ .holdPL ∧
      base.env.panel.stop ≠ .immediate ∧ base.run = true ∧ State.reset.run = false) ∧
    (let s := { base with env := { Env.quiet with panel := { Panel.normal with onLine := false } } }
     s.cfg.mainframe = .b6700 ∧ s.env.panel.onLine = false) ∧
    (let s := onB5700 base
     s.cfg.mainframe = .b5700 ∧ s.stored = none ∧ s.env.panel.onLine = true ∧ s.run = true ∧
       (onB5700 State.reset).run = false ∧ (onB5700 State.reset).env.panel.onLine = true ∧
       ({ s with stored := some .halt } : State).stored.isSome = true) := by
  decide +kernel

/-- RUN off; a calling cluster with the last unit to come and with one unit missing; SAN on. -/
theorem witness_attentionTimer :
    State.reset.run = false ∧
    (let s := { calling 0 3 1 0 { base with cm := 1 } with canTimer := 2499 }
     s.run = true ∧ calls s 0 ∧ 2500 ≤ s.canTimer + 1 ∧ s.canTimer + 0 < 2500 ∧ s.cf.getLsbD 7 = false) ∧
    (let s := { base with cf := 0x90, sanTimer := 2499 }
     s.run = true ∧ s.cf.getLsbD 7 = true ∧ 2500 ≤ s.sanTimer + 1 ∧ s.sanTimer + 0 < 2500 ∧ (∀ k, ¬ calls s k)) := by
  unfold calls
  decide +kernel

end Sys2Proof.Tests
end

section
/-! PROOF. The invariant inside a step: the fields it speaks of, gathered in one record so that most updates are seen at once
to leave them alone, and what it says of them before the attention timer is settled; then each shared operation keeps it. -/

namespace Sys2Proof.Machine

/-! ### Results -/

/-- The result is a next state with the property, or no next state at all. -/
def AllNext (P : State → Prop) : Result → Prop
  | .next t => P t
  | .fault _ => True
  | .refused _ => True

theorem AllNext.of_eq {P : State → Prop} {r : Result} {t : State} (h : AllNext P r) (e : r = .next t) : P t := by
  subst e
  exact h

theorem allNext_mapNext {P : State → Prop} {f : State → State} {r : Result} (h : AllNext (fun s => P (f s)) r) :
    AllNext P (mapNext f r) := by
  cases r <;> exact h

theorem AllNext.mono {P Q : State → Prop} {r : Result} (h : AllNext P r) (hPQ : ∀ s, P s → Q s) : AllNext Q r := by
  cases r with
  | next s => exact hPQ s h
  | fault _ => trivial
  | refused _ => trivial

theorem allNext_withByte {P : State → Prop} {a : Byte} {k : ByteLoc → Result} (h : ∀ l, AllNext P (k l)) :
    AllNext P (withByte a k) := by
  unfold withByte
  cases byteLoc a with
  | ok l => exact h l
  | error _ => trivial

theorem allNext_withHalf {P : State → Prop} {kind : HalfKind} {a : Byte} {k : HalfLoc → Result}
    (h : ∀ l, AllNext P (k l)) : AllNext P (withHalf kind a k) := by
  unfold withHalf
  cases halfLoc kind a with
  | ok l => exact h l
  | error _ => trivial

/-! ### The fields the invariant speaks of -/

/-- What the invariant looks at, but for the two conditions CAN and I23 of the attention timer. -/
structure Watched where
  cfg : Config
  lm : Memory
  mm : Memory
  ba : SysAddr
  pypc : Bool
  pywc : Bool
  scm : Bool
  seq : BitVec 4
  bstm : Bool
  haltFault : Bool
  flt : Bool
  canTimer : Nat
  sanTimer : Nat

/-- These fields of a state. An update that touches none of them leaves this record the same by definition, so that `Sound` of the
state before is `Sound` of the state after. -/
def State.watched (s : State) : Watched where
  cfg := s.cfg
  lm := s.lm
  mm := s.mm
  ba := s.ba
  pypc := s.pypc
  pywc := s.pywc
  scm := s.scm
  seq := s.seq
  bstm := s.bstm
  haltFault := s.haltFault
  flt := s.flt
  canTimer := s.canTimer
  sanTimer := s.sanTimer

/-- The invariant as it holds inside a step too, before the attention timer is settled. -/
structure Watched.Sound (v : Watched) : Prop where
  lm : Memory.wf (4096 * v.cfg.lmModules.val) v.lm = true
  mm : Memory.wf (mmWords v.cfg.mainframe) v.mm = true
  tags : v.cfg.mainframe = .b6700 ∨ noTags v.mm = true
  ba : v.ba.toNat < mmWords v.cfg.mainframe
  pypc : v.pypc = false
  pywc : v.pywc = false
  scm : v.scm = false
  seq : v.seq.toNat < 4
  boot : v.bstm = true ∨ v.seq = 0
  halt : v.haltFault = false ∨ v.flt = true
  can : v.canTimer < 2500
  san : v.sanTimer < 2500
  cfg : v.cfg.wf = true

/-- The invariant as it holds inside a step. -/
abbrev Sound (s : State) : Prop := s.watched.Sound

/-- With the sequence count zero bootstrap mode may be on or off (R496). -/
theorem Watched.Sound.withoutCount {v : Watched} (h : v.Sound) (bstm : Bool) : Sound { v with bstm := bstm, seq := 0 } :=
  { h with seq := (by decide : (0#4).toNat < 4), boot := .inr rfl }

/-- The CAN side of the attention timer starts again (R365). -/
theorem Watched.Sound.canRestarted {v : Watched} (h : v.Sound) : Sound { v with canTimer := 0 } :=
  { h with can := (by decide : 0 < 2500) }

/-- The SAN side of the attention timer starts again (R365). -/
theorem Watched.Sound.sanRestarted {v : Watched} (h : v.Sound) : Sound { v with sanTimer := 0 } :=
  { h with san := (by decide : 0 < 2500) }

theorem inv_iff (s : State) :
    s.Inv ↔ Sound s ∧ (canOn s = true ∨ s.canTimer = 0) ∧ (i23 s = true ∨ s.sanTimer = 0) := by
  simp only [State.Inv, memoryOk_iff, State.controlOk, Bool.and_eq_true, Bool.or_eq_true, Bool.not_eq_true', decide_eq_true_eq]
  constructor
  · rintro ⟨⟨lm, mm, tags, ba⟩, ⟨⟨⟨⟨⟨⟨⟨⟨⟨pypc, pywc⟩, scm⟩, seq⟩, boot⟩, halt⟩, can⟩, san⟩, canStill⟩, sanStill⟩, cfg⟩
    exact ⟨⟨lm, mm, tags, ba, pypc, pywc, scm, seq, boot, halt, can, san, cfg⟩, canStill, sanStill⟩
  · rintro ⟨⟨lm, mm, tags, ba, pypc, pywc, scm, seq, boot, halt, can, san, cfg⟩, canStill, sanStill⟩
    exact ⟨⟨lm, mm, tags, ba⟩, ⟨⟨⟨⟨⟨⟨⟨⟨⟨pypc, pywc⟩, scm⟩, seq⟩, boot⟩, halt⟩, can⟩, san⟩, canStill⟩, sanStill⟩, cfg⟩

/-- Settling the attention timer at the end of a step restores the rest of the invariant (R365). -/
theorem inv_settleTimers {s : State} (h : Sound s) : (settleTimers s).Inv := by
  have hcan : (settleTimers s).canTimer = if canOn s then s.canTimer else 0 := rfl
  have hsan : (settleTimers s).sanTimer = if i23 s then s.sanTimer else 0 := rfl
  have e : canOn (settleTimers s) = canOn s := rfl
  have e' : i23 (settleTimers s) = i23 s := rfl
  refine (inv_iff _).mpr ⟨{ h with can := ?_, san := ?_ }, ?_, ?_⟩
  · show (settleTimers s).canTimer < 2500
    rw [hcan]
    split
    · exact h.can
    · decide
  · show (settleTimers s).sanTimer < 2500
    rw [hsan]
    split
    · exact h.san
    · decide
  · rw [hcan, e]
    cases canOn s <;> simp
  · rw [hsan, e']
    cases i23 s <;> simp

/-! ### Updates that leave these fields alone -/

theorem sound_of_watched {s t : State} (h : Sound s) (e : t.watched = s.watched) : Sound t := by
  rw [Sound, e]
  exact h

section Frames
variable (s : State)

@[simp] theorem finish_watched (fetch : Bool) : (finish fetch s).watched = s.watched := by simp [State.watched]
@[simp] theorem setColumn_watched (c : BitVec 3) (h : Half) : (setColumn s c h).watched = s.watched := by
  simp [State.watched]
@[simp] theorem writeByte_watched (l : ByteLoc) (v : Byte) : (writeByte s l v).watched = s.watched := by
  simp [State.watched]
@[simp] theorem moveHalves_watched (b : Byte) (src dst : HalfLoc) : (moveHalves s b src dst).watched = s.watched := by
  simp [State.watched]
@[simp] theorem smrdEffect_watched (src dst : HalfLoc) : (smrdEffect s src dst).watched = s.watched := by
  simp [State.watched]
@[simp] theorem smwdStore_watched (dst : HalfLoc) (v : Word) : (smwdStore s dst v).watched = s.watched := by
  simp [State.watched]
@[simp] theorem laomStore_watched (dst : ByteLoc) (t : Byte) : (laomStore s dst t).watched = s.watched := by
  simp [State.watched]
@[simp] theorem parityToAI_watched (l : ByteLoc) (x : Bool) : (parityToAI s l x).watched = s.watched := by
  simp [State.watched]
@[simp] theorem storeByteResult_watched (l : ByteLoc) (r : ByteResult) : (storeByteResult s l r).watched = s.watched := by
  simp [State.watched]
@[simp] theorem storeHalfResult_watched (l : HalfLoc) (r : HalfResult) : (storeHalfResult s l r).watched = s.watched := by
  simp [State.watched]
@[simp] theorem noteIndirect_watched (b : Byte) : (noteIndirect s b).watched = s.watched := rfl
@[simp] theorem setFlags_watched (c z : Bool) : (setFlags s c z).watched = s.watched := rfl
@[simp] theorem setMA_watched (h : Half) : (setMA s h).watched = s.watched := rfl
@[simp] theorem release_watched : (release s).watched = s.watched := rfl
@[simp] theorem startAccumulated_watched : (startAccumulated s).watched = s.watched := rfl
@[simp] theorem reply_watched (r : ScanReply) : (reply s r).watched = s.watched := rfl

@[simp] theorem settleAdapterWrite_watched : (settleAdapterWrite s).watched = s.watched := by
  unfold settleAdapterWrite
  split
  · rfl
  · dsimp only
    split <;> rfl

end Frames

/-! ### Main memory -/

section Operations
variable {s : State}

/-- Main memory kept, or with a word stored that exists, is sound (R83, R88). -/
theorem sound_withMM (h : Sound s) {m : Memory}
    (hm : m = s.mm ∨ ∃ (a : SysAddr) (v : Word), a.toNat < mmWords s.cfg.mainframe ∧ m = hostStore s.cfg.mainframe s.mm a v) :
    Watched.Sound { s.watched with mm := m } := by
  obtain rfl | ⟨a, v, ha, rfl⟩ := hm
  · exact h
  · obtain ⟨hw, ht⟩ := hostStore_ok s.cfg.mainframe h.mm h.tags ha v
    exact { h with mm := hw, tags := ht }

/-- Main memory after MMComplete: as it was, or with one word stored at BA (R264). -/
theorem accessEffect_mm_cases (s : State) (acc : Access) :
    (accessEffect s acc).mm = s.mm ∨ (accessEffect s acc).mm = hostStore s.cfg.mainframe s.mm s.ba acc.data := by
  unfold accessEffect
  dsimp only
  split
  · exact .inr rfl
  · exact .inl rfl

theorem sound_accessMM (h : Sound s) (acc : Access) : Watched.Sound { s.watched with mm := (accessEffect s acc).mm } :=
  sound_withMM h ((accessEffect_mm_cases s acc).imp_right fun e => ⟨s.ba, acc.data, h.ba, e⟩)

theorem sound_completeAccess (h : Sound s) : Sound (completeAccess s).1 := by
  unfold completeAccess
  cases s.pending with
  | none => exact h
  | some acc => exact sound_accessMM h acc

/-! ### Faults and orders -/

theorem sound_branchTo (h : Sound s) (target : InstrAddr) : Sound (branchTo s target) :=
  h.withoutCount false

theorem sound_executeFault (h : Sound s) : Sound (executeFault s) :=
  { h.withoutCount false with halt := .inl rfl }

theorem sound_placeFault (h : Sound s) (c : Cause) : Sound (placeFault s c) :=
  { h with halt := .inr rfl }

theorem sound_enterFault (h : Sound s) (c : Cause) : Sound (enterFault s c) := by
  have placed := sound_placeFault h c
  unfold enterFault
  split
  · exact placed
  · split
    · exact sound_executeFault placed
    · exact placed

theorem sound_raiseFault (h : Sound s) (c : Cause) : Sound (raiseFault s c) := by
  unfold raiseFault
  split
  · exact h
  · exact sound_enterFault (sound_completeAccess h) _

theorem sound_initialise (h : Sound s) (iba : SysAddr) : Sound (initialise s iba) :=
  sound_executeFault (sound_completeAccess h)

theorem sound_haltNow (h : Sound s) : Sound (haltNow s) := { h with halt := .inr rfl }

theorem sound_placeHaltFault (h : Sound s) : Sound (placeHaltFault s) := { h with halt := .inl rfl }

theorem sound_resumeFault (h : Sound s) : Sound (resumeFault s) := by
  have started : Sound (if s.haltFault then placeHaltFault s else s) := by
    split
    · exact sound_placeHaltFault h
    · exact h
  have executed := sound_executeFault (sound_completeAccess started)
  exact executed

/-- The Reset event keeps the memories and zeroes the control flip-flops (R55, R490). -/
theorem sound_resetEvent (h : Sound s) (reached : Bool) : Sound (resetEvent s reached) := by
  have kept : Watched.Sound { s.watched with mm := (resetEvent s reached).mm } := by
    unfold resetEvent
    cases s.pending with
    | none => exact h
    | some acc =>
      cases reached with
      | true => exact sound_accessMM h acc
      | false => exact h
  exact { (kept.withoutCount false).canRestarted.sanRestarted with
    ba := Nat.zero_lt_of_lt h.ba, pypc := rfl, pywc := rfl, scm := rfl, halt := .inl rfl }

/-! ### Local memory -/

/-- The check of a word read from local memory is over when the instruction ends (R243). -/
theorem sound_afterLmRead (h : Sound s) (fetch : Bool) (a : BitVec 14) : Sound (afterLmRead fetch (lmLoad s a)) := by
  unfold afterLmRead
  split
  · exact sound_of_watched (s := lmDone (lmLoad s a)) { h with pywc := rfl, scm := rfl } (by simp)
  · exact sound_raiseFault (s := lmStopped fetch (lmLoad s a)) { h with pywc := rfl, scm := rfl } _

theorem sound_lmRead (h : Sound s) {t : State} (ht : Sound t) (fetch : Bool) (a : BitVec 14) :
    Sound (lmRead s fetch t a) := by
  unfold lmRead
  split
  · exact sound_afterLmRead ht fetch a
  · exact sound_raiseFault h _

/-- A word is stored in local memory where one exists (R82). -/
theorem sound_lmWrite (h : Sound s) {t : State} (ht : Sound t) (hc : t.cfg = s.cfg) (fetch : Bool) (a : BitVec 14) :
    Sound (lmWrite s fetch t a) := by
  unfold lmWrite
  split
  next he =>
    have ha : a.toNat < 4096 * t.cfg.lmModules.val := by simpa [lmExists, hc] using he
    exact sound_of_watched (s := lmStore t a) { ht with lm := wf_memWrite ht.lm ha _ } (by simp)
  next => exact sound_raiseFault h _

end Operations

end Sys2Proof.Machine
end

section
/-! PROOF. Every instruction keeps the invariant, with one lemma for each meaning that instructions share. -/

namespace Sys2Proof.Machine

section Instructions
variable {s : State}

/-- The adapter cluster error of AWI and AWRR (R360). -/
theorem sound_clusterError {u : State} (hu : Sound u) : Sound (raiseFault (atClusterError s u) .clusterError) :=
  sound_raiseFault (s := atClusterError s u) hu _

theorem sound_interrogateAnswer {t : State} (ht : Sound t) : Sound (interrogateAnswer s t) := by
  unfold interrogateAnswer
  dsimp only
  split
  · split
    · exact sound_clusterError ht
    · exact ht
  · exact sound_clusterError ht

variable (h : Sound s)
include h

/-! ### Groups 0 and 1 -/

theorem sound_nop00011 (a : BitVec 1) (b c : Byte) : AllNext Sound (execNop00011 a b c s) := by
  unfold execNop00011
  split <;> exact h

theorem sound_bkp (a : BitVec 3) (b c : Byte) : AllNext Sound (execBkp a b c s) := by
  unfold execBkp
  split
  · split
    · exact h
    · exact h
    · exact sound_branchTo (s := saveForSubroutine s) h _
  · exact h

theorem sound_awi (a : BitVec 2) (b c : Byte) : AllNext Sound (execAwi a b c s) := by
  unfold execAwi
  dsimp only
  split
  · exact h
  · exact h
  · exact sound_clusterError (u := loadLiterals s a b c) h

theorem sound_awrr (a : BitVec 2) (b c : Byte) : AllNext Sound (execAwrr a b c s) := by
  unfold execAwrr
  dsimp only
  split
  · exact sound_interrogateAnswer (t := loadLiterals s a b c) h
  · exact h
  · exact sound_clusterError (u := loadLiterals s a b c) h

/-- A read exchange starts the attention timer again (R221). -/
theorem sound_adapterRead (k : BitVec 4) : Sound (adapterRead s k) := h.canRestarted

theorem sound_mskw (b c : Byte) : AllNext Sound (execMskw b c s) := sound_of_watched (t := release _) h rfl

theorem sound_mskr (b c : Byte) : AllNext Sound (execMskr b c s) := sound_of_watched (t := release _) h rfl

theorem sound_shft (b c : Byte) : AllNext Sound (execShft b c s) := by
  unfold execShft
  exact sound_of_watched h (by simp)

theorem sound_heyu (b c : Byte) : AllNext Sound (execHeyu b c s) := sound_of_watched (t := release _) h rfl

theorem sound_arwn (b c : Byte) : AllNext Sound (execArwn b c s) := by
  unfold execArwn
  split
  next k _ =>
    split
    · exact h
    · split
      · exact sound_raiseFault (s := readFailed s) h _
      · exact sound_adapterRead h k
  next =>
    split
    · exact sound_branchTo (s := { s with cf := setBit s.cf 7 false }) h _
    · exact h

theorem sound_arin (b c : Byte) : AllNext Sound (execArin b c s) := by
  unfold execArin
  split
  next k _ =>
    split
    · exact h
    · split
      · exact sound_raiseFault (s := readFailed s) h _
      · exact sound_branchTo (sound_adapterRead h k) _
  next => exact h.canRestarted

theorem sound_dbyz (b c : Byte) : AllNext Sound (execDbyz b c s) := by
  unfold execDbyz
  split
  · exact sound_branchTo h _
  · exact h

theorem sound_dbyn (b c : Byte) : AllNext Sound (execDbyn b c s) := by
  unfold execDbyn
  split
  · exact h
  · exact sound_branchTo (s := { s with y := s.y - 1 }) h _

theorem sound_bran (b c : Byte) : AllNext Sound (execBran b c s) := by
  unfold execBran
  split
  · exact sound_branchTo (s := { s with cf := setBit s.cf 7 false }) h _
  · exact h

theorem sound_branchIf (a : BitVec 3) (target : InstrAddr) : AllNext Sound (branchIf s a target) := by
  unfold branchIf
  split
  · exact sound_branchTo h _
  · exact h

theorem sound_goi (a : BitVec 3) (b c : Byte) : AllNext Sound (execGoi a b c s) := by
  unfold execGoi
  split
  · exact allNext_withByte fun _ => sound_branchTo h _
  · exact h

/-! ### Group 2 -/

/-- An instruction with the half-word move goes on from a sound state (R240). -/
theorem sound_moveThen (b c : Byte) {k : HalfLoc → HalfLoc → State → Result}
    (hk : ∀ src dst t, Sound t → t.cfg = s.cfg → AllNext Sound (k src dst t)) : AllNext Sound (moveThen b c s k) :=
  allNext_withHalf fun src => allNext_withHalf fun dst =>
    hk src dst _ (sound_of_watched h (by simp)) (moveHalves_cfg s b src dst)

/-- The invalid operator fault, raised with an indirect designation noted in P-L (R508). -/
theorem sound_invalidOperator (b : Byte) : Sound (raiseFault (noteIndirect s b) .invalidOperator) :=
  sound_raiseFault (s := noteIndirect s b) h _

theorem sound_moveHalfWord (b c : Byte) : AllNext Sound (moveHalfWord b c s) :=
  sound_moveThen h b c fun src dst t ht _ => by
    split
    · exact sound_invalidOperator h b
    · exact sound_of_watched ht (by simp)

theorem sound_smrd (b c : Byte) : AllNext Sound (execSmrd b c s) :=
  allNext_withHalf fun src => allNext_withHalf fun dst => by
    split
    · exact sound_invalidOperator h b
    · exact sound_of_watched h (by simp)

theorem sound_smwd (b c : Byte) : AllNext Sound (execSmwd b c s) :=
  allNext_withHalf fun src => allNext_withHalf fun dst => sound_of_watched h (by simp)

theorem sound_lmri (b c : Byte) : AllNext Sound (execLmri b c s) :=
  sound_moveThen h b c fun _ dst t ht _ => sound_lmRead (s := noteIndirect s b) h ht dst.ordersFetch (maLocal t)

theorem sound_lmwi (b c : Byte) : AllNext Sound (execLmwi b c s) :=
  sound_moveThen h b c fun _ dst t ht hc => sound_lmWrite (s := noteIndirect s b) h ht hc dst.ordersFetch (maLocal t)

/-- BA receives the address of a word that exists (R83). -/
theorem sound_requestAccess (kind : AccessKind) : Sound (requestAccess s kind) :=
  { h with ba := hostAddress_lt _ _ }

theorem sound_mmStart (kind : AccessKind) (b c : Byte) : AllNext Sound (mmStart kind b c s) :=
  sound_moveThen h b c fun _ _ t ht _ => sound_of_watched (sound_requestAccess ht kind) (by simp)

theorem sound_mmStartB6700 (kind : AccessKind) (b c : Byte) : AllNext Sound (mmStartB6700 kind b c s) := by
  unfold mmStartB6700
  split
  · exact sound_mmStart h kind b c
  · trivial

/-! ### Groups 3 and 4 -/

theorem sound_halfWithAddress (f : Half → Half → HalfResult) (b c : Byte) : AllNext Sound (halfWithAddress f b c s) :=
  allNext_withHalf fun src => allNext_withHalf fun dst => by
    split
    · exact sound_invalidOperator h b
    · exact sound_of_watched h (by simp)

theorem sound_halfWithLiteral (f : Half → Half → HalfResult) (b c : Byte) : AllNext Sound (halfWithLiteral f b c s) :=
  allNext_withHalf fun dst => sound_of_watched h (by simp)

theorem sound_tran (a : BitVec 3) (b c : Byte) : AllNext Sound (execTran a b c s) :=
  allNext_withByte fun bl => allNext_withByte fun cl => by
    split
    · exact sound_invalidOperator h b
    · split
      · trivial
      · exact sound_of_watched h (by simp)

theorem sound_pary (a : BitVec 1) (b c : Byte) : AllNext Sound (execPary a b c s) :=
  allNext_withByte fun bl => allNext_withByte fun cl => by
    split
    · exact sound_invalidOperator h b
    · exact sound_of_watched h (by simp)

theorem sound_bytePlain (f : Byte → Byte → Bool → ByteResult) (exempt : Bool) (a : BitVec 3) (b c : Byte) :
    AllNext Sound (bytePlain f exempt a b c s) :=
  allNext_withByte fun bl => allNext_withByte fun cl => by
    split
    · exact sound_invalidOperator h b
    · exact sound_of_watched h (by simp)

theorem sound_byteLiteralB (f : Byte → Byte → Bool → ByteResult) (a : BitVec 3) (b c : Byte) :
    AllNext Sound (byteLiteralB f a b c s) :=
  allNext_withByte fun cl => sound_of_watched h (by simp)

theorem sound_byteLiteralC (f : Byte → Byte → Bool → ByteResult) (exempt : Bool) (a : BitVec 3) (b c : Byte) :
    AllNext Sound (byteLiteralC f exempt a b c s) :=
  allNext_withByte fun bl => by
    split
    · exact sound_invalidOperator h b
    · exact sound_of_watched h (by simp)

theorem sound_laom (a : BitVec 3) (b c : Byte) : AllNext Sound (execLaom a b c s) :=
  allNext_withByte fun bl => sound_of_watched h (by simp)

/-! ### Every instruction -/

/-- Whatever instruction runs, it keeps the invariant as it holds inside a step. -/
theorem sound_exec (i : Instr) : AllNext Sound (exec i s) := by
  cases i with
  | idle | undef00000 | undef00011 | undef00100 | undef01010 | undef01011 => exact h
  | mskw b c => exact sound_mskw h b c
  | mskr b c => exact sound_mskr h b c
  | shft b c => exact sound_shft h b c
  | heyu b c => exact sound_heyu h b c
  | nop00011 a b c => exact sound_nop00011 h a b c
  | bkp a b c => exact sound_bkp h a b c
  | awi a b c => exact sound_awi h a b c
  | awrr a b c => exact sound_awrr h a b c
  | arwn b c => exact sound_arwn h b c
  | arin b c => exact sound_arin h b c
  | dbyz b c => exact sound_dbyz h b c
  | dbyn b c => exact sound_dbyn h b c
  | bran b c => exact sound_bran h b c
  | goto a _ _ | gox a _ _ => exact sound_branchIf h a _
  | goi a b c => exact sound_goi h a b c
  | move b c | move01000 b c | move01001 _ b c => exact sound_moveHalfWord h b c
  | smrd b c => exact sound_smrd h b c
  | smwd b c => exact sound_smwd h b c
  | lmri b c => exact sound_lmri h b c
  | lmrd _ _ => exact sound_lmRead h h _ _
  | lmwi b c => exact sound_lmwi h b c
  | lmwd _ _ => exact sound_lmWrite h h rfl _ _
  | mmr b c | mmr01001 b c | mmwu b c => exact sound_mmStart h _ b c
  | mmwr b c | mmwp b c | mwrp b c => exact sound_mmStartB6700 h _ b c
  | had _ b c | hsb _ b c => exact sound_halfWithAddress h _ b c
  | hadb _ b c | hsbb _ b c => exact sound_halfWithLiteral h _ b c
  | tran a b c => exact sound_tran h a b c
  | pary a b c => exact sound_pary h a b c
  | add a b c | sub a b c | lan a b c | lor a b c | leo a b c | leo01111 a b c => exact sound_bytePlain h _ _ a b c
  | addb a b c | subb a b c | lanb a b c | lorb a b c | leob a b c => exact sound_byteLiteralB h _ a b c
  | subc a b c => exact sound_byteLiteralC h (fun v literal borrow => byteSub literal v borrow) _ a b c
  | addc a b c | lanc a b c | lorc a b c | leoc a b c => exact sound_byteLiteralC h _ _ a b c
  | laom a b c => exact sound_laom h a b c

end Instructions

end Sys2Proof.Machine
end

section
/-! PROOF. Every step keeps the invariant: the fetch, bootstrap mode, the orders and faults, and each of the other agents; and
reset meets it. -/

namespace Sys2Proof.Machine

section Cycle
variable {s : State} (h : Sound s)
include h

/-! ### The instruction in P-L, and the fetch -/

theorem sound_withAccessDone {k : State → Result} (hk : ∀ t, Sound t → AllNext Sound (k t)) :
    AllNext Sound (withAccessDone s k) := by
  have done := sound_completeAccess h
  unfold withAccessDone
  split
  · exact hk _ done
  · split
    · exact hk _ done
    · exact sound_raiseFault done _

theorem sound_runInstruction : AllNext Sound (runInstruction s) := by
  have settled : Sound (settleAdapterWrite s) := sound_of_watched h (by simp)
  unfold runInstruction
  dsimp only
  split
  · exact sound_exec settled _
  · split
    · exact allNext_mapNext (sound_exec (s := scrambleWMA _) settled _)
    · exact sound_withAccessDone settled fun _ ht => sound_exec ht _

theorem sound_runEntered : AllNext Sound (runEntered s) := by
  unfold runEntered
  split
  · exact h
  · exact sound_runInstruction h

/-- The check of a fetched word is over when its instruction starts or the fetch fault is taken (R174, R186). -/
theorem sound_fetched (v : Word) (detected : Bool) : AllNext Sound (fetched s v detected) := by
  unfold fetched
  dsimp only
  split
  next c _ => exact sound_raiseFault (s := { s with p := v, pypc := false }) { h with pypc := rfl } c
  next => exact sound_runEntered (s := startInstruction { s with p := v, pypc := true } v) { h with pypc := rfl }

theorem sound_fetchLocal : AllNext Sound (fetchLocal s) := by
  unfold fetchLocal
  split
  · exact sound_fetched h _ _
  · exact sound_raiseFault h _

/-- BA receives the address of a word that exists (R83, R173). -/
theorem sound_fetchRequested : Sound (fetchRequested s) := { h with ba := hostAddress_lt _ _ }

theorem sound_fetchMain : AllNext Sound (fetchMain s) :=
  sound_withAccessDone h fun t ht => by
    split
    · exact sound_fetched (sound_fetchRequested ht) _ _
    · exact sound_raiseFault (sound_fetchRequested ht) _

theorem sound_fetch : AllNext Sound (fetch s) := by
  unfold fetch
  split
  · exact sound_fetchLocal h
  · exact sound_fetchMain h

/-! ### Bootstrap mode -/

/-- A byte that is not the fourth of its group leaves the sequence count below four (R496). -/
theorem sound_accumulate (hb : s.bstm = true) (hs : s.seq ≠ 3) (v : Byte) : Sound (accumulate s v) := by
  have below : s.seq.toNat < 4 := h.seq
  have counted : (s.seq + 1).toNat < 4 := by bv_omega
  exact { h with seq := counted, boot := .inl hb }

omit h in
theorem sound_bootTake (bytes : List Byte) {s : State} (h : Sound s) (hb : s.bstm = true) : Sound (bootTake s bytes).1 := by
  induction bytes generalizing s with
  | nil => exact h
  | cons v rest ih =>
    unfold bootTake
    split
    next => exact h.withoutCount _
    next hs => exact ih (sound_accumulate h hb hs v) hb

theorem sound_bootExecute (v : Byte) : AllNext Sound (bootExecute s v) :=
  allNext_withByte fun l => by
    have delivered {t : State} (ht : Sound t) : AllNext Sound (runEntered (startAccumulated (writeByte t l v))) :=
      sound_runEntered (sound_of_watched ht (by simp))
    split
    · exact sound_withAccessDone h fun _ ht => delivered ht
    · exact delivered h

theorem sound_bootstrap (hb : s.bstm = true) : AllNext Sound (bootstrap s) := by
  have taken := sound_bootTake s.env.bootIn h hb
  unfold bootstrap
  split
  next t e => rw [e] at taken; exact taken
  next t v e => rw [e] at taken; exact sound_bootExecute taken v

/-! ### The step of the DCP -/

theorem sound_storedOrder {t : State} (e : storedOrder s = some t) : Sound t := by
  unfold storedOrder at e
  split at e
  · cases e
  · cases e
    exact sound_initialise (s := { s with stored := none }) h 3
  · cases e
    exact h
  · split at e
    · cases e
    · cases e
      exact h

theorem sound_dcpStep : AllNext Sound (dcpStep s) := by
  unfold dcpStep
  split
  next t e => exact sound_storedOrder h e
  next =>
    split
    · trivial
    · split
      · exact sound_resumeFault h
      · split
        · exact sound_runInstruction h
        · split
          · exact h
          · split
            next hb => exact sound_bootstrap h hb
            next => exact sound_fetch h

/-! ### The other agents -/

theorem sound_scanOut (code : BitVec 3) (word : BitVec 48) (parityOk : Bool) : Sound (scanOut s code word parityOk) := by
  unfold scanOut
  split
  · exact h
  · split
    · exact h
    · split
      · exact h
      · split
        · exact sound_of_watched (sound_initialise h _) (reply_watched _ _)
        · exact h
        · exact sound_of_watched (sound_haltNow h) (reply_watched _ _)
        · exact h

theorem sound_scanIn : Sound (scanIn s) := by
  unfold scanIn
  split
  · exact h
  · split <;> exact h

theorem sound_dial (o : Order) : Sound (dial s o) := by
  unfold dial
  split
  · exact h
  · split <;> exact h

theorem sound_mmCompletes : Sound (mmCompletes s) := by
  have done := sound_completeAccess h
  unfold mmCompletes
  split
  next t e => rw [e] at done; exact done
  next t c e => rw [e] at done; exact sound_raiseFault done c

/-- Neither side of the attention timer reaches its limit without the time-out, at which both start again (R365). -/
theorem sound_elapse (n : Nat) : Sound (elapse s n) := by
  unfold elapse
  split
  · exact h
  · dsimp only
    split
    next => exact sound_raiseFault (s := { s with canTimer := 0, sanTimer := 0 }) h.canRestarted.sanRestarted _
    next within =>
      simp only [Bool.or_eq_true, Bool.and_eq_true, decide_eq_true_eq, not_or, not_and, not_le] at within
      obtain ⟨can, san⟩ := within
      refine { h with can := ?_, san := ?_ }
      · show (if canOn s then s.canTimer + n else 0) < 2500
        split
        next on => exact can on
        next => decide
      · show (if i23 s then s.sanTimer + n else 0) < 2500
        split
        next on => exact san on
        next => decide

theorem sound_dataBit (k : Fin 24) (v : Bool) : Sound (dataBit s k v) := by
  unfold dataBit
  dsimp only
  split
  · exact h
  · exact sound_of_watched h (by simp)
  · exact h
  · exact h

theorem sound_tagBit (k : Fin 4) (v : Bool) : Sound (tagBit s k v) := by
  unfold tagBit
  dsimp only
  split
  · exact h
  · split <;> exact h
  · exact h
  · exact h

/-- What an operator may do with RUN off leaves a running DCP alone (R460). -/
theorem sound_inDisplayMode {t : State} (ht : Sound t) : Sound (if s.run then s else t) := by
  split
  · exact h
  · exact ht

theorem sound_panelStep (act : PanelAct) : Sound (panelStep s act) := by
  cases act with
  | switches | pulse => exact h
  | clear reached => exact sound_resetEvent h reached
  | bitPL | bitCM | execute => exact sound_inDisplayMode h h
  | bitData k v => exact sound_inDisplayMode h (sound_dataBit h k v)
  | bitTag k v => exact sound_inDisplayMode h (sound_tagBit h k v)
  | bootstrap v => exact sound_inDisplayMode h (t := { s with bstm := v, seq := 0 }) (h.withoutCount v)

theorem sound_lineStep (k a : BitVec 4) (e : LineEvent) : Sound (lineStep s k a e) := by
  unfold lineStep
  dsimp only
  split <;> exact h

theorem sound_otherWriteStep (k ad : BitVec 4) (cc : BitVec 5) (dc : BitVec 9) (awrr : Bool) :
    Sound (otherWriteStep s k ad cc dc awrr) := by
  unfold otherWriteStep
  split <;> exact h

theorem sound_otherReadStep (k : BitVec 4) : Sound (otherReadStep s k) := by
  unfold otherReadStep
  split <;> exact h

/-! ### The cluster display panel -/

theorem sound_counted {t : Option State} (ht : ∀ u, t = some u → Sound u) : Sound (counted s t) := by
  unfold counted
  split
  next u => exact ht u rfl
  next => exact h

theorem sound_panelWrite {t : State} (e : panelWrite s = some t) : Sound t := by
  unfold panelWrite at e
  dsimp only at e
  split at e
  · cases e
    exact h
  · cases e

theorem sound_panelRead (k : BitVec 4) : Sound (panelRead s k) := h

theorem sound_panelInterrogate {t : State} (e : panelInterrogate s = some t) : Sound t := by
  unfold panelInterrogate at e
  obtain ⟨u, hu, rfl⟩ := Option.map_eq_some_iff.mp e
  have written := sound_panelWrite h hu
  split
  · exact sound_panelRead (s := scanOne u _) written _
  · exact written

theorem sound_panelAttention {t : State} (e : panelAttention s = some t) : Sound t := by
  unfold panelAttention at e
  split at e
  · cases e
  · cases e
    exact sound_panelRead h _
  · obtain ⟨k, _, rfl⟩ := Option.map_eq_some_iff.mp e
    exact sound_panelRead h k

theorem sound_panelControl : Sound (panelControl s) := by
  unfold panelControl
  dsimp only
  split <;> exact h

theorem sound_panelOperate : Sound (panelOperate s) := by
  unfold panelOperate
  dsimp only
  split
  · exact sound_counted h fun _ => sound_panelInterrogate h
  · exact sound_counted h fun _ => sound_panelWrite h
  · exact sound_counted h fun _ => sound_panelAttention h
  · exact h
  · exact sound_panelControl h
  all_goals exact h

theorem sound_clusterPanelStep (act : ClusterPanelAct) : Sound (clusterPanelStep s act) := by
  cases act with
  | setRegisters | clearRegisters | setEnable | setState => exact h
  | operate => exact sound_panelOperate h

/-! ### Every step -/

/-- Whichever other agent acts (R390). -/
theorem sound_agentStep (i : Input) : Sound (agentStep s i) := by
  cases i with
  | dcp | mmGrant | hostClearAttention | bootByte | clusterScan | otherClear => exact h
  | masterClear reached => exact sound_resetEvent h reached
  | scanOut code word parityOk => exact sound_scanOut h code word parityOk
  | scanIn => exact sound_scanIn h
  | dial o => exact sound_dial h o
  | mmComplete => exact sound_mmCompletes h
  | hostWrite a v => exact sound_withMM h (.inr ⟨_, v, hostAddress_lt _ a, rfl⟩)
  | elapse n => exact sound_elapse h n
  | panel act => exact sound_panelStep h act
  | line k a e => exact sound_lineStep h k a e
  | otherWrite k ad cc dc awrr => exact sound_otherWriteStep h k ad cc dc awrr
  | otherRead k => exact sound_otherReadStep h k
  | clusterPanel act => exact sound_clusterPanelStep h act

/-- The invariant is restored where the step settles the attention timer. -/
theorem inv_cycle : AllNext State.Inv (cycle s) := by
  have settled {r : Result} (hr : AllNext Sound r) : AllNext State.Inv (mapNext settleTimers r) :=
    allNext_mapNext (hr.mono fun _ => inv_settleTimers)
  have taken (rest : List Input) : Sound (inputTaken s rest) := h
  unfold cycle
  split
  next => exact settled (sound_dcpStep h)
  next rest _ => exact settled (sound_dcpStep (taken rest))
  next i rest _ _ => exact settled (sound_agentStep (taken rest) i)

end Cycle

theorem sound_reset : Sound State.reset where
  lm := rfl
  mm := rfl
  tags := .inl rfl
  ba := by decide
  pypc := rfl
  pywc := rfl
  scm := rfl
  seq := by decide
  boot := .inr rfl
  halt := .inl rfl
  can := by decide
  san := by decide
  cfg := by decide

/-- Settles O6: the control flip-flops and both sides of the attention timer are zero after reset. -/
theorem invariantAtReset : Obligations.InvariantAtReset :=
  (inv_iff _).mpr ⟨sound_reset, .inr rfl, .inr rfl⟩

/-- Settles O7: every agent's action keeps what the invariant says inside a step, and the end of the step settles the attention
timer. -/
theorem stepKeepsInvariant : Obligations.StepKeepsInvariant := by
  intro s t hs e
  have h : Sound s := ((inv_iff s).mp hs).1
  exact (inv_cycle h).of_eq e

end Sys2Proof.Machine
end

section
/-! PROOF. Only MSKW writes the cluster mask register and only LMWI and LMWD write local memory: the shared operations that end an
instruction keep both, then every other meaning does. -/

namespace Sys2Proof.Machine

/-- The cluster mask register and local memory are as before. A conjunction, so that what holds of a state holds by definition of the
same state with other fields updated. -/
def StoresKept (s t : State) : Prop := t.cm = s.cm ∧ t.lm = s.lm

theorem StoresKept.trans {s t u : State} (h : StoresKept s t) (k : StoresKept t u) : StoresKept s u :=
  ⟨k.1.trans h.1, k.2.trans h.2⟩

/-! ### Shared operations -/

section Frames
variable (s : State)

theorem storesKept_finish (fetch : Bool) : StoresKept s (finish fetch s) := ⟨by simp, by simp⟩

/-- A completing main memory access touches neither (R264). -/
theorem storesKept_completeAccess : StoresKept s (completeAccess s).1 := by
  unfold completeAccess
  split <;> exact ⟨rfl, rfl⟩

/-- The fault entry touches neither (R352, R355). -/
theorem storesKept_enterFault (c : Cause) : StoresKept s (enterFault s c) := by
  unfold enterFault
  split
  · exact ⟨rfl, rfl⟩
  · split <;> exact ⟨rfl, rfl⟩

/-- A fault condition touches neither, whatever comes of it (R352, R366). -/
theorem storesKept_raiseFault (c : Cause) : StoresKept s (raiseFault s c) := by
  unfold raiseFault
  split
  · exact ⟨rfl, rfl⟩
  · exact (storesKept_completeAccess s).trans (storesKept_enterFault _ _)

@[simp] theorem raiseFault_cm (c : Cause) : (raiseFault s c).cm = s.cm := (storesKept_raiseFault s c).1
@[simp] theorem raiseFault_lm (c : Cause) : (raiseFault s c).lm = s.lm := (storesKept_raiseFault s c).2

/-- The end of a local memory read keeps both, with good parity and with bad (R243, R362). -/
theorem storesKept_afterLmRead (fetch : Bool) : StoresKept s (afterLmRead fetch s) := by
  unfold afterLmRead
  split <;> exact ⟨by simp, by simp⟩

/-- A local memory read by an instruction that has kept both goes on keeping both (R243, R358). -/
theorem storesKept_lmRead {t : State} (ht : StoresKept s t) (fetch : Bool) (a : BitVec 14) :
    StoresKept s (lmRead s fetch t a) := by
  unfold lmRead
  split
  · exact StoresKept.trans (t := lmLoad t a) ht (storesKept_afterLmRead _ fetch)
  · exact storesKept_raiseFault s _

/-- A local memory write leaves the mask register alone (R250, R254). -/
theorem lmWrite_cm {t : State} (ht : t.cm = s.cm) (fetch : Bool) (a : BitVec 14) : (lmWrite s fetch t a).cm = s.cm := by
  unfold lmWrite
  split
  · simpa using ht
  · simp

/-! ### Groups 0 and 1 -/

theorem storesKept_nop00011 (a : BitVec 1) (b c : Byte) : AllNext (StoresKept s) (execNop00011 a b c s) := by
  unfold execNop00011
  split <;> exact ⟨rfl, rfl⟩

theorem storesKept_bkp (a : BitVec 3) (b c : Byte) : AllNext (StoresKept s) (execBkp a b c s) := by
  unfold execBkp
  split
  · split <;> exact ⟨rfl, rfl⟩
  · exact ⟨rfl, rfl⟩

/-- The adapter cluster error of AWI and AWRR, from a state that differs from the first in neither (R360). -/
theorem storesKept_clusterError {u : State} (hu : StoresKept s u) :
    StoresKept s (raiseFault (atClusterError s u) .clusterError) :=
  ⟨(raiseFault_cm _ _).trans hu.1, (raiseFault_lm _ _).trans hu.2⟩

theorem storesKept_awi (a : BitVec 2) (b c : Byte) : AllNext (StoresKept s) (execAwi a b c s) := by
  unfold execAwi
  dsimp only
  split
  · exact ⟨rfl, rfl⟩
  · exact ⟨rfl, rfl⟩
  · exact storesKept_clusterError s ⟨rfl, rfl⟩

theorem storesKept_interrogateAnswer {t : State} (ht : StoresKept s t) : StoresKept s (interrogateAnswer s t) := by
  unfold interrogateAnswer
  dsimp only
  split
  · split
    · exact storesKept_clusterError s ht
    · exact ht
  · exact storesKept_clusterError s ht

theorem storesKept_awrr (a : BitVec 2) (b c : Byte) : AllNext (StoresKept s) (execAwrr a b c s) := by
  unfold execAwrr
  dsimp only
  split
  · exact storesKept_interrogateAnswer s ⟨rfl, rfl⟩
  · exact ⟨rfl, rfl⟩
  · exact storesKept_clusterError s ⟨rfl, rfl⟩

theorem storesKept_arwn (b c : Byte) : AllNext (StoresKept s) (execArwn b c s) := by
  unfold execArwn
  split
  next k _ =>
    split
    · exact ⟨rfl, rfl⟩
    · split
      · exact storesKept_raiseFault (readFailed s) _
      · exact ⟨rfl, rfl⟩
  next => split <;> exact ⟨rfl, rfl⟩

theorem storesKept_arin (b c : Byte) : AllNext (StoresKept s) (execArin b c s) := by
  unfold execArin
  split
  next k _ =>
    split
    · exact ⟨rfl, rfl⟩
    · split
      · exact storesKept_raiseFault (readFailed s) _
      · exact ⟨rfl, rfl⟩
  next => exact ⟨rfl, rfl⟩

theorem storesKept_dbyz (b c : Byte) : AllNext (StoresKept s) (execDbyz b c s) := by
  unfold execDbyz
  split <;> exact ⟨rfl, rfl⟩

theorem storesKept_dbyn (b c : Byte) : AllNext (StoresKept s) (execDbyn b c s) := by
  unfold execDbyn
  split <;> exact ⟨rfl, rfl⟩

theorem storesKept_bran (b c : Byte) : AllNext (StoresKept s) (execBran b c s) := by
  unfold execBran
  split <;> exact ⟨rfl, rfl⟩

theorem storesKept_branchIf (a : BitVec 3) (target : InstrAddr) : AllNext (StoresKept s) (branchIf s a target) := by
  unfold branchIf
  split <;> exact ⟨rfl, rfl⟩

theorem storesKept_goi (a : BitVec 3) (b c : Byte) : AllNext (StoresKept s) (execGoi a b c s) := by
  unfold execGoi
  split
  · exact allNext_withByte fun _ => ⟨rfl, rfl⟩
  · exact ⟨rfl, rfl⟩

/-! ### Group 2 -/

/-- The invalid operator fault, raised with an indirect designation noted in P-L (R508). -/
theorem storesKept_invalidOperator (b : Byte) : StoresKept s (raiseFault (noteIndirect s b) .invalidOperator) :=
  storesKept_raiseFault (noteIndirect s b) _

theorem storesKept_moveHalves (b : Byte) (src dst : HalfLoc) : StoresKept s (moveHalves s b src dst) :=
  ⟨by simp, by simp⟩

/-- An instruction with the half-word move keeps both if it does so after the move (R240). -/
theorem storesKept_moveThen (b c : Byte) {k : HalfLoc → HalfLoc → State → Result}
    (hk : ∀ src dst t, StoresKept s t → AllNext (StoresKept s) (k src dst t)) :
    AllNext (StoresKept s) (moveThen b c s k) :=
  allNext_withHalf fun src => allNext_withHalf fun dst => hk src dst _ (storesKept_moveHalves s b src dst)

theorem storesKept_moveHalfWord (b c : Byte) : AllNext (StoresKept s) (moveHalfWord b c s) :=
  storesKept_moveThen s b c fun src dst t ht => by
    split
    · exact storesKept_invalidOperator s b
    · exact ht.trans (storesKept_finish t _)

theorem storesKept_smrd (b c : Byte) : AllNext (StoresKept s) (execSmrd b c s) :=
  allNext_withHalf fun src => allNext_withHalf fun dst => by
    split
    · exact storesKept_invalidOperator s b
    · exact ⟨by simp, by simp⟩

theorem storesKept_smwd (b c : Byte) : AllNext (StoresKept s) (execSmwd b c s) :=
  allNext_withHalf fun src => allNext_withHalf fun dst => ⟨by simp, by simp⟩

theorem storesKept_lmri (b c : Byte) : AllNext (StoresKept s) (execLmri b c s) :=
  storesKept_moveThen s b c fun _ dst t ht => storesKept_lmRead (noteIndirect s b) ht dst.ordersFetch (maLocal t)

theorem storesKept_mmStart (kind : AccessKind) (b c : Byte) : AllNext (StoresKept s) (mmStart kind b c s) :=
  storesKept_moveThen s b c fun _ _ t ht =>
    StoresKept.trans (t := requestAccess t kind) ht (storesKept_finish _ _)

theorem storesKept_mmStartB6700 (kind : AccessKind) (b c : Byte) : AllNext (StoresKept s) (mmStartB6700 kind b c s) := by
  unfold mmStartB6700
  split
  · exact storesKept_mmStart s kind b c
  · trivial

theorem cm_lmwi (b c : Byte) : AllNext (fun t => t.cm = s.cm) (execLmwi b c s) :=
  allNext_withHalf fun src => allNext_withHalf fun dst => lmWrite_cm (noteIndirect s b) (by simp) dst.ordersFetch _

theorem cm_lmwd (b c : Byte) : AllNext (fun t => t.cm = s.cm) (execLmwd b c s) := lmWrite_cm s rfl false (directLocal b c)

/-! ### Groups 3 and 4 -/

theorem storesKept_halfWithAddress (f : Half → Half → HalfResult) (b c : Byte) :
    AllNext (StoresKept s) (halfWithAddress f b c s) :=
  allNext_withHalf fun src => allNext_withHalf fun dst => by
    split
    · exact storesKept_invalidOperator s b
    · exact ⟨by simp, by simp⟩

theorem storesKept_halfWithLiteral (f : Half → Half → HalfResult) (b c : Byte) :
    AllNext (StoresKept s) (halfWithLiteral f b c s) :=
  allNext_withHalf fun dst => ⟨by simp, by simp⟩

theorem storesKept_tran (a : BitVec 3) (b c : Byte) : AllNext (StoresKept s) (execTran a b c s) :=
  allNext_withByte fun bl => allNext_withByte fun cl => by
    split
    · exact storesKept_invalidOperator s b
    · split
      · trivial
      · exact ⟨by simp, by simp⟩

theorem storesKept_pary (a : BitVec 1) (b c : Byte) : AllNext (StoresKept s) (execPary a b c s) :=
  allNext_withByte fun bl => allNext_withByte fun cl => by
    split
    · exact storesKept_invalidOperator s b
    · exact ⟨by simp, by simp⟩

theorem storesKept_bytePlain (f : Byte → Byte → Bool → ByteResult) (exempt : Bool) (a : BitVec 3) (b c : Byte) :
    AllNext (StoresKept s) (bytePlain f exempt a b c s) :=
  allNext_withByte fun bl => allNext_withByte fun cl => by
    split
    · exact storesKept_invalidOperator s b
    · exact ⟨by simp, by simp⟩

theorem storesKept_byteLiteralB (f : Byte → Byte → Bool → ByteResult) (a : BitVec 3) (b c : Byte) :
    AllNext (StoresKept s) (byteLiteralB f a b c s) :=
  allNext_withByte fun cl => ⟨by simp, by simp⟩

theorem storesKept_byteLiteralC (f : Byte → Byte → Bool → ByteResult) (exempt : Bool) (a : BitVec 3) (b c : Byte) :
    AllNext (StoresKept s) (byteLiteralC f exempt a b c s) :=
  allNext_withByte fun bl => by
    split
    · exact storesKept_invalidOperator s b
    · exact ⟨by simp, by simp⟩

theorem storesKept_laom (a : BitVec 3) (b c : Byte) : AllNext (StoresKept s) (execLaom a b c s) :=
  allNext_withByte fun bl => ⟨by simp, by simp⟩

/-! ### Every instruction -/

/-- Every instruction but MSKW, LMWI and LMWD keeps both. -/
theorem storesKept_exec (i : Instr) (hm : ∀ b c, i ≠ .mskw b c) (hl : ∀ b c, i ≠ .lmwi b c ∧ i ≠ .lmwd b c) :
    AllNext (StoresKept s) (exec i s) := by
  cases i with
  | mskw b c => exact absurd rfl (hm b c)
  | lmwi b c => exact absurd rfl (hl b c).1
  | lmwd b c => exact absurd rfl (hl b c).2
  | idle | undef00000 | undef00011 | undef00100 | undef01010 | undef01011 | mskr | shft | heyu => exact ⟨rfl, rfl⟩
  | nop00011 a b c => exact storesKept_nop00011 s a b c
  | bkp a b c => exact storesKept_bkp s a b c
  | awi a b c => exact storesKept_awi s a b c
  | awrr a b c => exact storesKept_awrr s a b c
  | arwn b c => exact storesKept_arwn s b c
  | arin b c => exact storesKept_arin s b c
  | dbyz b c => exact storesKept_dbyz s b c
  | dbyn b c => exact storesKept_dbyn s b c
  | bran b c => exact storesKept_bran s b c
  | goto a _ _ | gox a _ _ => exact storesKept_branchIf s a _
  | goi a b c => exact storesKept_goi s a b c
  | move b c | move01000 b c | move01001 _ b c => exact storesKept_moveHalfWord s b c
  | smrd b c => exact storesKept_smrd s b c
  | smwd b c => exact storesKept_smwd s b c
  | lmri b c => exact storesKept_lmri s b c
  | lmrd _ _ => exact storesKept_lmRead s ⟨rfl, rfl⟩ _ _
  | mmr b c | mmr01001 b c | mmwu b c => exact storesKept_mmStart s _ b c
  | mmwr b c | mmwp b c | mwrp b c => exact storesKept_mmStartB6700 s _ b c
  | had _ b c | hsb _ b c => exact storesKept_halfWithAddress s _ b c
  | hadb _ b c | hsbb _ b c => exact storesKept_halfWithLiteral s _ b c
  | tran a b c => exact storesKept_tran s a b c
  | pary a b c => exact storesKept_pary s a b c
  | add a b c | sub a b c | lan a b c | lor a b c | leo a b c | leo01111 a b c => exact storesKept_bytePlain s _ _ a b c
  | addb a b c | subb a b c | lanb a b c | lorb a b c | leob a b c => exact storesKept_byteLiteralB s _ a b c
  | subc a b c => exact storesKept_byteLiteralC s (fun v literal borrow => byteSub literal v borrow) _ a b c
  | addc a b c | lanc a b c | lorc a b c | leoc a b c => exact storesKept_byteLiteralC s _ _ a b c
  | laom a b c => exact storesKept_laom s a b c

end Frames

/-- Settles O9: LMWI and LMWD write local memory alone, and every other instruction but MSKW keeps local memory too. -/
theorem onlyMskwWritesMask : Obligations.OnlyMskwWritesMask := by
  intro i s t hm e
  by_cases hl : ∀ b c, i ≠ .lmwi b c ∧ i ≠ .lmwd b c
  · exact ((storesKept_exec s i hm hl).of_eq e).1
  · simp only [not_forall, not_and_or, not_not] at hl
    obtain ⟨b, c, rfl | rfl⟩ := hl
    · exact (cm_lmwi s b c).of_eq e
    · exact (cm_lmwd s b c).of_eq e

/-- Settles O10: MSKW writes the mask register alone, and every other instruction but LMWI and LMWD keeps that register too. -/
theorem onlyLmWritesStoreLocal : Obligations.OnlyLmWritesStoreLocal := by
  intro i s t hl e a
  have kept : t.lm = s.lm := by
    by_cases hm : ∀ b c, i ≠ .mskw b c
    · exact ((storesKept_exec s i hm hl).of_eq e).2
    · simp only [not_forall, not_not] at hm
      obtain ⟨b, c, rfl⟩ := hm
      cases e
      rfl
  rw [kept]

end Sys2Proof.Machine
end

section
/-! PROOF. The Reset event: what it leaves in every row of the table of R55, after reset and after a master clear or CLEAR from any
state. -/

namespace Sys2Proof.Machine

/-- A cluster at CS = 11 does not call, so that CAN is off when every cluster is (R42, R48, R406). -/
theorem canOn_of_masterCleared {s : State} (h : ∀ k, (clusterOf s k).cir.cs = .masterCleared) : canOn s = false := by
  rw [← Bool.not_eq_true, canOn_iff]
  rintro ⟨k, -, -, occupied⟩
  rw [h k] at occupied
  cases occupied

theorem masterCleared_reset (k : BitVec 4) : (clusterOf State.reset k).cir.cs = .masterCleared := by
  simp [clusterOf, State.reset, Cluster.cleared]

/-- Settles O4: the state after reset is written out in the model; CAN is off because no cluster calls. -/
theorem resetValues : Obligations.ResetValues :=
  ⟨by decide, rfl, rfl, rfl, rfl, rfl, rfl, rfl, rfl, rfl, rfl, rfl, rfl, canOn_of_masterCleared masterCleared_reset, rfl, rfl,
    rfl, rfl, rfl, rfl, rfl, rfl, masterCleared_reset⟩

/-! ### The Reset event -/

section Reset
variable (s : State) (reached : Bool)

/-- The Reset event raises CLR to every cluster (R435, R490). -/
theorem clusterOf_resetEvent (k : BitVec 4) : clusterOf (resetEvent s reached) k = clearCluster (clusterOf s k) := by
  simp [clusterOf, resetEvent]

theorem masterCleared_resetEvent (k : BitVec 4) : (clusterOf (resetEvent s reached) k).cir.cs = .masterCleared := by
  rw [clusterOf_resetEvent]
  rfl

theorem present_resetEvent (k : BitVec 4) : (clusterOf (resetEvent s reached) k).present = (clusterOf s k).present := by
  rw [clusterOf_resetEvent]
  rfl

/-- Every register is what it is after reset (R55). -/
theorem registers_resetEvent (p : Place)
    (hp : p ∈ [Place.aa, .ac, .ai, .d, .y, .x, .ma2, .ma1, .ma0, .cf, .ia1, .ia0]) :
    p.value (resetEvent s reached) = 0 := by
  fin_cases hp <;> rfl

/-- An access that is cut off before it reached memory leaves none of its effect there (R490; log 1). -/
theorem mm_resetEvent_kept (h : s.pending = none ∨ reached = false) : (resetEvent s reached).mm = s.mm := by
  unfold resetEvent
  obtain idle | rfl := h
  · rw [idle]
  · cases s.pending <;> rfl

/-- An access that has reached memory leaves what its completion leaves (R264, R490; log 1). -/
theorem mm_resetEvent_reached : (resetEvent s true).mm = (completeAccess s).1.mm := by
  unfold resetEvent completeAccess
  cases s.pending <;> rfl

end Reset

/-! ### The step that a clear makes -/

/-- Settling the attention timer changes nothing where both its sides are zero (R365). -/
theorem settleTimers_of_zero {s : State} (can : s.canTimer = 0) (san : s.sanTimer = 0) : settleTimers s = s := by
  have keptCan : (if canOn s then s.canTimer else 0) = s.canTimer := by simp [can]
  have keptSan : (if i23 s then s.sanTimer else 0) = s.sanTimer := by simp [san]
  rw [settleTimers, keptCan, keptSan]

/-- An input that is the only one is gone when its agent acts. -/
theorem inputTaken_only {s : State} (h : s.env.inputs = []) (i : Input) :
    inputTaken { s with env := { s.env with inputs := [i] } } [] = s := by
  simp [inputTaken, ← h]

/-- The step at a master clear or at CLEAR is the Reset event (R390, R468, R490). -/
theorem step_reset {s : State} (h : s.env.inputs = []) {reached : Bool} {i : Input}
    (hi : i ∈ [Input.masterClear reached, .panel (.clear reached)]) :
    step { s with env := { s.env with inputs := [i] } } = .next (resetEvent s reached) := by
  have acts (u : State) : agentStep u i = resetEvent u reached := by fin_cases hi <;> rfl
  have cycled : step { s with env := { s.env with inputs := [i] } } =
      .next (settleTimers (agentStep (inputTaken { s with env := { s.env with inputs := [i] } } []) i)) := by
    fin_cases hi <;> rfl
  rw [cycled, inputTaken_only h, acts, settleTimers_of_zero rfl rfl]

/-- Settles O5: both inputs are the Reset event. -/
theorem masterClear : Obligations.MasterClear := by
  intro s reached i h hi
  have can := canOn_of_masterCleared (masterCleared_resetEvent s reached)
  refine ⟨resetEvent s reached, step_reset h hi, registers_resetEvent s reached, rfl, rfl, rfl, rfl, rfl, rfl, rfl, rfl, rfl,
    rfl, rfl, rfl, can, rfl, rfl, rfl, rfl, rfl, rfl, rfl, rfl, rfl, rfl, fun _ => rfl, ?_, ?_,
    fun k => ⟨masterCleared_resetEvent s reached k, present_resetEvent s reached k⟩⟩
  · intro cut a
    rw [mm_resetEvent_kept s reached cut]
  · rintro rfl a
    rw [mm_resetEvent_reached]

end Sys2Proof.Machine
end

section
/-! PROOF. The completion of a main memory access: what it leaves in W and in memory on both hosts, and the fault it finds. -/

namespace Sys2Proof.Machine

/-! ### Words with tag 000 and generated parity -/

/-- A word of known parity is determined by its other 51 bits (R90). -/
theorem word_eq_of_parity {v w : Word} (low : ∀ j, j < 51 → v.getLsbD j = w.getLsbD j) (parity : oddParity v = oddParity w) :
    v = w := by
  have top : v.getLsbD 51 = w.getLsbD 51 := by
    have whole : (v.getLsbD 51 ^^ xorLow v 51) = (w.getLsbD 51 ^^ xorLow w 51) := parity
    rw [xorLow_congr v w 51 low] at whole
    exact (Bool.xor_left_inj).1 whole
  apply BitVec.eq_of_getLsbD_eq
  intro j hj
  by_cases h : j = 51
  · rw [h, top]
  · exact low j (by omega)

/-- The 48 bits of a word are its halves (R85). -/
theorem low48_eq_halves (w : Word) : w.extractLsb' 0 48 = wordLeft w ++ wordRight w := by
  apply BitVec.eq_of_getLsbD_eq
  intro j hj
  simp only [wordLeft, wordRight, BitVec.getLsbD_append, BitVec.getLsbD_extractLsb', hj]
  by_cases h : j < 24
  · simp [h]
  · simp [h, show j - 24 < 24 by omega, show 24 + (j - 24) = j by omega]

/-- The tag of a word is its tag field without the parity bit (R87). -/
theorem tag_eq_wordTag (w : Word) : w.extractLsb' 48 3 = (wordTag w).extractLsb' 0 3 := by
  apply BitVec.eq_of_getLsbD_eq
  intro j hj
  simp [wordTag, hj, show j < 4 by omega]

/-- A field of a word bit by bit. -/
theorem getLsbD_of_extractLsb' {n k l : Nat} {v w : BitVec n} (h : v.extractLsb' k l = w.extractLsb' k l) {j : Nat}
    (hj : k ≤ j) (hl : j < k + l) : v.getLsbD j = w.getLsbD j := by
  have e := congrArg (fun x : BitVec l => x.getLsbD (j - k)) h
  simpa [BitVec.getLsbD_extractLsb', show j - k < l by omega, show k + (j - k) = j by omega] using e

/-- The fields of a word as W receives it on a B 5700: the 48 bits, tag 000, odd parity (R88, D10). -/
theorem dataFromHost_b5700 (v : Word) : (dataFromHost .b5700 v).extractLsb' 0 48 = v.extractLsb' 0 48 ∧
    (dataFromHost .b5700 v).extractLsb' 48 3 = 0 ∧ oddParity (dataFromHost .b5700 v) = true := by
  refine ⟨?_, ?_, oddParity_withParity _⟩
  · simp [low48_eq_halves, dataFromHost]
  · rw [dataFromHost, tag_withParity, tag_eq_wordTag, wordTag_makeWord]
    rfl

/-- These fields determine the word. -/
theorem eq_dataFromHost_b5700 {got old : Word} (bits : got.extractLsb' 0 48 = old.extractLsb' 0 48)
    (tag : got.extractLsb' 48 3 = 0) (parity : oddParity got = true) : got = dataFromHost .b5700 old := by
  obtain ⟨bits', tag', parity'⟩ := dataFromHost_b5700 old
  refine word_eq_of_parity (fun j hj => ?_) (parity.trans parity'.symm)
  by_cases h : j < 48
  · exact getLsbD_of_extractLsb' (bits.trans bits'.symm) (Nat.zero_le j) (by omega)
  · exact getLsbD_of_extractLsb' (tag.trans tag'.symm) (by omega) (by omega)

/-! ### The word in memory -/

/-- A B 5700 memory holds no tag field (R88). -/
theorem cellRead_of_noTags {m : Memory} (h : noTags m = true) {a : Nat} (ha : a % 8 = 6) : cellRead m a = 0 := by
  induction m with
  | nil => rfl
  | cons c m ih =>
    obtain ⟨k, v⟩ := c
    obtain ⟨hk, hm⟩ : k % 8 ≠ 6 ∧ noTags m = true := by simpa [noTags] using h
    rw [cellRead, if_neg (by rintro rfl; exact hk ha), ih hm]

/-- A B 5700 word read where it was just written: its 48 bits, the tag field as it was (R88). -/
theorem memRead_memWrite48 {words a : Nat} {m : Memory} (hw : Memory.wf words m = true) (h : a < words) (v : Word) :
    memRead (memWrite48 m a v) a = makeWord ((cellRead m (8 * a + 6)).setWidth 4) (wordLeft v) (wordRight v) := by
  unfold memRead
  simp only [cellRead_memWrite48 hw h, append_right_eq_makeWord]
  simp [rows_eta]

/-- The word that memory holds after a store (R88, D10). -/
def storedWord (m : Mainframe) (v : Word) : Word :=
  match m with
  | .b6700 => v
  | .b5700 => 0#4 ++ v.extractLsb' 0 48

theorem memRead_hostStore {m : Mainframe} {l : Memory} (hw : Memory.wf (mmWords m) l = true)
    (ht : m = .b6700 ∨ noTags l = true) {a : SysAddr} (ha : a.toNat < mmWords m) (v : Word) :
    memRead (hostStore m l a v) a.toNat = storedWord m v := by
  cases m with
  | b6700 => exact memRead_memWrite hw ha v
  | b5700 =>
    have noTag : cellRead l (8 * a.toNat + 6) = 0 := cellRead_of_noTags (ht.resolve_left (by simp)) (by omega)
    rw [hostStore, memRead_memWrite48 hw ha, noTag, storedWord, low48_eq_halves, append_right_eq_makeWord]
    rfl

theorem cellRead_hostStore_other {m : Mainframe} {l : Memory} (hw : Memory.wf (mmWords m) l = true) {a : SysAddr}
    (ha : a.toNat < mmWords m) (v : Word) {x : Nat} (hx : x < 8 * a.toNat ∨ 8 * a.toNat + 7 ≤ x) :
    cellRead (hostStore m l a v) x = cellRead l x := by
  cases m with
  | b6700 => exact cellRead_memWrite_other hw ha v x hx
  | b5700 => exact cellRead_memWrite48_other hw ha v x (by omega)

/-! ### The completion -/

theorem AccessKind.reads_iff (k : AccessKind) :
    k.reads = true ↔ k = .read ∨ k = .writeRead ∨ k = .protectedWriteRead := by
  cases k <;> simp [AccessKind.reads]

theorem AccessKind.writes_iff (k : AccessKind) : k.writes = true ↔ k ≠ .read := by
  cases k <;> simp [AccessKind.writes]

theorem AccessKind.isProtected_iff (k : AccessKind) :
    k.isProtected = true ↔ k = .protectedWrite ∨ k = .protectedWriteRead := by
  cases k <;> simp [AccessKind.isProtected]

section Completion
variable {s : State} {acc : Access}

theorem completeAccess_pending (h : s.pending = some acc) : completeAccess s = (accessEffect s acc, accessFault s acc) := by
  rw [completeAccess, h]

theorem completeAccess_idle (h : s.pending = none) : completeAccess s = (s, none) := by
  rw [completeAccess, h]

/-- W after the completion (R264). -/
theorem accessEffect_w (s : State) (acc : Access) : (accessEffect s acc).w =
    if mmValid s s.ba && acc.kind.reads then dataFromHost s.cfg.mainframe (memRead s.mm s.ba.toNat) else s.w := rfl

/-- Main memory after the completion (R264). -/
theorem accessEffect_mm (s : State) (acc : Access) : (accessEffect s acc).mm =
    if mmValid s s.ba && acc.kind.writes && !accessDenied s acc then hostStore s.cfg.mainframe s.mm s.ba acc.data
    else s.mm := rfl

/-- The completion touches no place outside W. -/
theorem placesKept_accessEffect (s : State) (acc : Access) : PlacesKept s (accessEffect s acc) Place.isW := fun p _ hw =>
  value_congr_but_W p hw rfl rfl rfl rfl rfl rfl rfl rfl rfl rfl rfl rfl rfl

theorem restKept_accessEffect (s : State) (acc : Access) :
    RestKept s { accessEffect s acc with pending := s.pending, env := s.env, mm := s.mm } :=
  ⟨rfl, rfl, rfl, rfl, rfl, rfl, rfl, rfl, rfl, rfl, rfl, rfl, rfl, rfl, rfl, rfl, rfl, rfl, memoryKept_of rfl rfl⟩

/-- Every byte outside the word at BA is as before. -/
theorem cellRead_accessEffect_other (ok : s.memoryOk = true) (acc : Access) {x : Nat}
    (hx : x < 8 * s.ba.toNat ∨ 8 * s.ba.toNat + 7 ≤ x) : cellRead (accessEffect s acc).mm x = cellRead s.mm x := by
  obtain ⟨-, wf, -, below⟩ := (memoryOk_iff s).1 ok
  obtain e | e := accessEffect_mm_cases s acc
  · rw [e]
  · rw [e, cellRead_hostStore_other wf below _ hx]

/-! ### The fault of a completion where the word exists, in the order of R357 -/

theorem accessFault_of_error (present : mmValid s s.ba = true) (e : nextError s = true) :
    accessFault s acc = some .mmDetected := by
  simp [accessFault, present, e]

theorem accessFault_of_badParity (present : mmValid s s.ba = true) (e : nextError s = false) (reads : acc.kind.reads = true)
    (parity : oddParity (dataFromHost s.cfg.mainframe (memRead s.mm s.ba.toNat)) = false) :
    accessFault s acc = some .mmParity := by
  simp [accessFault, present, e, reads, parity]

theorem accessFault_of_goodWord (present : mmValid s s.ba = true) (e : nextError s = false)
    (good : ¬ acc.kind.reads = true ∨ oddParity (dataFromHost s.cfg.mainframe (memRead s.mm s.ba.toNat)) = true) :
    accessFault s acc = if accessDenied s acc then some .mmProtected else none := by
  obtain reads | parity := good
  · simp [accessFault, present, e, reads]
  · simp [accessFault, present, e, parity]

end Completion

/-- Settles O42: W and memory by the kind of the access, on each host, and the fault by the order of R357. -/
theorem accessCompletion : Obligations.AccessCompletion := by
  intro s acc old got put ok pending hold on6700 on5700
  have gotIs : dataFromHost s.cfg.mainframe old = got := by
    cases host : s.cfg.mainframe with
    | b6700 => exact (on6700 host).1.symm
    | b5700 =>
      obtain ⟨bits, tag, parity, -⟩ := on5700 host
      exact (eq_dataFromHost_b5700 bits tag parity).symm
  have putIs : storedWord s.cfg.mainframe acc.data = put := by
    cases host : s.cfg.mainframe with
    | b6700 => exact (on6700 host).2.symm
    | b5700 => exact (on5700 host).2.2.2.symm
  obtain ⟨-, wf, tags, below⟩ := (memoryOk_iff s).1 ok
  have denied : accessDenied s acc = true ↔ (acc.kind = .protectedWrite ∨ acc.kind = .protectedWriteRead) ∧
      old.getLsbD s.cfg.mmProtectBit.val = true := by
    rw [accessDenied, Bool.and_eq_true, AccessKind.isProtected_iff, hold]
  rw [completeAccess_pending pending]
  dsimp only
  rw [← AccessKind.reads_iff, ← denied, ← AccessKind.writes_iff]
  refine ⟨rfl, rfl, rfl, rfl, rfl, rfl, rfl, placesKept_accessEffect s acc, restKept_accessEffect s acc, ?_, ?_⟩
  · intro absent
    simp [accessEffect_w, accessEffect_mm, accessFault, absent]
  · intro present
    have bad := accessFault_of_badParity (acc := acc) present
    have good := accessFault_of_goodWord (acc := acc) present
    have wIs : (accessEffect s acc).w = if acc.kind.reads then got else s.w := by
      rw [accessEffect_w, present, ← hold, gotIs, Bool.true_and]
    have mmIs : (accessEffect s acc).mm = if acc.kind.writes && !accessDenied s acc
        then hostStore s.cfg.mainframe s.mm s.ba acc.data else s.mm := by
      rw [accessEffect_mm, present, Bool.true_and]
    rw [← hold, gotIs] at good bad
    refine ⟨fun r => by rw [wIs, if_pos r], fun r => by rw [wIs, if_neg r], fun kept => ?_, fun writes allowed => ?_,
      fun x hx => cellRead_accessEffect_other ok acc hx, accessFault_of_error present, bad, fun e rp d => ?_, fun e rp d => ?_⟩
    · have stays : ¬ (acc.kind.writes && !accessDenied s acc) = true := by
        obtain read | d := kept
        · simp [read, AccessKind.writes]
        · simp [d]
      rw [mmIs, if_neg stays]
    · rw [mmIs, if_pos (by simp [writes, allowed]), memRead_hostStore wf tags below, putIs]
    · rw [good e rp, if_pos d]
    · rw [good e rp, if_neg d]

end Sys2Proof.Machine
end

section
/-! PROOF. The writes of local memory and the faults of its instructions: each instruction at an address that exists and at one that
does not, then the half-word move and the word of local memory by places. -/

namespace Sys2Proof.Machine

/-! ### The instructions at their addresses -/

section Addresses
variable {s : State} {b c : Byte} {src dst : HalfLoc}

/-- An instruction with the half-word move whose two addresses name locations (R240). -/
theorem moveThen_of_ok {k : HalfLoc → HalfLoc → State → Result} (hsrc : halfLoc .g2 (bAddress s b) = .ok src)
    (hdst : halfLoc .g2 (cAddress s c) = .ok dst) : moveThen b c s k = k src dst (moveHalves s b src dst) := by
  simp only [moveThen, withHalf, hsrc, hdst]

theorem exec_lmri (hsrc : halfLoc .g2 (bAddress s b) = .ok src) (hdst : halfLoc .g2 (cAddress s c) = .ok dst) :
    exec (.lmri b c) s = .next (lmRead (noteIndirect s b) dst.ordersFetch (moveHalves s b src dst)
      (maLocal (moveHalves s b src dst))) := by
  rw [exec, execLmri, moveThen_of_ok hsrc hdst]

theorem exec_lmwi (hsrc : halfLoc .g2 (bAddress s b) = .ok src) (hdst : halfLoc .g2 (cAddress s c) = .ok dst) :
    exec (.lmwi b c) s = .next (lmWrite (noteIndirect s b) dst.ordersFetch (moveHalves s b src dst)
      (maLocal (moveHalves s b src dst))) := by
  rw [exec, execLmwi, moveThen_of_ok hsrc hdst]

theorem exec_lmrd (b c : Byte) (s : State) : exec (.lmrd b c) s = .next (lmRead s false s (b.extractLsb' 0 6 ++ c)) := rfl

theorem exec_lmwd (b c : Byte) (s : State) : exec (.lmwd b c) s = .next (lmWrite s false s (b.extractLsb' 0 6 ++ c)) := rfl

end Addresses

section Words
variable {s t : State} {a : BitVec 14} {fetch : Bool}

theorem lmWrite_of_exists (h : lmExists s a = true) : lmWrite s fetch t a = finish fetch (lmStore t a) := if_pos h

theorem lmWrite_of_absent (h : lmExists s a = false) : lmWrite s fetch t a = raiseFault s .lmAddress := by
  simp [lmWrite, h]

theorem lmRead_of_absent (h : lmExists s a = false) : lmRead s fetch t a = raiseFault s .lmAddress := by
  simp [lmRead, h]

/-- A word of even parity raises the parity fault where HOLD P-L does not ignore it (R362, R366). -/
theorem lmRead_of_badParity (h : lmExists s a = true) (hold : t.env.panel.hold ≠ .holdPL)
    (parity : oddParity (memRead t.lm a.toNat) = false) :
    lmRead s fetch t a = raiseFault (lmStopped fetch (lmLoad t a)) .lmParity := by
  simp [lmRead, h, afterLmRead, parity, holdPL, hold]

/-- Local memory holds W after the store, every other byte as before (R84, R90). -/
theorem memRead_lmStore (wf : Memory.wf (4096 * t.cfg.lmModules.val) t.lm = true) (h : lmExists t a = true) :
    memRead (lmStore t a).lm a.toNat = (lmStore t a).w :=
  memRead_memWrite wf (of_decide_eq_true h) _

theorem cellRead_lmStore_other (wf : Memory.wf (4096 * t.cfg.lmModules.val) t.lm = true) (h : lmExists t a = true) {x : Nat}
    (hx : x < 8 * a.toNat ∨ 8 * a.toNat + 7 ≤ x) : cellRead (lmStore t a).lm x = cellRead t.lm x :=
  cellRead_memWrite_other wf (of_decide_eq_true h) _ x hx

/-- The store changes the tag field of W and no other place (D5). -/
theorem value_lmStore (p : Place) (hp : among [.wTag] p = false) : p.value (lmStore t a) = p.value t :=
  (value_congr p rfl rfl rfl rfl rfl rfl rfl rfl rfl rfl rfl rfl rfl rfl).trans (value_parityW t p hp)

theorem restKept_lmStore : RestKept t { lmStore t a with lm := t.lm } :=
  ⟨rfl, rfl, rfl, rfl, rfl, rfl, rfl, rfl, rfl, rfl, rfl, rfl, rfl, rfl, rfl, rfl, rfl, rfl, memoryKept_of rfl rfl⟩

/-- The read cycle changes W and no other place (R243). -/
theorem value_lmLoad (p : Place) (hp : p.isW = false) : p.value (lmLoad t a) = p.value t :=
  value_congr_but_W p hp rfl rfl rfl rfl rfl rfl rfl rfl rfl rfl rfl rfl rfl

theorem restKept_lmLoad : RestKept t { lmLoad t a with pywc := t.pywc, scm := t.scm } :=
  ⟨rfl, rfl, rfl, rfl, rfl, rfl, rfl, rfl, rfl, rfl, rfl, rfl, rfl, rfl, rfl, rfl, rfl, rfl, memoryKept_of rfl rfl⟩

end Words

/-! ### The write -/

theorem wordTag_eq_value (s : State) : wordTag s.w = (Place.wTag.value s).setWidth 4 := by
  simp [Place.value, extract_tag]

/-- The tag of W is not among what the half-word move can store (R135). -/
theorem tag_moveHalves (s : State) (b : Byte) (src dst : HalfLoc) :
    (moveHalves s b src dst).w.extractLsb' 48 3 = s.w.extractLsb' 48 3 := by
  have kept : Place.wTag.value (moveHalves s b src dst) = Place.wTag.value s := by
    rw [(value_moveHalves s b src dst .wTag).1 rfl, halfStored]
    cases dst <;> simp [HalfLoc.covers, selects, Place.cell]
  rw [tag_eq_wordTag, tag_eq_wordTag, wordTag_eq_value, wordTag_eq_value, kept]

/-- A store of W at a word that exists, whatever ends the instruction (R90, R250, R254). -/
theorem lmStored {t : State} (ok : t.memoryOk = true) {a : BitVec 14} (h : lmExists t a = true) (fetch : Bool) :
    memRead (finish fetch (lmStore t a)).lm a.toNat = (finish fetch (lmStore t a)).w ∧
      oddParity (finish fetch (lmStore t a)).w = true ∧
      (finish fetch (lmStore t a)).w.extractLsb' 48 3 = t.w.extractLsb' 48 3 ∧
      ∀ x, x < 8 * a.toNat ∨ 8 * a.toNat + 7 ≤ x → cellRead (finish fetch (lmStore t a)).lm x = cellRead t.lm x := by
  obtain ⟨wf, -⟩ := (memoryOk_iff t).1 ok
  rw [finish_lm, finish_w]
  exact ⟨memRead_lmStore wf h, oddParity_withParity _, tag_withParity _, fun x hx => cellRead_lmStore_other wf h hx⟩

/-- Settles O37: both instructions are the store at the address, LMWI after the half-word move. -/
theorem localMemoryWrites : Obligations.LocalMemoryWrites := by
  intro b c s ok
  constructor
  · intro src dst a hsrc hdst addr h
    rw [exec_lmwi hsrc hdst, ← addr, lmWrite_of_exists (s := noteIndirect s b) h]
    have moveOk : (moveHalves s b src dst).memoryOk = true := by simpa [State.memoryOk] using ok
    have moveExists : lmExists (moveHalves s b src dst) a = true := by simpa [lmExists] using h
    obtain ⟨stored, parity, tag, others⟩ := lmStored moveOk moveExists dst.ordersFetch
    refine ⟨_, rfl, stored, parity, tag.trans (tag_moveHalves s b src dst), ?_, ?_, ?_, ?_⟩
    · rw [addr]
      simp [maLocal, ma]
    · exact moved_finish (u := lmStore (moveHalves s b src dst) a) (among [.wTag]) value_lmStore wTag_but rfl (by simp)
        (by simp) (by simp)
    · simpa using others
    · constructor <;> simp [memoryKept_of]
  · rintro a rfl h
    rw [exec_lmwd, lmWrite_of_exists h]
    obtain ⟨stored, parity, tag, others⟩ := lmStored ok h false
    refine ⟨_, rfl, stored, parity, tag, ?_, others, restKept_trans restKept_lmStore (restKept_release _)⟩
    exact passedOver_release (u := lmStore s (b.extractLsb' 0 6 ++ c)) (among [.wTag]) rfl rfl rfl rfl rfl rfl
      fun p _ => value_lmStore p

/-! ### The parity fault -/

/-- The R instruction would have followed: the cycle and the statements say it alike (R180, R362). -/
theorem stops_eq_follows {s u : State} (fetch : Bool) (hi : fetch = false → ia u = ia s) (hb : u.bstm = s.bstm)
    (he : u.env = s.env) : (!fetch && transfers u) = follows s fetch := by
  cases fetch with
  | true => simp [follows]
  | false => rw [transfers_eq_follows, follows, follows, hi rfl, hb, he]; rfl

/-- A destination that does not name IA leaves it alone (R178). -/
theorem movedIA_of_not_ordersFetch {dst : HalfLoc} (h : dst.ordersFetch = false) (s : State) : movedIA s dst = ia s := by
  obtain ⟨high, low⟩ : dst.covers .ia1 = false ∧ dst.covers .ia0 = false := by
    simpa [HalfLoc.namesIA] using (half_namesIA dst).trans h
  simp [movedIA, halfStored, high, low, ia]

/-- The half-word move leaves P as the note of an indirect address left it (R183). -/
theorem p_moveHalves (s : State) (b : Byte) (src dst : HalfLoc) : (moveHalves s b src dst).p = (noteIndirect s b).p := by
  rw [moveHalves, storeBesideMA_p, setMA_p]

section Stopped
variable (fetch : Bool) (u : State)

theorem value_lmStopped (p : Place) (hp : p.isControl = false) : p.value (lmStopped fetch u) = p.value u := by
  cases p with
  | cf | ia1 | ia0 => cases hp
  | _ => rfl

theorem cfIs_lmStopped : CfIs (lmStopped fetch u) u.cf := fun k hk => by simp [getLsbD_setBit, hk]

theorem i20_lmStopped : (lmStopped fetch u).cf.getLsbD 4 = (lmStopped fetch u).ex := by
  simp [getElem_setBit]

end Stopped

/-- Settles O38: an address that does not exist is found before anything is stored, even parity after the read cycle. -/
theorem localMemoryFaults : Obligations.LocalMemoryFaults := by
  intro b c s
  refine ⟨fun src dst hsrc hdst absent i hi => ?_, fun src dst a hsrc hdst addr h hold parity => ?_,
    fun absent i hi => ?_, fun h hold parity => ?_⟩
  · have absent' : lmExists (noteIndirect s b) (maLocal (moveHalves s b src dst)) = false := absent
    rw [← noteIndirect_eq_yCopied]
    fin_cases hi
    · exact (exec_lmri hsrc hdst).trans (by rw [lmRead_of_absent absent'])
    · exact (exec_lmwi hsrc hdst).trans (by rw [lmWrite_of_absent absent'])
  · have moved : ia (moveHalves s b src dst) = movedIA s dst := ia_moveHalves s b src dst
    have stops : (lmStopped dst.ordersFetch (lmLoad (moveHalves s b src dst) a)).ex = follows s dst.namesIA := by
      rw [half_namesIA]
      exact stops_eq_follows _ (fun f => moved.trans (movedIA_of_not_ordersFetch f s)) (by simp) (by simp)
    rw [exec_lmri hsrc hdst, ← addr,
      lmRead_of_badParity (s := noteIndirect s b) h (by simpa using hold) (by simpa using parity)]
    refine ⟨_, rfl, by simp, by rw [addr]; rfl, ?_, moved, stops, (i20_lmStopped _ _).trans stops, ?_, ?_, ?_⟩
    · exact halfMoved_of (u := lmLoad (moveHalves s b src dst) a) Place.isW value_lmLoad isW_but (value_lmStopped _ _)
        (cfIs_lmStopped _ _)
    · exact (congrArg wordRight (p_moveHalves s b src dst)).trans (right_noteIndirect s b)
    · exact (congrArg wordTag (p_moveHalves s b src dst)).trans (tag_noteIndirect s b)
    · constructor <;> simp [memoryKept_of]
  · fin_cases hi
    · exact (exec_lmrd b c s).trans (by rw [lmRead_of_absent absent])
    · exact (exec_lmwd b c s).trans (by rw [lmWrite_of_absent absent])
  · have stops : (lmStopped false (lmLoad s (b.extractLsb' 0 6 ++ c))).ex = follows s false :=
      stops_eq_follows false (fun _ => rfl) rfl rfl
    rw [exec_lmrd, lmRead_of_badParity h hold parity]
    refine ⟨_, rfl, rfl, rfl, stops, (i20_lmStopped _ _).trans stops, cfIs_lmStopped _ _, rfl,
      fun p hp hw => (value_lmStopped _ _ p hp).trans (value_lmLoad p hw), ?_⟩
    constructor <;> simp [memoryKept_of]

end Sys2Proof.Machine
end

section
/-! PROOF. Operands by places: what a register column, a byte address and a half-word address deliver, and the registers of the A
field. -/

namespace Sys2Proof.Machine

/-! ### Register columns by rows -/

/-- A place of the register matrix stands in the row of its half-word, one of three (R20, R131). -/
theorem row_of_cell {p : Place} {c : BitVec 3} {r : Nat} (h : p.cell = some (c, r)) : r = p.row ∧ r < 3 ∧ p.isTag = false := by
  cases p <;> simp_all [Place.cell, Place.row, Place.isTag] <;> omega

/-- A row of a column holds what its place holds (R131). -/
theorem halfRow_column_of_cell (s : State) {p : Place} {c : BitVec 3} {r : Nat} (h : p.cell = some (c, r)) :
    halfRow (column s c) r = p.value s := by
  cases p with
  | w n =>
    obtain ⟨rfl, rfl⟩ : (if n.val < 3 then 5 else 6) = c ∧ 2 - n.val % 3 = r := by simpa [Place.cell] using h
    rw [Place.value, extract_byte]
    split <;> rfl
  | wTag | sm _ _ | smTag _ => cases h
  | _ =>
    cases h
    simp [column, Place.value, halfRow_zero, halfRow_one, halfRow_two]

/-- The places of the register matrix (R20, R131). -/
def matrixPlaces : List Place :=
  [.aa, .ac, .ai, .d, .y, .x, .ma2, .ma1, .ma0, .cf, .ia1, .ia0, .w 0, .w 1, .w 2, .w 3, .w 4, .w 5]

/-- Every row of the columns 001 to 110 is a place. -/
theorem exists_cell : ∀ c : BitVec 3, c ≠ 0 → c ≠ 7 → ∀ r < 3, ∃ p ∈ matrixPlaces, p.cell = some (c, r) := by
  decide

/-- A row that is no place reads zeros: only the columns 000 and 111 have such rows (R144). -/
theorem halfRow_column_of_none (s : State) {c : BitVec 3} {r : Nat} (hr : r < 3) (h : ∀ p : Place, p.cell ≠ some (c, r)) :
    halfRow (column s c) r = 0 := by
  by_cases noColumn : c = 0 ∨ c = 7
  · have zeros : column s c = 0 := by
      obtain rfl | rfl := noColumn <;> rfl
    simp [zeros, halfRow]
  · obtain ⟨p, -, hp⟩ := exists_cell c (fun e => noColumn (.inl e)) (fun e => noColumn (.inr e)) r hr
    exact absurd hp (h p)

theorem halfRow_selectRows (sel : BitVec 3) (n o : Half) {r : Nat} (hr : r < 3) :
    halfRow (selectRows sel n o) r = if sel.getLsbD r then halfRow n r else halfRow o r := by
  obtain rfl | rfl | rfl : r = 0 ∨ r = 1 ∨ r = 2 := by omega
  · exact row0_selectRows sel n o
  · exact row1_selectRows sel n o
  · exact row2_selectRows sel n o

theorem getLsbD_orRows (sel : BitVec 3) (h : Half) (k : Nat) :
    (orRows sel h).getLsbD k = true ↔ ∃ r, r < 3 ∧ sel.getLsbD r = true ∧ (halfRow h r).getLsbD k = true := by
  have pickBit (c : Bool) (v : Byte) : (pick c v 0).getLsbD k = (c && v.getLsbD k) := by
    cases c <;> simp [pick]
  simp only [orRows, BitVec.getLsbD_or, pickBit, Bool.or_eq_true, Bool.and_eq_true]
  constructor
  · rintro ((⟨h2, v⟩ | ⟨h1, v⟩) | ⟨h0, v⟩)
    · exact ⟨2, by decide, h2, v⟩
    · exact ⟨1, by decide, h1, v⟩
    · exact ⟨0, by decide, h0, v⟩
  · rintro ⟨r, hr, selected, v⟩
    obtain rfl | rfl | rfl : r = 0 ∨ r = 1 ∨ r = 2 := by omega
    · exact .inr ⟨selected, v⟩
    · exact .inl (.inr ⟨selected, v⟩)
    · exact .inl (.inl ⟨selected, v⟩)

theorem selects_iff (c sel : BitVec 3) (p : Place) :
    selects c sel p = true ↔ ∃ r, p.cell = some (c, r) ∧ sel.getLsbD r = true := by
  unfold selects
  cases h : p.cell with
  | none => simp
  | some q =>
    obtain ⟨d, r⟩ := q
    simp only [Bool.and_eq_true, beq_iff_eq, Option.some.injEq, Prod.mk.injEq]
    constructor
    · rintro ⟨rfl, on⟩
      exact ⟨r, ⟨rfl, rfl⟩, on⟩
    · rintro ⟨_, ⟨rfl, rfl⟩, on⟩
      exact ⟨rfl, on⟩

/-! ### Bytes -/

/-- The byte of a register column is the OR of the places whose row bits are on (R47, R132). -/
theorem getLsbD_readByte_regs (s : State) (c sel : BitVec 3) (k : Nat) : (readByte s (.regs c sel)).getLsbD k = true ↔
    ∃ p : Place, ByteLoc.covers (.regs c sel) p = true ∧ (p.value s).getLsbD k = true := by
  rw [readByte, getLsbD_orRows]
  simp only [ByteLoc.covers, selects_iff]
  constructor
  · rintro ⟨r, hr, on, v⟩
    by_cases h : ∃ p : Place, p.cell = some (c, r)
    · obtain ⟨p, hp⟩ := h
      exact ⟨p, ⟨r, hp, on⟩, by rwa [← halfRow_column_of_cell s hp]⟩
    · rw [halfRow_column_of_none s hr (not_exists.1 h)] at v
      simp at v
  · rintro ⟨p, ⟨r, hp, on⟩, v⟩
    exact ⟨r, (row_of_cell hp).2.1, on, by rwa [halfRow_column_of_cell s hp]⟩

/-- A byte of a word that is no register column is what its place holds (R132). -/
theorem readByte_of_covers (s : State) {l : ByteLoc} (hl : l.valid) {p : Place} (hp : l.covers p = true)
    (ht : p.isTag = false) (hr : ∀ c sel, l ≠ .regs c sel) : readByte s l = p.value s := by
  cases l with
  | none => cases hp
  | regs c sel => exact absurd rfl (hr c sel)
  | smByte k n =>
    obtain ⟨m, hm, rfl⟩ : ∃ m : Fin 6, n.toNat = m.val ∧ p = .sm k m := of_decide_eq_true hp
    rw [readByte, wordByte_eq_extract _ _ hl, hm, Place.value]
  | wByte n =>
    obtain ⟨m, hm, rfl⟩ : ∃ m : Fin 6, n.toNat = m.val ∧ p = .w m := of_decide_eq_true hp
    rw [readByte, wordByte_eq_extract _ _ hl, hm, Place.value]
  | smTag k =>
    obtain rfl : p = .smTag k := of_decide_eq_true hp
    cases ht
  | wTag =>
    obtain rfl : p = .wTag := of_decide_eq_true hp
    cases ht

/-- A tag field on the byte path, in the low or in the high four bits (R87, D4). -/
theorem tagToByte_eq (right : Bool) (t : BitVec 4) :
    tagToByte right t = if right then t.setWidth 8 else t.setWidth 8 <<< 4 := by
  revert right t
  decide

theorem readByte_of_tag (s : State) {l : ByteLoc} {p : Place} (hp : l.covers p = true) (ht : p.isTag = true) :
    readByte s l = if s.cfg.tagAlignRight then p.value s else p.value s <<< 4 := by
  cases l with
  | none => cases hp
  | regs c sel =>
    obtain ⟨r, hr, -⟩ := (selects_iff c sel p).1 hp
    rw [(row_of_cell hr).2.2] at ht
    cases ht
  | smByte k n =>
    obtain ⟨m, -, rfl⟩ : ∃ m : Fin 6, n.toNat = m.val ∧ p = .sm k m := of_decide_eq_true hp
    cases ht
  | wByte n =>
    obtain ⟨m, -, rfl⟩ : ∃ m : Fin 6, n.toNat = m.val ∧ p = .w m := of_decide_eq_true hp
    cases ht
  | smTag k =>
    obtain rfl : p = .smTag k := of_decide_eq_true hp
    exact tagToByte_eq _ _
  | wTag =>
    obtain rfl : p = .wTag := of_decide_eq_true hp
    exact tagToByte_eq _ _

/-- An address that names no place delivers zeros (R144). -/
theorem readByte_of_covers_nothing (s : State) {l : ByteLoc} (hl : l.valid) (h : ∀ p : Place, l.covers p = false) :
    readByte s l = 0 := by
  cases l with
  | none => rfl
  | regs c sel =>
    apply BitVec.eq_of_getLsbD_eq
    intro k _
    have zero : (0 : Byte).getLsbD k = false := BitVec.getLsbD_zero
    rw [zero, ← Bool.not_eq_true, getLsbD_readByte_regs]
    rintro ⟨p, hp, -⟩
    rw [h p] at hp
    cases hp
  | smByte k n => exact absurd (h (.sm k ⟨n.toNat, hl⟩)) (by simp [ByteLoc.covers])
  | wByte n => exact absurd (h (.w ⟨n.toNat, hl⟩)) (by simp [ByteLoc.covers])
  | smTag k => exact absurd (h (.smTag k)) (by simp [ByteLoc.covers])
  | wTag => exact absurd (h .wTag) (by simp [ByteLoc.covers])

/-! ### The A field -/

/-- Each register that the A field names as a destination is one place (R126). -/
theorem covers_dstA_iff (l : ByteLoc) (p : Place) :
    ((dstA 2 l).covers p = true ↔ p = .x) ∧ ((dstA 3 l).covers p = true ↔ p = .y) ∧ ((dstA 4 l).covers p = true ↔ p = .d) ∧
      ((dstA 5 l).covers p = true ↔ p = .ma0) ∧ ((dstA 6 l).covers p = true ↔ p = .ma1) ∧
      ((dstA 7 l).covers p = true ↔ p = .ma2) := by
  cases p with
  | w n =>
    by_cases left : n.val < 3 <;> simp [dstA, ByteLoc.covers, selects, Place.cell, left]
  | _ => simp [dstA, ByteLoc.covers, selects, Place.cell]

/-! ### Half-words -/

theorem halfRow_readHalf_of_covers (s : State) {h : HalfLoc} {p : Place} (hp : h.covers p = true) :
    halfRow (readHalf s h) p.row = p.value s := by
  cases h with
  | regs c sel =>
    obtain ⟨r, hr, on⟩ := (selects_iff c sel p).1 hp
    obtain ⟨rfl, below, -⟩ := row_of_cell hr
    rw [readHalf, halfRow_selectRows _ _ _ below, if_pos on, halfRow_column_of_cell s hr]
  | smHalf k right =>
    obtain ⟨m, rfl, rfl⟩ : ∃ m : Fin 6, right = decide (3 ≤ m.val) ∧ p = .sm k m := of_decide_eq_true hp
    rw [Place.value, extract_byte, readHalf, Place.row]
    by_cases left : m.val < 3
    · simp [left, show ¬ 3 ≤ m.val by omega]
    · simp [left, show 3 ≤ m.val by omega]

theorem halfRow_readHalf_of_none (s : State) {h : HalfLoc} {r : Nat} (hr : r < 3)
    (vacant : ∀ p : Place, h.covers p = true → p.row ≠ r) : halfRow (readHalf s h) r = 0 := by
  cases h with
  | regs c sel =>
    rw [readHalf, halfRow_selectRows _ _ _ hr]
    split
    next on =>
      refine halfRow_column_of_none s hr fun p hp => vacant p ?_ (row_of_cell hp).1.symm
      exact (selects_iff c sel p).2 ⟨r, hp, on⟩
    next => simp [halfRow]
  | smHalf k right =>
    have last : (if right then 5 - r else 2 - r) < 6 := by split <;> omega
    refine absurd ?_ (vacant (.sm k ⟨if right then 5 - r else 2 - r, last⟩) ?_)
    · cases right <;> simp [Place.row] <;> omega
    · cases right <;> simp [HalfLoc.covers] <;> omega

/-- Settles O51: each kind of location delivers what its places hold. -/
theorem byteOperands : Obligations.ByteOperands := by
  intro s a l named
  have valid := byteLoc_valid named
  refine ⟨readByte_of_covers_nothing s valid, ?_, fun p ht hp hr => readByte_of_covers s valid hp ht hr,
    fun p ht hp => readByte_of_tag s hp ht, rfl, rfl, rfl, rfl, rfl, rfl, rfl, rfl, rfl, rfl, covers_dstA_iff l,
    fun h => ⟨fun p hp => halfRow_readHalf_of_covers s hp, fun r hr vacant => halfRow_readHalf_of_none s hr vacant⟩⟩
  rintro col sel rfl k
  exact getLsbD_readByte_regs s col sel k

end Sys2Proof.Machine
end

section
/-! PROOF. What is refused by name: the addresses without an effect, and every instruction as its operands decoded, then what it
does with them. -/

namespace Sys2Proof.Machine

/-! ### Addresses -/

section Addresses
variable {x : Byte} (kind : HalfKind)

theorem halfLoc_of_indirect (h : x.extractLsb' 6 2 = 1) : halfLoc kind x = .error .indirectTwice := by
  simp [halfLoc, addrForm, h]

theorem byteLoc_of_indirect (h : x.extractLsb' 6 2 = 1) : byteLoc x = .error .indirectTwice := by
  simp [byteLoc, addrForm, h]

theorem halfLoc_of_wByte (h : x.extractLsb' 6 2 = 3) : halfLoc kind x = .error .wByteInHalf := by
  simp [halfLoc, addrForm, h]

theorem byteLoc_of_wByte (h : x.extractLsb' 6 2 = 3) (column : x.extractLsb' 3 3 ≠ 7) :
    byteLoc x = .error .wByteAddress := by
  have other : ¬ addrCol x = 7#3 := column
  simp [byteLoc, addrForm, h, other]

theorem halfLoc_of_improperCode (h : x.extractLsb' 6 2 = 2) (code : x.extractLsb' 0 2 ≠ 0) :
    halfLoc .g3 x = .error .improperHalfCode := by
  simpa [halfLoc, addrForm, h] using code

end Addresses

/-! ### Operands -/

section Operands
variable {a x : Byte} {r : Refusal} {kind : HalfKind}

theorem withByte_of_error {k : ByteLoc → Result} (h : byteLoc a = .error r) : withByte a k = .refused r := by
  simp only [withByte, h]

theorem withByte_of_ok {l : ByteLoc} {k : ByteLoc → Result} (h : byteLoc a = .ok l) : withByte a k = k l := by
  simp only [withByte, h]

theorem withHalf_of_error {k : HalfLoc → Result} (h : halfLoc kind a = .error r) : withHalf kind a k = .refused r := by
  simp only [withHalf, h]

theorem withHalf_of_ok {l : HalfLoc} {k : HalfLoc → Result} (h : halfLoc kind a = .ok l) : withHalf kind a k = k l := by
  simp only [withHalf, h]

/-- A result that goes on with two half-word operands is refused where the first names no location, and where the second does not. -/
theorem refused_halves {res : Result} (h : ∃ k : HalfLoc → HalfLoc → Result,
    res = withHalf kind a fun src => withHalf kind x (k src)) :
    (halfLoc kind a = .error r → res = .refused r) ∧
      ∀ l, halfLoc kind a = .ok l → halfLoc kind x = .error r → res = .refused r := by
  obtain ⟨k, rfl⟩ := h
  exact ⟨withHalf_of_error, fun _ first second => (withHalf_of_ok first).trans (withHalf_of_error second)⟩

/-- The same with two byte operands. -/
theorem refused_bytes {res : Result} (h : ∃ k : ByteLoc → ByteLoc → Result,
    res = withByte a fun bl => withByte x (k bl)) :
    (byteLoc a = .error r → res = .refused r) ∧
      ∀ l, byteLoc a = .ok l → byteLoc x = .error r → res = .refused r := by
  obtain ⟨k, rfl⟩ := h
  exact ⟨withByte_of_error, fun _ first second => (withByte_of_ok first).trans (withByte_of_error second)⟩

end Operands

/-! ### Instructions as their operands decoded -/

section Instructions
variable (s : State) (b c : Byte) {i : Instr}

theorem exec_halfMoves {a1 : BitVec 1} (hi : i ∈ halfMoves a1 b c) : ∃ k : HalfLoc → HalfLoc → Result,
    exec i s = withHalf .g2 (bAddress s b) fun src => withHalf .g2 (cAddress s c) (k src) := by
  fin_cases hi <;> exact ⟨_, rfl⟩

theorem exec_mmStartB6700 (host : s.cfg.mainframe = .b6700) (hi : i ∈ [Instr.mmwr b c, .mmwp b c, .mwrp b c]) :
    ∃ k : HalfLoc → HalfLoc → Result,
      exec i s = withHalf .g2 (bAddress s b) fun src => withHalf .g2 (cAddress s c) (k src) := by
  have start (kind : AccessKind) : mmStartB6700 kind b c s = mmStart kind b c s := by rw [mmStartB6700, host]
  fin_cases hi <;> exact ⟨_, start _⟩

theorem exec_mmStart_b5700 (host : s.cfg.mainframe = .b5700) (hi : i ∈ [Instr.mmwr b c, .mmwp b c, .mwrp b c]) :
    exec i s = .refused .notOnB5700 := by
  have start (kind : AccessKind) : mmStartB6700 kind b c s = .refused .notOnB5700 := by rw [mmStartB6700, host]
  fin_cases hi <;> exact start _

theorem exec_halfWithAddress {a2 : BitVec 2} (hi : i ∈ [Instr.had a2 b c, .hsb a2 b c]) :
    ∃ k : HalfLoc → HalfLoc → Result,
      exec i s = withHalf .g3 (bAddress s b) fun src => withHalf .g3 (cAddress s c) (k src) := by
  fin_cases hi <;> exact ⟨_, rfl⟩

theorem exec_halfWithLiteral {a2 : BitVec 2} (hi : i ∈ [Instr.hadb a2 b c, .hsbb a2 b c]) :
    ∃ k : HalfLoc → Result, exec i s = withHalf .g3 (cAddress s c) k := by
  fin_cases hi <;> exact ⟨_, rfl⟩

theorem exec_byteToByte {a : BitVec 3} {a1 : BitVec 1} (hi : i ∈ byteToByte a a1 b c) : ∃ k : ByteLoc → ByteLoc → Result,
    exec i s = withByte (bAddress s b) fun bl => withByte (cAddress s c) (k bl) := by
  fin_cases hi <;> exact ⟨_, rfl⟩

theorem exec_literalInC {a : BitVec 3} (hi : i ∈ literalInC a b c) :
    ∃ k : ByteLoc → Result, exec i s = withByte (bAddress s b) k := by
  fin_cases hi <;> exact ⟨_, rfl⟩

theorem exec_literalInB {a : BitVec 3} (hi : i ∈ literalInB a b c) :
    ∃ k : ByteLoc → Result, exec i s = withByte (cAddress s c) k := by
  fin_cases hi <;> exact ⟨_, rfl⟩

end Instructions

/-! ### The translation codes -/

section Translation
variable {s : State} {a : BitVec 3} (fitted : s.cfg.translatorPresent = true)
include fitted

theorem translate_reserved_b6700 (host : s.cfg.mainframe = .b6700) (ha : a ∈ [(2 : BitVec 3), 3, 6, 7]) (v : Byte) :
    translate s a v = .error .reservedTranslation := by
  fin_cases ha <;> simp [translate, fitted, host]

theorem translate_reserved_b5700 (host : s.cfg.mainframe = .b5700) (ha : a ∈ [(0 : BitVec 3), 2, 6, 7]) (v : Byte) :
    translate s a v = .error .reservedTranslation := by
  fin_cases ha <;> simp [translate, fitted, host]

end Translation

/-- TRAN of two different locations refuses what the translator refuses (R279, R280). -/
theorem exec_tran_of_error {s : State} {a : BitVec 3} {b c : Byte} {bl cl : ByteLoc} {r : Refusal}
    (hb : byteLoc (bAddress s b) = .ok bl) (hc : byteLoc (cAddress s c) = .ok cl) (other : sameSMByte bl cl = false)
    (h : ∀ v, translate s a v = .error r) : exec (.tran a b c) s = .refused r := by
  rw [exec, execTran, withByte_of_ok hb, withByte_of_ok hc, if_neg (by simp [other]), h]

/-- GOI looks at the address in Y when its condition holds (R230). -/
theorem exec_goi_of_error {s : State} {a : BitVec 3} {b c : Byte} {r : Refusal} (met : condition s a = true)
    (h : byteLoc s.y = .error r) : exec (.goi a b c) s = .refused r := by
  rw [exec, execGoi, if_pos met, withByte_of_error h]

/-- Settles O54: an instruction that goes on with an operand is refused where its address names no location. -/
theorem refusedForms : Obligations.RefusedForms := by
  intro s a a2 a1 b c x k r
  refine ⟨fun host i hi => exec_mmStart_b5700 s b c host hi,
    fun bl cl hb hc other fitted => ⟨fun host ha => exec_tran_of_error hb hc other (translate_reserved_b6700 fitted host ha),
      fun host ha => exec_tran_of_error hb hc other (translate_reserved_b5700 fitted host ha)⟩,
    fun h => ⟨halfLoc_of_indirect k h, byteLoc_of_indirect h⟩, fun h => ⟨halfLoc_of_wByte k h, byteLoc_of_wByte h⟩,
    halfLoc_of_improperCode, ?_, fun i hi => refused_halves (exec_halfWithAddress s b c hi), ?_,
    fun i hi => refused_bytes (exec_byteToByte s b c hi), ?_, ?_, exec_goi_of_error⟩
  · rintro i (hi | ⟨host, hi⟩)
    · exact refused_halves (exec_halfMoves s b c hi)
    · exact refused_halves (exec_mmStartB6700 s b c host hi)
  · intro i hi bad
    obtain ⟨k, e⟩ := exec_halfWithLiteral s b c hi
    exact e.trans (withHalf_of_error bad)
  · intro i hi bad
    obtain ⟨k, e⟩ := exec_literalInC s b c hi
    exact e.trans (withByte_of_error bad)
  · intro i hi bad
    obtain ⟨k, e⟩ := exec_literalInB s b c hi
    exact e.trans (withByte_of_error bad)

end Sys2Proof.Machine
end

section
/-! PROOF. The decoder on an encoded instruction (R121, R145): the four fields of a word come back, then each row of the opcode map. -/

namespace Sys2Proof

section Fields
variable (op : BitVec 5) (a : BitVec 3) (b c : Byte)

/-- Every bit of the four fields put together (R121). -/
theorem getLsbD_fields (k : Nat) : (fields op a b c).getLsbD k =
    if k < 8 then c.getLsbD k else if k < 16 then b.getLsbD (k - 8) else if k < 19 then a.getLsbD (k - 16)
    else op.getLsbD (k - 19) := by
  rw [fields, BitVec.getLsbD_append, BitVec.getLsbD_append, BitVec.getLsbD_append, Nat.sub_sub, Nat.sub_sub]
  simp only [show k - 8 < 8 ↔ k < 16 by omega, show k - 16 < 3 ↔ k < 19 by omega]

theorem opField_fields : opField (fields op a b c) = op := by
  apply BitVec.eq_of_getLsbD_eq
  intro k hk
  simp [opField, getLsbD_fields, hk, show ¬ 19 + k < 8 by omega, show ¬ 19 + k < 16 by omega]

theorem aField_fields : aField (fields op a b c) = a := by
  apply BitVec.eq_of_getLsbD_eq
  intro k hk
  simp [aField, getLsbD_fields, hk, show ¬ 16 + k < 8 by omega, show 16 + k < 19 by omega]

theorem bField_fields : bField (fields op a b c) = b := by
  apply BitVec.eq_of_getLsbD_eq
  intro k hk
  simp [bField, getLsbD_fields, hk, show 8 + k < 16 by omega]

theorem cField_fields : cField (fields op a b c) = c := by
  apply BitVec.eq_of_getLsbD_eq
  intro k hk
  simp [cField, getLsbD_fields, hk]

theorem decode_fields : decode (fields op a b c) = decodeFields op a b c := by
  rw [decode, opField_fields, aField_fields, bField_fields, cField_fields]

end Fields

theorem bitVec1_cases : ∀ a : BitVec 1, a = 0 ∨ a = 1 := by decide
theorem bitVec2_cases : ∀ a : BitVec 2, a = 0 ∨ a = 1 ∨ a = 2 ∨ a = 3 := by decide
theorem bitVec3_cases : ∀ a : BitVec 3, a = 0 ∨ a = 1 ∨ a = 2 ∨ a = 3 ∨ a = 4 ∨ a = 5 ∨ a = 6 ∨ a = 7 := by decide

/-- Decoding gives a well-formed instruction back: the opcode map at its row, for each value of the A bits that the row leaves to
the operand where the map looks at them (R145). -/
theorem decode_encode {i : Instr} (h : i.wellFormed = true) : decode (encode i) = i := by
  cases i with
  | nop00011 a | move01001 a | pary a | undef00011 a =>
    rw [encode, decode_fields]
    obtain rfl | rfl := bitVec1_cases a <;> rfl
  | awi a | awrr a | had a | hsb a | hadb a | hsbb a =>
    rw [encode, decode_fields]
    obtain rfl | rfl | rfl | rfl := bitVec2_cases a <;> rfl
  | undef00100 a =>
    rw [encode, decode_fields]
    obtain rfl | rfl | rfl | rfl := bitVec2_cases a
    · cases h
    all_goals rfl
  | undef00000 a =>
    rw [encode, decode_fields]
    obtain rfl | rfl | rfl | rfl | rfl | rfl | rfl | rfl := bitVec3_cases a
    · cases h
    all_goals rfl
  | leo01111 a =>
    rw [encode, decode_fields]
    obtain rfl | rfl | rfl | rfl | rfl | rfl | rfl | rfl := bitVec3_cases a
    · cases h
    · cases h
    all_goals rfl
  | _ =>
    rw [encode, decode_fields]
    rfl

end Sys2Proof
end

section
/-! PROOF. The step of a running DCP: the instruction in P-L before, after or in place of a pending main memory access, and the
fetch that finds a fault. -/

namespace Sys2Proof.Machine

section Step
variable {s : State}

/-- The step of a DCP that acts, runs and has no fault or order waiting (R185). -/
theorem step_running (r : Running s) : step s = mapNext settleTimers
    (if s.ex then runInstruction s else if holdPL s then .next s else if s.bstm then bootstrap s else fetch s) := by
  simp only [step, cycle, dcpStep, storedOrder, r.inputs, r.stored, r.run, r.flt, Bool.not_true, Bool.false_eq_true, if_false,
    Bool.false_and]

/-! ### The instruction in P-L and a pending access -/

/-- The instruction in P-L when no adapter write is in progress, in the terms of the interlock R505. -/
theorem runInstruction_eq {i : Instr} (aw : s.adapterWrite = none) (hp : wordLeft s.p = encode i) (wf : i.wellFormed = true) :
    runInstruction s = if s.pending.isNone || !heldByMM s i then exec i s
      else if i22 s && !requestsAccess i then mapNext scrambleWMA (exec i (scrambleWMA s))
      else withAccessDone s (exec i) := by
  have settled : settleAdapterWrite s = s := by rw [settleAdapterWrite, aw]
  have decoded : decode (pLeft s) = i := by rw [pLeft, hp, decode_encode wf]
  rw [runInstruction, settled, decoded]

theorem runInstruction_of_not_waits {i : Instr} (aw : s.adapterWrite = none) (hp : wordLeft s.p = encode i)
    (wf : i.wellFormed = true) (h : ¬ waitsForAccess s i) : runInstruction s = exec i s := by
  rw [← heldByMM_iff, Bool.not_eq_true] at h
  rw [runInstruction_eq aw hp wf, h, if_pos (by simp)]

theorem runInstruction_of_waits {i : Instr} (aw : s.adapterWrite = none) (hp : wordLeft s.p = encode i)
    (wf : i.wellFormed = true) (pending : s.pending ≠ none) (h : waitsForAccess s i)
    (interlock : i22 s = false ∨ asksForAccess i) : runInstruction s = withAccessDone s (exec i) := by
  rw [← requestsAccess_iff] at interlock
  rw [runInstruction_eq aw hp wf, (heldByMM_iff s i).2 h, if_neg, if_neg]
  · obtain off | asks := interlock
    · simp [off]
    · simp [asks]
  · simpa using pending

/-- What follows the completion of an access, where no fault is found or HOLD P-L ignores it (R361, R366). -/
theorem withAccessDone_of_noFault {k : State → Result} (h : (completeAccess s).2 = none ∨ holdPL s = true) :
    withAccessDone s k = k (completeAccess s).1 := by
  unfold withAccessDone
  cases e : (completeAccess s).2 with
  | none => rfl
  | some c => exact if_pos (h.resolve_left (by simp [e]))

/-- A fault found at the completion is taken in place of what follows (R361, R505). -/
theorem withAccessDone_of_fault {k : State → Result} {c : Cause} (h : (completeAccess s).2 = some c)
    (hold : holdPL s = false) : withAccessDone s k = .next (raiseFault (completeAccess s).1 c) := by
  simp [withAccessDone, h, hold]

theorem holdPL_iff (s : State) : holdPL s = true ↔ s.env.panel.hold = .holdPL := decide_eq_true_iff

theorem holdPL_eq_false_iff (s : State) : holdPL s = false ↔ s.env.panel.hold ≠ .holdPL := decide_eq_false_iff_not

/-- The step at which the access completes by itself (R264, R361). -/
theorem step_mmComplete (h : s.env.inputs = []) :
    step { s with env := { s.env with inputs := [.mmComplete] } } = .next (settleTimers (mmCompletes s)) := by
  have cycled : step { s with env := { s.env with inputs := [.mmComplete] } } =
      .next (settleTimers (mmCompletes (inputTaken { s with env := { s.env with inputs := [.mmComplete] } } []))) := rfl
  rw [cycled, inputTaken_only h]

theorem mmCompletes_of_noFault (h : (completeAccess s).2 = none) : mmCompletes s = (completeAccess s).1 := by
  unfold mmCompletes
  split
  next t e => rw [e]
  next t c e => simp [e] at h

theorem mmCompletes_of_fault {c : Cause} (h : (completeAccess s).2 = some c) :
    mmCompletes s = raiseFault (completeAccess s).1 c := by
  unfold mmCompletes
  split
  next t e => simp [e] at h
  next t d e =>
    obtain rfl : d = c := by simpa [e] using h
    rw [e]

end Step

/-- Settles O18: the interlock holds an instruction until the completion of the access, whose fault is taken in its place. -/
theorem accessCompletesFirst : Obligations.AccessCompletesFirst := by
  intro s acc pending
  constructor
  · intro i r ex aw hp wf
    have runs : step s = mapNext settleTimers (runInstruction s) := by rw [step_running r, if_pos ex]
    rw [runs]
    refine ⟨fun free => by rw [runInstruction_of_not_waits aw hp wf free], fun waits interlock => ?_⟩
    rw [runInstruction_of_waits aw hp wf (by simp [pending]) waits interlock]
    refine ⟨fun h => ?_, fun c fault hold => ?_⟩
    · rw [← holdPL_iff] at h
      rw [withAccessDone_of_noFault h]
    · rw [withAccessDone_of_fault fault ((holdPL_eq_false_iff s).2 hold)]
      rfl
  · rintro quiet t rfl
    rw [step_mmComplete quiet]
    exact ⟨fun h => by rw [mmCompletes_of_noFault h], fun c h => by rw [mmCompletes_of_fault h]⟩

/-! ### The fetch that finds a fault -/

theorem i15_eq (s : State) : i15 s = (ia s).getLsbD 15 := by
  rw [i15, ia, BitVec.getLsbD_append]
  rfl

/-- CF with I18 cleared, as the statements write it (R31). -/
theorem clearI18_eq (cf : Byte) : setBit cf 2 false = cf &&& 0xFB := by
  revert cf
  decide +kernel

/-- The fault of a fetched word that cannot be executed, by the priority of R186. -/
theorem fetchFault_eq {v : Word} {detected : Bool} (bad : detected = true ∨ oddParity v = false ∨ v.extractLsb' 48 3 ≠ 6) :
    fetchFault v detected = some (if detected then .fetchDetected else if oddParity v then .tag else .fetchParity) := by
  unfold fetchFault
  cases detected with
  | true => rfl
  | false =>
    cases parity : oddParity v with
    | false => rfl
    | true =>
      have tag : v.extractLsb' 48 3 ≠ 6 := by simpa [parity] using bad
      simp only [Bool.not_true, Bool.false_eq_true, if_false, if_true, if_pos tag]

section FetchFaults
variable {s : State}

/-- The state at which the fault of a fetched word is raised: the word in P, the check over (R174, R175, R186). -/
def rejected (s : State) (v : Word) : State := { s with p := v, pypc := false }

theorem fetched_of_fault {v : Word} {detected : Bool} {c : Cause} (h : fetchFault v detected = some c) :
    fetched s v detected = .next (raiseFault (rejected s v) c) := by
  simp only [fetched, h]
  rfl

theorem placesKept_rejected (s : State) (v : Word) : PlacesKept s (rejected s v) nowhere := fun p _ _ =>
  value_congr p rfl rfl rfl rfl rfl rfl rfl rfl rfl rfl rfl rfl rfl rfl

theorem restKept_rejected (s : State) (v : Word) : RestKept s { rejected s v with pypc := s.pypc } :=
  ⟨rfl, rfl, rfl, rfl, rfl, rfl, rfl, rfl, rfl, rfl, rfl, rfl, rfl, rfl, rfl, rfl, rfl, rfl, memoryKept_of rfl rfl⟩

/-- A main memory fetch changes I18, which is no place but a part of CF, and no other register (R31, R173). -/
theorem placesKept_fetchRequested (s : State) : PlacesKept s (fetchRequested s) nowhere := fun p hp _ => by
  cases p with
  | cf | ia1 | ia0 => cases hp
  | _ => rfl

theorem restKept_fetchRequested (s : State) : RestKept s { fetchRequested s with ba := s.ba, env := s.env } :=
  ⟨rfl, rfl, rfl, rfl, rfl, rfl, rfl, rfl, rfl, rfl, rfl, rfl, rfl, rfl, rfl, rfl, rfl, rfl, memoryKept_of rfl rfl⟩

theorem fetchLocal_of_absent (h : lmExists s (iaWord s) = false) : fetchLocal s = .next (raiseFault s .fetchAddress) := by
  simp [fetchLocal, h]

theorem fetchLocal_of_exists (h : lmExists s (iaWord s) = true) :
    fetchLocal s = fetched s (memRead s.lm (iaWord s).toNat) false := if_pos h

theorem fetchMain_of_absent (idle : s.pending = none) (h : mmValid s (fetchAddress s) = false) :
    fetchMain s = .next (raiseFault (fetchRequested s) .fetchAddress) := by
  rw [fetchMain, withAccessDone_of_noFault (.inl (by rw [completeAccess_idle idle])), completeAccess_idle idle]
  simp [h]

theorem fetchMain_of_exists (idle : s.pending = none) (h : mmValid s (fetchAddress s) = true) :
    fetchMain s = fetched (fetchRequested s) (instrFromHost s.cfg.mainframe (memRead s.mm (fetchAddress s).toNat))
      (nextError s) := by
  rw [fetchMain, withAccessDone_of_noFault (.inl (by rw [completeAccess_idle idle])), completeAccess_idle idle]
  exact if_pos h

/-- The step of a running DCP that is about to fetch (R171, R185). -/
theorem step_fetch (r : Running s) (ex : s.ex = false) (hold : s.env.panel.hold = .off) (bstm : s.bstm = false) :
    step s = mapNext settleTimers (if (ia s).getLsbD 15 then fetchLocal s else fetchMain s) := by
  have free : holdPL s = false := (holdPL_eq_false_iff s).2 (by simp [hold])
  simp only [step_running r, ex, free, bstm, Bool.false_eq_true, if_false, fetch, i15_eq]

end FetchFaults

/-- Settles O16: the fetch from each memory at an address that does not exist, and at a word that cannot be executed. -/
theorem fetchFaults : Obligations.FetchFaults := by
  intro s v r ex hold bstm idle
  refine ⟨fun inLocal => ?_, fun inMain => ?_⟩
  · rw [step_fetch r ex hold bstm, inLocal, if_pos rfl]
    refine ⟨fun absent => by rw [fetchLocal_of_absent absent]; rfl, fun present word bad => ?_⟩
    rw [fetchLocal_of_exists present, show memRead s.lm (iaWord s).toNat = v from word.symm,
      fetched_of_fault (fetchFault_eq (.inr bad))]
    exact ⟨rejected s v, _, rfl, rfl, rfl, ex, r.run, rfl, placesKept_rejected s v, restKept_rejected s v, rfl⟩
  · rw [step_fetch r ex hold bstm, inMain, if_neg Bool.false_ne_true]
    refine ⟨fun absent => ?_, fun present word bad => ?_⟩
    · rw [fetchMain_of_absent idle absent]
      exact ⟨fetchRequested s, rfl, rfl, rfl, ex, r.run, clearI18_eq _, rfl, placesKept_fetchRequested s,
        restKept_fetchRequested s⟩
    · rw [fetchMain_of_exists idle present, ← word, fetched_of_fault (fetchFault_eq (detected := nextError s) bad)]
      exact ⟨rejected (fetchRequested s) v, _, rfl, rfl, rfl, ex, r.run, clearI18_eq _, rfl,
        fun p hp hn => (placesKept_rejected _ v p hp hn).trans (placesKept_fetchRequested s p hp hn),
        restKept_trans (restKept_fetchRequested s) (restKept_rejected _ v), rfl⟩

end Sys2Proof.Machine
end

section
/-! PROOF. No instruction stores into main memory: with no access pending a fault completes none, and what an instruction does by
itself leaves main memory alone, a main memory instruction too, which orders its access only. -/

namespace Sys2Proof.Machine

/-- Main memory is as before. -/
def MainKept (s t : State) : Prop := t.mm = s.mm

theorem allNext_ite {P : State → Prop} {c : Prop} [Decidable c] {x y : Result} (hx : AllNext P x) (hy : AllNext P y) :
    AllNext P (if c then x else y) := by
  split
  · exact hx
  · exact hy

theorem enterFault_mm (s : State) (c : Cause) : (enterFault s c).mm = s.mm := by
  unfold enterFault
  split
  · rfl
  · split <;> rfl

/-- A fault condition completes no access where none is pending (R352, R357). -/
theorem mainKept_raiseFault {s u : State} (idle : u.pending = none) (kept : u.mm = s.mm) (c : Cause) :
    MainKept s (raiseFault u c) := by
  unfold raiseFault
  rw [completeAccess_idle idle]
  split
  · exact kept
  · exact (enterFault_mm u _).trans kept

section Instructions
variable {s : State}

theorem mainKept_finish {u : State} (kept : u.mm = s.mm) (fetch : Bool) : MainKept s (finish fetch u) :=
  (finish_mm fetch u).trans kept

/-! ### Meanings that raise no fault, or a fault at a state known to be idle -/

theorem mainKept_nop00011 (a : BitVec 1) (b c : Byte) : AllNext (MainKept s) (execNop00011 a b c s) := by
  unfold execNop00011
  split <;> exact rfl

theorem mainKept_bkp (a : BitVec 3) (b c : Byte) : AllNext (MainKept s) (execBkp a b c s) := by
  unfold execBkp
  split
  · split <;> exact rfl
  · exact rfl

/-- The adapter cluster error of AWI and AWRR (R360). -/
theorem mainKept_clusterError {u : State} (hp : u.pending = none) (hm : u.mm = s.mm) :
    MainKept s (raiseFault (atClusterError s u) .clusterError) :=
  mainKept_raiseFault (u := atClusterError s u) hp hm _

/-- AWRR after its write was accepted (R203). -/
theorem mainKept_interrogateAnswer {t : State} (hp : t.pending = none) (hm : t.mm = s.mm) :
    MainKept s (interrogateAnswer s t) := by
  unfold interrogateAnswer
  dsimp only
  split
  · split
    · exact mainKept_clusterError hp hm
    · exact hm
  · exact mainKept_clusterError hp hm

/-- A local memory read by an instruction that has kept main memory, from a state with no access pending (R243, R358). -/
theorem mainKept_lmRead {u t : State} (hu : u.pending = none) (hum : u.mm = s.mm) (ht : t.pending = none)
    (htm : t.mm = s.mm) (fetch : Bool) (a : BitVec 14) : MainKept s (lmRead u fetch t a) := by
  unfold lmRead afterLmRead
  split
  · split
    · exact mainKept_finish (u := lmDone (lmLoad t a)) htm fetch
    · exact mainKept_raiseFault (u := lmStopped fetch (lmLoad t a)) ht htm _
  · exact mainKept_raiseFault hu hum _

theorem mainKept_lmWrite {u t : State} (hu : u.pending = none) (hum : u.mm = s.mm) (htm : t.mm = s.mm) (fetch : Bool)
    (a : BitVec 14) : MainKept s (lmWrite u fetch t a) := by
  unfold lmWrite
  split
  · exact mainKept_finish (u := lmStore t a) htm fetch
  · exact mainKept_raiseFault hu hum _

/-- The access is ordered and has not reached memory (R97, R182, R264). -/
theorem mainKept_mmStart (kind : AccessKind) (b c : Byte) : AllNext (MainKept s) (mmStart kind b c s) :=
  allNext_withHalf fun src => allNext_withHalf fun dst =>
    mainKept_finish (u := requestAccess (moveHalves s b src dst) kind) (moveHalves_mm s b src dst) _

theorem mainKept_mmStartB6700 (kind : AccessKind) (b c : Byte) : AllNext (MainKept s) (mmStartB6700 kind b c s) := by
  unfold mmStartB6700
  split
  · exact mainKept_mmStart kind b c
  · trivial

variable (idle : s.pending = none)
include idle

/-! ### Groups 0 and 1 -/

theorem mainKept_awi (a : BitVec 2) (b c : Byte) : AllNext (MainKept s) (execAwi a b c s) := by
  unfold execAwi
  dsimp only
  split
  · exact rfl
  · exact rfl
  · exact mainKept_clusterError (u := loadLiterals s a b c) idle rfl

theorem mainKept_awrr (a : BitVec 2) (b c : Byte) : AllNext (MainKept s) (execAwrr a b c s) := by
  unfold execAwrr
  dsimp only
  split
  · exact mainKept_interrogateAnswer (t := loadLiterals s a b c) idle rfl
  · exact rfl
  · exact mainKept_clusterError (u := loadLiterals s a b c) idle rfl

/-- A read exchange of ARWN or ARIN that does not wait: it fails, or the instruction ends with the word of the cluster (R221, R222,
R360). -/
theorem mainKept_readExchange {u : State} (kept : MainKept s u) :
    MainKept s (if readFails s then raiseFault (readFailed s) .clusterError else u) := by
  split
  · exact mainKept_raiseFault (u := readFailed s) idle rfl _
  · exact kept

theorem mainKept_arwn (b c : Byte) : AllNext (MainKept s) (execArwn b c s) := by
  unfold execArwn
  split
  next k _ =>
    split
    · exact rfl
    · exact mainKept_readExchange idle rfl
  next => exact allNext_ite rfl rfl

theorem mainKept_arin (b c : Byte) : AllNext (MainKept s) (execArin b c s) := by
  unfold execArin
  split
  next k _ =>
    split
    · exact rfl
    · exact mainKept_readExchange idle rfl
  next => exact rfl

/-! ### Group 2 -/

/-- The invalid operator fault, raised with an indirect designation noted in P-L (R508). -/
theorem mainKept_invalidOperator (b : Byte) : MainKept s (raiseFault (noteIndirect s b) .invalidOperator) :=
  mainKept_raiseFault (u := noteIndirect s b) idle rfl _

theorem mainKept_moveHalfWord (b c : Byte) : AllNext (MainKept s) (moveHalfWord b c s) :=
  allNext_withHalf fun src => allNext_withHalf fun dst =>
    allNext_ite (mainKept_invalidOperator idle b) (mainKept_finish (moveHalves_mm s b src dst) _)

theorem mainKept_smrd (b c : Byte) : AllNext (MainKept s) (execSmrd b c s) :=
  allNext_withHalf fun src => allNext_withHalf fun dst =>
    allNext_ite (mainKept_invalidOperator idle b) (mainKept_finish (smrdEffect_mm (noteIndirect s b) src dst) _)

theorem mainKept_lmri (b c : Byte) : AllNext (MainKept s) (execLmri b c s) :=
  allNext_withHalf fun src => allNext_withHalf fun dst =>
    mainKept_lmRead (u := noteIndirect s b) idle rfl ((moveHalves_pending s b src dst).trans idle)
      (moveHalves_mm s b src dst) _ _

theorem mainKept_lmwi (b c : Byte) : AllNext (MainKept s) (execLmwi b c s) :=
  allNext_withHalf fun src => allNext_withHalf fun dst =>
    mainKept_lmWrite (u := noteIndirect s b) idle rfl (moveHalves_mm s b src dst) _ _

/-! ### Groups 3 and 4 -/

theorem mainKept_halfWithAddress (f : Half → Half → HalfResult) (b c : Byte) :
    AllNext (MainKept s) (halfWithAddress f b c s) :=
  allNext_withHalf fun _ => allNext_withHalf fun dst =>
    allNext_ite (mainKept_invalidOperator idle b) (storeHalfResult_mm (noteIndirect s b) dst _)

theorem mainKept_tran (a : BitVec 3) (b c : Byte) : AllNext (MainKept s) (execTran a b c s) :=
  allNext_withByte fun bl => allNext_withByte fun cl => allNext_ite (mainKept_invalidOperator idle b) (by
    split
    · trivial
    · exact mainKept_finish (writeByte_mm (setFlags (noteIndirect s b) _ (cf1 s)) cl _) _)

theorem mainKept_pary (a : BitVec 1) (b c : Byte) : AllNext (MainKept s) (execPary a b c s) :=
  allNext_withByte fun bl => allNext_withByte fun cl =>
    allNext_ite (mainKept_invalidOperator idle b) (mainKept_finish (by simp) _)

theorem mainKept_bytePlain (f : Byte → Byte → Bool → ByteResult) (exempt : Bool) (a : BitVec 3) (b c : Byte) :
    AllNext (MainKept s) (bytePlain f exempt a b c s) :=
  allNext_withByte fun _ => allNext_withByte fun cl =>
    allNext_ite (mainKept_invalidOperator idle b) (storeByteResult_mm (noteIndirect s b) cl _)

theorem mainKept_byteLiteralC (f : Byte → Byte → Bool → ByteResult) (exempt : Bool) (a : BitVec 3) (b c : Byte) :
    AllNext (MainKept s) (byteLiteralC f exempt a b c s) :=
  allNext_withByte fun bl =>
    allNext_ite (mainKept_invalidOperator idle b) (storeByteResult_mm (noteIndirect s b) (dstA a bl) _)

/-! ### Every instruction -/

/-- Every instruction keeps main memory while no access is pending. -/
theorem mainKept_exec (i : Instr) : AllNext (MainKept s) (exec i s) := by
  cases i with
  | idle | undef00000 | undef00011 | undef00100 | undef01010 | undef01011 | mskw | mskr | shft | heyu => exact rfl
  | nop00011 a b c => exact mainKept_nop00011 a b c
  | bkp a b c => exact mainKept_bkp a b c
  | awi a b c => exact mainKept_awi idle a b c
  | awrr a b c => exact mainKept_awrr idle a b c
  | arwn b c => exact mainKept_arwn idle b c
  | arin b c => exact mainKept_arin idle b c
  | dbyz | dbyn | bran | goto | gox => exact allNext_ite rfl rfl
  | goi => exact allNext_ite (allNext_withByte fun _ => rfl) rfl
  | move b c | move01000 b c | move01001 _ b c => exact mainKept_moveHalfWord idle b c
  | smrd b c => exact mainKept_smrd idle b c
  | smwd b c => exact allNext_withHalf fun _ => allNext_withHalf fun _ => mainKept_finish (by simp) _
  | lmri b c => exact mainKept_lmri idle b c
  | lmrd _ _ => exact mainKept_lmRead idle rfl idle rfl _ _
  | lmwi b c => exact mainKept_lmwi idle b c
  | lmwd _ _ => exact mainKept_lmWrite idle rfl rfl _ _
  | mmr b c | mmr01001 b c | mmwu b c => exact mainKept_mmStart _ b c
  | mmwr b c | mmwp b c | mwrp b c => exact mainKept_mmStartB6700 _ b c
  | had _ b c | hsb _ b c => exact mainKept_halfWithAddress idle _ b c
  | hadb _ _ _ | hsbb _ _ _ => exact allNext_withHalf fun dst => storeHalfResult_mm s dst _
  | tran a b c => exact mainKept_tran idle a b c
  | pary a b c => exact mainKept_pary idle a b c
  | add a b c | sub a b c | lan a b c | lor a b c | leo a b c | leo01111 a b c => exact mainKept_bytePlain idle _ _ a b c
  | addb _ _ _ | subb _ _ _ | lanb _ _ _ | lorb _ _ _ | leob _ _ _ =>
    exact allNext_withByte fun cl => storeByteResult_mm s cl _
  | subc a b c => exact mainKept_byteLiteralC idle (fun v literal borrow => byteSub literal v borrow) _ a b c
  | addc a b c | lanc a b c | lorc a b c | leoc a b c => exact mainKept_byteLiteralC idle _ _ a b c
  | laom a b c => exact allNext_withByte fun bl => mainKept_finish (laomStore_mm (noteIndirect s b) (dstA a bl) _) _

end Instructions

/-- Settles O11: of every instruction its own effect, and a fault that completes no access. -/
theorem execKeepsMainMemory : Obligations.ExecKeepsMainMemory := by
  intro i s t idle e a
  have kept : t.mm = s.mm := (mainKept_exec idle i).of_eq e
  rw [kept]

end Sys2Proof.Machine
end

section
/-! PROOF. The encoder on a decoded word (R121, R145): a word is made of its four fields, and the opcode map loses no bit of them,
in the rows that look at the A field as in those that keep it whole; and the three bytes of an instruction. -/

namespace Sys2Proof

/-- A word is its four fields put together (R121). -/
theorem fields_of_word (w : Half) : fields (opField w) (aField w) (bField w) (cField w) = w := by
  apply BitVec.eq_of_getLsbD_eq
  intro k hk
  rw [getLsbD_fields]
  split_ifs with inC inB inA
  · simp [cField, inC]
  · simp [bField, show k - 8 < 8 by omega, show 8 + (k - 8) = k by omega]
  · simp [aField, show k - 16 < 3 by omega, show 16 + (k - 16) = k by omega]
  · simp [opField, show k - 19 < 5 by omega, show 19 + (k - 19) = k by omega]

/-! ### The rows of the opcode map -/

/-- The map takes the fields to a well-formed instruction whose word has these fields. -/
def RowKept (op : BitVec 5) (a : BitVec 3) (b c : Byte) : Prop :=
  encode (decodeFields op a b c) = fields op a b c ∧ (decodeFields op a b c).wellFormed = true

/-- The rows in which the A field selects the instruction. -/
def rowsByA : List (BitVec 5) := [0, 2, 3, 4, 8, 9, 12, 13, 15]

/-- The rows with one instruction, which keeps the A field whole. -/
def rowsWhole : List (BitVec 5) :=
  [1, 5, 6, 7, 10, 11, 14, 16, 17, 18, 19, 20, 21, 22, 23, 24, 25, 26, 27, 28, 29, 30, 31]

theorem mem_rows : ∀ op : BitVec 5, op ∈ rowsByA ∨ op ∈ rowsWhole := by decide

section Rows
variable {op : BitVec 5} (a : BitVec 3) (b c : Byte)

theorem rowKept_of_whole (h : op ∈ rowsWhole) : RowKept op a b c := by
  fin_cases h <;> exact ⟨rfl, rfl⟩

/-- Where A selects the instruction, the bits of A that the row leaves free are its operand and the others are fixed (R145). -/
theorem rowKept_of_byA (h : op ∈ rowsByA) : RowKept op a b c := by
  obtain rfl | rfl | rfl | rfl | rfl | rfl | rfl | rfl := bitVec3_cases a <;> fin_cases h <;> exact ⟨rfl, rfl⟩

end Rows

/-- Encoding the decoded word gives it back, and the decoded instruction is well formed. -/
theorem encode_decode (w : Half) : encode (decode w) = w ∧ (decode w).wellFormed = true := by
  have kept : RowKept (opField w) (aField w) (bField w) (cField w) := by
    obtain h | h := mem_rows (opField w)
    · exact rowKept_of_byA _ _ _ h
    · exact rowKept_of_whole _ _ _ h
  rwa [RowKept, fields_of_word] at kept

/-! ### Bytes -/

/-- The three bytes of an instruction are the rows of its word, the most significant first (R121, R150). -/
theorem decodeBytes_encodeBytes (i : Instr) (rest : List Byte) :
    decodeBytes (encodeBytes i ++ rest) = .ok (decode (encode i), rest) :=
  congrArg (fun w => Except.ok (decode w, rest)) (Machine.rows_eta (encode i))

/-- Settles O1: the four fields of the word come back, then each row of the opcode map. -/
theorem decodeOfEncode : Obligations.DecodeOfEncode := fun _ h => decode_encode h

/-- Settles O2: the opcode map keeps every field, and the bytes of an instruction put its word together. -/
theorem encodeOfDecode : Obligations.EncodeOfDecode := by
  refine ⟨encode_decode, fun i rest h => ?_⟩
  rw [decodeBytes_encodeBytes, decode_encode h]

end Sys2Proof
end

section
/-! PROOF. The address forms: the three fields of an address, then the location that each form names. -/

namespace Sys2Proof.Machine

/-! ### The fields of an address -/

section Fields
variable (f : BitVec 2) (n m : BitVec 3)

@[simp] theorem addrForm_append : addrForm (f ++ n ++ m) = f := extractLsb'_append_top f n m

@[simp] theorem addrCol_append : addrCol (f ++ n ++ m) = n := extractLsb'_append_mid f n m

@[simp] theorem addrSel_append : addrSel (f ++ n ++ m) = m := extractLsb'_append_low (f ++ n) m

end Fields

/-- The low three bits of an address are its row bits, half or byte code (R131, R136). -/
theorem getLsbD_address (f : BitVec 2) (n m : BitVec 3) {k : Nat} (h : k < 3) :
    (f ++ n ++ m : Byte).getLsbD k = m.getLsbD k := by
  rw [BitVec.getLsbD_append, if_pos h]

/-! ### Byte addresses -/

section Bytes
variable (n m : BitVec 3)

theorem byteLoc_regs : byteLoc (0#2 ++ n ++ m) = .ok (.regs n m) := by simp [byteLoc]

/-- A scratchpad address by its byte code (R136). -/
theorem byteLoc_sm : byteLoc (2#2 ++ n ++ m) =
    if m = 0 then .ok .none else if m = 7 then .ok (.smTag n) else .ok (.smByte n (m - 1)) := by
  simp [byteLoc]

/-- A W address by its byte code; bits 5 to 3 are 111 (R137). -/
theorem byteLoc_w : byteLoc (3#2 ++ n ++ m) =
    if n = 7#3 then if m = 0 then .ok .none else if m = 7 then .ok .wTag else .ok (.wByte (m - 1))
    else .error .wByteAddress := by
  simp [byteLoc]

variable {m} (first : m ≠ 0) (last : m ≠ 7)
include first last

theorem byteLoc_smByte : byteLoc (2#2 ++ n ++ m) = .ok (.smByte n (m - 1)) := by
  rw [byteLoc_sm, if_neg first, if_neg last]

theorem byteLoc_wByte : byteLoc (3#2 ++ 7#3 ++ m) = .ok (.wByte (m - 1)) := by
  rw [byteLoc_w, if_pos rfl, if_neg first, if_neg last]

end Bytes

/-! ### Half-word addresses -/

section Halves
variable (n m : BitVec 3)

theorem halfLoc_g2_regs : halfLoc .g2 (0#2 ++ n ++ m) = .ok (.regs n m) := by simp [halfLoc]

theorem halfLoc_g3_regs : halfLoc .g3 (0#2 ++ n ++ m) = .ok (.regs n 7) := by simp [halfLoc]

theorem halfLoc_g2_sm : halfLoc .g2 (2#2 ++ n ++ m) = .ok (.smHalf n (m.getLsbD 2)) := by
  rw [← getLsbD_address 2#2 n m (by decide : 2 < 3)]
  simp [halfLoc]

/-- In group 3 the low two bits of the half code are zero (R134, U5). -/
theorem halfLoc_g3_sm {m : BitVec 3} (proper : m.extractLsb' 0 2 = 0) :
    halfLoc .g3 (2#2 ++ n ++ m) = .ok (.smHalf n (m.getLsbD 2)) := by
  have low : (2#2 ++ n ++ m : Byte).extractLsb' 0 2 = 0 := by
    rw [← proper]
    apply BitVec.eq_of_getLsbD_eq
    intro k hk
    simp only [BitVec.getLsbD_extractLsb', Nat.zero_add]
    rw [getLsbD_address _ _ _ (by omega)]
  rw [← getLsbD_address 2#2 n m (by decide : 2 < 3)]
  simp [halfLoc, low]

end Halves

/-! ### Indirection -/

section Indirection
variable (s : State) {b : Byte}

theorem bAddress_indirect (h : b.extractLsb' 6 2 = 1) : bAddress s b = s.y := if_pos (decide_eq_true h)

theorem cAddress_indirect (h : b.extractLsb' 6 2 = 1) : cAddress s b = s.d := if_pos (decide_eq_true h)

theorem bAddress_direct (h : b.extractLsb' 6 2 ≠ 1) : bAddress s b = b := if_neg fun e => h (of_decide_eq_true e)

theorem cAddress_direct (h : b.extractLsb' 6 2 ≠ 1) : cAddress s b = b := if_neg fun e => h (of_decide_eq_true e)

end Indirection

/-- Settles O52: each form of address by its lemma; F8 and FF are the W addresses with the byte codes 000 and 111. -/
theorem addressForms : Obligations.AddressForms := fun s n m _ =>
  ⟨byteLoc_regs n m, byteLoc_sm n 0, fun first last => ⟨byteLoc_smByte n first last, byteLoc_wByte first last⟩,
    byteLoc_sm n 7, byteLoc_w 7 0, byteLoc_w 7 7, halfLoc_g2_regs n m, halfLoc_g2_sm n m, halfLoc_g3_regs n m,
    halfLoc_g3_sm n rfl, halfLoc_g3_sm n rfl, fun h => ⟨bAddress_indirect s h, cAddress_indirect s h⟩,
    fun h => ⟨bAddress_direct s h, cAddress_direct s h⟩⟩

end Sys2Proof.Machine
end

section
/-! PROOF. MOVE in its three codes, the codes that are held, and the instructions that pass without an effect. -/

namespace Sys2Proof.Machine

section Meanings
variable {s : State} {b c : Byte} {i : Instr}

/-- MOVE of two locations that do not share a scratchpad half: the half-word move and the end of the instruction (R147, R241). -/
theorem exec_move {a : BitVec 1} {src dst : HalfLoc} (hi : i ∈ [Instr.move b c, .move01000 b c, .move01001 a b c])
    (hsrc : halfLoc .g2 (bAddress s b) = .ok src) (hdst : halfLoc .g2 (cAddress s c) = .ok dst)
    (other : sameSMHalf src dst = false) : exec i s = .next (finish dst.ordersFetch (moveHalves s b src dst)) := by
  have same : exec i s = moveHalfWord b c s := by fin_cases hi <;> rfl
  rw [same, moveHalfWord, moveThen, withHalf_of_ok hsrc, withHalf_of_ok hdst, if_neg (by simp [other])]

theorem exec_held {a3 : BitVec 3} {a2 : BitVec 2} {a1 : BitVec 1} (hi : i ∈ [Instr.idle b c, .undef00000 a3 b c,
    .undef00011 a1 b c, .undef00100 a2 b c, .undef01010 a3 b c, .undef01011 a3 b c]) : exec i s = .next s := by
  fin_cases hi <;> rfl

theorem exec_nop00011_idle {a : BitVec 1} (h : s.cfg.undef00011 = .idle) : exec (.nop00011 a b c) s = .next s := by
  rw [exec, execNop00011, h, held]

theorem exec_nop00011_noop {a : BitVec 1} (h : s.cfg.undef00011 = .noop) :
    exec (.nop00011 a b c) s = .next (release s) := by
  rw [exec, execNop00011, h]

theorem switchMatches_iff (w : CodeSwitch) (v : Bool) : switchMatches w v = true ↔ switchAgrees w v := by
  cases w <;> cases v <;> simp [switchMatches, switchAgrees]

/-- The breakpoint code as the machine and as the statements say it (R206). -/
theorem bkpMatches_iff (s : State) (a : BitVec 3) : bkpMatches s a = true ↔ codeAgrees s a := by
  simp only [bkpMatches, codeAgrees, Bool.and_eq_true, switchMatches_iff, and_assoc]

theorem exec_bkp_passes {a : BitVec 3} (h : s.env.panel.bkp = .off ∨ ¬ codeAgrees s a) :
    exec (.bkp a b c) s = .next (release s) := by
  rw [exec, execBkp]
  split
  next agrees =>
    have off : s.env.panel.bkp = .off := h.resolve_right (not_not_intro ((bkpMatches_iff s a).1 agrees))
    rw [off]
  next => rfl

end Meanings

/-- Settles O35: the half-word move by places, then the end of the instruction. -/
theorem moveExchangesWithMA : Obligations.MoveExchangesWithMA := by
  intro i a b c src dst s hi hsrc hdst other
  refine ⟨_, exec_move hi hsrc hdst other, ?_, restKept_trans (restKept_moveHalves s b src dst) (restKept_finish _ _)⟩
  exact moved_finish nowhere (fun _ _ => rfl) (fun _ _ => rfl) rfl (by simp) (by simp) (by simp)

/-- Settles O19: none of these codes is released. -/
theorem idleCodesHold : Obligations.IdleCodesHold := by
  rintro i a3 a2 a1 b c s (hi | ⟨rfl, asIdle⟩)
  · exact exec_held hi
  · exact exec_nop00011_idle asIdle

/-- Settles O20: both end at the state they began at. -/
theorem noOperations : Obligations.NoOperations := by
  intro i a3 a1 b c s h
  have ends : exec i s = .next (release s) := by
    obtain ⟨rfl, asNoop⟩ | ⟨rfl, passes⟩ := h
    · exact exec_nop00011_noop asNoop
    · exact exec_bkp_passes passes
  exact ⟨release s, ends, passedOver_release nowhere rfl rfl rfl rfl rfl rfl (fun _ _ _ => rfl), restKept_release s⟩

end Sys2Proof.Machine
end

section
/-! PROOF. The cycle where nothing holds it up: the instruction in P-L, a fetched word whose first instruction runs, and the
address of a fetch. -/

namespace Sys2Proof.Machine

/-! ### The instruction in P-L -/

section Idle
variable {s : State}

theorem settleAdapterWrite_of_none (h : s.adapterWrite = none) : settleAdapterWrite s = s := by
  rw [settleAdapterWrite, h]

/-- A cluster that takes the code from CIR changes nothing of the DCP but the write in progress (R504). -/
theorem settleAdapterWrite_changes (s : State) : ∃ write clusters free,
    settleAdapterWrite s = { s with adapterWrite := write, clusters := clusters, free := free } := by
  unfold settleAdapterWrite
  split
  next => exact ⟨_, _, _, rfl⟩
  next =>
    dsimp only
    split
    next => exact ⟨_, _, _, rfl⟩
    next => exact ⟨_, _, _, rfl⟩

@[simp] theorem settleAdapterWrite_p (s : State) : (settleAdapterWrite s).p = s.p := by
  obtain ⟨_, _, _, e⟩ := settleAdapterWrite_changes s
  rw [e]

@[simp] theorem settleAdapterWrite_pending (s : State) : (settleAdapterWrite s).pending = s.pending := by
  obtain ⟨_, _, _, e⟩ := settleAdapterWrite_changes s
  rw [e]

/-- With no access pending the interlock R505 holds nothing. -/
theorem runInstruction_of_idle {i : Instr} (idle : s.pending = none) (hp : wordLeft s.p = encode i) (wf : i.wellFormed = true) :
    runInstruction s = exec i (settleAdapterWrite s) := by
  have decoded : decode (pLeft (settleAdapterWrite s)) = i := by rw [pLeft, settleAdapterWrite_p, hp, decode_encode wf]
  simp [runInstruction, decoded, idle]

end Idle

/-- Settles O12: with EX on the step is the instruction in P-L, which nothing holds. -/
theorem stepRunsInstructionInP : Obligations.StepRunsInstructionInP := by
  intro s i r ex idle hp wf
  rw [step_running r, if_pos ex, runInstruction_of_idle idle hp wf]

/-! ### A fetched word whose first instruction runs -/

theorem i00_eq (s : State) : i00 s = (ia s).getLsbD 0 := by
  rw [i00, ia, BitVec.getLsbD_append]
  rfl

/-- A word that can be executed passes the checks of R186. -/
theorem fetchFault_of_good {v : Word} (parity : oddParity v = true) (tag : v.extractLsb' 48 3 = 6) :
    fetchFault v false = none := by
  simp [fetchFault, parity, tag]

/-- The state at which the first instruction of a fetched word runs (R171, R176, R177). -/
def entered (s : State) (v : Word) : State := startInstruction { s with p := v, pypc := true } v

section Entered
variable (s : State) (v : Word)

/-- The half that IA selects stands in P-L (R176). -/
theorem wordLeft_entered : wordLeft (entered s v).p = if (ia s).getLsbD 0 then wordRight v else wordLeft v := by
  rw [← i00_eq]
  change wordLeft (if i00 s then putLeft v (wordRight v) else v) = _
  split
  · exact wordLeft_putLeft v _
  · rfl

theorem wordRight_entered : wordRight (entered s v).p = wordRight v := by
  change wordRight (if i00 s then putLeft v (wordRight v) else v) = _
  split
  · exact wordRight_putLeft v _
  · rfl

theorem ia_entered : ia (entered s v) = ia s + 1 := ia_of_bytes (ia s + 1)

theorem i20_entered : (entered s v).cf.getLsbD 4 = true := by
  simp [entered, getElem_setBit]

theorem cfIs_entered : CfIs (entered s v) s.cf := fun k hk => by
  simp [entered, getLsbD_setBit, hk]

theorem placesKept_entered : PlacesKept s (entered s v) nowhere := fun p hp _ => by
  cases p with
  | cf | ia1 | ia0 => cases hp
  | _ => rfl

theorem restKept_entered : RestKept s { entered s v with pypc := s.pypc } :=
  ⟨rfl, rfl, rfl, rfl, rfl, rfl, rfl, rfl, rfl, rfl, rfl, rfl, rfl, rfl, rfl, rfl, rfl, rfl, memoryKept_of rfl rfl⟩

end Entered

theorem runEntered_of_noStop {s : State} (stop : s.env.panel.stop = .off) : runEntered s = runInstruction s := by
  simp [runEntered, stopsAfterFetch, stopOnFetch, stopImmediate, stop]

/-- A word without a fault, the stop switches off and nothing in progress: the instruction in the half that IA selects runs
(R171, R185). -/
theorem fetched_of_good {s : State} {v : Word} {detected : Bool} {i : Instr} (good : fetchFault v detected = none)
    (stop : s.env.panel.stop = .off) (idle : s.pending = none) (aw : s.adapterWrite = none)
    (half : (if (ia s).getLsbD 0 then wordRight v else wordLeft v) = encode i) (wf : i.wellFormed = true) :
    fetched s v detected = exec i (entered s v) := by
  have runs : fetched s v detected = runEntered (entered s v) := by
    simp only [fetched, good]
    rfl
  have free : (entered s v).pending = none := idle
  have inP : wordLeft (entered s v).p = encode i := (wordLeft_entered s v).trans half
  have settled : settleAdapterWrite (entered s v) = entered s v := settleAdapterWrite_of_none aw
  rw [runs, runEntered_of_noStop (s := entered s v) stop, runInstruction_of_idle free inP wf, settled]

/-- Settles O13: the word is fetched without a fault, and its instruction enters P-L. -/
theorem stepFetchesLocal : Obligations.StepFetchesLocal := by
  intro s i r ex hold stop bstm idle aw inLocal present parity tag half wf
  refine ⟨entered s (memRead s.lm (iaWord s).toNat), ?_, (wordLeft_entered s _).trans half, wordRight_entered s _,
    ia_entered s _, rfl, r.run, i20_entered s _, cfIs_entered s _, placesKept_entered s _, restKept_entered s _, rfl⟩
  have runs := fetched_of_good (fetchFault_of_good parity tag) stop idle aw half wf
  rw [step_fetch r ex hold bstm, if_pos inLocal, fetchLocal_of_exists present]
  exact congrArg (mapNext settleTimers) runs

/-- Settles O14: the same from the state in which main memory has been asked for the word. -/
theorem stepFetchesMain : Obligations.StepFetchesMain := by
  intro s i v r ex hold stop bstm idle aw inMain present noError word parity tag half wf
  have cf : CfIs (entered (fetchRequested s) v) (s.cf &&& 0xFB) := by
    rw [← clearI18_eq]
    exact cfIs_entered (fetchRequested s) v
  have places : PlacesKept s (entered (fetchRequested s) v) nowhere := fun p hp hn =>
    (placesKept_entered _ v p hp hn).trans (placesKept_fetchRequested s p hp hn)
  have rest : RestKept s { entered (fetchRequested s) v with pypc := s.pypc, ba := s.ba, env := s.env } :=
    restKept_trans (restKept_fetchRequested s)
      (restKept_entered { fetchRequested s with ba := s.ba, env := s.env } v)
  refine ⟨entered (fetchRequested s) v, ?_, (wordLeft_entered (fetchRequested s) v).trans half, wordRight_entered _ v,
    ia_entered _ v, rfl, r.run, i20_entered _ v, cf, places, rfl, rfl, rfl, rest⟩
  have good : fetchFault v (nextError s) = none := by
    rw [nextError, noError]
    exact fetchFault_of_good parity tag
  rw [step_fetch r ex hold bstm, inMain, if_neg Bool.false_ne_true, fetchMain_of_exists idle present, word,
    fetched_of_good (s := fetchRequested s) good stop idle aw half wf]

/-! ### The address of a fetch, and a fetched word on a B 5700 -/

section FetchAddress
variable {s : State}

/-- The sum of R173, with 20 bits kept. -/
theorem toNat_relative (s : State) : (ibaOf s + (iaWord s).setWidth 20).toNat =
    ((ibaOf s).toNat + (iaWord s).toNat) % 2 ^ 20 := by
  simp [BitVec.toNat_add]

theorem toNat_hostAddress_b5700 (a : SysAddr) : (hostAddress .b5700 a).toNat = a.toNat % 2 ^ 15 := by
  simp only [hostAddress, BitVec.toNat_setWidth, BitVec.extractLsb'_toNat, Nat.shiftRight_zero]
  omega

theorem toNat_fetchAddress_b6700 (h : s.cfg.mainframe = .b6700) :
    (fetchAddress s).toNat = ((ibaOf s).toNat + (iaWord s).toNat) % 2 ^ 20 := by
  rw [fetchAddress, h]
  exact toNat_relative s

theorem toNat_fetchAddress_b5700 (h : s.cfg.mainframe = .b5700) :
    (fetchAddress s).toNat = ((ibaOf s).toNat + (iaWord s).toNat) % 2 ^ 15 := by
  rw [fetchAddress, h, toNat_hostAddress_b5700, toNat_relative]
  exact Nat.mod_mod_of_dvd _ (Nat.pow_dvd_pow 2 (by decide))

end FetchAddress

/-- The fields of a word as P receives it on a B 5700: the 48 bits, tag 110, odd parity (R88). -/
theorem instrFromHost_b5700 (v : Word) : (instrFromHost .b5700 v).extractLsb' 48 3 = 6 ∧
    oddParity (instrFromHost .b5700 v) = true ∧ (instrFromHost .b5700 v).extractLsb' 0 48 = v.extractLsb' 0 48 := by
  refine ⟨?_, oddParity_withParity _, ?_⟩
  · rw [instrFromHost, tag_withParity, tag_eq_wordTag, wordTag_makeWord]
    rfl
  · simp [low48_eq_halves, instrFromHost]

/-- Settles O15: the sum of R173 on either host, and the word that a B 5700 delivers. -/
theorem fetchAddressIsRelative : Obligations.FetchAddressIsRelative := fun _ =>
  ⟨toNat_fetchAddress_b6700, toNat_fetchAddress_b5700, instrFromHost_b5700⟩

end Sys2Proof.Machine
end

section
/-! PROOF. One scratchpad location as source and destination: each instruction as its operands decoded, then the test of R508. -/

namespace Sys2Proof.Machine

/-- The invalid operator fault of R508, at the state in which an indirect B address has been copied into P-L (R183, R364). -/
def invalidOperatorAt (s : State) (b : Byte) : Result := .next (raiseFault (noteIndirect s b) .invalidOperator)

section SameLocation
variable {s : State} {b c : Byte} {i : Instr}

/-- Two half-word operands that meet an instruction's test for the fault. -/
theorem invalidOperator_of_halves {res : Result} {kind : HalfKind} {a x : Byte} {src dst : HalfLoc}
    {test : HalfLoc → HalfLoc → Bool} (h : ∃ k : HalfLoc → HalfLoc → Result,
      res = withHalf kind a fun src => withHalf kind x fun dst => if test src dst then invalidOperatorAt s b else k src dst)
    (hsrc : halfLoc kind a = .ok src) (hdst : halfLoc kind x = .ok dst) (same : test src dst = true) :
    res = invalidOperatorAt s b := by
  obtain ⟨k, rfl⟩ := h
  rw [withHalf_of_ok hsrc, withHalf_of_ok hdst, if_pos same]

theorem exec_move_tests {a1 : BitVec 1} (hi : i ∈ [Instr.move b c, .move01000 b c, .move01001 a1 b c]) :
    ∃ k : HalfLoc → HalfLoc → Result, exec i s = withHalf .g2 (bAddress s b) fun src => withHalf .g2 (cAddress s c) fun dst =>
      if sameSMHalf src dst then invalidOperatorAt s b else k src dst := by
  fin_cases hi <;> exact ⟨_, rfl⟩

theorem exec_halfWithAddress_tests {a2 : BitVec 2} (hi : i ∈ [Instr.had a2 b c, .hsb a2 b c]) :
    ∃ k : HalfLoc → HalfLoc → Result, exec i s = withHalf .g3 (bAddress s b) fun src => withHalf .g3 (cAddress s c) fun dst =>
      if sameSMHalf src dst then invalidOperatorAt s b else k src dst := by
  fin_cases hi <;> exact ⟨_, rfl⟩

theorem exec_smrd_tests : ∃ k : HalfLoc → HalfLoc → Result,
    exec (.smrd b c) s = withHalf .g2 (bAddress s b) fun src => withHalf .g2 (cAddress s c) fun dst =>
      if sameSMWord src dst && s.cfg.smrdSameWordFaults then invalidOperatorAt s b else k src dst := ⟨_, rfl⟩

/-- The byte instructions with an address in B and in C that may not name one scratchpad byte twice. -/
theorem exec_byteToByte_same {a : BitVec 3} {a1 : BitVec 1} {bl cl : ByteLoc}
    (hi : i ∈ [Instr.tran a b c, .pary a1 b c, .add a b c, .sub a b c, .leo a b c, .leo01111 a b c])
    (hb : byteLoc (bAddress s b) = .ok bl) (hc : byteLoc (cAddress s c) = .ok cl) (same : sameSMByte bl cl = true) :
    exec i s = invalidOperatorAt s b := by
  have tests : ∃ k : ByteLoc → ByteLoc → Result,
      exec i s = withByte (bAddress s b) fun bl => withByte (cAddress s c) fun cl =>
        if sameSMByte bl cl then invalidOperatorAt s b else k bl cl := by
    fin_cases hi <;> exact ⟨_, rfl⟩
  obtain ⟨k, e⟩ := tests
  rw [e, withByte_of_ok hb, withByte_of_ok hc, if_pos same]

/-- The literal-in-C instructions with the B address as destination too (R126, A = 001). -/
theorem exec_literalInC_same {bl : ByteLoc} (hi : i ∈ [Instr.addc 1 b c, .subc 1 b c, .leoc 1 b c])
    (hb : byteLoc (bAddress s b) = .ok bl) (inSM : bl.isSM = true) : exec i s = invalidOperatorAt s b := by
  have tests : ∃ k : ByteLoc → Result,
      exec i s = withByte (bAddress s b) fun bl => if bl.isSM then invalidOperatorAt s b else k bl := by
    fin_cases hi <;> exact ⟨_, rfl⟩
  obtain ⟨k, e⟩ := tests
  rw [e, withByte_of_ok hb, if_pos inSM]

end SameLocation

/-- Settles O53: each instruction tests its two locations before it does anything else. -/
theorem sameScratchpadFaults : Obligations.SameScratchpadFaults := by
  intro i a a2 a1 b c s forms
  rw [← noteIndirect_eq_yCopied]
  obtain ⟨src, dst, hi, hsrc, hdst, same⟩ | ⟨src, dst, hi, hsrc, hdst, same⟩ | ⟨bl, cl, hi, hb, hc, same⟩ |
    ⟨k, r, q, faults, rfl, hsrc, hdst⟩ | ⟨bl, rfl, hi, hb, inSM⟩ := forms
  · exact invalidOperator_of_halves (exec_move_tests hi) hsrc hdst same
  · exact invalidOperator_of_halves (exec_halfWithAddress_tests hi) hsrc hdst same
  · exact exec_byteToByte_same hi hb hc same
  · have sameWord : (sameSMWord (.smHalf k r) (.smHalf k q) && s.cfg.smrdSameWordFaults) = true := by
      simp [sameSMWord, faults]
    exact invalidOperator_of_halves exec_smrd_tests hsrc hdst sameWord
  · exact exec_literalInC_same hi hb inSM

end Sys2Proof.Machine
end

section
/-! PROOF. Group 0 but for the adapter instructions: BKP that stops or branches, the mask register, SHFT and HEYU; and words
written out from the encodings. -/

namespace Sys2Proof.Machine

/-! ### Decoding -/

theorem decode_of_encode {w : Half} {i : Instr} (word : encode i = w) (wf : i.wellFormed = true) : decode w = i :=
  word ▸ decode_encode wf

/-- Settles O3: each word is the encoding of its instruction. -/
theorem decodedWords : Obligations.DecodedWords :=
  ⟨decode_of_encode rfl rfl, decode_of_encode rfl rfl, decode_of_encode rfl rfl, decode_of_encode rfl rfl,
    decode_of_encode rfl rfl, decode_of_encode rfl rfl, decode_of_encode rfl rfl, decode_of_encode rfl rfl,
    decode_of_encode rfl rfl, decode_of_encode rfl rfl, decode_of_encode rfl rfl, decode_of_encode rfl rfl⟩

section GroupZero
variable {s : State} {b c : Byte}

/-! ### BKP -/

theorem exec_bkp_stop {a : BitVec 3} (agrees : codeAgrees s a) (h : s.env.panel.bkp = .stop) :
    exec (.bkp a b c) s = .next { s with run := false, ex := false } := by
  rw [exec, execBkp, if_pos ((bkpMatches_iff s a).2 agrees), h]

theorem exec_bkp_branch {a : BitVec 3} (agrees : codeAgrees s a) (h : s.env.panel.bkp = .branch) :
    exec (.bkp a b c) s = .next (branchTo (saveForSubroutine s) (b ++ c)) := by
  rw [exec, execBkp, if_pos ((bkpMatches_iff s a).2 agrees), h]
  rfl

/-- The R half of a scratchpad word by its bytes (R85). -/
theorem covers_smHalf_right (k : BitVec 3) (p : Place) :
    (HalfLoc.smHalf k true).covers p = among [.sm k 3, .sm k 4, .sm k 5] p := by
  rw [Bool.eq_iff_iff, HalfLoc.covers, decide_eq_true_iff, among, List.contains_iff_mem]
  constructor
  · rintro ⟨m, right, rfl⟩
    fin_cases m <;> simp_all
  · intro h
    fin_cases h
    · exact ⟨3, rfl, rfl⟩
    · exact ⟨4, rfl, rfl⟩
    · exact ⟨5, rfl, rfl⟩

/-- MA goes to SM(0)-R and the I column to MA; every other place keeps its value (R206). -/
theorem placesKept_saveForSubroutine :
    PlacesKept s (saveForSubroutine s) (fun p => p.isMA || among [.sm 0 3, .sm 0 4, .sm 0 5] p) := by
  intro p _ h
  obtain ⟨notMA, notSaved⟩ := Bool.or_eq_false_iff.1 h
  have same : p.value (saveForSubroutine s) = p.value (writeHalf s (.smHalf 0 true) (ma s)) := by
    cases p with
    | ma2 | ma1 | ma0 => cases notMA
    | _ => rfl
  rw [same, value_writeHalf, halfStored, covers_smHalf_right, notSaved, if_neg Bool.false_ne_true]

theorem wordRight_saveForSubroutine : wordRight (smWord (saveForSubroutine s) 0) = s.ma2 ++ s.ma1 ++ s.ma0 := by
  simp [smWord, ma, rows]

theorem restKept_saveForSubroutine : RestKept s (saveForSubroutine s) :=
  ⟨rfl, rfl, rfl, rfl, rfl, rfl, rfl, rfl, rfl, rfl, rfl, rfl, rfl, rfl, rfl, rfl, rfl, rfl, memoryKept_of rfl rfl⟩

/-! ### The mask register -/

theorem decode_mskw (b c : Byte) : decode (0x18#8 ++ b ++ c) = .mskw b c := decode_fields 3 0 b c

theorem decode_mskr (b c : Byte) : decode (0x19#8 ++ b ++ c) = .mskr b c := decode_fields 3 1 b c

/-- The registers that MSKR loads, before its end (R212). -/
def maskRead (s : State) : State :=
  { s with ac := s.cm.extractLsb' 8 8, ai := s.cm.extractLsb' 0 8, cf := setBit s.cf 5 false, aa := 0 }

theorem exec_mskr : exec (.mskr b c) s = .next (release (maskRead s)) := rfl

theorem exec_mskw : exec (.mskw b c) s = .next (release { s with cm := s.ac ++ s.ai }) := rfl

theorem placesKept_maskRead : PlacesKept s (maskRead s) (among [.aa, .ac, .ai]) := by
  intro p control h
  cases p with
  | cf | aa | ac | ai => contradiction
  | _ => rfl

theorem restKept_maskRead : RestKept s (maskRead s) :=
  ⟨rfl, rfl, rfl, rfl, rfl, rfl, rfl, rfl, rfl, rfl, rfl, rfl, rfl, rfl, rfl, rfl, rfl, rfl, memoryKept_of rfl rfl⟩

/-! ### SHFT -/

/-- MA as SHFT leaves it, by the literal that B orders (R141, R207). -/
def shifted (s : State) (b c : Byte) : Half :=
  shiftMany c (((if b.extractLsb' 6 2 = 1 then s.y else b).toNat % 8) + 1) (ma s)

theorem shiftCount_eq (v : Byte) : shiftCount v = v.toNat % 8 + 1 := by
  rw [shiftCount, BitVec.extractLsb'_toNat, Nat.shiftRight_zero]

theorem exec_shft :
    exec (.shft b c) s = .next (release (setFlags (setMA (noteIndirect s b) (shifted s b c)) false false)) := by
  have literal : specialLiteral s b = if b.extractLsb' 6 2 = 1 then s.y else b := by
    split
    next indirect => exact bAddress_indirect s indirect
    next direct => exact bAddress_direct s direct
  rw [exec, execShft, literal, shiftCount_eq]
  rfl

theorem placesKept_shifted (h : Half) : PlacesKept s (setFlags (setMA (noteIndirect s b) h) false false) Place.isMA := by
  intro p control notMA
  cases p with
  | cf | ma2 | ma1 | ma0 => contradiction
  | _ => rfl

/-! ### HEYU -/

/-- The multiplexor's flip-flop set by HEYU, before its end (R209, R388). -/
def hostSignalled (s : State) (b : Byte) : State := { noteIndirect s b with env := { s.env with hostAttention := true } }

theorem exec_heyu : exec (.heyu b c) s = .next (release (hostSignalled s b)) := rfl

theorem restKept_hostSignalled : RestKept s { hostSignalled s b with env := s.env } := restKept_noteIndirect s b

end GroupZero

/-- Settles O21: the stop, and the subroutine entry with its branch. -/
theorem bkpStopsOrBranches : Obligations.BkpStopsOrBranches := fun _ _ _ s agrees =>
  ⟨exec_bkp_stop agrees, fun branches => ⟨_, exec_bkp_branch agrees branches,
    branched_branchTo (u := saveForSubroutine s) _ _ rfl rfl rfl placesKept_saveForSubroutine, wordRight_saveForSubroutine,
    rfl, rfl, rfl, restKept_trans restKept_saveForSubroutine (restKept_branchTo _ _)⟩⟩

/-- Settles O26: both words lie in one row of the opcode map; MSKR loads the A column and I21, and MSKW no place. -/
theorem maskInstructions : Obligations.MaskInstructions := by
  intro b c s
  refine ⟨decode_mskw b c, decode_mskr b c, ⟨_, exec_mskw, rfl, ?_, ?_⟩, _, exec_mskr, ?_, rfl, ?_, ?_⟩
  · exact passedOver_release nowhere rfl rfl rfl rfl rfl rfl fun p _ _ => rfl
  · exact restKept_release s
  · exact append_extractLsb' (m := 8) (n := 8) s.cm
  · rw [← setBit5_eq]
    exact passedOver_release (u := maskRead s) _ rfl rfl rfl rfl rfl rfl placesKept_maskRead
  · exact restKept_trans restKept_maskRead (restKept_release _)

/-- Settles O27: MA and the flags of the shift, then the end of the instruction. -/
theorem shftShiftsMA : Obligations.ShftShiftsMA := by
  intro b c s
  refine ⟨_, exec_shft, rows_eta _, ?_, ?_⟩
  · rw [← withFlags_eq_flagged]
    exact passedOver_release Place.isMA (right_noteIndirect s b) (tag_noteIndirect s b) rfl rfl rfl rfl (placesKept_shifted _)
  · exact restKept_trans (restKept_noteIndirect s b)
      (restKept_trans (restKept_setMA _ _) (restKept_trans (restKept_setFlags _ _ _) (restKept_release _)))

/-- Settles O29: the flip-flop is the host's, and the copy of Y stands in P-L. -/
theorem heyuSignalsHost : Obligations.HeyuSignalsHost := by
  intro b c s
  refine ⟨_, exec_heyu, rfl, ?_, ?_⟩
  · exact passedOver_release nowhere (right_noteIndirect s b) (tag_noteIndirect s b) rfl rfl rfl rfl
      fun p _ _ => value_noteIndirect s b p
  · exact restKept_trans restKept_hostSignalled (restKept_release { hostSignalled s b with env := s.env })

end Sys2Proof.Machine
end

section
/-! PROOF. The rows of Table 3-2: one shift takes a bit in at the top of a register, and of two registers that are shifted as one
the higher passes its lowest bit on. -/

namespace Sys2Proof.Machine

/-! ### One bit taken in at the top -/

section OneBit
variable {p q : Nat}

/-- A shift to the right by one, with an input bit, of a register of any width. -/
def shiftedIn (i : Bool) (v : BitVec p) : BitVec p := (BitVec.cons i v).extractLsb' 1 p

theorem getLsbD_shiftedIn (i : Bool) (v : BitVec p) (k : Nat) :
    (shiftedIn i v).getLsbD k = if k + 1 = p then i else v.getLsbD (k + 1) := by
  rw [shiftedIn, BitVec.getLsbD_extractLsb', BitVec.getLsbD_cons, Nat.add_comm 1 k]
  by_cases h : k < p
  · simp [h]
  · simp [h, show k + 1 ≠ p by omega, BitVec.getLsbD_of_ge v (k + 1) (by omega)]

theorem shiftIn_eq_shiftedIn (i : Bool) (v : Byte) : shiftIn i v = shiftedIn i v := by
  apply BitVec.eq_of_getLsbD_eq
  intro k hk
  rw [getLsbD_shiftedIn, shiftIn, BitVec.getLsbD_append, BitVec.getLsbD_ofBool, BitVec.getLsbD_extractLsb', Nat.add_comm 1 k]
  by_cases top : k = 7
  · simp [top]
  · simp [show k < 7 by omega, top]

theorem shiftedIn_false (v : BitVec p) : shiftedIn false v = v >>> 1 := by
  apply BitVec.eq_of_getLsbD_eq
  intro k hk
  rw [getLsbD_shiftedIn, BitVec.getLsbD_ushiftRight, Nat.add_comm 1 k]
  split
  next top => exact (BitVec.getLsbD_of_ge v (k + 1) (by omega)).symm
  next => rfl

/-- A rotation by its source bits. -/
theorem getLsbD_rotateRight_eq_mod (v : BitVec p) (n k : Nat) (hk : k < p) :
    (v.rotateRight n).getLsbD k = v.getLsbD ((n + k) % p) := by
  rw [BitVec.getLsbD_rotateRight, ← Nat.mod_add_mod]
  generalize hr : n % p = r
  have hn : r < p := hr ▸ Nat.mod_lt n (by omega)
  by_cases h : k < p - r
  · rw [Nat.mod_eq_of_lt (by omega : r + k < p)]
    simp [h]
  · rw [Nat.mod_eq_sub_mod (by omega), Nat.mod_eq_of_lt (by omega : r + k - p < p)]
    simp [h, hk, show k - (p - r) = r + k - p by omega]

theorem rotateRight_none (v : BitVec p) : v.rotateRight 0 = v := by
  apply BitVec.eq_of_getLsbD_eq
  intro k hk
  rw [getLsbD_rotateRight_eq_mod v 0 k hk, Nat.zero_add, Nat.mod_eq_of_lt hk]

theorem shiftedIn_lowest (v : BitVec p) : shiftedIn (v.getLsbD 0) v = v.rotateRight 1 := by
  apply BitVec.eq_of_getLsbD_eq
  intro k hk
  rw [getLsbD_shiftedIn, getLsbD_rotateRight_eq_mod v 1 k hk, Nat.add_comm 1 k]
  split
  next top => rw [top, Nat.mod_self]
  next => rw [Nat.mod_eq_of_lt (by omega)]

theorem rotateRight_rotateRight_one (v : BitVec p) (n : Nat) : (v.rotateRight 1).rotateRight n = v.rotateRight (n + 1) := by
  apply BitVec.eq_of_getLsbD_eq
  intro k hk
  rw [getLsbD_rotateRight_eq_mod _ n k hk, getLsbD_rotateRight_eq_mod _ 1 _ (Nat.mod_lt _ (by omega)),
    getLsbD_rotateRight_eq_mod _ (n + 1) k hk, Nat.add_mod_mod, Nat.add_comm 1, Nat.add_right_comm]

/-- Two registers shifted as one: the lowest bit of the higher enters the lower. -/
theorem shiftedIn_append (i : Bool) (v : BitVec p) (w : BitVec q) (hp : 0 < p) :
    shiftedIn i (v ++ w) = shiftedIn i v ++ shiftedIn (v.getLsbD 0) w := by
  apply BitVec.eq_of_getLsbD_eq
  intro k hk
  simp only [BitVec.getLsbD_append, getLsbD_shiftedIn]
  by_cases low : k < q
  · by_cases border : k + 1 = q
    · simp [low, border, hp.ne']
    · simp [low, border, show k + 1 < q by omega, show k + 1 ≠ p + q by omega]
  · simp [low, show ¬ k + 1 < q by omega, show k - q + 1 = k + 1 - q by omega, show k + 1 - q = p ↔ k + 1 = p + q by omega]

end OneBit

/-! ### One shift -/

/-- Two bytes shifted as one. -/
theorem shiftIn_append (i : Bool) (v w : Byte) : shiftIn i v ++ shiftIn (v.getLsbD 0) w = shiftedIn i (v ++ w) := by
  rw [shiftIn_eq_shiftedIn, shiftIn_eq_shiftedIn, shiftedIn_append i v w (by decide)]

/-- The lowest bit of two registers is that of the lower one. -/
theorem lowest_append (v w : Byte) : (v ++ w).getLsbD 0 = w.getLsbD 0 := by
  rw [BitVec.getLsbD_append, if_pos (by decide)]

theorem low16_eq_rows (m : Half) : m.extractLsb' 0 16 = row1 m ++ row0 m := by
  apply BitVec.eq_of_getLsbD_eq
  intro k hk
  simp only [row1, row0, BitVec.getLsbD_append, BitVec.getLsbD_extractLsb', hk]
  by_cases low : k < 8
  · simp [low]
  · simp [low, show k - 8 < 8 by omega, show 8 + (k - 8) = k by omega]

theorem high16_eq_rows (m : Half) : m.extractLsb' 8 16 = row2 m ++ row1 m := by
  conv_lhs => rw [← rows_eta m]
  exact extractLsb'_append_high (row2 m ++ row1 m) (row0 m)

/-! ### Many shifts of a part of MA -/

section Parts
variable {w : Nat} {c : Byte} {part : Half → BitVec w}

theorem shiftMany_shifts (once : ∀ m, part (shiftOnce c m) = shiftedIn false (part m)) (n : Nat) (m : Half) :
    part (shiftMany c n m) = part m >>> n := by
  induction n generalizing m with
  | zero => rw [shiftMany, BitVec.ushiftRight_zero]
  | succ n ih => rw [shiftMany, ih, once, shiftedIn_false, ← BitVec.shiftRight_add, Nat.add_comm]

theorem shiftMany_rotates (once : ∀ m, part (shiftOnce c m) = shiftedIn ((part m).getLsbD 0) (part m)) (n : Nat) (m : Half) :
    part (shiftMany c n m) = (part m).rotateRight n := by
  induction n generalizing m with
  | zero => rw [shiftMany, rotateRight_none]
  | succ n ih => rw [shiftMany, ih, once, shiftedIn_lowest, rotateRight_rotateRight_one]

theorem shiftMany_keeps (once : ∀ m, part (shiftOnce c m) = part m) (n : Nat) (m : Half) :
    part (shiftMany c n m) = part m := by
  induction n generalizing m with
  | zero => rfl
  | succ n ih => rw [shiftMany, ih, once]

end Parts

/-! ### The rows of Table 3-2 -/

/-- Two registers of MA, the first as the higher one. -/
def registerPair (high low : Nat) (m : Half) : BitVec 16 := halfRow m high ++ halfRow m low

theorem low16_eq_pair (m : Half) : m.extractLsb' 0 16 = registerPair 1 0 m := low16_eq_rows m

theorem high16_eq_pair (m : Half) : m.extractLsb' 8 16 = registerPair 2 1 m := high16_eq_rows m

/-- The rows of Table 3-2 that shift two registers as one, with the register at the top and the one at the bottom: concatenated,
or end around without concatenation. -/
def shiftingPairs : List (Byte × Nat × Nat) :=
  [(0x0B, 1, 0), (0x0E, 2, 1), (0x0D, 2, 0), (0x13, 0, 1), (0x15, 0, 2), (0x16, 1, 2), (0x17, 0, 2)]

/-- The rows of Table 3-2 that rotate two registers as one. -/
def rotatingPairs : List (Byte × Nat × Nat) := [(0x1B, 1, 0), (0x1E, 2, 1), (0x1D, 2, 0)]

section Rows
variable {c : Byte} {high low : Nat} (n : Nat) (m : Half)

theorem registerPair_shiftOnce_shifts (h : (c, high, low) ∈ shiftingPairs) :
    registerPair high low (shiftOnce c m) = shiftedIn false (registerPair high low m) := by
  fin_cases h <;> simp [registerPair, halfRow_zero, halfRow_one, halfRow_two, shiftOnce, pick, ← shiftIn_append]

theorem registerPair_shiftOnce_rotates (h : (c, high, low) ∈ rotatingPairs) : registerPair high low (shiftOnce c m) =
    shiftedIn ((registerPair high low m).getLsbD 0) (registerPair high low m) := by
  rw [registerPair, registerPair, lowest_append, ← shiftIn_append]
  fin_cases h <;> simp [halfRow_zero, halfRow_one, halfRow_two, shiftOnce, pick]

theorem registerPair_shifts (h : (c, high, low) ∈ shiftingPairs) :
    registerPair high low (shiftMany c n m) = registerPair high low m >>> n :=
  shiftMany_shifts (fun m => registerPair_shiftOnce_shifts m h) n m

theorem registerPair_rotates (h : (c, high, low) ∈ rotatingPairs) :
    registerPair high low (shiftMany c n m) = (registerPair high low m).rotateRight n :=
  shiftMany_rotates (fun m => registerPair_shiftOnce_rotates m h) n m

/-- The 24 bits of MA shifted as one. -/
theorem shiftedIn_half (i : Bool) : shiftedIn i m =
    rows (shiftIn i (row2 m)) (shiftIn ((row2 m).getLsbD 0) (row1 m)) (shiftIn ((row1 m).getLsbD 0) (row0 m)) := by
  conv_lhs => rw [← rows_eta m, rows, shiftedIn_append _ _ _ (by decide), ← shiftIn_append, lowest_append,
    ← shiftIn_eq_shiftedIn]
  rfl

theorem shiftMany_0F : shiftMany 0x0F n m = m >>> n :=
  shiftMany_shifts (part := id) (fun m => by simp [shiftedIn_half, shiftOnce, pick]) n m

theorem shiftMany_1F : shiftMany 0x1F n m = m.rotateRight n := by
  have lowest (m : Half) : m[0] = (row0 m)[0] := by simp [row0]
  exact shiftMany_rotates (part := id) (fun m => by simp [shiftedIn_half, lowest, shiftOnce, pick]) n m

/-- Each register by itself. -/
theorem shiftMany_07 {r : Nat} (hr : r < 3) : halfRow (shiftMany 0x07 n m) r = halfRow m r >>> n := by
  refine shiftMany_shifts (part := (halfRow · r)) (fun m => ?_) n m
  obtain rfl | rfl | rfl : r = 0 ∨ r = 1 ∨ r = 2 := by omega
  all_goals simp [halfRow_zero, halfRow_one, halfRow_two, shiftOnce, pick, shiftIn_eq_shiftedIn]

/-- Byte circulate: each register rotates by itself. -/
theorem shiftMany_27 {r : Nat} (hr : r < 3) : halfRow (shiftMany 0x27 n m) r = (halfRow m r).rotateRight n := by
  refine shiftMany_rotates (part := (halfRow · r)) (fun m => ?_) n m
  obtain rfl | rfl | rfl : r = 0 ∨ r = 1 ∨ r = 2 := by omega
  all_goals simp [halfRow_zero, halfRow_one, halfRow_two, shiftOnce, pick, shiftIn_eq_shiftedIn]

/-- Three registers end around without concatenation: the middle one is shifted by itself. -/
theorem shiftMany_17_middle : halfRow (shiftMany 0x17 n m) 1 = halfRow m 1 >>> n :=
  shiftMany_shifts (part := (halfRow · 1)) (fun m => by simp [halfRow_one, shiftOnce, pick, shiftIn_eq_shiftedIn]) n m

/-- A register that is not selected keeps its value (R207). -/
theorem halfRow_shiftMany_unselected {r : Nat} (hr : r < 3) (h : c.getLsbD r = false) :
    halfRow (shiftMany c n m) r = halfRow m r := by
  refine shiftMany_keeps (part := (halfRow · r)) (fun m => ?_) n m
  obtain rfl | rfl | rfl : r = 0 ∨ r = 1 ∨ r = 2 := by omega
  all_goals simp only [halfRow_zero, halfRow_one, halfRow_two, shiftOnce, row0_rows, row1_rows, row2_rows, h, pick,
    Bool.false_eq_true, if_false]

end Rows

/-- Settles O28: one shift of the registers that a row names, then as many as the count says. -/
theorem shiftTable : Obligations.ShiftTable := by
  intro n m _
  have shifts {c : Byte} {high low : Nat} (h : (c, high, low) ∈ shiftingPairs := by decide) := registerPair_shifts n m h
  have rotates {c : Byte} {high low : Nat} (h : (c, high, low) ∈ rotatingPairs := by decide) := registerPair_rotates n m h
  simp only [low16_eq_pair, high16_eq_pair]
  exact ⟨shiftMany_0F n m, shiftMany_1F n m, ⟨halfRow_shiftMany_unselected n m (by decide) (by decide), shifts⟩, rotates,
    shifts, rotates, ⟨halfRow_shiftMany_unselected n m (by decide) (by decide), shifts⟩,
    ⟨halfRow_shiftMany_unselected n m (by decide) (by decide), rotates⟩, shifts, shifts, shifts,
    ⟨shifts, shiftMany_17_middle n m⟩, fun r hr => ⟨shiftMany_07 n m hr, shiftMany_27 n m hr⟩,
    fun c r hr unselected => halfRow_shiftMany_unselected n m hr unselected⟩

end Sys2Proof.Machine
end

section
/-! PROOF. AWI and AWRR: what a write exchange and the scan behind it leave in the cluster, AWI accepted, and both held or without
an answer. -/

namespace Sys2Proof.Machine

/-! ### A code taken by the scan -/

section Scan
variable {c : Cluster} {u : Crosspoint} {ad : BitVec 4} {cc : BitVec 5} {dc : BitVec 9} (draw : Nat)

@[simp] theorem presentInterrupt_adapters (c : Cluster) : (presentInterrupt c draw).adapters = c.adapters := by
  unfold presentInterrupt
  split
  · rfl
  · split <;> rfl

/-- An interrupt is presented to the DCP, or the CIR is left (R407, R434). -/
theorem presentInterrupt_cs (c : Cluster) :
    (presentInterrupt c draw).cir.cs = .forDcp ∨ (presentInterrupt c draw).cir.cs = c.cir.cs := by
  unfold presentInterrupt
  split
  · exact .inr rfl
  · split
    · exact .inl rfl
    · exact .inr rfl

/-- A cluster that has taken a write code is free again, unless its maintenance register returns the information (R402, R423). -/
theorem takeWrite_cs (c : Cluster) :
    (takeWrite c draw).cir.cs = if returnsWrites c then .forDcp else .notOccupied := by
  unfold takeWrite
  dsimp only
  split
  · rfl
  · split <;> rfl

theorem adapterOf_storeAdapter (writable : writeInhibited c = false) (a : BitVec 4) (v : Adapter) :
    adapterOf (storeAdapter c a v) a = v := by
  simp [adapterOf, storeAdapter, setAdapter, writable]

/-- The adapter word after a write code of Table 5-13 (R430). -/
theorem adapterOf_takeWrite {v : Adapter} (writable : writeInhibited c = false) (notMr : c.cir.cc ≠ 7)
    (h : applyWrite (adapterOf c c.cir.ad) c.cir.cc c.cir.dc = some v) : adapterOf (takeWrite c draw) c.cir.ad = v := by
  simp only [takeWrite, if_neg notMr, h]
  exact adapterOf_storeAdapter writable _ v

/-- Of the cluster an answer shows the maintenance register alone (R431). -/
theorem answer_congr {c c' : Cluster} (h : c'.mr = c.mr) (a : Adapter) (cc : BitVec 5) : answer c' a cc = answer c a cc := by
  unfold answer
  rw [h]

/-- The code returned to an interrogate code is an interrogate code too (Table 5-14). -/
theorem answer_code {a : Adapter} {code : BitVec 5} {info : BitVec 9} (interrogates : cc.getLsbD 4 = true)
    (h : answer c a cc = some (code, info)) : code.getLsbD 4 = true := by
  unfold answer at h
  split at h <;> cases h
  case h_2 | h_7 => simp
  all_goals exact interrogates

/-- A pair of a code and information bits that the cluster may answer to an interrogate code: that of Table 5-14, or the code that
was sent with any information where the table has no entry (R431, U21). -/
def MayAnswer (c : Cluster) (a : Adapter) (cc : BitVec 5) (r : BitVec 5 × BitVec 9) : Prop :=
  (∀ q, answer c a cc = some q → r = q) ∧ (answer c a cc = none → r.1 = cc)

theorem mayAnswer_congr {c c' : Cluster} (h : c'.mr = c.mr) {a : Adapter} {r : BitVec 5 × BitVec 9} (may : MayAnswer c' a cc r) :
    MayAnswer c a cc r := by
  rw [MayAnswer, ← answer_congr h]
  exact may

theorem code_of_mayAnswer {a : Adapter} {r : BitVec 5 × BitVec 9} (interrogates : cc.getLsbD 4 = true) (h : MayAnswer c a cc r) :
    r.1.getLsbD 4 = true := by
  obtain ⟨entry, noEntry⟩ := h
  cases e : answer c a cc with
  | none => rw [noEntry e]; exact interrogates
  | some q => rw [entry q e]; exact answer_code interrogates e

/-- An interrogate code taken from the CIR leaves an answer there for the DCP (R404). -/
theorem takeInterrogate_answers (c : Cluster) : ∃ r, MayAnswer c (adapterOf c c.cir.ad) c.cir.cc r ∧
    (takeInterrogate c draw).cir = { cs := .forDcp, ad := c.cir.ad, cc := r.1, dc := r.2 } := by
  unfold takeInterrogate MayAnswer
  split
  next e => exact ⟨_, ⟨fun q h => Option.some.inj (e.symm.trans h), fun h => nomatch e.symm.trans h⟩, rfl⟩
  next e => exact ⟨(c.cir.cc, Config.freeInfo draw), ⟨fun q h => (nomatch e.symm.trans h), fun _ => rfl⟩, rfl⟩

/-! ### The scan behind a write exchange -/

/-- An interrogate code that the DCP has written is answered by the next scan (R404, R434). -/
theorem scanCluster_interrogated (c : Cluster) (interrogates : cc.getLsbD 4 = true) : ∃ r, MayAnswer c (adapterOf c ad) cc r ∧
    (scanCluster (acceptWrite c u false ad cc dc) draw).cir = { cs := .forDcp, ad := ad, cc := r.1, dc := r.2 } := by
  have taken : scanCluster (acceptWrite c u false ad cc dc) draw =
      takeInterrogate (scanTick (acceptWrite c u false ad cc dc)) draw := if_pos interrogates
  obtain ⟨r, may, cir⟩ := takeInterrogate_answers draw (scanTick (acceptWrite c u false ad cc dc))
  exact ⟨r, mayAnswer_congr (c := c) rfl may, (congrArg Cluster.cir taken).trans cir⟩

/-- A write code that the DCP has written is taken by the next scan, behind which an interrupt may be presented (R402, R434). -/
theorem scanCluster_written (c : Cluster) (writes : cc.getLsbD 4 = false) (keeps : returnsWrites c = false) :
    scanCluster (acceptWrite c u false ad cc dc) draw =
      presentInterrupt (takeWrite (scanTick (acceptWrite c u false ad cc dc)) draw) draw :=
  (if_neg (Bool.eq_false_iff.1 writes)).trans (if_neg (Bool.eq_false_iff.1 keeps))

theorem scanCluster_written_cs (c : Cluster) (writes : cc.getLsbD 4 = false) (keeps : returnsWrites c = false) :
    (scanCluster (acceptWrite c u false ad cc dc) draw).cir.cs ≠ .forCluster := by
  have taken : (takeWrite (scanTick (acceptWrite c u false ad cc dc)) draw).cir.cs = .notOccupied :=
    (takeWrite_cs draw _).trans (if_neg (Bool.eq_false_iff.1 keeps))
  rw [scanCluster_written draw c writes keeps]
  obtain presented | left := presentInterrupt_cs draw (takeWrite (scanTick (acceptWrite c u false ad cc dc)) draw)
  · simp [presented]
  · simp [left, taken]

theorem adapterOf_scanCluster_written {c : Cluster} {v : Adapter} (writes : cc.getLsbD 4 = false)
    (writable : c.mr.getLsbD 2 = false) (notMr : cc ≠ 7) (h : applyWrite (adapterOf c ad) cc dc = some v) :
    adapterOf (scanCluster (acceptWrite c u false ad cc dc) draw) ad = v := by
  have keeps : returnsWrites c = false := by rw [returnsWrites, writable, Bool.and_false]
  have notInhibited : writeInhibited (scanTick (acceptWrite c u false ad cc dc)) = false := by
    show writeInhibited c = false
    rw [writeInhibited, writable, Bool.and_false]
  rw [scanCluster_written draw c writes keeps, adapterOf]
  simp only [presentInterrupt_adapters]
  exact adapterOf_takeWrite draw notInhibited notMr h

end Scan

/-! ### The write exchange -/

section Write
variable {s : State} {a : BitVec 2} {b c : Byte}

theorem writeReply_accepted {k : BitVec 4} (h : takesWrite s k) : writeReply s k = .accepted := by
  obtain ⟨reach, free, alone⟩ := h
  obtain ⟨unreachable, -⟩ | ⟨-, held, -⟩ | ⟨-, accepted⟩ := writeReply_cases s k
  · exact nomatch reach.symm.trans unreachable
  · exact absurd held (not_or_intro free alone)
  · exact accepted

theorem writeReply_wait {k : BitVec 4} (reach : reachable s k = true)
    (held : (clusterOf s k).cir.cs = .forCluster ∨ servesOther s k) : writeReply s k = .wait := by
  obtain ⟨unreachable, -⟩ | ⟨-, -, wait⟩ | ⟨⟨-, free, alone⟩, -⟩ := writeReply_cases s k
  · exact nomatch reach.symm.trans unreachable
  · exact wait
  · exact absurd held (not_or_intro free alone)

theorem writeReply_absent {k : BitVec 4} (unreachable : reachable s k = false) : writeReply s k = .absent := by
  rw [writeReply, unreachable]
  rfl

theorem exec_awi_accepted (h : takesWrite s (aaCluster s)) : exec (.awi a b c) s =
    .next (release { deliverWrite (loadLiterals s a b c) with adapterWrite := some (aaCluster s) }) := by
  rw [exec, execAwi, writeReply_accepted h]

theorem exec_awrr_accepted (h : takesWrite s (aaCluster s)) :
    exec (.awrr a b c) s = .next (interrogateAnswer s (loadLiterals s a b c)) := by
  rw [exec, execAwrr, writeReply_accepted h]

theorem exec_adapterWrite_held {i : Instr} (hi : i ∈ [Instr.awi a b c, .awrr a b c]) (reach : reachable s (aaCluster s) = true)
    (held : (clusterOf s (aaCluster s)).cir.cs = .forCluster ∨ servesOther s (aaCluster s)) :
    exec i s = .next (waitForCluster s) := by
  have wait := writeReply_wait reach held
  fin_cases hi
  · rw [exec, execAwi, wait]
  · rw [exec, execAwrr, wait]

theorem exec_adapterWrite_absent {i : Instr} (hi : i ∈ [Instr.awi a b c, .awrr a b c])
    (unreachable : reachable s (aaCluster s) = false) :
    exec i s = .next (raiseFault (atClusterError s (loadLiterals s a b c)) .clusterError) := by
  have absent := writeReply_absent unreachable
  fin_cases hi
  · rw [exec, execAwi, absent]
  · rw [exec, execAwrr, absent]

/-! ### The clusters of the machine -/

theorem clusterOf_deliverWrite (t : State) : clusterOf (deliverWrite t) (aaCluster t) =
    acceptWrite (clusterOf t (aaCluster t)) (thisDcp t) false (aaAdapter t) (t.ac.extractLsb' 0 5) (aiLines t) :=
  clusterOf_setCluster_self t _ _

/-- The cluster in AA with the code and the information of the literals in its CIR (R202, R402). -/
theorem clusterOf_deliverWrite_literals : clusterOf (deliverWrite (loadLiterals s a b c)) (aaCluster s) =
    acceptWrite (clusterOf s (aaCluster s)) (thisDcp s) false (aaAdapter s)
      ((if a.getLsbD 1 then b else s.ac).extractLsb' 0 5) (BitVec.ofBool (s.cf.getLsbD 5) ++ if a.getLsbD 0 then c else s.ai) :=
  clusterOf_deliverWrite (loadLiterals s a b c)

theorem clusterOf_deliverWrite_ne (t : State) {j : BitVec 4} (h : j ≠ aaCluster t) :
    clusterOf (deliverWrite t) j = clusterOf t j :=
  clusterOf_setCluster_ne t _ j _ h

theorem clusterOf_scanOne (t : State) (k : BitVec 4) : clusterOf (scanOne t k) k = scanCluster (clusterOf t k) t.free :=
  clusterOf_setCluster_self t k _

theorem clusterOf_scanOne_ne (t : State) {j k : BitVec 4} (h : j ≠ k) : clusterOf (scanOne t k) j = clusterOf t j :=
  clusterOf_setCluster_ne t k j _ h

/-! ### AWI -/

/-- The cluster serves the write it has accepted, and AC and AI hold the literals (R202). -/
def awiAccepted (s : State) (a : BitVec 2) (b c : Byte) : State :=
  { deliverWrite (loadLiterals s a b c) with adapterWrite := some (aaCluster s) }

theorem placesKept_awiAccepted : PlacesKept s (awiAccepted s a b c) (among [.ac, .ai]) := by
  intro p _ h
  cases p with
  | ac | ai => contradiction
  | _ => rfl

theorem restKept_awiAccepted :
    RestKept s { awiAccepted s a b c with clusters := s.clusters, adapterWrite := s.adapterWrite } :=
  ⟨rfl, rfl, rfl, rfl, rfl, rfl, rfl, rfl, rfl, rfl, rfl, rfl, rfl, rfl, rfl, rfl, rfl, rfl, memoryKept_of rfl rfl⟩

/-! ### The wait for a cluster -/

theorem untouched_waitForCluster (s : State) : Untouched s (waitForCluster s) :=
  ⟨fun p _ _ => value_congr p rfl rfl rfl rfl rfl rfl rfl rfl rfl rfl rfl rfl rfl rfl, rfl, rfl, rfl, rfl, rfl⟩

theorem restKept_waitForCluster (s : State) : RestKept s { waitForCluster s with clusters := s.clusters } :=
  ⟨rfl, rfl, rfl, rfl, rfl, rfl, rfl, rfl, rfl, rfl, rfl, rfl, rfl, rfl, rfl, rfl, rfl, rfl, memoryKept_of rfl rfl⟩

end Write

/-- Settles O22: the cluster in AA has accepted the write with the literals, and its scan comes later. -/
theorem adapterWriteAccepted : Obligations.AdapterWriteAccepted := by
  rintro a b c ac ai k s rfl rfl rfl takes
  have cluster := clusterOf_deliverWrite_literals (s := s) (a := a) (b := b) (c := c)
  refine ⟨release (awiAccepted s a b c), exec_awi_accepted takes, ?_, rfl, rfl, congrArg Cluster.cir cluster,
    (congrArg Cluster.adapters cluster).trans rfl, fun j other => clusterOf_deliverWrite_ne (loadLiterals s a b c) other, rfl,
    ?_⟩
  · exact passedOver_release (u := awiAccepted s a b c) _ rfl rfl rfl rfl rfl rfl placesKept_awiAccepted
  · exact restKept_trans restKept_awiAccepted (restKept_release _)

/-- Settles O23: the adapter cluster error where no cluster answers, and one scan of a cluster that gives the wait signal. -/
theorem adapterWriteNotAccepted : Obligations.AdapterWriteNotAccepted := by
  rintro i a b c ac ai k s hi rfl rfl rfl
  have held (reach : reachable s (aaCluster s) = true)
      (busy : (clusterOf s (aaCluster s)).cir.cs = .forCluster ∨ servesOther s (aaCluster s)) :
      ∃ t, exec i s = .next t ∧ Untouched s t ∧ (∀ j, j ≠ aaCluster s → clusterOf t j = clusterOf s j) ∧
        RestKept s { t with clusters := s.clusters } :=
    ⟨_, exec_adapterWrite_held hi reach busy, untouched_waitForCluster s, fun j other => clusterOf_scanOne_ne s other,
      restKept_waitForCluster s⟩
  refine ⟨fun absent literals => ?_, fun absent precise => ?_, fun reach occupied => held reach (.inl occupied),
    fun reach serves => held reach (.inr serves)⟩
  · rw [exec_adapterWrite_absent hi absent, atClusterError_literals s _ literals]
    rfl
  · rw [exec_adapterWrite_absent hi absent, atClusterError_precise s _ precise]
    rfl

end Sys2Proof.Machine
end

section
/-! PROOF. AWRR accepted by its cluster: the answer read, the cluster that fails to release it, and a write code without an
answer. -/

namespace Sys2Proof.Machine

/-! ### The responsive read -/

section ResponsiveRead
variable {u : State} {ad : BitVec 4} {code : BitVec 5} {info : BitVec 9}

theorem append_zero_high (v : BitVec 5) : 0#3 ++ v = v.setWidth 8 := by
  apply BitVec.eq_of_getLsbD_eq
  intro k hk
  rw [BitVec.getLsbD_append, BitVec.getLsbD_setWidth]
  by_cases low : k < 5
  · simp [low, hk]
  · simp [low, BitVec.getLsbD_of_ge v k (by omega)]

variable (h : (clusterOf u (aaCluster u)).cir = { cs := .forDcp, ad := ad, cc := code, dc := info })
include h

theorem responsiveRead_ac : (responsiveRead u).ac = code.setWidth 8 := by
  rw [← append_zero_high]
  exact congrArg (fun r : Cir => 0#3 ++ r.cc) h

theorem responsiveRead_ai : (responsiveRead u).ai = info.extractLsb' 0 8 := congrArg (fun r : Cir => r.dc.extractLsb' 0 8) h

theorem responsiveRead_cf : (responsiveRead u).cf = withI21 u.cf (info.getLsbD 8) := by
  have loaded : (responsiveRead u).cf = setBit u.cf 5 ((clusterOf u (aaCluster u)).cir.dc.getLsbD 8) := rfl
  rw [loaded, h, setBit5_eq]

/-- Access Confirm names the adapter of the answer, which is no program timer interrupt (R405). -/
theorem responsiveRead_confirm (interrogates : code.getLsbD 4 = true) :
    (clusterOf (responsiveRead u) (aaCluster u)).confirm = { ad := ad, occupied := true, timer := false } := by
  have noTimer : code ≠ 11 := by
    rintro rfl
    exact absurd interrogates (by decide)
  have read : clusterOf (responsiveRead u) (aaCluster u) = readCir (clusterOf u (aaCluster u)) (thisDcp u) :=
    clusterOf_setCluster_self u _ _
  rw [read, readCir_confirm, h, decide_eq_false noTimer]

omit h in
theorem responsiveRead_cs : (clusterOf (responsiveRead u) (aaCluster u)).cir.cs = .notOccupied := by
  have read : clusterOf (responsiveRead u) (aaCluster u) = readCir (clusterOf u (aaCluster u)) (thisDcp u) :=
    clusterOf_setCluster_self u _ _
  rw [read, readCir_cir]

end ResponsiveRead

/-! ### AWRR -/

section Interrogate
variable {s : State} {a : BitVec 2} {b c : Byte}

theorem untouched_trans {t u : State} (h : Untouched s t) (g : Untouched t u) : Untouched s u :=
  ⟨fun p hp hn => (g.places p hp hn).trans (h.places p hp hn), g.cf.trans h.cf, g.ia.trans h.ia, g.p.trans h.p, g.ex.trans h.ex,
    g.run.trans h.run⟩

theorem untouched_scanOne (u : State) (k : BitVec 4) : Untouched u (scanOne u k) :=
  ⟨fun p _ _ => value_congr p rfl rfl rfl rfl rfl rfl rfl rfl rfl rfl rfl rfl rfl rfl, rfl, rfl, rfl, rfl, rfl⟩

/-- AWRR behind the accepted write: AC and AI are cleared (R203). -/
def awaitsAnswer (s : State) (a : BitVec 2) (b c : Byte) : State :=
  { deliverWrite (loadLiterals s a b c) with ac := 0, ai := 0 }

/-- The cluster has scanned, and so taken the code. -/
def codeTaken (s : State) (a : BitVec 2) (b c : Byte) : State := scanOne (awaitsAnswer s a b c) (aaCluster s)

/-- Bit 4 of the code, which tells the interrogate codes from the write codes. -/
theorem code_bit4 (v : Byte) : (v.extractLsb' 0 5).getLsbD 4 = v.getLsbD 4 := by simp

theorem answers_code (k : Cluster) (v : Byte) : answers k (v.extractLsb' 0 5) = (v.getLsbD 4 || returnsWrites k) := by
  rw [answers, code_bit4]

theorem clusterOf_codeTaken : clusterOf (codeTaken s a b c) (aaCluster s) =
    scanCluster (acceptWrite (clusterOf s (aaCluster s)) (thisDcp s) false (aaAdapter s)
      ((if a.getLsbD 1 then b else s.ac).extractLsb' 0 5) (BitVec.ofBool (s.cf.getLsbD 5) ++ if a.getLsbD 0 then c else s.ai))
      s.free := by
  rw [← clusterOf_deliverWrite_literals]
  exact clusterOf_scanOne (awaitsAnswer s a b c) (aaCluster s)

theorem clusterOf_codeTaken_ne {j : BitVec 4} (h : j ≠ aaCluster s) : clusterOf (codeTaken s a b c) j = clusterOf s j :=
  (clusterOf_scanOne_ne (awaitsAnswer s a b c) h).trans (clusterOf_deliverWrite_ne (loadLiterals s a b c) h)

/-! The three ends of an accepted AWRR. -/

theorem exec_awrr_answered (takes : takesWrite s (aaCluster s))
    (interrogates : (if a.getLsbD 1 then b else s.ac).getLsbD 4 = true) (released : s.env.exchangeFails.headD false = false) :
    exec (.awrr a b c) s = .next (release (responsiveRead (codeTaken s a b c))) := by
  have answered : answers (clusterOf s (aaCluster s)) ((if a.getLsbD 1 then b else s.ac).extractLsb' 0 5) = true := by
    rw [answers_code, interrogates, Bool.true_or]
  rw [exec_awrr_accepted takes]
  exact congrArg Host.Outcome.next ((if_pos answered).trans (if_neg (Bool.eq_false_iff.1 released)))

theorem exec_awrr_notReleased (takes : takesWrite s (aaCluster s))
    (interrogates : (if a.getLsbD 1 then b else s.ac).getLsbD 4 = true) (fails : s.env.exchangeFails.headD false = true) :
    exec (.awrr a b c) s = .next (raiseFault (atClusterError s (readFailed (awaitsAnswer s a b c))) .clusterError) := by
  have answered : answers (clusterOf s (aaCluster s)) ((if a.getLsbD 1 then b else s.ac).extractLsb' 0 5) = true := by
    rw [answers_code, interrogates, Bool.true_or]
  rw [exec_awrr_accepted takes]
  exact congrArg Host.Outcome.next ((if_pos answered).trans (if_pos fails))

theorem exec_awrr_unanswered (takes : takesWrite s (aaCluster s)) (writes : (if a.getLsbD 1 then b else s.ac).getLsbD 4 = false)
    (keeps : returnsWrites (clusterOf s (aaCluster s)) = false) :
    exec (.awrr a b c) s = .next (raiseFault (atClusterError s (codeTaken s a b c)) .clusterError) := by
  have unanswered : answers (clusterOf s (aaCluster s)) ((if a.getLsbD 1 then b else s.ac).extractLsb' 0 5) = false := by
    rw [answers_code, writes, keeps, Bool.or_false]
  rw [exec_awrr_accepted takes]
  exact congrArg Host.Outcome.next (if_neg (Bool.eq_false_iff.1 unanswered))

/-! The frames of the three ends. -/

theorem placesKept_awaitsAnswer : PlacesKept s (awaitsAnswer s a b c) (among [.ac, .ai]) := by
  intro p _ h
  cases p with
  | ac | ai => contradiction
  | _ => rfl

theorem placesKept_responsiveRead {u : State} (h : PlacesKept s u (among [.ac, .ai])) :
    PlacesKept s (responsiveRead u) (among [.ac, .ai]) := by
  intro p control other
  cases p with
  | cf | ac | ai => contradiction
  | _ => exact h _ control other

theorem placesKept_read : PlacesKept s (responsiveRead (codeTaken s a b c)) (among [.ac, .ai]) :=
  placesKept_responsiveRead fun p control other =>
    ((untouched_scanOne (awaitsAnswer s a b c) _).places p control rfl).trans (placesKept_awaitsAnswer p control other)

theorem restKept_awaitsAnswer : RestKept s { awaitsAnswer s a b c with clusters := s.clusters } :=
  ⟨rfl, rfl, rfl, rfl, rfl, rfl, rfl, rfl, rfl, rfl, rfl, rfl, rfl, rfl, rfl, rfl, rfl, rfl, memoryKept_of rfl rfl⟩

theorem restKept_scanOne {u : State} (h : RestKept s { u with clusters := s.clusters }) (k : BitVec 4) :
    RestKept s { scanOne u k with clusters := s.clusters } :=
  restKept_trans h
    ⟨rfl, rfl, rfl, rfl, rfl, rfl, rfl, rfl, rfl, rfl, rfl, rfl, rfl, rfl, rfl, rfl, rfl, rfl, memoryKept_of rfl rfl⟩

/-- A read exchange behind a write: beside the clusters only the environment's report of it changes (R360, R403). -/
theorem restKept_readExchange {u t : State} (h : RestKept s { u with clusters := s.clusters })
    (g : RestKept u { t with clusters := u.clusters, env := u.env }) :
    RestKept s { t with clusters := s.clusters, env := s.env } :=
  ⟨g.cfg.trans h.cfg, g.cm.trans h.cm, g.ba.trans h.ba, g.flt.trans h.flt, g.bstm.trans h.bstm, g.seq.trans h.seq,
    g.pypc.trans h.pypc, g.pywc.trans h.pywc, g.scm.trans h.scm, g.pending.trans h.pending,
    g.adapterWrite.trans h.adapterWrite, g.scanCounter.trans h.scanCounter, g.canTimer.trans h.canTimer,
    g.sanTimer.trans h.sanTimer, g.stored.trans h.stored, g.haltFault.trans h.haltFault, rfl, rfl,
    fun x => (g.memory.lm x).trans (h.memory.lm x), fun x => (g.memory.mm x).trans (h.memory.mm x)⟩

theorem restKept_responsiveRead (u : State) : RestKept u { responsiveRead u with clusters := u.clusters, env := u.env } :=
  ⟨rfl, rfl, rfl, rfl, rfl, rfl, rfl, rfl, rfl, rfl, rfl, rfl, rfl, rfl, rfl, rfl, rfl, rfl, memoryKept_of rfl rfl⟩

theorem restKept_notReleased (u : State) :
    RestKept u { atClusterError s (readFailed u) with clusters := u.clusters, env := u.env } :=
  ⟨rfl, rfl, rfl, rfl, rfl, rfl, rfl, rfl, rfl, rfl, rfl, rfl, rfl, rfl, rfl, rfl, rfl, rfl, memoryKept_of rfl rfl⟩

theorem restKept_unanswered {u : State} (h : RestKept s { u with clusters := s.clusters }) :
    RestKept s { atClusterError s u with clusters := s.clusters } :=
  restKept_trans h
    ⟨rfl, rfl, rfl, rfl, rfl, rfl, rfl, rfl, rfl, rfl, rfl, rfl, rfl, rfl, rfl, rfl, rfl, rfl, memoryKept_of rfl rfl⟩

theorem untouched_awaitsAnswer : Untouched s { awaitsAnswer s a b c with ac := s.ac, ai := s.ai } :=
  ⟨fun p _ _ => value_congr p rfl rfl rfl rfl rfl rfl rfl rfl rfl rfl rfl rfl rfl rfl, rfl, rfl, rfl, rfl, rfl⟩

theorem untouched_readFailed (u : State) : Untouched u (readFailed u) :=
  ⟨fun p _ _ => value_congr p rfl rfl rfl rfl rfl rfl rfl rfl rfl rfl rfl rfl rfl rfl, rfl, rfl, rfl, rfl, rfl⟩

/-- What AC and AI are at the adapter cluster error is said apart. -/
theorem untouched_atClusterError {u v : State} (h : Untouched s { u with ac := s.ac, ai := s.ai })
    (g : Untouched { u with ac := s.ac, ai := s.ai } { v with ac := s.ac, ai := s.ai }) :
    Untouched s { atClusterError s v with ac := s.ac, ai := s.ai } :=
  untouched_trans h g

theorem untouched_notReleased :
    Untouched s { atClusterError s (readFailed (awaitsAnswer s a b c)) with ac := s.ac, ai := s.ai } :=
  untouched_atClusterError untouched_awaitsAnswer (untouched_readFailed { awaitsAnswer s a b c with ac := s.ac, ai := s.ai })

theorem untouched_unanswered : Untouched s { atClusterError s (codeTaken s a b c) with ac := s.ac, ai := s.ai } :=
  untouched_atClusterError untouched_awaitsAnswer
    (untouched_scanOne { awaitsAnswer s a b c with ac := s.ac, ai := s.ai } (aaCluster s))

end Interrogate

/-- Settles O24: the scan takes the code; it answers an interrogate, and the read brings that unless the exchange fails; it answers no
write. -/
theorem adapterInterrogated : Obligations.AdapterInterrogated := by
  rintro a b c ac ai k ad s rfl rfl rfl rfl takes
  refine ⟨fun interrogates released => ?_, fun interrogates fails => ?_, fun writes keeps => ?_⟩
  · obtain ⟨⟨code, info⟩, may, cir⟩ := scanCluster_interrogated (u := thisDcp s) (ad := aaAdapter s)
      (dc := BitVec.ofBool (s.cf.getLsbD 5) ++ if a.getLsbD 0 then c else s.ai) s.free (clusterOf s (aaCluster s))
      ((code_bit4 _).trans interrogates)
    have answered := (congrArg Cluster.cir (clusterOf_codeTaken (s := s) (a := a) (b := b) (c := c))).trans cir
    have codeInterrogates := code_of_mayAnswer ((code_bit4 _).trans interrogates) may
    obtain ⟨entry, noEntry⟩ := may
    have passed := passedOver_release (s := s) (u := responsiveRead (codeTaken s a b c)) (among [.ac, .ai])
      rfl rfl rfl rfl rfl rfl placesKept_read
    rw [responsiveRead_cf answered] at passed
    exact ⟨_, code, info, exec_awrr_answered takes interrogates released, entry, noEntry, passed, responsiveRead_ac answered,
      responsiveRead_ai answered, responsiveRead_cs, responsiveRead_confirm answered codeInterrogates,
      fun j other => (clusterOf_setCluster_ne (codeTaken s a b c) _ j _ other).trans (clusterOf_codeTaken_ne other), rfl,
      restKept_trans (restKept_readExchange (restKept_scanOne restKept_awaitsAnswer _) (restKept_responsiveRead _))
        (restKept_release { responsiveRead (codeTaken s a b c) with clusters := s.clusters, env := s.env })⟩
  · exact ⟨_, exec_awrr_notReleased takes interrogates fails, rfl, rfl, untouched_notReleased,
      fun j other => clusterOf_deliverWrite_ne (loadLiterals s a b c) other, rfl,
      restKept_readExchange restKept_awaitsAnswer (restKept_notReleased _)⟩
  · have codeWrites := (code_bit4 _).trans writes
    have cluster := clusterOf_codeTaken (s := s) (a := a) (b := b) (c := c)
    refine ⟨_, exec_awrr_unanswered takes writes keeps, rfl, rfl, untouched_unanswered, ?_, fun writable notMr v h => ?_,
      fun j other => clusterOf_codeTaken_ne other,
      restKept_unanswered (restKept_scanOne restKept_awaitsAnswer _)⟩
    · exact fun held => scanCluster_written_cs s.free _ codeWrites keeps ((congrArg (·.cir.cs) cluster).symm.trans held)
    · exact (congrArg (adapterOf · (aaAdapter s)) cluster).trans
        (adapterOf_scanCluster_written s.free codeWrites writable notMr h)

end Sys2Proof.Machine
end

section
/-! PROOF. The branches of group 1: the decrement of Y, BRAN, and the conditions of GOTO, GOX and GOI with the flags of a
subtraction. -/

namespace Sys2Proof.Machine

section Branches
variable {s : State} {i : Instr} {b c : Byte}

/-! ### The two ends of an instruction that changes nothing itself -/

/-- The program goes on in sequence (R177). -/
theorem passedOver_of_exec (ends : exec i s = .next (release s)) :
    ∃ t, exec i s = .next t ∧ PassedOver s t nowhere s.cf ∧ RestKept s t :=
  ⟨_, ends, passedOver_release nowhere rfl rfl rfl rfl rfl rfl fun _ _ _ => rfl, restKept_release s⟩

/-- A branch is taken (R178). -/
theorem branched_of_exec {target : InstrAddr} (ends : exec i s = .next (branchTo s target)) :
    ∃ t, exec i s = .next t ∧ Branched s t nowhere s.cf target ∧ RestKept s { t with bstm := s.bstm, seq := s.seq } :=
  ⟨_, ends, branched_branchTo nowhere target rfl rfl rfl fun _ _ _ => rfl, restKept_branchTo s target⟩

/-! ### DBYZ and DBYN -/

theorem decode_dbyz (b c : Byte) : decode (0x22#8 ++ b ++ c) = .dbyz b c := decode_fields 4 2 b c

theorem decode_dbyn (b c : Byte) : decode (0x23#8 ++ b ++ c) = .dbyn b c := decode_fields 4 3 b c

/-- Y counted down, before the end of the instruction (R223). -/
def countedDown (s : State) : State := { s with y := s.y - 1 }

theorem y_countedDown (h : s.y ≠ 0) : (countedDown s).y.toNat + 1 = s.y.toNat := by
  have positive : s.y.toNat ≠ 0 := fun e => h (BitVec.eq_of_toNat_eq e)
  have less : (countedDown s).y.toNat = s.y.toNat - 1 :=
    BitVec.toNat_sub_of_le (BitVec.le_def.2 (Nat.one_le_iff_ne_zero.2 positive))
  omega

theorem placesKept_countedDown : PlacesKept s (countedDown s) (among [.y]) := by
  intro p _ other
  cases p with
  | y => contradiction
  | _ => rfl

theorem restKept_countedDown : RestKept s (countedDown s) :=
  ⟨rfl, rfl, rfl, rfl, rfl, rfl, rfl, rfl, rfl, rfl, rfl, rfl, rfl, rfl, rfl, rfl, rfl, rfl, memoryKept_of rfl rfl⟩

theorem exec_dbyz_zero (h : s.y = 0) : exec (.dbyz b c) s = .next (branchTo s (b ++ c)) := if_pos h

theorem exec_dbyz_counts (h : s.y ≠ 0) : exec (.dbyz b c) s = .next (release (countedDown s)) := if_neg h

theorem exec_dbyn_zero (h : s.y = 0) : exec (.dbyn b c) s = .next (release s) := if_pos h

theorem exec_dbyn_counts (h : s.y ≠ 0) : exec (.dbyn b c) s = .next (branchTo (countedDown s) (b ++ c)) := if_neg h

/-! ### SAN cleared by a branch, and BRAN -/

/-- SAN off, before the branch that clears it (R221, R226). -/
def attentionCleared (s : State) : State := { s with cf := setBit s.cf 7 false }

theorem attentionCleared_of_off (off : s.cf.getLsbD 7 = false) : attentionCleared s = s := by
  have same : setBit s.cf 7 false = s.cf := by
    apply BitVec.eq_of_getLsbD_eq
    intro k _
    rw [getLsbD_setBit]
    split
    next at7 => rw [at7.1, off]
    next => rfl
  rw [attentionCleared, same]

theorem placesKept_attentionCleared : PlacesKept s (attentionCleared s) nowhere := by
  intro p control _
  cases p with
  | cf => contradiction
  | _ => rfl

theorem restKept_attentionCleared : RestKept s (attentionCleared s) :=
  ⟨rfl, rfl, rfl, rfl, rfl, rfl, rfl, rfl, rfl, rfl, rfl, rfl, rfl, rfl, rfl, rfl, rfl, rfl, memoryKept_of rfl rfl⟩

/-- A branch on SAN, which clears it (R221, R226). -/
theorem branched_of_attention {target : InstrAddr} (ends : exec i s = .next (branchTo (attentionCleared s) target)) :
    ∃ t, exec i s = .next t ∧ Branched s t nowhere (withI23 s.cf false) target ∧
      RestKept s { t with bstm := s.bstm, seq := s.seq } := by
  refine ⟨_, ends, ?_, restKept_trans restKept_attentionCleared (restKept_branchTo _ _)⟩
  rw [← setBit7_eq]
  exact branched_branchTo (u := attentionCleared s) nowhere target rfl rfl rfl placesKept_attentionCleared

theorem decode_bran (b c : Byte) : decode (0x24#8 ++ b ++ c) = .bran b c := decode_fields 4 4 b c

theorem exec_bran_branches (met : branCondition s = true) :
    exec (.bran b c) s = .next (branchTo (attentionCleared s) (b ++ c)) := if_pos met

/-- BRAN finds neither SAN nor a cluster that it looks at (R226, R385). -/
theorem exec_bran_passes (off : s.cf.getLsbD 7 = false) (noCan : s.cfg.branTestsCan = false ∨ ∀ k, ¬ calls s k) :
    exec (.bran b c) s = .next (release s) := by
  refine if_neg fun met => ?_
  obtain san | ⟨tests, k, called⟩ := (branCondition_iff s).1 met
  · exact nomatch san.symm.trans off
  · obtain ignores | none := noCan
    · exact nomatch tests.symm.trans ignores
    · exact none k called

/-! ### The conditions -/

/-- The six conditions that look at CF, by the relations CF0 and CF1 show (R227). -/
theorem condition_of_flags {below equal : Prop} [Decidable below] [Decidable equal] (carry : cf0 s = decide below)
    (zero : cf1 s = decide equal) :
    (condition s 1 = true ↔ ¬ equal ∧ ¬ below) ∧ (condition s 2 = true ↔ below) ∧ (condition s 3 = true ↔ ¬ equal) ∧
      (condition s 4 = true ↔ equal) ∧ (condition s 5 = true ↔ ¬ below) ∧ (condition s 6 = true ↔ equal ∨ below) := by
  simp [condition, carry, zero]

theorem subCarry_eq (m v : Byte) : ByteOp.sub.carry m v false = decide (m.toNat < v.toNat) :=
  (congrArg ByteResult.carry (byteSub_op m v false)).symm

theorem subZero_eq (m v : Byte) : ByteOp.sub.zero m v false = decide (m.toNat = v.toNat) := by
  have difference : ByteOp.sub.zero m v false = decide (m - v - 0#8 = 0) :=
    (congrArg ByteResult.zero (byteSub_op m v false)).symm
  rw [difference, BitVec.sub_zero, decide_eq_decide, sub_eq_zero, BitVec.toNat_inj]

/-- GOTO, GOX and GOI whose condition does not hold (R227); GOI then looks at no address (R230). -/
theorem exec_conditional_passes {a : BitVec 3} (hi : i ∈ [Instr.goto a b c, .gox a b c, .goi a b c])
    (unmet : condition s a = false) : exec i s = .next (release s) := by
  fin_cases hi <;> exact if_neg (Bool.eq_false_iff.1 unmet)

theorem exec_goto_branches {a : BitVec 3} (met : condition s a = true) :
    exec (.goto a b c) s = .next (branchTo s (b ++ c)) := if_pos met

/-- The sum of a branch address and a displacement by numbers (D24). -/
theorem add_displacement (v : InstrAddr) (x : Byte) : v + x.setWidth 16 = BitVec.ofNat 16 (v.toNat + x.toNat) := by
  rw [BitVec.ofNat_add, BitVec.ofNat_toNat, BitVec.setWidth_eq, BitVec.ofNat_toNat]

theorem exec_gox_branches {a : BitVec 3} (met : condition s a = true) :
    exec (.gox a b c) s = .next (branchTo s (BitVec.ofNat 16 ((b ++ c).toNat + s.x.toNat))) := by
  rw [← add_displacement]
  exact if_pos met

theorem exec_goi_branches {a : BitVec 3} {l : ByteLoc} (met : condition s a = true) (named : byteLoc s.y = .ok l) :
    exec (.goi a b c) s = .next (branchTo s (BitVec.ofNat 16 ((b ++ c).toNat + (readByte s l).toNat))) := by
  rw [← add_displacement, exec, execGoi, if_pos met, withByte_of_ok named]
  rfl

end Branches

/-- Settles O32: Y zero, where nothing is counted, and Y counted down. -/
theorem decrementAndBranch : Obligations.DecrementAndBranch := fun b c s =>
  ⟨decode_dbyz b c, decode_dbyn b c,
    fun zero => ⟨branched_of_exec (exec_dbyz_zero zero), passedOver_of_exec (exec_dbyn_zero zero)⟩,
    fun notZero => ⟨
      ⟨_, exec_dbyz_counts notZero,
        passedOver_release (u := countedDown s) _ rfl rfl rfl rfl rfl rfl placesKept_countedDown, y_countedDown notZero,
        restKept_trans restKept_countedDown (restKept_release _)⟩,
      ⟨_, exec_dbyn_counts notZero,
        branched_branchTo (u := countedDown s) _ _ rfl rfl rfl placesKept_countedDown, y_countedDown notZero,
        restKept_trans restKept_countedDown (restKept_branchTo _ _)⟩⟩⟩

/-- Settles O33: where SAN is off already, clearing it changes nothing, and a branch reads no cluster. -/
theorem branOnAttention : Obligations.BranOnAttention := by
  intro b c s
  refine ⟨decode_bran b c, fun san => ?_, fun off noCan => passedOver_of_exec (exec_bran_passes off noCan),
    fun off tests called => ?_⟩
  · exact branched_of_attention (exec_bran_branches ((branCondition_iff s).2 (.inl san)))
  · have ends : exec (.bran b c) s = .next (branchTo s (b ++ c)) := by
      rw [exec_bran_branches ((branCondition_iff s).2 (.inr ⟨tests, called⟩)), attentionCleared_of_off off]
    exact ⟨_, ends, branched_branchTo nowhere _ rfl rfl rfl fun _ _ _ => rfl, fun _ h => h, restKept_branchTo s _⟩

/-- Settles O34: the ends of the three instructions, and the flags of a subtraction as comparisons. -/
theorem conditionalBranches : Obligations.ConditionalBranches := by
  refine fun a b c s => ⟨fun unmet i hi => passedOver_of_exec (exec_conditional_passes hi unmet), fun met => ?_,
    fun m v carry zero => ?_⟩
  · exact ⟨branched_of_exec (exec_goto_branches met), branched_of_exec (exec_gox_branches met),
      fun l named => branched_of_exec (exec_goi_branches met named)⟩
  · have below : cf0 s = decide (m.toNat < v.toNat) := carry.trans (subCarry_eq m v)
    have equal : cf1 s = decide (m.toNat = v.toNat) := zero.trans (subZero_eq m v)
    have same : m.toNat = v.toNat ↔ m = v := BitVec.toNat_inj
    obtain ⟨greater, less, notEqual, isEqual, notLess, notGreater⟩ := condition_of_flags below equal
    exact ⟨rfl, greater.trans (by omega), less, notEqual.trans (not_congr same), isEqual.trans same, notLess.trans (by omega),
      notGreater.trans (by omega), rfl⟩

end Sys2Proof.Machine
end

section
/-! PROOF. ARWN and ARIN: the cluster that is found, the exchange with it, and what both do where no cluster calls. -/

namespace Sys2Proof.Machine

section AdapterRead
variable {s : State} {i : Instr} {k : BitVec 4} {b c : Byte}

/-! ### The cluster that is found -/

theorem waiting_nodup (s : State) : (waiting s).Nodup := List.Nodup.filter _ (by decide)

theorem pickCluster_of_alone (called : calls s k) (alone : ∀ j, calls s j → j = k) : pickCluster s = some k := by
  have members : ∀ j, j ∈ waiting s ↔ j ∈ [k] := fun j => by
    rw [mem_waiting, List.mem_singleton]
    exact ⟨alone j, fun same => same ▸ called⟩
  have only : waiting s = [k] :=
    List.perm_singleton.1 ((List.perm_ext_iff_of_nodup (waiting_nodup s) (List.nodup_singleton k)).2 members)
  rw [pickCluster, only]

theorem pickCluster_of_none (quiet : ∀ j, ¬ calls s j) : pickCluster s = none := by
  have empty : waiting s = [] := List.eq_nil_iff_forall_not_mem.2 fun j h => quiet j ((mem_waiting s j).1 h)
  rw [pickCluster, empty]

/-! ### The ends of ARWN and ARIN -/

theorem exec_adapterRead_held (hi : i ∈ [Instr.arwn b c, .arin b c]) (picked : pickCluster s = some k)
    (serves : servesOther s k) : exec i s = .next (waitForRead s) := by
  have held := (heldFor_iff s k).2 serves
  fin_cases hi
  · simp only [exec, execArwn, picked, if_pos held]
  · simp only [exec, execArin, picked, if_pos held]

theorem exec_adapterRead_fails (hi : i ∈ [Instr.arwn b c, .arin b c]) (picked : pickCluster s = some k)
    (free : ¬ servesOther s k) (fails : readFails s = true) :
    exec i s = .next (raiseFault (readFailed s) .clusterError) := by
  have notHeld := mt (heldFor_iff s k).1 free
  fin_cases hi
  · simp only [exec, execArwn, picked, if_neg notHeld, if_pos fails]
  · simp only [exec, execArin, picked, if_neg notHeld, if_pos fails]

theorem exec_arwn_read (picked : pickCluster s = some k) (free : ¬ servesOther s k) (released : readFails s = false) :
    exec (.arwn b c) s = .next (release (adapterRead s k)) := by
  simp only [exec, execArwn, picked, if_neg (mt (heldFor_iff s k).1 free), if_neg (Bool.eq_false_iff.1 released)]

theorem exec_arin_read (picked : pickCluster s = some k) (free : ¬ servesOther s k) (released : readFails s = false) :
    exec (.arin b c) s = .next (branchTo (adapterRead s k) (b ++ c)) := by
  simp only [exec, execArin, picked, if_neg (mt (heldFor_iff s k).1 free), if_neg (Bool.eq_false_iff.1 released)]
  rfl

theorem exec_arwn_attention (picked : pickCluster s = none) (san : i23 s = true) :
    exec (.arwn b c) s = .next (branchTo (attentionCleared s) (b ++ c)) := by
  simp only [exec, execArwn, picked, if_pos san]
  rfl

theorem exec_arwn_held (picked : pickCluster s = none) (off : i23 s = false) :
    exec (.arwn b c) s = .next { s with clusterWait := true } := by
  simp only [exec, execArwn, picked, if_neg (Bool.eq_false_iff.1 off)]

theorem exec_arin_quiet (picked : pickCluster s = none) : exec (.arin b c) s = .next (release { s with canTimer := 0 }) := by
  simp only [exec, execArin, picked]

/-! ### The exchange -/

/-- What a read exchange with cluster k leaves in the registers, in the cluster and in the environment (R221, R403, R405). -/
structure ClusterRead (s t : State) (k : BitVec 4) : Prop where
  aa : t.aa = k ++ (clusterOf s k).cir.ad
  ac : t.ac = (clusterOf s k).cir.cc.setWidth 8
  ai : t.ai = (clusterOf s k).cir.dc.extractLsb' 0 8
  canTimer : t.canTimer = 0
  scanCounter : t.scanCounter = k.extractLsb' 0 2
  cs : (clusterOf t k).cir.cs = .notOccupied
  confirm : (clusterOf t k).confirm =
    { ad := (clusterOf s k).cir.ad, occupied := true, timer := decide ((clusterOf s k).cir.cc = 0b01011) }
  others : ∀ j, j ≠ k → clusterOf t j = clusterOf s j
  env : t.env = exchanged s

theorem clusterOf_adapterRead (s : State) (k : BitVec 4) :
    clusterOf (adapterRead s k) k = readCir (clusterOf s k) (thisDcp s) := clusterOf_setCluster_self s k _

theorem clusterRead_adapterRead (s : State) (k : BitVec 4) : ClusterRead s (adapterRead s k) k where
  aa := rfl
  ac := append_zero_high _
  ai := rfl
  canTimer := rfl
  scanCounter := rfl
  cs := by rw [clusterOf_adapterRead, readCir_cir]
  confirm := by rw [clusterOf_adapterRead, readCir_confirm]
  others := fun j other => clusterOf_setCluster_ne s k j _ other
  env := rfl

/-- I21 receives the high information bit (R34, R221). -/
theorem adapterRead_cf (s : State) (k : BitVec 4) :
    (adapterRead s k).cf = withI21 s.cf ((clusterOf s k).cir.dc.getLsbD 8) := setBit5_eq _ _

theorem placesKept_adapterRead : PlacesKept s (adapterRead s k) (among [.aa, .ac, .ai]) := by
  intro p control other
  cases p with
  | cf | aa | ac | ai => contradiction
  | _ => rfl

theorem restKept_adapterRead : RestKept s { adapterRead s k with
    clusters := s.clusters, canTimer := s.canTimer, scanCounter := s.scanCounter, env := s.env } :=
  ⟨rfl, rfl, rfl, rfl, rfl, rfl, rfl, rfl, rfl, rfl, rfl, rfl, rfl, rfl, rfl, rfl, rfl, rfl, memoryKept_of rfl rfl⟩

/-! ### The wait for a cluster, and an exchange that fails -/

theorem untouched_waitForRead (s : State) : Untouched s (waitForRead s) :=
  ⟨fun p _ _ => value_congr p rfl rfl rfl rfl rfl rfl rfl rfl rfl rfl rfl rfl rfl rfl, rfl, rfl, rfl, rfl, rfl⟩

theorem restKept_waitForRead (s : State) : RestKept s (waitForRead s) :=
  ⟨rfl, rfl, rfl, rfl, rfl, rfl, rfl, rfl, rfl, rfl, rfl, rfl, rfl, rfl, rfl, rfl, rfl, rfl, memoryKept_of rfl rfl⟩

theorem restKept_readFailed (s : State) : RestKept s { readFailed s with env := s.env } :=
  ⟨rfl, rfl, rfl, rfl, rfl, rfl, rfl, rfl, rfl, rfl, rfl, rfl, rfl, rfl, rfl, rfl, rfl, rfl, memoryKept_of rfl rfl⟩

end AdapterRead

/-- Settles O30: the one calling cluster is the one found; it serves another unit, keeps its information, or is read. -/
theorem adapterReadTaken : Obligations.AdapterReadTaken := by
  intro b c k s called alone
  have picked := pickCluster_of_alone called alone
  refine ⟨fun serves => ?_, fun free fails => ?_, fun free released => ?_, fun free released => ?_⟩
  · exact ⟨_, untouched_waitForRead s, restKept_waitForRead s, fun i hi => exec_adapterRead_held hi picked serves⟩
  · exact ⟨_, untouched_readFailed s, rfl, restKept_readFailed s, fun i hi => exec_adapterRead_fails hi picked free fails⟩
  · obtain ⟨aa, ac, ai, canTimer, scanCounter, cs, confirm, others, env⟩ := clusterRead_adapterRead s k
    have passed := passedOver_release (s := s) (u := adapterRead s k) _ rfl rfl rfl rfl rfl rfl placesKept_adapterRead
    rw [adapterRead_cf] at passed
    exact ⟨_, exec_arwn_read picked free released, passed, aa, ac, ai, canTimer, scanCounter, cs, confirm, others, env,
      restKept_trans restKept_adapterRead (restKept_release _)⟩
  · obtain ⟨aa, ac, ai, canTimer, scanCounter, cs, confirm, others, env⟩ := clusterRead_adapterRead s k
    have branched := branched_branchTo (s := s) (u := adapterRead s k) _ (b ++ c) rfl rfl rfl placesKept_adapterRead
    rw [adapterRead_cf] at branched
    exact ⟨_, exec_arin_read picked free released, branched, aa, ac, ai, canTimer, scanCounter, cs, confirm, others, env,
      restKept_trans restKept_adapterRead (restKept_branchTo _ _)⟩

/-- Settles O31: no cluster is found, so ARWN looks at SAN and ARIN goes on. -/
theorem adapterReadNotNeeded : Obligations.AdapterReadNotNeeded := by
  intro b c s quiet
  have picked := pickCluster_of_none quiet
  refine ⟨fun san => branched_of_attention (exec_arwn_attention picked san), exec_arwn_held picked,
    _, exec_arin_quiet picked, ?_, rfl, restKept_release s⟩
  exact passedOver_release (u := { s with canTimer := 0 }) nowhere rfl rfl rfl rfl rfl rfl fun _ _ _ => rfl

end Sys2Proof.Machine
end

section
/-! PROOF. Group 2 beside MOVE and the writes of local memory: LMRI and LMRD of a word of odd parity, the two transfers of SMRD
and of SMWD by places, and the main memory instructions as the half-word move with the request behind it. -/

namespace Sys2Proof.Machine

/-! ### Local memory reads -/

section LocalReads
variable {s t : State} {a : BitVec 14} {fetch : Bool}

/-- A word of odd parity is in W and the instruction ends (R90, R243). -/
theorem lmRead_of_oddParity (h : lmExists s a = true) (parity : oddParity (memRead t.lm a.toNat) = true) :
    lmRead s fetch t a = finish fetch (lmDone (lmLoad t a)) := by
  simp [lmRead, h, afterLmRead, parity]

/-- The end of the read cycle is no change of a place. -/
theorem value_lmDone (p : Place) : p.value (lmDone s) = p.value s :=
  value_congr p rfl rfl rfl rfl rfl rfl rfl rfl rfl rfl rfl rfl rfl rfl

end LocalReads

/-- Settles O36: both instructions are the read cycle at the address, LMRI after the half-word move. -/
theorem localMemoryReads : Obligations.LocalMemoryReads := by
  intro b c s
  constructor
  · intro src dst a hsrc hdst addr h parity
    rw [exec_lmri hsrc hdst, ← addr, lmRead_of_oddParity (s := noteIndirect s b) h (by simpa using parity)]
    refine ⟨_, rfl, by simp, ?_, ?_, by simp, by simp, ?_⟩
    · rw [addr]
      simp [maLocal, ma]
    · exact moved_finish (u := lmDone (lmLoad (moveHalves s b src dst) a)) Place.isW
        (fun p hp => (value_lmDone p).trans (value_lmLoad p hp)) isW_but rfl (by simp) (by simp) (by simp)
    · constructor <;> simp [memoryKept_of]
  · rintro a rfl h parity
    rw [exec_lmrd, lmRead_of_oddParity h parity]
    refine ⟨_, rfl, rfl, ?_, rfl, rfl, ?_⟩
    · exact passedOver_release (u := lmDone (lmLoad s (b.extractLsb' 0 6 ++ c))) Place.isW rfl rfl rfl rfl rfl rfl
        fun p _ hp => (value_lmDone p).trans (value_lmLoad p hp)
    · exact restKept_trans (restKept_lmLoad (t := s) (a := b.extractLsb' 0 6 ++ c)) (restKept_release _)

/-! ### The end of an instruction that has stored a half-word beside another transfer -/

/-- CF and IA hold what the store of the half-word left in them; the order of the program follows from that (R178 to R180). -/
theorem goesOn_of_control {s u : State} {b : Byte} {dst : HalfLoc} {h : Half} (hp : u.p = (noteIndirect s b).p)
    (rest : RestKept s u) (run : u.run = s.run)
    (control : ∀ p : Place, p.isControl = true → p.value u = halfStored dst h p (p.value s)) :
    CfIs (finish dst.ordersFetch u) (halfStored dst h .cf s.cf) ∧
      GoesOn s (finish dst.ordersFetch u) dst.namesIA (halfStored dst h .ia1 s.ia1 ++ halfStored dst h .ia0 s.ia0) := by
  have cf : u.cf = halfStored dst h .cf s.cf := control .cf rfl
  have target : ia u = halfStored dst h .ia1 s.ia1 ++ halfStored dst h .ia0 s.ia0 := by
    rw [ia_eq_places, control .ia1 rfl, control .ia0 rfl]
    rfl
  rw [← cf, ← target, half_namesIA]
  refine ⟨cfIs_finish _ u, goesOn_finish _ ?_ ?_ (by rw [rest.env]) rest.bstm run fun noFetch => ?_⟩
  · rw [hp, right_noteIndirect]
  · rw [hp, tag_noteIndirect]
  · obtain ⟨high, low⟩ : dst.covers .ia1 = false ∧ dst.covers .ia0 = false := by
      simpa [HalfLoc.namesIA] using (half_namesIA dst).trans noFetch
    rw [target]
    simp [halfStored, high, low, ia]

/-! ### SMRD -/

section ScratchpadRead
variable (s : State) (src dst : HalfLoc)

/-- SMRD where R508 raises no fault (R246). -/
theorem exec_smrd {s : State} {b c : Byte} {src dst : HalfLoc} (hsrc : halfLoc .g2 (bAddress s b) = .ok src)
    (hdst : halfLoc .g2 (cAddress s c) = .ok dst)
    (other : s.cfg.smrdSameWordFaults = false ∨ ∀ k r q, src = .smHalf k r → dst ≠ .smHalf k q) :
    exec (.smrd b c) s = .next (finish dst.ordersFetch (smrdEffect (noteIndirect s b) src dst)) := by
  have noFault : (sameSMWord src dst && s.cfg.smrdSameWordFaults) = false := by
    obtain off | apart := other
    · rw [off, Bool.and_false]
    · cases src with
      | regs c sel => rfl
      | smHalf k r =>
        cases dst with
        | regs c sel => rfl
        | smHalf j q =>
          have differ : k ≠ j := fun e => apart k r q rfl (by rw [e])
          simp [sameSMWord, differ]
  rw [exec, execSmrd, withHalf_of_ok hsrc, withHalf_of_ok hdst, noFault, if_neg Bool.false_ne_true]

theorem restKept_smrdEffect : RestKept s (smrdEffect s src dst) := by
  constructor <;> simp [memoryKept_of]

/-- W is loaded: of the places outside W the destination's alone change, and they receive MA (R246). -/
theorem value_smrdEffect (p : Place) (hp : p.isW = false) :
    p.value (smrdEffect s src dst) = halfStored dst (ma s) p (p.value s) := by
  have loaded (v : Word) : p.value { s with w := v } = p.value s :=
    value_congr_but_W p hp rfl rfl rfl rfl rfl rfl rfl rfl rfl rfl rfl rfl rfl
  cases dst with
  | smHalf k r => exact (value_writeHalf _ (.smHalf k r) _ p).trans (by rw [loaded])
  | regs c sel =>
    have outside : c = 5 ∨ c = 6 → HalfLoc.covers (.regs c sel) p = false := by
      rintro (rfl | rfl) <;> cases p <;> simp_all [HalfLoc.covers, selects, Place.cell, Place.isW]
    unfold smrdEffect
    dsimp only
    split
    next left => rw [loaded, halfStored, outside (.inl left), if_neg Bool.false_ne_true]
    next =>
      split
      next right => rw [loaded, halfStored, outside (.inr right), if_neg Bool.false_ne_true]
      next => exact (value_writeHalf _ (.regs c sel) _ p).trans (by rw [loaded])

/-- A register column beside W leaves W alone (R131). -/
theorem w_setRows_of_ne (c sel : BitVec 3) (h : Half) (left : c ≠ 5) (right : c ≠ 6) : (setRows s c sel h).w = s.w := by
  unfold setRows setColumn
  split
  case h_5 five => exact absurd (BitVec.eq_of_toNat_eq five) left
  case h_6 six => exact absurd (BitVec.eq_of_toNat_eq six) right
  all_goals rfl

/-- W is what is read, unless a half of it is the destination too, which receives MA as well (R246, D25). -/
theorem w_smrdEffect_cases :
    (∃ sel, dst = .regs 5 sel ∧ (smrdEffect s src dst).w =
      putLeft (smrdSource s src) (wordLeft (smrdSource s src) ||| selectRows sel (ma s) 0)) ∨
    (∃ sel, dst = .regs 6 sel ∧ (smrdEffect s src dst).w =
      putRight (smrdSource s src) (wordRight (smrdSource s src) ||| selectRows sel (ma s) 0)) ∨
    ((∀ n, dst.covers (.w n) = false) ∧ (smrdEffect s src dst).w = smrdSource s src) := by
  cases dst with
  | smHalf k r => exact .inr (.inr ⟨fun n => by simp [HalfLoc.covers], rfl⟩)
  | regs c sel =>
    by_cases left : c = 5
    · subst left
      exact .inl ⟨sel, rfl, rfl⟩
    · by_cases right : c = 6
      · subst right
        exact .inr (.inl ⟨sel, rfl, rfl⟩)
      · refine .inr (.inr ⟨fun n => ?_, ?_⟩)
        · simp only [HalfLoc.covers, selects, Place.cell]
          split
          · simp [show c ≠ 5#3 from left]
          · simp [show c ≠ 6#3 from right]
        · simp only [smrdEffect, left, right, if_false]
          exact w_setRows_of_ne _ c sel _ left right

theorem tag_smrdEffect : (smrdEffect s src dst).w.extractLsb' 48 4 = (smrdSource s src).extractLsb' 48 4 := by
  rw [extract_tag, extract_tag]
  obtain ⟨sel, -, w⟩ | ⟨sel, -, w⟩ | ⟨-, w⟩ := w_smrdEffect_cases s src dst
  · rw [w, wordTag_putLeft]
  · rw [w, wordTag_putRight]
  · rw [w]

theorem halfRow_or (h g : Half) (r : Nat) : halfRow (h ||| g) r = halfRow h r ||| halfRow g r :=
  BitVec.extractLsb'_or

/-- Each byte of W holds what is read, ORed with MA where the destination names the byte (R246, D25). -/
theorem value_byte_smrdEffect (n : Fin 6) : Place.value (smrdEffect s src dst) (.w n) =
    (smrdSource s src).extractLsb' (40 - 8 * n.val) 8 |||
      (if dst.covers (.w n) then halfRow (ma s) (2 - n.val % 3) else 0) := by
  have added (sel : BitVec 3) : halfRow (selectRows sel (ma s) 0#24) (2 - n.val % 3) =
      if sel.getLsbD (2 - n.val % 3) then halfRow (ma s) (2 - n.val % 3) else 0#8 := by
    rw [halfRow_selectRows _ _ _ (by omega)]
    simp [halfRow]
  rw [Place.value, extract_byte, extract_byte]
  obtain ⟨sel, rfl, w⟩ | ⟨sel, rfl, w⟩ | ⟨outside, w⟩ := w_smrdEffect_cases s src dst
  · rw [w, wordLeft_putLeft, wordRight_putLeft]
    by_cases inLeft : n.val < 3 <;> simp [inLeft, halfRow_or, added, HalfLoc.covers, selects, Place.cell]
  · rw [w, wordLeft_putRight, wordRight_putRight]
    by_cases inLeft : n.val < 3 <;> simp [inLeft, halfRow_or, added, HalfLoc.covers, selects, Place.cell]
  · simp [w, outside]

end ScratchpadRead

/-- Settles O39: W by its fields, the destination by places, and the end of the instruction. -/
theorem scratchpadRead : Obligations.ScratchpadRead := by
  intro b c src dst v s hsrc hdst other hv
  obtain rfl : v = smrdSource (noteIndirect s b) src := by cases src <;> exact hv
  have rest := restKept_trans (restKept_noteIndirect s b) (restKept_smrdEffect (noteIndirect s b) src dst)
  have stored (p : Place) (hw : p.isW = false) :
      p.value (smrdEffect (noteIndirect s b) src dst) = halfStored dst (ma s) p (p.value s) :=
    (value_smrdEffect _ src dst p hw).trans (by rw [value_noteIndirect]; rfl)
  obtain ⟨cf, next⟩ := goesOn_of_control (u := smrdEffect (noteIndirect s b) src dst) (dst := dst) (h := ma s)
    (smrdEffect_p _ _ _) rest (smrdEffect_run _ _ _) fun p control => stored p (isW_but p (.inl control))
  refine ⟨_, exec_smrd hsrc hdst other, ?_, fun n => ?_, fun p outside hw => ?_, cf, next,
    restKept_trans rest (restKept_finish _ _)⟩
  · rw [finish_w]
    exact tag_smrdEffect _ src dst
  · exact (value_finish _ _ _ rfl).trans (value_byte_smrdEffect _ src dst n)
  · exact (value_finish _ _ p outside).trans (stored p hw)

/-! ### SMWD -/

section ScratchpadWrite
variable {s : State} {b c : Byte} {src dst : HalfLoc}

/-- What SMWD does before it ends: MA loaded from the source, then the store (R252). -/
def smwdEffect (s : State) (b : Byte) (src dst : HalfLoc) : State :=
  smwdStore (setMA (noteIndirect s b) (readHalf s src)) dst s.w

theorem exec_smwd (hsrc : halfLoc .g2 (bAddress s b) = .ok src) (hdst : halfLoc .g2 (cAddress s c) = .ok dst) :
    exec (.smwd b c) s = .next (finish dst.ordersFetch (smwdEffect s b src dst)) := by
  rw [exec, execSmwd, withHalf_of_ok hsrc, withHalf_of_ok hdst, smwdEffect]

theorem restKept_smwdStore (t : State) (dst : HalfLoc) (v : Word) : RestKept t (smwdStore t dst v) := by
  constructor <;> simp [memoryKept_of]

/-- A place outside the scratchpad word that is stored is stored as by a half-word store of W-L; nothing is said of MA rows that are
named (U10). -/
theorem value_smwdStore (t : State) (dst : HalfLoc) (v : Word) (p : Place)
    (other : ∀ k r, dst = .smHalf k r → (∀ n, p ≠ .sm k n) ∧ p ≠ .smTag k) :
    (p.isMA = false → p.value (smwdStore t dst v) = halfStored dst (wordLeft v) p (p.value t)) ∧
      (dst.covers p = false → p.value (smwdStore t dst v) = p.value t) := by
  cases dst with
  | regs c sel => exact value_storeBesideMA t (.regs c sel) (wordLeft v) p
  | smHalf k r =>
    obtain ⟨noByte, noTag⟩ := other k r rfl
    have outside : HalfLoc.covers (.smHalf k r) p = false := by simp [HalfLoc.covers, noByte]
    have kept : p.value (smwdStore t (.smHalf k r) v) = p.value t := by
      rw [smwdStore, value_setSM]
      cases p with
      | sm j n => exact if_neg fun same => noByte n (by rw [same])
      | smTag j => exact if_neg fun same => noTag (by rw [same])
      | _ => rfl
    exact ⟨fun _ => kept.trans (by simp [halfStored, outside]), fun _ => kept⟩

/-- Control places and MA are no part of the scratchpad. -/
theorem not_sm_of_control_or_ma {p : Place} (hp : p.isControl = true ∨ p.isMA = true) (k : BitVec 3) :
    (∀ n, p ≠ .sm k n) ∧ p ≠ .smTag k := by
  cases p <;> simp_all [Place.isControl, Place.isMA]

theorem isMA_of_isControl {p : Place} (hp : p.isControl = true) : p.isMA = false := by
  cases p <;> simp_all [Place.isControl, Place.isMA]

theorem isControl_of_isMA {p : Place} (hp : p.isMA = true) : p.isControl = false := by
  cases p <;> simp_all [Place.isControl, Place.isMA]

theorem restKept_smwdEffect : RestKept s (smwdEffect s b src dst) :=
  restKept_trans (restKept_noteIndirect s b) (restKept_trans (restKept_setMA _ _) (restKept_smwdStore _ dst s.w))

theorem smWord_smwdEffect (k : BitVec 3) (r : Bool) : smWord (smwdEffect s b src (.smHalf k r)) k = s.w := by
  rw [smwdEffect, smwdStore, smWord_setSM, if_pos rfl]

/-- The destination of SMWD by places (R252). -/
theorem value_smwdEffect_of_stored (p : Place) (hm : p.isMA = false)
    (other : ∀ k r, dst = .smHalf k r → (∀ n, p ≠ .sm k n) ∧ p ≠ .smTag k) :
    p.value (smwdEffect s b src dst) = halfStored dst (wordLeft s.w) p (p.value s) := by
  rw [smwdEffect, (value_smwdStore _ dst s.w p other).1 hm, value_setMA, hm, if_neg Bool.false_ne_true, value_noteIndirect]

/-- An MA row that is no destination holds the row of the source (R252). -/
theorem value_smwdEffect_of_loaded (p : Place) (hm : p.isMA = true) (outside : dst.covers p = false) :
    p.value (smwdEffect s b src dst) = halfRow (readHalf s src) p.row := by
  rw [smwdEffect, (value_smwdStore _ dst s.w p fun k _ _ => not_sm_of_control_or_ma (.inr hm) k).2 outside, value_setMA,
    if_pos hm]

end ScratchpadWrite

/-- Settles O40: MA loaded, then the store by places, and the end of the instruction. -/
theorem scratchpadWrite : Obligations.ScratchpadWrite := by
  intro b c src dst s hsrc hdst
  obtain ⟨cf, next⟩ := goesOn_of_control (b := b) (u := smwdEffect s b src dst) (dst := dst) (h := wordLeft s.w)
    (smwdStore_p _ _ _) restKept_smwdEffect (smwdStore_run _ _ _) fun p control =>
      value_smwdEffect_of_stored p (isMA_of_isControl control) fun k _ _ => not_sm_of_control_or_ma (.inl control) k
  refine ⟨_, exec_smwd hsrc hdst, fun p hm outside => ?_, ?_, ?_, cf, next,
    restKept_trans restKept_smwdEffect (restKept_finish _ _)⟩
  · exact (value_finish _ _ p (isControl_of_isMA hm)).trans (value_smwdEffect_of_loaded p hm outside)
  · rintro k r rfl
    refine ⟨(smWord_congr (finish_sm _ _) k).trans (smWord_smwdEffect k r), fun p hc hm noByte noTag => ?_⟩
    have other : ∀ j q, HalfLoc.smHalf k r = .smHalf j q → (∀ n, p ≠ .sm j n) ∧ p ≠ .smTag j := by
      rintro _ _ ⟨⟩
      exact ⟨noByte, noTag⟩
    rw [value_finish _ _ p hc, value_smwdEffect_of_stored p hm other]
    simp [halfStored, HalfLoc.covers, noByte]
  · rintro col sel rfl p hc hm
    exact (value_finish _ _ p hc).trans (value_smwdEffect_of_stored p hm fun _ _ same => by cases same)

/-! ### Main memory requests -/

section Requests
variable {s : State} {b c : Byte} {src dst : HalfLoc} {i : Instr} {kind : AccessKind}

/-- A main memory instruction that its host has: the half-word move, then the request (R256 to R264, U16). -/
theorem exec_mainMemory (hi : (i, kind) ∈ [(Instr.mmr b c, AccessKind.read), (.mmr01001 b c, .read), (.mmwu b c, .write)] ∨
      (s.cfg.mainframe = .b6700 ∧ (i, kind) ∈ [(Instr.mmwr b c, AccessKind.writeRead), (.mmwp b c, .protectedWrite),
        (.mwrp b c, .protectedWriteRead)]))
    (hsrc : halfLoc .g2 (bAddress s b) = .ok src) (hdst : halfLoc .g2 (cAddress s c) = .ok dst) :
    exec i s = .next (finish dst.ordersFetch (requestAccess (moveHalves s b src dst) kind)) := by
  have starts : exec i s = mmStart kind b c s := by
    obtain hi | ⟨host, hi⟩ := hi
    · fin_cases hi <;> rfl
    · have available (k : AccessKind) : mmStartB6700 k b c s = mmStart k b c s := by rw [mmStartB6700, host]
      fin_cases hi <;> exact available _
  rw [starts, mmStart, moveThen_of_ok hsrc hdst]

/-- The request changes the tag field of W for a write and no other place (R90, D5). -/
theorem value_requestAccess (t : State) (p : Place) (hp : kind.writes = true → among [.wTag] p = false) :
    p.value (requestAccess t kind) = p.value t := by
  cases writes : kind.writes with
  | false => exact value_congr p rfl rfl rfl rfl rfl rfl rfl rfl rfl rfl rfl rfl (by simp [writes]) rfl
  | true =>
    calc p.value (requestAccess t kind)
        = p.value { t with w := withParity t.w } :=
          value_congr p rfl rfl rfl rfl rfl rfl rfl rfl rfl rfl rfl rfl (by simp [writes]) rfl
      _ = p.value t := value_parityW t p (hp writes)

/-- The address of a request is the part of MA that the host takes (R83, R264). -/
theorem toNat_ba_requestAccess (t : State) (kind : AccessKind) : (requestAccess t kind).ba.toNat =
    (ma t).toNat % (if t.cfg.mainframe = .b6700 then 2 ^ 20 else 2 ^ 15) := by
  have low : ((ma t).extractLsb' 0 20).toNat = (ma t).toNat % 2 ^ 20 := by
    rw [BitVec.extractLsb'_toNat, Nat.shiftRight_zero]
  rw [requestAccess_ba]
  cases t.cfg.mainframe with
  | b6700 => exact low
  | b5700 =>
    rw [toNat_hostAddress_b5700, low]
    exact Nat.mod_mod_of_dvd _ (Nat.pow_dvd_pow 2 (by decide))

/-- The half-word move with the request behind it (R240, R264). -/
theorem moved_requestAccess (but : Place → Bool)
    (written : kind.writes = true → ∀ p, but p = false → among [.wTag] p = false)
    (hbut : ∀ p, p.isControl = true ∨ p.isMA = true → but p = false) :
    Moved s (finish dst.ordersFetch (requestAccess (moveHalves s b src dst) kind)) src dst but :=
  moved_finish but (fun p hp => value_requestAccess _ p fun writes => written writes p hp) hbut rfl (by simp) (by simp)
    (by simp)

end Requests

/-- Settles O41: the half-word move, then the request, which for a write generates the parity of W. -/
theorem mainMemoryRequests : Obligations.MainMemoryRequests := by
  intro i kind b c src dst s hi hsrc hdst
  refine ⟨_, exec_mainMemory hi hsrc hdst, fun reads => ?_, fun writes => ⟨?_, ?_, ?_⟩, ?_, ?_, ?_⟩
  · subst reads
    exact moved_requestAccess nowhere (by simp [AccessKind.writes]) fun _ _ => rfl
  · exact moved_requestAccess _ (fun _ _ => id) wTag_but
  · simp [(AccessKind.writes_iff kind).2 writes]
  · rw [finish_w, requestAccess_w, if_pos ((AccessKind.writes_iff kind).2 writes), tag_withParity, tag_moveHalves]
  · have := toNat_ba_requestAccess (moveHalves s b src dst) kind
    simpa [ma] using this
  · simp
  · constructor <;> simp [memoryKept_of]

end Sys2Proof.Machine
end

section
/-! PROOF. Group 3 but for the charts: the half-word arithmetic as exact arithmetic, what TRAN makes of CF0, and the parity of PARY
as a count of ones. -/

namespace Sys2Proof.Machine

/-! ### Half-word arithmetic -/

section HalfArithmetic
variable {s : State} {i : Instr} {a : BitVec 2} {b c : Byte} {src dst : HalfLoc} {minus : Bool}

/-- The operation of an instruction of R271 to R277. -/
def halfOp (minus : Bool) : Half → Half → HalfResult := if minus then halfSub else halfAdd

/-- A half-word result is the exact sum or difference narrowed to 24 bits, with its flags. -/
theorem halfOp_int {m v : Half} {r : Int} (hr : r = if minus then (m.toNat : Int) - v.toNat else m.toNat + v.toNat) :
    halfOp minus m v = ⟨BitVec.ofInt 24 r, decide (r < 0 ∨ 16777215 < r), decide (BitVec.ofInt 24 r = 0)⟩ := by
  cases minus with
  | false => exact halfAdd_int m v r hr
  | true => exact halfSub_int m v r hr

theorem exec_halfWithAddress_of_ok (hi : (i, minus) ∈ [(Instr.had a b c, false), (.hsb a b c, true)])
    (hsrc : halfLoc .g3 (bAddress s b) = .ok src) (hdst : halfLoc .g3 (cAddress s c) = .ok dst)
    (other : sameSMHalf src dst = false) :
    exec i s = .next (storeHalfResult (noteIndirect s b) dst (halfOp minus (ma s) (readHalf s src))) := by
  have meaning : exec i s = halfWithAddress (halfOp minus) b c s := by fin_cases hi <;> rfl
  rw [meaning, halfWithAddress, withHalf_of_ok hsrc, withHalf_of_ok hdst, if_neg (by simp [other])]

theorem exec_halfWithLiteral_of_ok (hi : (i, minus) ∈ [(Instr.hadb a b c, false), (.hsbb a b c, true)])
    (hdst : halfLoc .g3 (cAddress s c) = .ok dst) :
    exec i s = .next (storeHalfResult s dst (halfOp minus (ma s) (b.setWidth 24))) := by
  have meaning : exec i s = halfWithLiteral (halfOp minus) b c s := by fin_cases hi <;> rfl
  rw [meaning, halfWithLiteral, withHalf_of_ok hdst]

end HalfArithmetic

/-- Settles O43: the four instructions store one result; HAD and HSB have copied an indirect Y into P-L before. -/
theorem halfWordArithmetic : Obligations.HalfWordArithmetic := by
  intro i a b c v dst s minus r operand hdst hr
  obtain ⟨src, hsrc, other, rfl, hi⟩ | ⟨rfl, hi⟩ := operand
  · refine ⟨_, exec_halfWithAddress_of_ok hi hsrc hdst other, ?_⟩
    rw [halfOp_int hr]
    exact storeHalfResult_spec s b true dst _
  · refine ⟨_, exec_halfWithLiteral_of_ok hi hdst, ?_⟩
    rw [halfOp_int hr]
    exact storeHalfResult_spec s b false dst _

/-! ### TRAN -/

section Tran
variable {s : State} {a : BitVec 3} {b c v u : Byte} {bl cl : ByteLoc} {carry : Bool}

/-- Only the row USASCII to INTERNAL of a B 5700 makes a new CF0 (R280, R281). -/
theorem translate_carry (h : translate s a v = .ok (u, carry)) :
    carry = cf0 s ∨ (s.cfg.mainframe = .b5700 ∧ a = 5) := by
  unfold translate at h
  split at h
  · cases h
    exact .inl rfl
  · split at h
    case h_8 host code => exact .inr ⟨host, BitVec.eq_of_toNat_eq code⟩
    case h_9 => cases h
    all_goals
      cases h
      exact .inl rfl

/-- TRAN of two different locations stores as a byte operation with this carry and the old CF1 does. -/
theorem exec_tran_of_ok (hb : byteLoc (bAddress s b) = .ok bl) (hc : byteLoc (cAddress s c) = .ok cl)
    (other : sameSMByte bl cl = false) (h : translate s a (readByte s bl) = .ok (v, carry)) :
    exec (.tran a b c) s = .next (storeByteResult (noteIndirect s b) cl ⟨v, carry, cf1 s⟩) := by
  rw [exec, execTran, withByte_of_ok hb, withByte_of_ok hc, if_neg (by simp [other]), h]
  rfl

end Tran

/-- Settles O44: the byte and the flags are stored as those of a byte operation; the new CF0 is the translator's. -/
theorem tranStoresTranslation : Obligations.TranStoresTranslation := by
  intro a b c v carry bl cl s hb hc other translated
  refine ⟨⟨_, exec_tran_of_ok hb hc other translated, ?_⟩, translate_carry translated⟩
  exact storeByteResult_spec s b true cl (byteLoc_valid hc) ⟨v, carry, cf1 s⟩

/-! ### PARY -/

/-- One more bit in an exclusive OR is one more in the count of ones. -/
theorem xor_odd (n : Nat) (bit : Bool) : Bool.xor (decide (n % 2 = 1)) bit = decide ((n + bit.toNat) % 2 = 1) := by
  cases bit with
  | false => simp
  | true => rcases Nat.mod_two_eq_zero_or_one n with even | odd <;> simp [Nat.add_mod, *]

/-- The exclusive OR of the low bits of a word tells whether an odd number of them are ones. -/
theorem xorLow_eq_odd {w : Nat} (v : BitVec w) (n : Nat) :
    xorLow v n = decide (((List.range n).filter fun k => v.getLsbD k).length % 2 = 1) := by
  induction n with
  | zero => rfl
  | succ n ih =>
    have last : ([n].filter fun k => v.getLsbD k).length = (v.getLsbD n).toNat := by
      cases bit : v.getLsbD n <;> simp [bit]
    rw [xorLow, ih, Bool.xor_comm, xor_odd, List.range_succ, List.filter_append, List.length_append, last]

theorem toNat_bit0 (v : BitVec 1) : (v.getLsbD 0).toNat = v.toNat := by
  revert v
  decide

theorem isAI_eq_covers (l : ByteLoc) : l.isAI = l.covers .ai := by
  cases l <;> simp [ByteLoc.isAI, ByteLoc.covers, selects, Place.cell]

section Pary
variable {s : State} {a : BitVec 1} {b c v : Byte} {bl cl : ByteLoc} {odd : Bool}

/-- PARY's exclusive OR as a count of ones (R283). -/
theorem parityOut_eq_odd (v : Byte) (ninth sense : Bool) : parityOut v ninth sense =
    decide ((((List.range 8).filter fun k => v.getLsbD k).length + ninth.toNat + sense.toNat) % 2 = 1) := by
  rw [parityOut, xorLow_eq_odd, xor_odd, xor_odd]

/-- The state in which PARY stores its byte: CF0, CF1 and, if AI is the destination, I21 are loaded. -/
def parityNoted (s : State) (b : Byte) (cl : ByteLoc) (odd : Bool) : State :=
  parityToAI (setFlags (noteIndirect s b) false (!odd)) cl odd

theorem parityNoted_cf : (parityNoted s b cl odd).cf =
    if cl.covers .ai then withI21 (flagged s.cf false (!odd)) odd else flagged s.cf false (!odd) := by
  rw [parityNoted, parityToAI, isAI_eq_covers, ← setBit5_eq, ← withFlags_eq_flagged]
  split <;> rfl

theorem value_parityNoted (p : Place) (hp : p ≠ .cf) : p.value (parityNoted s b cl odd) = p.value s := by
  cases p with
  | cf => exact absurd rfl hp
  | _ => simp [parityNoted, Place.value, smWord]

theorem restKept_parityNoted : RestKept s (parityNoted s b cl odd) := by
  constructor <;> simp [parityNoted, memoryKept_of]

theorem exec_pary_of_ok (hb : byteLoc (bAddress s b) = .ok bl) (hc : byteLoc (cAddress s c) = .ok cl)
    (other : sameSMByte bl cl = false) (hodd : parityOut (readByte s bl) (bl.isAI && i21 s) (a.getLsbD 0) = odd) :
    exec (.pary a b c) s = .next (finish cl.ordersFetch (writeByte (parityNoted s b cl odd) cl (readByte s bl))) := by
  subst hodd
  rw [exec, execPary, withByte_of_ok hb, withByte_of_ok hc, if_neg (by simp [other])]
  rfl

/-- A byte stored in that state. -/
theorem storedByte_parityNoted (hc : byteLoc (cAddress s c) = .ok cl) :
    StoredByte s (finish cl.ordersFetch (writeByte (parityNoted s b cl odd) cl v)) cl v (parityNoted s b cl odd).cf := by
  have noted : (parityNoted s b cl odd).p = (noteIndirect s b).p := parityToAI_p _ _ _
  exact storedByte_finish (byteLoc_valid hc) v restKept_parityNoted (by rw [noted, right_noteIndirect])
    (by rw [noted, tag_noteIndirect]) (by simp [parityNoted]) value_parityNoted

end Pary

/-- Settles O46: the exclusive OR is odd where the ones of the byte, I21 and A0 are, and CF and I21 are loaded from it. -/
theorem paryChecksParity : Obligations.ParyChecksParity := by
  intro a b c bl cl s ones odd hb hc other hones hodd
  refine ⟨_, exec_pary_of_ok hb hc other ?_, parityNoted_cf (b := b) ▸ storedByte_parityNoted hc⟩
  have ninth : (bl.isAI && i21 s).toNat = if bl.covers .ai then (s.cf.getLsbD 5).toNat else 0 := by
    rw [isAI_eq_covers, i21]
    cases bl.covers .ai <;> rfl
  rw [parityOut_eq_odd, ninth, toNat_bit0, hodd, hones]

end Sys2Proof.Machine
end

section
/-! PROOF. The byte operations of group 4 in their three operand forms: each instruction is its form with one operation, whose
result is the exact one of the statements; the store and the end are those of every byte result. -/

namespace Sys2Proof.Machine

/-- The machine's function for each byte operation. -/
def byteOp : ByteOp → Byte → Byte → Bool → ByteResult
  | .add => byteAdd
  | .sub => byteSub
  | .subFrom => fun v lit bin => byteSub lit v bin
  | .and => byteAnd
  | .or => byteOr
  | .xor => byteXor

/-- A byte result is the exact result narrowed to eight bits, with its flags (R291). -/
theorem byteOp_eq (f : ByteOp) (m v : Byte) (cin : Bool) :
    byteOp f m v cin = ⟨f.value m v cin, f.carry m v cin, f.zero m v cin⟩ := by
  cases f with
  | add => exact byteAdd_op m v cin
  | sub => exact byteSub_op m v cin
  | subFrom => exact byteSubFrom_op m v cin
  | and => exact byteAnd_op m v cin
  | or => exact byteOr_op m v cin
  | xor => exact byteXor_op m v cin

section Forms
variable {s : State} {i : Instr} {f : ByteOp} {a : BitVec 3} {b c : Byte} {bl cl : ByteLoc}

/-- The plain form where R508 raises no fault. -/
theorem exec_bytePlain_of_ok
    (hi : (i, f) ∈ [(Instr.add a b c, ByteOp.add), (.sub a b c, .sub), (.lan a b c, .and), (.lor a b c, .or),
      (.leo a b c, .xor), (.leo01111 a b c, .xor)])
    (hb : byteLoc (bAddress s b) = .ok bl) (hc : byteLoc (cAddress s c) = .ok cl)
    (other : f.exempt = true ∨ sameSMByte bl cl = false) :
    exec i s = .next (storeByteResult (noteIndirect s b) cl (byteOp f (srcA s a) (readByte s bl) (cf0 s))) := by
  have form : exec i s = bytePlain (byteOp f) f.exempt a b c s := by fin_cases hi <;> rfl
  have noFault : (!f.exempt && sameSMByte bl cl) = false := by
    obtain exempt | apart := other
    · rw [exempt]
      rfl
    · rw [apart, Bool.and_false]
  rw [form, bytePlain, withByte_of_ok hb, withByte_of_ok hc, noFault, if_neg Bool.false_ne_true]

/-- The literal-in-B form. -/
theorem exec_byteLiteralB_of_ok
    (hi : (i, f) ∈ [(Instr.addb a b c, ByteOp.add), (.subb a b c, .sub), (.lanb a b c, .and), (.lorb a b c, .or),
      (.leob a b c, .xor)])
    (hc : byteLoc (cAddress s c) = .ok cl) :
    exec i s = .next (storeByteResult s cl (byteOp f (srcA s a) b (cf0 s))) := by
  have form : exec i s = byteLiteralB (byteOp f) a b c s := by fin_cases hi <;> rfl
  rw [form, byteLiteralB, withByte_of_ok hc]

/-- The literal-in-C form where R508 raises no fault. -/
theorem exec_byteLiteralC_of_ok
    (hi : (i, f) ∈ [(Instr.addc a b c, ByteOp.add), (.subc a b c, .subFrom), (.lanc a b c, .and), (.lorc a b c, .or),
      (.leoc a b c, .xor)])
    (hb : byteLoc (bAddress s b) = .ok bl) (other : f.exempt = true ∨ a ≠ 1 ∨ bl.isSM = false) :
    exec i s = .next (storeByteResult (noteIndirect s b) (dstA a bl) (byteOp f (readByte s bl) c (cf0 s))) := by
  have form : exec i s = byteLiteralC (byteOp f) f.exempt a b c s := by fin_cases hi <;> rfl
  have noFault : (!f.exempt && a == 1 && bl.isSM) = false := by
    obtain exempt | register | apart := other
    · rw [exempt]
      rfl
    · rw [beq_false_of_ne register, Bool.and_false, Bool.false_and]
    · rw [apart, Bool.and_false]
  rw [form, byteLiteralC, withByte_of_ok hb, noFault, if_neg Bool.false_ne_true]

end Forms

/-- Settles O47: the result of the operation is stored at C, after an indirect Y has been copied into P-L. -/
theorem plainByteForms : Obligations.PlainByteForms := by
  rintro i f a b c bl cl s _ _ _ hi hb hc other rfl rfl rfl
  refine ⟨_, exec_bytePlain_of_ok hi hb hc other, ?_⟩
  rw [byteOp_eq]
  exact storeByteResult_spec s b true cl (byteLoc_valid hc) _

/-- Settles O48: the result is stored at C; B is no address and nothing is copied into P-L. -/
theorem literalInBForms : Obligations.LiteralInBForms := by
  rintro i f a b c cl s _ _ hi hc rfl rfl
  refine ⟨_, exec_byteLiteralB_of_ok hi hc, ?_⟩
  rw [byteOp_eq]
  exact storeByteResult_spec s b false cl (byteLoc_valid hc) _

/-- Settles O49: the result is stored where the A field says. -/
theorem literalInCForms : Obligations.LiteralInCForms := by
  rintro i f a b c bl s _ _ hi hb other rfl rfl
  refine ⟨_, exec_byteLiteralC_of_ok hi hb other, ?_⟩
  rw [byteOp_eq]
  exact storeByteResult_spec s b true (dstA a bl) (dstA_valid (byteLoc_valid hb) a) _

end Sys2Proof.Machine
end

section
/-! PROOF. LAOM: a register destination takes a half-word, the AND ORed with MA row by row, and every other destination a byte;
both are stored over CF with its flags already loaded. CF1 by the cases of D13. -/

namespace Sys2Proof.Machine

/-! ### The zero test of the registers -/

section ZeroTest
variable {s : State} {c sel : BitVec 3} {m : Byte}

/-- Each row of what LAOM stores in registers is the AND ORed with the MA row (R303). -/
theorem halfRow_orMA (s : State) (m : Byte) {r : Nat} (hr : r < 3) : halfRow (orMA s m) r = m ||| halfRow (ma s) r := by
  obtain rfl | rfl | rfl : r = 0 ∨ r = 1 ∨ r = 2 := by omega
  · simp [halfRow_zero, orMA, ma]
  · simp [halfRow_one, orMA, ma]
  · simp [halfRow_two, orMA, ma]

/-- A location that selects a place has a column with registers, and the row of the place is selected (R131). -/
theorem row_of_selects {p : Place} (h : selects c sel p = true) :
    columnExists c = true ∧ sel.getLsbD p.row = true ∧ p.row < 3 := by
  obtain ⟨r, cell, on⟩ := (selects_iff c sel p).1 h
  obtain ⟨rfl, below, -⟩ := row_of_cell cell
  refine ⟨?_, on, below⟩
  cases p with
  | w n =>
    obtain ⟨rfl, -⟩ : (if n.val < 3 then 5 else 6) = c ∧ _ := by simpa [Place.cell] using cell
    split <;> rfl
  | wTag | sm _ _ | smTag _ => cases cell
  | _ =>
    cases cell
    rfl

/-- A location of registers that selects no place has no column with registers or no row. -/
theorem column_or_rows_missing (h : ∀ p, selects c sel p = false) : columnExists c = false ∨ sel = 0 := by
  have someRowOn : ∀ v : BitVec 3, v ≠ 0 → ∃ r < 3, v.getLsbD r = true := by decide
  by_contra both
  obtain ⟨column, rowsOn⟩ := not_or.1 both
  obtain ⟨r, hr, on⟩ := someRowOn sel rowsOn
  obtain ⟨notZero, notSeven⟩ : c ≠ 0 ∧ c ≠ 7 := by simpa [columnExists] using column
  obtain ⟨p, -, cell⟩ := exists_cell c notZero notSeven r hr
  exact Bool.false_ne_true ((h p).symm.trans ((selects_iff c sel p).2 ⟨r, cell, on⟩))

/-- CF1 tests the AND where nothing is stored or the installation tests that (D13). -/
theorem laomZero_of_and (h : s.cfg.laomIncludesMa = false ∨ ∀ p, selects c sel p = false) :
    laomZero s c sel m = decide (m = 0) := by
  refine if_pos ?_
  obtain off | nothing := h
  · simp [off]
  · obtain column | noRow := column_or_rows_missing nothing
    · simp [column]
    · simp [noRow]

/-- Of one selected row, the tests of the selected rows are the test of that row. -/
theorem someRow_of_one (h : Half) (z : Bool) {r : Nat} (one : sel = 1 ∨ sel = 2 ∨ sel = 4) (on : sel.getLsbD r = true) :
    someRow sel h z = ((halfRow h r == 0) == z) := by
  have below : r < 3 := BitVec.lt_of_getLsbD on
  obtain ⟨rfl, rfl⟩ | ⟨rfl, rfl⟩ | ⟨rfl, rfl⟩ : (sel = 1 ∧ r = 0) ∨ (sel = 2 ∧ r = 1) ∨ (sel = 4 ∧ r = 2) := by
    obtain rfl | rfl | rfl := one <;> interval_cases r <;> simp_all
  · simp [someRow, halfRow_zero]
  · simp [someRow, halfRow_one]
  · simp [someRow, halfRow_two]

/-- CF1 tests the stored byte where one register is stored and D13 takes its default. -/
theorem laomZero_of_one {p : Place} (hp : selects c sel p = true) (one : sel = 1 ∨ sel = 2 ∨ sel = 4)
    (included : s.cfg.laomIncludesMa = true) : laomZero s c sel m = decide (m ||| halfRow (ma s) p.row = 0) := by
  obtain ⟨column, on, below⟩ := row_of_selects hp
  have stored : (!s.cfg.laomIncludesMa || !columnExists c || sel == 0) = false := by
    obtain rfl | rfl | rfl := one <;> simp [included, column]
  rw [laomZero, stored, someRow_of_one _ _ one on, someRow_of_one _ _ one on, halfRow_orMA s m below]
  change _ = (m ||| halfRow (ma s) p.row == 0)
  cases (m ||| halfRow (ma s) p.row == 0) <;> rfl

end ZeroTest

/-! ### The store -/

section Store
variable {s : State} {b c m v : Byte} {a col sel : BitVec 3} {bl dst : ByteLoc} {z : Bool} {n : Nat}

/-- The state in which LAOM stores: Y copied into P-L where B is indirect, the flags loaded, and the
count of the free choices of U20 and D13 at n. -/
def laomNoted (s : State) (b : Byte) (z : Bool) (n : Nat) : State :=
  { setFlags (noteIndirect s b) false z with free := n }

theorem laomNoted_cf : (laomNoted s b z n).cf = flagged s.cf false z := withFlags_eq_flagged _ _ _

theorem value_laomNoted (p : Place) (hp : p ≠ .cf) : p.value (laomNoted s b z n) = p.value s := by
  cases p with
  | cf => exact absurd rfl hp
  | _ => rfl

theorem restKept_laomNoted : RestKept s (laomNoted s b z n) := by
  constructor <;> simp [laomNoted, memoryKept_of]

/-- A byte stored in that state. -/
theorem storedByte_laomNoted (hl : dst.valid) :
    StoredByte s (finish dst.ordersFetch (writeByte (laomNoted s b z n) dst v)) dst v (flagged s.cf false z) :=
  laomNoted_cf (b := b) (n := n) ▸ storedByte_finish hl v restKept_laomNoted (right_noteIndirect s b)
    (tag_noteIndirect s b) rfl value_laomNoted

/-- A half-word stored in that state. -/
theorem storedHalf_laomNoted {l : HalfLoc} (h : Half) :
    StoredHalf s (finish l.ordersFetch (writeHalf (laomNoted s b z n) l h)) l h (flagged s.cf false z) :=
  laomNoted_cf (b := b) (n := n) ▸ storedHalf_finish h restKept_laomNoted (right_noteIndirect s b)
    (tag_noteIndirect s b) rfl value_laomNoted

/-- LAOM to registers is a half-word stored in their column (R303). -/
theorem laomStore_regs : laomStore (noteIndirect s b) (.regs col sel) m =
    writeHalf (laomNoted s b (laomZero s col sel m) (s.free + 1)) (.regs col sel) (orMA s m) := by
  simp only [laomStore, writeHalf, setRows, setColumn]
  split <;> rfl

/-- LAOM to a byte of the scratchpad or of W is one byte stored (U20). -/
theorem laomStore_memory (h : (∃ k n, dst = .smByte k n) ∨ ∃ n, dst = .wByte n) : laomStore (noteIndirect s b) dst m =
    writeByte (laomNoted s b (laomByteZero s m (laomMemory s m)) (s.free + 1)) dst (laomMemory s m) := by
  obtain ⟨k, n, rfl⟩ | ⟨n, rfl⟩ := h <;> rfl

/-- LAOM to a tag field stores the AND (U20). -/
theorem laomStore_tag (h : (∃ k, dst = .smTag k) ∨ dst = .wTag) :
    laomStore (noteIndirect s b) dst m = writeByte (laomNoted s b (decide (m = 0)) s.free) dst m := by
  obtain ⟨k, rfl⟩ | rfl := h <;> rfl

/-- LAOM without a destination sets the flags alone. -/
theorem laomStore_none :
    laomStore (noteIndirect s b) .none m = writeByte (laomNoted s b (decide (m = 0)) s.free) .none 0 := rfl

theorem rowOf_eq_halfRow (h : Half) (r : Fin 3) : rowOf h r = halfRow h r.val := by
  fin_cases r <;> rfl

theorem exec_laom_of_ok (hb : byteLoc (bAddress s b) = .ok bl) : exec (.laom a b c) s =
    .next (finish (dstA a bl).ordersFetch (laomStore (noteIndirect s b) (dstA a bl) (readByte s bl &&& c))) := by
  rw [exec, execLaom, withByte_of_ok hb]

theorem restKept_laomStore : RestKept s (finish dst.ordersFetch (laomStore (noteIndirect s b) dst m)) := by
  constructor <;> simp [memoryKept_of]

/-- The destination of registers by places: those selected hold the AND ORed with the MA row. -/
theorem halfStored_orMA (p : Place) (old : Byte) : halfStored (.regs col sel) (orMA s m) p old =
    if selects col sel p then m ||| halfRow (ma s) p.row else old := by
  change (if selects col sel p then _ else _) = _
  split
  next on => exact halfRow_orMA s m (row_of_selects on).2.2
  next => rfl

end Store

/-- Settles O50: the five kinds of destination, registers by the half-word and the others by the byte that is stored. -/
theorem laomPacksIntoMA : Obligations.LaomPacksIntoMA := by
  rintro a b c _ bl s hb rfl
  have valid := dstA_valid (byteLoc_valid hb) a
  refine ⟨_, exec_laom_of_ok hb, restKept_laomStore, ?_, ?_, ?_, ?_⟩
  · intro nothing
    rw [nothing, laomStore_none]
    exact storedByte_laomNoted trivial
  · intro col sel registers
    rw [registers, laomStore_regs]
    obtain ⟨places, cf, next, -⟩ := storedHalf_laomNoted (s := s) (b := b) (l := .regs col sel)
      (z := laomZero s col sel (readByte s bl &&& c)) (n := s.free + 1) (orMA s (readByte s bl &&& c))
    simp only [halfStored_orMA] at places cf next
    have high : halfRow (ma s) Place.cf.row = s.ma2 := row2_rows _ _ _
    have middle : halfRow (ma s) Place.ia1.row = s.ma1 := row1_rows _ _ _
    have low : halfRow (ma s) Place.ia0.row = s.ma0 := row0_rows _ _ _
    rw [high] at cf
    rw [middle, low] at next
    exact ⟨places, ⟨_, cf, laomZero_of_and, fun p on one included => laomZero_of_one on one included⟩, next⟩
  · intro memory
    rw [laomStore_memory memory, laomMemory, rowOf_eq_halfRow]
    exact ⟨_, _, (Config.freeRow s.free).isLt, storedByte_laomNoted valid, rfl⟩
  · intro tag
    rw [laomStore_tag tag]
    exact storedByte_laomNoted valid

end Sys2Proof.Machine
end

section
/-! PROOF. The translator by its charts (46_translate_tables.md): each translation code reads one chart, and for the codes in
question the chart of the way back finds the input again. -/

namespace Sys2Proof.Machine

/-! ### The answer of each translation code -/

theorem translate_absent {s : State} (absent : s.cfg.translatorPresent = false) (a : BitVec 3) (v : Byte) :
    translate s a v = .ok (0, cf0 s) := by
  simp [translate, absent]

section Codes
variable {s : State} (fitted : s.cfg.translatorPresent = true)
include fitted

theorem translate_ebcdic_usascii (host : s.cfg.mainframe = .b6700) (v : Byte) :
    translate s 0 v = .ok (chart (ebcdicToUsasciiLow ++ ebcdicToUsasciiHigh) v.toNat, cf0 s) := by
  simp [translate, fitted, host]

theorem translate_ebcdic_bcl (host : s.cfg.mainframe = .b6700) (v : Byte) :
    translate s 1 v = .ok (chart (ebcdicToBclLow ++ ebcdicToBclHigh) v.toNat, cf0 s) := by
  simp [translate, fitted, host]

theorem translate_usascii_ebcdic (host : s.cfg.mainframe = .b6700) (v : Byte) :
    translate s 4 v = .ok (chart usasciiToEbcdic v.toNat, cf0 s) := by
  simp [translate, fitted, host]

theorem translate_bcl_ebcdic (host : s.cfg.mainframe = .b6700) (v : Byte) :
    translate s 5 v = .ok (chart bclToEbcdic v.toNat, cf0 s) := by
  simp [translate, fitted, host]

theorem translate_internal_usascii (host : s.cfg.mainframe = .b5700) (v : Byte) :
    translate s 1 v = .ok (internalToUs (cf0 s) v, cf0 s) := by
  simp [translate, fitted, host]

theorem translate_internal_bcl (host : s.cfg.mainframe = .b5700) (v : Byte) :
    translate s 3 v = .ok (chart internalToBcl (v.extractLsb' 0 6).toNat, cf0 s) := by
  simp [translate, fitted, host]

theorem translate_usascii_internal (host : s.cfg.mainframe = .b5700) (v : Byte) :
    translate s 5 v = .ok (chart usasciiToInternal (v.extractLsb' 0 7).toNat, usControl v) := by
  simp [translate, fitted, host]

end Codes

/-! ### The charts -/

/-- The EBCDIC codes of the letters A to I, J to R and S to Z and of the digits. -/
abbrev EbcdicLetterOrDigit (v : Byte) : Prop :=
  0xC1 ≤ v.toNat ∧ v.toNat ≤ 0xC9 ∨ 0xD1 ≤ v.toNat ∧ v.toNat ≤ 0xD9 ∨ 0xE2 ≤ v.toNat ∧ v.toNat ≤ 0xE9 ∨
    0xF0 ≤ v.toNat ∧ v.toNat ≤ 0xF9

/-- The chart of R333 undoes that of R331 on letters and digits. -/
theorem usasciiToEbcdic_ebcdicToUsascii : ∀ v : Byte, EbcdicLetterOrDigit v →
    chart usasciiToEbcdic (chart (ebcdicToUsasciiLow ++ ebcdicToUsasciiHigh) v.toNat).toNat = v := by
  decide

/-- The chart of R334 undoes that of R332 on letters and digits; EBCDIC 4E, which shares its BCL code with C0, is none. -/
theorem bclToEbcdic_ebcdicToBcl : ∀ v : Byte, EbcdicLetterOrDigit v →
    chart bclToEbcdic (chart (ebcdicToBclLow ++ ebcdicToBclHigh) v.toNat).toNat = v := by
  decide

/-- The USASCII codes of rows 2 to 5, which the text half of the chart of R336 holds. -/
abbrev UsasciiText (v : Byte) : Prop := 0x20 ≤ v.toNat ∧ v.toNat < 0x60

/-- Bits 6 and 5 of a text code differ (R337). -/
theorem usControl_text : ∀ v : Byte, UsasciiText v → usControl v = false := by
  decide

/-- The text half of the chart of R336 undoes that of R337 on all 64 text codes. -/
theorem internalToUs_usasciiToInternal : ∀ v : Byte, UsasciiText v →
    internalToUs false (chart usasciiToInternal (v.extractLsb' 0 7).toNat) = v := by
  decide

/-- Every INTERNAL code is the place of its BCL code in the chart of R338. -/
theorem idxOf_internalToBcl : ∀ n < 64, internalToBcl.flatten.idxOf (chart internalToBcl n).toNat = n := by
  decide

/-- A code found again by its place is told by its BCL code: the chart of R338 is one to one. -/
theorem injOn_internalToBcl : Set.InjOn (chart internalToBcl) {n | n < 64} :=
  Set.LeftInvOn.injOn (f₁' := fun u => internalToBcl.flatten.idxOf u.toNat) idxOf_internalToBcl

/-- Six bits hold a code below 64. -/
theorem toNat_low6 {v : Byte} (code : v.toNat < 64) : (v.extractLsb' 0 6).toNat = v.toNat := by
  rw [BitVec.extractLsb'_toNat, Nat.shiftRight_zero, Nat.mod_eq_of_lt code]

/-! ### Letters and digits forth and back -/

section RoundTrips
variable {s : State} {v : Byte} (fitted : s.cfg.translatorPresent = true)
include fitted

theorem translate_usascii_back (host : s.cfg.mainframe = .b6700) (hv : EbcdicLetterOrDigit v) :
    ∃ u, translate s 0 v = .ok (u, cf0 s) ∧ translate s 4 u = .ok (v, cf0 s) := by
  refine ⟨_, translate_ebcdic_usascii fitted host v, ?_⟩
  rw [translate_usascii_ebcdic fitted host, usasciiToEbcdic_ebcdicToUsascii v hv]

theorem translate_bcl_back (host : s.cfg.mainframe = .b6700) (hv : EbcdicLetterOrDigit v) :
    ∃ u, translate s 1 v = .ok (u, cf0 s) ∧ translate s 5 u = .ok (v, cf0 s) := by
  refine ⟨_, translate_ebcdic_bcl fitted host v, ?_⟩
  rw [translate_bcl_ebcdic fitted host, bclToEbcdic_ebcdicToBcl v hv]

/-- Translation of a text code turns CF0 off, and CF0 off is the text half of the chart on the way back (R280). -/
theorem translate_internal_back (host : s.cfg.mainframe = .b5700) (off : cf0 s = false) (text : UsasciiText v) :
    ∃ u, translate s 5 v = .ok (u, false) ∧ translate s 1 u = .ok (v, false) := by
  refine ⟨_, (translate_usascii_internal fitted host v).trans (by rw [usControl_text v text]), ?_⟩
  rw [translate_internal_usascii fitted host, off, internalToUs_usasciiToInternal v text]

theorem translate_internal_bcl_inj (host : s.cfg.mainframe = .b5700) {x y : Byte} (hx : x.toNat < 64) (hy : y.toNat < 64)
    (same : translate s 3 x = translate s 3 y) : x = y := by
  rw [translate_internal_bcl fitted host, translate_internal_bcl fitted host, toNat_low6 hx, toNat_low6 hy] at same
  obtain ⟨bcl, -⟩ := Prod.mk.inj (Except.ok.inj same)
  exact BitVec.eq_of_toNat_eq (injOn_internalToBcl hx hy bcl)

end RoundTrips

/-- Settles O45: letters and digits of EBCDIC by the charts of a B 6700, those of USASCII as text codes of a B 5700. -/
theorem translatorCharts : Obligations.TranslatorCharts := by
  intro s v
  refine ⟨fun absent a => translate_absent absent a v,
    fun fitted host hv => ⟨translate_usascii_back fitted host hv, translate_bcl_back fitted host hv⟩,
    fun fitted host off hv => translate_internal_back fitted host off ?_,
    fun fitted host x y => translate_internal_bcl_inj fitted host⟩
  constructor <;> omega

end Sys2Proof.Machine
end

section
/-! PROOF. No step changes the parameters of the installation: the shared operations keep them, then every instruction, the cycle of
the DCP and each of the other agents. -/

namespace Sys2Proof.Machine

/-- The parameters of the installation are as before. -/
def ConfigKept (s t : State) : Prop := t.cfg = s.cfg

/-! ### Shared operations -/

section Operations
variable (s : State)

@[simp] theorem completeAccess_cfg : (completeAccess s).1.cfg = s.cfg := by
  unfold completeAccess
  split <;> rfl

@[simp] theorem enterFault_cfg (c : Cause) : (enterFault s c).cfg = s.cfg := by
  unfold enterFault
  split
  · rfl
  · split <;> rfl

@[simp] theorem raiseFault_cfg (c : Cause) : (raiseFault s c).cfg = s.cfg := by
  unfold raiseFault
  split
  · rfl
  · simp

@[simp] theorem initialise_cfg (iba : SysAddr) : (initialise s iba).cfg = s.cfg := completeAccess_cfg s

@[simp] theorem resumeFault_cfg : (resumeFault s).cfg = s.cfg := by
  have started : (if s.haltFault then placeHaltFault s else s).cfg = s.cfg := by split <;> rfl
  exact (completeAccess_cfg _).trans started

@[simp] theorem interrogateAnswer_cfg (t : State) : (interrogateAnswer s t).cfg = t.cfg := by
  unfold interrogateAnswer
  dsimp only
  split
  · split
    · exact raiseFault_cfg _ _
    · rfl
  · exact raiseFault_cfg _ _

@[simp] theorem settleAdapterWrite_cfg : (settleAdapterWrite s).cfg = s.cfg := by
  obtain ⟨_, _, _, e⟩ := settleAdapterWrite_changes s
  rw [e]

@[simp] theorem afterLmRead_cfg (fetch : Bool) : (afterLmRead fetch s).cfg = s.cfg := by
  unfold afterLmRead
  split <;> simp

variable {s}

theorem lmRead_cfg {t : State} (ht : t.cfg = s.cfg) (fetch : Bool) (a : BitVec 14) : (lmRead s fetch t a).cfg = s.cfg := by
  unfold lmRead
  split
  · exact (afterLmRead_cfg (lmLoad t a) fetch).trans ht
  · exact raiseFault_cfg s _

theorem lmWrite_cfg {t : State} (ht : t.cfg = s.cfg) (fetch : Bool) (a : BitVec 14) : (lmWrite s fetch t a).cfg = s.cfg := by
  unfold lmWrite
  split
  · exact (finish_cfg fetch (lmStore t a)).trans ht
  · exact raiseFault_cfg s _

/-- A read exchange of ARWN or ARIN: it waits, it fails, or the instruction ends with the word of the cluster (R221, R222). -/
theorem configKept_readExchange {u : State} (kept : ConfigKept s u) (wait : Bool) :
    ConfigKept s (if wait then waitForRead s else if readFails s then raiseFault (readFailed s) .clusterError else u) := by
  split
  · rfl
  · split
    · exact raiseFault_cfg _ _
    · exact kept

end Operations

/-! ### Every instruction -/

section Instructions
variable (s : State)

theorem configKept_nop00011 (a : BitVec 1) (b c : Byte) : AllNext (ConfigKept s) (execNop00011 a b c s) := by
  unfold execNop00011
  split <;> exact rfl

theorem configKept_awi (a : BitVec 2) (b c : Byte) : AllNext (ConfigKept s) (execAwi a b c s) := by
  unfold execAwi
  dsimp only
  split
  · exact rfl
  · exact rfl
  · exact raiseFault_cfg (atClusterError s (loadLiterals s a b c)) _

theorem configKept_awrr (a : BitVec 2) (b c : Byte) : AllNext (ConfigKept s) (execAwrr a b c s) := by
  unfold execAwrr
  dsimp only
  split
  · exact interrogateAnswer_cfg s (loadLiterals s a b c)
  · exact rfl
  · exact raiseFault_cfg (atClusterError s (loadLiterals s a b c)) _

theorem configKept_arwn (b c : Byte) : AllNext (ConfigKept s) (execArwn b c s) := by
  unfold execArwn
  split
  next k _ => exact configKept_readExchange (s := s) (u := release (adapterRead s k)) rfl _
  next => exact allNext_ite rfl rfl

theorem configKept_arin (b c : Byte) : AllNext (ConfigKept s) (execArin b c s) := by
  unfold execArin
  split
  next k _ => exact configKept_readExchange (s := s) (u := branchTo (adapterRead s k) _) rfl _
  next => exact rfl

/-- The invalid operator fault, raised with an indirect designation noted in P-L (R508). -/
theorem configKept_invalidOperator (b : Byte) : ConfigKept s (raiseFault (noteIndirect s b) .invalidOperator) :=
  raiseFault_cfg _ _

theorem configKept_moveHalfWord (b c : Byte) : AllNext (ConfigKept s) (moveHalfWord b c s) :=
  allNext_withHalf fun _ => allNext_withHalf fun _ =>
    allNext_ite (configKept_invalidOperator s b) (by simp [AllNext, ConfigKept])

theorem configKept_smrd (b c : Byte) : AllNext (ConfigKept s) (execSmrd b c s) :=
  allNext_withHalf fun _ => allNext_withHalf fun _ =>
    allNext_ite (configKept_invalidOperator s b) (by simp [AllNext, ConfigKept])

theorem configKept_mmStart (kind : AccessKind) (b c : Byte) : AllNext (ConfigKept s) (mmStart kind b c s) :=
  allNext_withHalf fun _ => allNext_withHalf fun _ => by simp [AllNext, ConfigKept]

theorem configKept_mmStartB6700 (kind : AccessKind) (b c : Byte) : AllNext (ConfigKept s) (mmStartB6700 kind b c s) := by
  unfold mmStartB6700
  split
  · exact configKept_mmStart s kind b c
  · trivial

theorem configKept_halfWithAddress (f : Half → Half → HalfResult) (b c : Byte) :
    AllNext (ConfigKept s) (halfWithAddress f b c s) :=
  allNext_withHalf fun _ => allNext_withHalf fun dst =>
    allNext_ite (configKept_invalidOperator s b) (storeHalfResult_cfg (noteIndirect s b) dst _)

theorem configKept_tran (a : BitVec 3) (b c : Byte) : AllNext (ConfigKept s) (execTran a b c s) :=
  allNext_withByte fun _ => allNext_withByte fun _ => allNext_ite (configKept_invalidOperator s b) (by
    split
    · trivial
    · simp [AllNext, ConfigKept])

theorem configKept_pary (a : BitVec 1) (b c : Byte) : AllNext (ConfigKept s) (execPary a b c s) :=
  allNext_withByte fun _ => allNext_withByte fun _ =>
    allNext_ite (configKept_invalidOperator s b) (by simp [AllNext, ConfigKept])

theorem configKept_bytePlain (f : Byte → Byte → Bool → ByteResult) (exempt : Bool) (a : BitVec 3) (b c : Byte) :
    AllNext (ConfigKept s) (bytePlain f exempt a b c s) :=
  allNext_withByte fun _ => allNext_withByte fun cl =>
    allNext_ite (configKept_invalidOperator s b) (storeByteResult_cfg (noteIndirect s b) cl _)

theorem configKept_byteLiteralC (f : Byte → Byte → Bool → ByteResult) (exempt : Bool) (a : BitVec 3) (b c : Byte) :
    AllNext (ConfigKept s) (byteLiteralC f exempt a b c s) :=
  allNext_withByte fun bl =>
    allNext_ite (configKept_invalidOperator s b) (storeByteResult_cfg (noteIndirect s b) (dstA a bl) _)

theorem configKept_exec (i : Instr) : AllNext (ConfigKept s) (exec i s) := by
  cases i with
  | idle | undef00000 | undef00011 | undef00100 | undef01010 | undef01011 | mskw | mskr | shft | heyu => exact rfl
  | nop00011 a b c => exact configKept_nop00011 s a b c
  | bkp => exact allNext_ite (by split <;> exact rfl) rfl
  | awi a b c => exact configKept_awi s a b c
  | awrr a b c => exact configKept_awrr s a b c
  | arwn b c => exact configKept_arwn s b c
  | arin b c => exact configKept_arin s b c
  | dbyz | dbyn | bran | goto | gox => exact allNext_ite rfl rfl
  | goi => exact allNext_ite (allNext_withByte fun _ => rfl) rfl
  | move b c | move01000 b c | move01001 _ b c => exact configKept_moveHalfWord s b c
  | smrd b c => exact configKept_smrd s b c
  | smwd b c => exact allNext_withHalf fun _ => allNext_withHalf fun _ => by simp [AllNext, ConfigKept]
  | lmri b c =>
    exact allNext_withHalf fun src => allNext_withHalf fun dst =>
      lmRead_cfg (s := noteIndirect s b) (moveHalves_cfg s b src dst) _ _
  | lmrd => exact lmRead_cfg rfl _ _
  | lmwi b c =>
    exact allNext_withHalf fun src => allNext_withHalf fun dst =>
      lmWrite_cfg (s := noteIndirect s b) (moveHalves_cfg s b src dst) _ _
  | lmwd => exact lmWrite_cfg rfl _ _
  | mmr b c | mmr01001 b c | mmwu b c => exact configKept_mmStart s _ b c
  | mmwr b c | mmwp b c | mwrp b c => exact configKept_mmStartB6700 s _ b c
  | had _ b c | hsb _ b c => exact configKept_halfWithAddress s _ b c
  | hadb | hsbb => exact allNext_withHalf fun dst => storeHalfResult_cfg s dst _
  | tran a b c => exact configKept_tran s a b c
  | pary a b c => exact configKept_pary s a b c
  | add a b c | sub a b c | lan a b c | lor a b c | leo a b c | leo01111 a b c => exact configKept_bytePlain s _ _ a b c
  | addb | subb | lanb | lorb | leob => exact allNext_withByte fun cl => storeByteResult_cfg s cl _
  | subc a b c => exact configKept_byteLiteralC s (fun v literal borrow => byteSub literal v borrow) _ a b c
  | addc a b c | lanc a b c | lorc a b c | leoc a b c => exact configKept_byteLiteralC s _ _ a b c
  | laom a b c => exact allNext_withByte fun bl => by simp [AllNext, ConfigKept]

end Instructions

/-! ### The step of the DCP -/

section Cycle
variable {s u : State}

/-- What goes on from a state with the parameters of an earlier one keeps those. -/
theorem AllNext.configKept {r : Result} (h : AllNext (ConfigKept u) r) (e : u.cfg = s.cfg) : AllNext (ConfigKept s) r :=
  h.mono fun _ kept => Eq.trans kept e

theorem configKept_withAccessDone {k : State → Result} (hk : ∀ t, AllNext (ConfigKept t) (k t)) :
    AllNext (ConfigKept s) (withAccessDone s k) := by
  have done {t : State} (h : AllNext (ConfigKept (completeAccess s).1) (k t)) : AllNext (ConfigKept s) (k t) :=
    h.configKept (completeAccess_cfg s)
  unfold withAccessDone
  split
  · exact done (hk _)
  · split
    · exact done (hk _)
    · exact (raiseFault_cfg _ _).trans (completeAccess_cfg s)

variable (s)

theorem configKept_runInstruction : AllNext (ConfigKept s) (runInstruction s) := by
  unfold runInstruction
  refine AllNext.configKept ?_ (settleAdapterWrite_cfg s)
  dsimp only
  split
  · exact configKept_exec _ _
  · split
    · exact allNext_mapNext (configKept_exec (scrambleWMA (settleAdapterWrite s)) _)
    · exact configKept_withAccessDone fun t => configKept_exec t _

theorem configKept_runEntered : AllNext (ConfigKept s) (runEntered s) :=
  allNext_ite rfl (configKept_runInstruction s)

theorem configKept_fetched (v : Word) (detected : Bool) : AllNext (ConfigKept s) (fetched s v detected) := by
  unfold fetched
  dsimp only
  split
  · exact raiseFault_cfg _ _
  · exact configKept_runEntered (entered s v)

theorem configKept_fetch : AllNext (ConfigKept s) (fetch s) :=
  allNext_ite (allNext_ite (configKept_fetched s _ _) (raiseFault_cfg _ _))
    (configKept_withAccessDone fun t =>
      allNext_ite (configKept_fetched (fetchRequested t) _ _) (raiseFault_cfg (fetchRequested t) _))

theorem bootTake_cfg (bytes : List Byte) (s : State) : (bootTake s bytes).1.cfg = s.cfg := by
  induction bytes generalizing s with
  | nil => rfl
  | cons v rest ih =>
    unfold bootTake
    split
    · rfl
    · exact ih (accumulate s v)

theorem configKept_bootExecute (v : Byte) : AllNext (ConfigKept s) (bootExecute s v) :=
  allNext_withByte fun l => by
    have delivered (t : State) : AllNext (ConfigKept t) (runEntered (startAccumulated (writeByte t l v))) :=
      (configKept_runEntered _).configKept (by simp)
    exact allNext_ite (configKept_withAccessDone delivered) (delivered s)

theorem configKept_bootstrap : AllNext (ConfigKept s) (bootstrap s) := by
  have taken := bootTake_cfg s.env.bootIn s
  unfold bootstrap
  split
  next t e => rw [e] at taken; exact taken
  next t v e => rw [e] at taken; exact (configKept_bootExecute t v).configKept taken

theorem storedOrder_cfg {t : State} (e : storedOrder s = some t) : t.cfg = s.cfg := by
  unfold storedOrder at e
  split at e
  · cases e
  · cases e
    exact initialise_cfg _ _
  · cases e
    rfl
  · split at e <;> cases e
    rfl

theorem configKept_dcpStep : AllNext (ConfigKept s) (dcpStep s) := by
  unfold dcpStep
  split
  next t e => exact storedOrder_cfg s e
  next =>
    refine allNext_ite trivial (allNext_ite (resumeFault_cfg s) (allNext_ite (configKept_runInstruction s) ?_))
    exact allNext_ite rfl (allNext_ite (configKept_bootstrap s) (configKept_fetch s))

/-! ### The other agents -/

theorem scanOut_cfg (code : BitVec 3) (word : BitVec 48) (parityOk : Bool) : (scanOut s code word parityOk).cfg = s.cfg := by
  unfold scanOut
  split
  · rfl
  · split
    · rfl
    · split
      · rfl
      · split
        · exact initialise_cfg s (word.extractLsb' 0 20)
        all_goals rfl

theorem scanIn_cfg : (scanIn s).cfg = s.cfg := by
  unfold scanIn
  split
  · rfl
  · split <;> rfl

theorem dial_cfg (o : Order) : (dial s o).cfg = s.cfg := by
  unfold dial
  split
  · rfl
  · split <;> rfl

theorem mmCompletes_cfg : (mmCompletes s).cfg = s.cfg := by
  have done := completeAccess_cfg s
  unfold mmCompletes
  split
  next t e => rw [e] at done; exact done
  next t c e => rw [e] at done; exact (raiseFault_cfg t c).trans done

theorem elapse_cfg (n : Nat) : (elapse s n).cfg = s.cfg := by
  unfold elapse
  split
  · rfl
  · dsimp only
    split
    · exact raiseFault_cfg _ _
    · rfl

theorem dataBit_cfg (k : Fin 24) (v : Bool) : (dataBit s k v).cfg = s.cfg := by
  unfold dataBit
  dsimp only
  split <;> simp

theorem tagBit_cfg (k : Fin 4) (v : Bool) : (tagBit s k v).cfg = s.cfg := by
  unfold tagBit
  dsimp only
  split
  · rfl
  · split <;> rfl
  all_goals rfl

/-- What an operator may do with RUN off leaves a running DCP alone (R460). -/
theorem inDisplayMode_cfg {t : State} (ht : t.cfg = s.cfg) : (if s.run then s else t).cfg = s.cfg := by
  split
  · rfl
  · exact ht

theorem panelStep_cfg (act : PanelAct) : (panelStep s act).cfg = s.cfg := by
  cases act with
  | switches | pulse | clear => rfl
  | bitPL | bitCM | execute | bootstrap => exact inDisplayMode_cfg s rfl
  | bitData k v => exact inDisplayMode_cfg s (dataBit_cfg s k v)
  | bitTag k v => exact inDisplayMode_cfg s (tagBit_cfg s k v)

theorem lineStep_cfg (k a : BitVec 4) (e : LineEvent) : (lineStep s k a e).cfg = s.cfg := by
  unfold lineStep
  dsimp only
  split <;> rfl

theorem otherWriteStep_cfg (k ad : BitVec 4) (cc : BitVec 5) (dc : BitVec 9) (awrr : Bool) :
    (otherWriteStep s k ad cc dc awrr).cfg = s.cfg := by
  unfold otherWriteStep
  split <;> rfl

theorem otherReadStep_cfg (k : BitVec 4) : (otherReadStep s k).cfg = s.cfg := by
  unfold otherReadStep
  split <;> rfl

/-! ### The cluster display panel -/

variable {s}

theorem counted_cfg {t : Option State} (ht : ∀ u, t = some u → u.cfg = s.cfg) : (counted s t).cfg = s.cfg := by
  cases t with
  | none => rfl
  | some u => exact ht u rfl

theorem panelWrite_cfg {t : State} (e : panelWrite s = some t) : t.cfg = s.cfg := by
  unfold panelWrite at e
  dsimp only at e
  split at e <;> cases e
  rfl

theorem panelInterrogate_cfg {t : State} (e : panelInterrogate s = some t) : t.cfg = s.cfg := by
  obtain ⟨u, hu, rfl⟩ := Option.map_eq_some_iff.mp e
  have written := panelWrite_cfg hu
  split <;> exact written

theorem panelAttention_cfg {t : State} (e : panelAttention s = some t) : t.cfg = s.cfg := by
  unfold panelAttention at e
  split at e
  · cases e
  · cases e
    rfl
  · obtain ⟨_, _, rfl⟩ := Option.map_eq_some_iff.mp e
    rfl

theorem panelControl_cfg (s : State) : (panelControl s).cfg = s.cfg := by
  unfold panelControl
  dsimp only
  split <;> rfl

theorem panelOperate_cfg (s : State) : (panelOperate s).cfg = s.cfg := by
  unfold panelOperate
  dsimp only
  split
  · exact counted_cfg fun _ => panelInterrogate_cfg
  · exact counted_cfg fun _ => panelWrite_cfg
  · exact counted_cfg fun _ => panelAttention_cfg
  · rfl
  · exact panelControl_cfg s
  all_goals rfl

/-! ### Every step -/

variable (s)

theorem agentStep_cfg (i : Input) : (agentStep s i).cfg = s.cfg := by
  cases i with
  | dcp | masterClear | mmGrant | hostWrite | hostClearAttention | bootByte | clusterScan | otherClear => rfl
  | scanOut code word parityOk => exact scanOut_cfg s code word parityOk
  | scanIn => exact scanIn_cfg s
  | dial o => exact dial_cfg s o
  | mmComplete => exact mmCompletes_cfg s
  | elapse n => exact elapse_cfg s n
  | panel act => exact panelStep_cfg s act
  | line k a e => exact lineStep_cfg s k a e
  | otherWrite k ad cc dc awrr => exact otherWriteStep_cfg s k ad cc dc awrr
  | otherRead k => exact otherReadStep_cfg s k
  | clusterPanel act =>
    cases act with
    | setRegisters | clearRegisters | setEnable | setState => rfl
    | operate => exact panelOperate_cfg s

theorem configKept_cycle : AllNext (ConfigKept s) (cycle s) := by
  refine allNext_mapNext ?_
  split
  · exact configKept_dcpStep s
  · exact configKept_dcpStep (inputTaken s _)
  · exact agentStep_cfg (inputTaken s _) _

end Cycle

/-- Settles O8: whichever agent acts, its step keeps the parameters. -/
theorem stepKeepsConfig : Obligations.StepKeepsConfig := fun s _ e => (configKept_cycle s).of_eq e

end Sys2Proof.Machine
end

section
/-! PROOF. The fault entry: the fault instruction and its branch address, what placing and executing it change, a fault that is
entered in full, and one at which the DCP stops; then the codes and the priority of the causes. -/

namespace Sys2Proof.Machine

/-! ### The fault instruction -/

section FaultInstruction
variable (a : BitVec 3) (m : Bool) (code : BitVec 5)

/-- The OP of the fault instruction is that of BKP (R353). -/
theorem faultInstr_op : (faultInstr a m code).extractLsb' 19 5 = 1 := by
  revert a m code
  decide +kernel

/-- The branch address of the fault instruction: I15 and the code (R353). -/
theorem faultInstr_address : (faultInstr a m code).extractLsb' 0 16 = BitVec.ofBool m ++ 0#10 ++ code := by
  revert a m code
  decide +kernel

theorem faultInstr_code : (faultInstr a m code).extractLsb' 0 5 = code := extractLsb'_append_low _ code

end FaultInstruction

/-- No cause has the code of the out of control fault (Table 2-6, R356). -/
theorem code_ne_outOfControl (inLocal : Bool) (c : Cause) : c.code inLocal ≠ 16#5 := by
  cases inLocal <;> cases c <;> decide

section Placed
variable (s : State) (c : Cause)

/-- The instruction that `placeFault` puts into P-L (R353, R356). -/
theorem pLeft_placeFault : pLeft (placeFault s c) =
    if i19 s then faultInstr s.cfg.faultInstrA false 16 else faultInstr s.cfg.faultInstrA (i15 s) (c.code (i15 s)) :=
  wordLeft_putLeft s.p _

theorem op_placeFault : (pLeft (placeFault s c)).extractLsb' 19 5 = 1 := by
  rw [pLeft_placeFault]
  split <;> exact faultInstr_op _ _ _

theorem pBranchAddress_placeFault : pBranchAddress (placeFault s c) = faultTarget s c := by
  rw [pBranchAddress, pLeft_placeFault, faultTarget, ← i15_eq]
  change (if i19 s then _ else _ : Half).extractLsb' 0 16 = if i19 s then _ else _
  split
  · exact faultInstr_address _ _ _
  · exact faultInstr_address _ _ _

/-- The out of control fault, and no other, saves MA in SM(1)-R (R355, R356). -/
theorem faultSaveWord_placeFault : faultSaveWord (placeFault s c) = if i19 s then 1 else 0 := by
  rw [faultSaveWord, pLeft_placeFault]
  cases i19 s with
  | true => rw [if_pos rfl, faultInstr_code]; rfl
  | false => rw [if_neg Bool.false_ne_true, faultInstr_code, if_neg (code_ne_outOfControl _ c)]; rfl

theorem placesKept_placeFault : PlacesKept s (placeFault s c) nowhere := fun p hp _ => by
  cases p with
  | cf | ia1 | ia0 => cases hp
  | _ => rfl

/-- The fault instruction stands in P-L of a DCP that is stopped, with EX on or off (R353, R356, R366). -/
theorem faultWaits_placeFault (ex : Bool) :
    FaultWaits s { placeFault s c with run := false, ex := ex } (faultTarget s c) where
  run := rfl
  flt := rfl
  cf := cfNoted_eq s
  ia := rfl
  places := fun p hp h => by
    rw [← placesKept_placeFault s c p hp h]
    exact value_congr p rfl rfl rfl rfl rfl rfl rfl rfl rfl rfl rfl rfl rfl rfl
  op := op_placeFault s c
  address := pBranchAddress_placeFault s c

end Placed

/-! ### The fault instruction executed -/

/-- What a fault entry takes from the state before it are MA and IA. -/
theorem FaultTaken.of_registers {s u t : State} {k : BitVec 3} {old : Byte} {target : InstrAddr}
    (h : FaultTaken u t k old target) (saved : ma u = ma s) (ia1 : u.ia1 = s.ia1) (ia0 : u.ia0 = s.ia0) :
    FaultTaken s t k old target :=
  { h with saved := h.saved.trans saved, ma1 := h.ma1.trans ia1, ma0 := h.ma0.trans ia0 }

/-- MA goes to the R half of the scratchpad word and the I column to MA; every other place keeps its value (R355). -/
theorem placesKept_executeFault (s : State) : PlacesKept s (executeFault s) (fun p =>
    p.isMA || among [.sm (faultSaveWord s) 3, .sm (faultSaveWord s) 4, .sm (faultSaveWord s) 5] p) := by
  intro p hp h
  obtain ⟨notMA, notSaved⟩ := Bool.or_eq_false_iff.1 h
  have same : p.value (executeFault s) = p.value (writeHalf s (.smHalf (faultSaveWord s) true) (ma s)) := by
    cases p with
    | ma2 | ma1 | ma0 => cases notMA
    | cf | ia1 | ia0 => cases hp
    | _ => rfl
  rw [same, value_writeHalf, halfStored, covers_smHalf_right, notSaved, if_neg Bool.false_ne_true]

section Executed
variable (s : State) (c : Cause)

theorem faultTaken_entry :
    FaultTaken s (executeFault (placeFault s c)) (if i19 s then 1 else 0) (cfAtFault s) (faultTarget s c) := by
  have taken := faultTaken_executeFault (placeFault s c)
  rw [faultSaveWord_placeFault, pBranchAddress_placeFault, placeFault_cf, cfNoted_eq] at taken
  exact taken.of_registers rfl rfl rfl

theorem placesKept_entry {k : BitVec 3} (saves : (if i19 s then 1 else 0) = k) :
    PlacesKept s (executeFault (placeFault s c)) (fun p => p.isMA || among [.sm k 3, .sm k 4, .sm k 5] p) := by
  intro p hp h
  subst saves
  rw [← placesKept_placeFault s c p hp rfl]
  refine placesKept_executeFault (placeFault s c) p hp ?_
  rwa [faultSaveWord_placeFault]

theorem restKept_entry : RestKept s { executeFault (placeFault s c) with
    flt := s.flt, bstm := s.bstm, seq := s.seq, haltFault := s.haltFault } :=
  ⟨rfl, rfl, rfl, rfl, rfl, rfl, rfl, rfl, rfl, rfl, rfl, rfl, rfl, rfl, rfl, rfl, rfl, rfl, memoryKept_of rfl rfl⟩

end Executed

/-! ### A fault condition -/

section Raised
variable {s : State} {c : Cause}

/-- HOLD P-L ignores the condition; STOP IMMED still stops the DCP (R366, R464). -/
theorem raiseFault_of_holdPL (run : s.run = true) (hold : s.env.panel.hold = .holdPL) (c : Cause) :
    raiseFault s c = { s with run := decide (s.env.panel.stop ≠ .immediate) } := by
  simp [raiseFault, holdPL, hold, run, stopImmediate]

theorem raiseFault_of_idle (idle : s.pending = none) (hold : s.env.panel.hold ≠ .holdPL) (c : Cause) :
    raiseFault s c = enterFault s c := by
  rw [raiseFault, (holdPL_eq_false_iff s).2 hold, if_neg Bool.false_ne_true, completeAccess_idle idle]
  rfl

/-- Out of control in main memory, or STOP ON FAULT (R356, R366). -/
theorem faultStops_iff (s : State) : faultStops s = true ↔
    (s.cf.getLsbD 3 = true ∧ (ia s).getLsbD 15 = false) ∨ s.env.panel.hold = .stopOnFault := by
  simp [faultStops, i19, i15_eq, stopOnFault]

theorem raiseFault_of_stops (idle : s.pending = none) (hold : s.env.panel.hold ≠ .holdPL) (stops : faultStops s = true)
    (c : Cause) : raiseFault s c = { placeFault s c with run := false, ex := true } := by
  rw [raiseFault_of_idle idle hold, enterFault, if_pos stops]

/-- STOP IMMED stops the DCP before the fault instruction (R464, D37). -/
theorem raiseFault_of_immediate (idle : s.pending = none) (hold : s.env.panel.hold ≠ .holdPL) (goesOn : faultStops s = false)
    (stop : s.env.panel.stop = .immediate) (c : Cause) : raiseFault s c = { placeFault s c with run := false } := by
  have immediate : stopImmediate s = true := decide_eq_true stop
  rw [raiseFault_of_idle idle hold, enterFault, goesOn, immediate, if_neg Bool.false_ne_true, Bool.not_true, Bool.and_false,
    if_neg Bool.false_ne_true]

/-- Where nothing stops the DCP the fault instruction is placed and executed (R352 to R356). -/
theorem raiseFault_of_enters (enters : EntersFaults s) (inControl : s.cf.getLsbD 3 = false ∨ (ia s).getLsbD 15 = true)
    (c : Cause) : raiseFault s c = executeFault (placeFault s c) := by
  have goesOn : faultStops s = false := by
    rw [← Bool.not_eq_true, faultStops_iff]
    rintro (⟨nested, inMain⟩ | onFault)
    · rw [nested, inMain] at inControl
      exact absurd inControl (by decide)
    · simp [enters.hold] at onFault
  have notImmediate : stopImmediate s = false := decide_eq_false enters.stop
  rw [raiseFault_of_idle enters.pending (by simp [enters.hold]), enterFault, goesOn, if_neg Bool.false_ne_true, enters.run,
    notImmediate]
  rfl

end Raised

/-- Settles O55: the fault instruction is placed with the code of the cause, and executed. -/
theorem faultEntry : Obligations.FaultEntry := by
  intro s c enters first
  have i19off : i19 s = false := first
  have target : faultTarget s c = BitVec.ofBool ((ia s).getLsbD 15) ++ 0#10 ++ c.code ((ia s).getLsbD 15) := by
    rw [faultTarget, first, if_neg Bool.false_ne_true]
  have taken := faultTaken_entry s c
  rw [i19off, target] at taken
  dsimp only
  rw [raiseFault_of_enters enters (.inl first)]
  refine ⟨taken, fun ex => ?_, enters.run, wordRight_putLeft s.p _, placesKept_entry s c (by rw [i19off]; rfl),
    restKept_entry s c⟩
  rw [taken.ma2, cfAtFault, ex]
  simp

/-- A fault instruction that waits in P-L is executed when the DCP runs again, and STOP IMMED stops it after that (R356, R366,
D37). -/
theorem step_resumes {s : State} (inputs : s.env.inputs = []) (stored : s.stored = none) (run : s.run = true)
    (flt : s.flt = true) (noHalt : s.haltFault = false) (hold : s.env.panel.hold ≠ .holdPL) (idle : s.pending = none) :
    step s = .next (settleTimers { executeFault s with run := decide (s.env.panel.stop ≠ .immediate) }) := by
  have free : holdPL s = false := (holdPL_eq_false_iff s).2 hold
  have resumed : resumeFault s = { executeFault s with run := decide (s.env.panel.stop ≠ .immediate) } := by
    simp [resumeFault, noHalt, completeAccess_idle idle, run, stopImmediate]
  simp [step, cycle, dcpStep, storedOrder, inputs, stored, run, flt, free, resumed, mapNext]

/-- Settles O56: HOLD P-L, out of control in local and in main memory, STOP ON FAULT, STOP IMMED, and a fault that waits. -/
theorem faultInFaultAndPanel : Obligations.FaultInFaultAndPanel := by
  intro s c idle run
  refine ⟨fun hold => raiseFault_of_holdPL run hold c, fun enters nested inLocal => ?_, fun stops => ?_,
    fun hold stop => ?_, fun inputs stored flt noHalt hold => ?_⟩
  · have i19on : i19 s = true := nested
    have taken := faultTaken_entry s c
    rw [i19on, faultTarget, nested, if_pos rfl, if_pos rfl] at taken
    rw [raiseFault_of_enters enters (.inr inLocal)]
    exact ⟨taken, run, placesKept_entry s c (by rw [i19on]; rfl)⟩
  · have hold : s.env.panel.hold ≠ .holdPL := by obtain ⟨hold, -, -⟩ | hold := stops <;> simp [hold]
    rw [raiseFault_of_stops idle hold ((faultStops_iff s).2 (stops.imp_left And.right))]
    exact ⟨faultWaits_placeFault s c true, rfl⟩
  · have notHeld : s.env.panel.hold ≠ .holdPL := by simp [hold]
    cases stops : faultStops s with
    | true =>
      rw [raiseFault_of_stops idle notHeld stops]
      refine ⟨faultWaits_placeFault s c true, fun inControl => ?_⟩
      simp only [faultStops_iff, hold, reduceCtorEq, or_false] at stops
      obtain ⟨nested, inMain⟩ := stops
      rw [nested, inMain] at inControl
      exact absurd inControl (by decide)
    | false =>
      rw [raiseFault_of_immediate idle notHeld stops stop]
      exact ⟨faultWaits_placeFault s c s.ex, fun _ => rfl⟩
  · exact ⟨_, step_resumes inputs stored run flt noHalt hold idle, { faultTaken_executeFault s with }, rfl, rfl⟩

/-! ### Codes and priority -/

/-- Of two causes the one of the higher rank is taken, whichever was found first (R357). -/
theorem higher_of_rank {f g : Cause} (above : g.rank < f.rank) : higher (some f) g = f ∧ higher (some g) f = f :=
  ⟨if_pos above.le, if_neg above.not_ge⟩

/-- Settles O57: the codes by the table, the priorities by the ranks of the causes. -/
theorem faultCodes : Obligations.FaultCodes := by
  refine ⟨fun _ => ⟨rfl, rfl, rfl, rfl, rfl, rfl, rfl, rfl⟩, rfl, rfl, rfl, rfl, rfl, rfl, rfl, rfl, rfl, fun _ => rfl,
    fun f hf g hg => ?_, fun f hf => ?_⟩
  · have execution : 10 ≤ f.rank := by revert f; decide
    have fetch : g.rank ≤ 4 := by revert g; decide
    exact higher_of_rank (by omega)
  · have access : 12 ≤ f.rank := by revert f; decide
    exact ⟨if_pos access, if_pos (Nat.le_trans (by decide) access)⟩

end Sys2Proof.Machine
end

section
/-! PROOF. The attention timer, Initialize, and the other orders of both hosts: what each leaves, when a host's order is answered or
stored, and the step that performs a stored one. -/

namespace Sys2Proof.Machine

/-! ### The attention timer -/

section Timer
variable {s : State} {n : Nat}

/-- The timer has run out on a side whose condition holds (R365). -/
def TimeOutDue (s : State) (n : Nat) : Prop :=
  ((∃ k, calls s k) ∧ 2500 ≤ s.canTimer + n) ∨ (s.cf.getLsbD 7 = true ∧ 2500 ≤ s.sanTimer + n)

theorem timeOutDue_iff : ((canOn s && decide (timeOutUnits ≤ s.canTimer + n)) ||
    (i23 s && decide (timeOutUnits ≤ s.sanTimer + n))) = true ↔ TimeOutDue s n := by
  simp only [Bool.or_eq_true, Bool.and_eq_true, decide_eq_true_eq, canOn_iff]
  rfl

theorem elapse_of_stopped (stopped : s.run = false) : elapse s n = s := by
  simp [elapse, stopped]

theorem elapse_of_due (run : s.run = true) (due : TimeOutDue s n) :
    elapse s n = raiseFault { s with canTimer := 0, sanTimer := 0 } .timeOut := by
  rw [elapse, run]
  exact if_pos (timeOutDue_iff.2 due)

theorem elapse_of_not_due (run : s.run = true) (within : ¬ TimeOutDue s n) : elapse s n =
    { s with
      canTimer := if canOn s then s.canTimer + n else 0
      sanTimer := if i23 s then s.sanTimer + n else 0 } := by
  rw [elapse, run]
  exact if_neg fun due => within (timeOutDue_iff.1 due)

end Timer

/-- Settles O60: with RUN off, with a side that is due, and with neither. -/
theorem attentionTimer : Obligations.AttentionTimer := by
  refine fun s n => ⟨elapse_of_stopped, elapse_of_due, fun run can san => ⟨_, elapse_of_not_due run ?_, ?_, ?_, rfl⟩⟩
  · rintro (⟨calling, due⟩ | ⟨attention, due⟩)
    · exact (can calling).not_ge due
    · exact (san attention).not_ge due
  · exact fun calling => if_pos ((canOn_iff s).2 calling)
  · exact fun attention => if_pos attention

/-! ### Initialize -/

theorem among_append (l m : List Place) (p : Place) : among (l ++ m) p = (among l p || among m p) := by
  simp [among]

/-- The L half of a scratchpad word by its bytes (R85). -/
theorem covers_smHalf_left (k : BitVec 3) (p : Place) :
    (HalfLoc.smHalf k false).covers p = among [.sm k 0, .sm k 1, .sm k 2] p := by
  rw [Bool.eq_iff_iff, HalfLoc.covers, decide_eq_true_iff, among, List.contains_iff_mem]
  constructor
  · rintro ⟨m, left, rfl⟩
    fin_cases m <;> simp_all
  · intro h
    fin_cases h
    · exact ⟨0, rfl, rfl⟩
    · exact ⟨1, rfl, rfl⟩
    · exact ⟨2, rfl, rfl⟩

section Initialize
variable (s : State) (iba : SysAddr)

/-- The state whose fault instruction Initialize executes, with no access pending (R371). -/
def initialising : State :=
  { s with
    run := true
    cf := cfNoted s
    sm := s.sm.set 0 (putLeft (smWord s 0) (initializeBase iba))
    p := putLeft s.p (faultInstr s.cfg.faultInstrA false 0) }

variable {s} in
theorem initialise_of_idle (idle : s.pending = none) : initialise s iba = executeFault (initialising s iba) := by
  rw [initialise, completeAccess_idle idle]
  rfl

theorem pLeft_initialising : pLeft (initialising s iba) = faultInstr s.cfg.faultInstrA false 0 := wordLeft_putLeft s.p _

/-- The fault instruction of Initialize saves MA in SM(0)-R. -/
theorem faultSaveWord_initialising : faultSaveWord (initialising s iba) = 0 := by
  rw [faultSaveWord, pLeft_initialising, faultInstr_code]
  rfl

/-- The branch address of Initialize is zero. -/
theorem pBranchAddress_initialising : pBranchAddress (initialising s iba) = 0 := by
  rw [pBranchAddress, pLeft_initialising, faultInstr_address]
  rfl

theorem base_initialising :
    wordLeft (smWord (executeFault (initialising s iba)) 0) = initializeBase iba := by
  have saved : smWord (executeFault (initialising s iba)) 0 =
      putRight (smWord (initialising s iba) 0) (ma s) := by
    change smWord (setSM (initialising s iba) (faultSaveWord (initialising s iba)) _) 0 = _
    rw [smWord_setSM, faultSaveWord_initialising, if_pos rfl]
    rfl
  have based : smWord (initialising s iba) 0 = putLeft (smWord s 0) (initializeBase iba) := by
    change smWord (setSM s 0 _) 0 = _
    rw [smWord_setSM, if_pos rfl]
  rw [saved, based, wordLeft_putRight, wordLeft_putLeft]

/-- The base address goes to SM(0)-L and nothing else to a place (R371). -/
theorem placesKept_initialising : PlacesKept s (initialising s iba) (among [.sm 0 0, .sm 0 1, .sm 0 2]) := by
  intro p hp notBase
  have same : p.value (initialising s iba) = p.value (writeHalf s (.smHalf 0 false) (initializeBase iba)) := by
    cases p with
    | cf | ia1 | ia0 => cases hp
    | _ => rfl
  rw [same, value_writeHalf, halfStored, covers_smHalf_left, notBase, if_neg Bool.false_ne_true]

theorem placesKept_initialise : PlacesKept s (executeFault (initialising s iba))
    (fun p => p.isMA || among [.sm 0 0, .sm 0 1, .sm 0 2, .sm 0 3, .sm 0 4, .sm 0 5] p) := by
  intro p hp h
  obtain ⟨notMA, notSM⟩ := Bool.or_eq_false_iff.1 h
  obtain ⟨notBase, notSaved⟩ := Bool.or_eq_false_iff.1 ((among_append [.sm 0 0, .sm 0 1, .sm 0 2] _ p).symm.trans notSM)
  refine Eq.trans (placesKept_executeFault (initialising s iba) p hp ?_) (placesKept_initialising s iba p hp notBase)
  rw [faultSaveWord_initialising]
  exact Bool.or_eq_false_iff.2 ⟨notMA, notSaved⟩

/-- Initialize leaves this with no access pending, whatever the reply on the scan bus and the order stored are (R371, R375). -/
theorem initialised_initialise (idle : s.pending = none) (env : Env) (stored : Option Order) :
    Initialised s { initialise s iba with env := env, stored := stored } iba := by
  have taken : FaultTaken s (executeFault (initialising s iba)) 0 (cfAtFault s) 0 := by
    have h := faultTaken_executeFault (initialising s iba)
    rw [faultSaveWord_initialising, pBranchAddress_initialising] at h
    rw [← cfNoted_eq]
    exact h.of_registers rfl rfl rfl
  rw [initialise_of_idle iba idle]
  exact {
    run := rfl
    entry := { taken with }
    base := base_initialising s iba
    places := fun p hp h => by
      rw [← placesKept_initialise s iba p hp h]
      exact value_congr p rfl rfl rfl rfl rfl rfl rfl rfl rfl rfl rfl rfl rfl rfl
    cm := rfl
    memory := memoryKept_of rfl rfl
    clusters := rfl
    adapterWrite := rfl }

end Initialize

/-! ### Scan orders of a B 6700 -/

section ScanOrders
variable {s : State} {code : BitVec 3} {word : BitVec 48}

theorem setAttention_eq (s : State) : setAttention s = { s with cf := 1#1 ++ s.cf.extractLsb' 0 7 } := by
  rw [setAttention, setBit7_eq]
  rfl

/-- On line, and neither HOLD P-L nor STOP IMMED on, the DCP is ready for every order but Set Attention Needed, which needs RUN
(R369, R372). -/
theorem notReady_of_answers (onLine : s.env.panel.onLine = true) (hold : s.env.panel.hold ≠ .holdPL)
    (stop : s.env.panel.stop ≠ .immediate) (code : BitVec 3) : notReady s code = (code == 4 && !s.run) := by
  simp [notReady, onLine, holdPL, hold, stopImmediate, stop]

theorem notReady_of_silent
    (silent : s.env.panel.onLine = false ∨ s.env.panel.hold = .holdPL ∨ s.env.panel.stop = .immediate) (code : BitVec 3) :
    notReady s code = true := by
  obtain offLine | hold | stop := silent
  · simp [notReady, offLine]
  · simp [notReady, holdPL, hold]
  · simp [notReady, stopImmediate, stop]

variable (host : s.cfg.mainframe = .b6700)
include host

theorem scanOut_of_notReady (silent : notReady s code = true) (ok : Bool) :
    scanOut s code word ok = reply s replyNotReady := by
  simp only [scanOut, host, if_pos silent]

theorem scanIn_of_notReady (silent : notReady s 0 = true) : scanIn s = reply s replyNotReady := by
  simp only [scanIn, host, if_pos silent]

theorem scanIn_of_ready (ready : notReady s 0 = false) : scanIn s = reply s replyScanIn := by
  simp only [scanIn, host, ready, Bool.false_eq_true, if_false]

variable (ready : notReady s code = false)
include ready

theorem scanOut_of_wrongParity : scanOut s code word false = reply s replyInvalid := by
  simp [scanOut, host, ready]

theorem scanOut_initialise (isCode : code = 0) :
    scanOut s code word true = reply (initialise s (word.extractLsb' 0 20)) replyPerformed := by
  subst isCode
  simp only [scanOut, host, ready, Bool.not_true, Bool.false_eq_true, if_false]
  rfl

theorem scanOut_setAttention (isCode : code = 4) : scanOut s code word true = reply (setAttention s) replyPerformed := by
  subst isCode
  simp only [scanOut, host, ready, Bool.not_true, Bool.false_eq_true, if_false]
  rfl

theorem scanOut_halt (isCode : code = 2) : scanOut s code word true = reply (haltNow s) replyPerformed := by
  subst isCode
  simp only [scanOut, host, ready, Bool.not_true, Bool.false_eq_true, if_false]
  rfl

/-- A code that names no order (R370). -/
theorem scanOut_of_otherCode (other : code ∈ [(1 : BitVec 3), 3, 5, 6, 7]) (ok : Bool) :
    scanOut s code word ok = reply s replyInvalid := by
  cases ok with
  | false => exact scanOut_of_wrongParity host ready
  | true =>
    simp only [scanOut, host, ready, Bool.not_true, Bool.false_eq_true, if_false]
    fin_cases other <;> rfl

end ScanOrders

/-- Settles O58: the order is answered and performed. -/
theorem initializeOrder : Obligations.InitializeOrder := by
  intro s word host idle onLine hold stop
  have ready : notReady s 0 = false := notReady_of_answers onLine hold stop 0
  rw [scanOut_initialise host ready rfl]
  refine ⟨initialised_initialise s _ idle _ _, ?_⟩
  rw [initialise_of_idle _ idle]
  rfl

/-! ### Orders of a B 5700 -/

section StoredOrders
variable {s t : State}

/-- An order stored is performed at the next step, whatever state the DCP is in (R374; log 33). -/
theorem step_storedOrder (inputs : s.env.inputs = []) (performed : storedOrder s = some t) :
    step s = .next (settleTimers t) := by
  simp only [step, cycle, dcpStep, inputs, performed]
  rfl

/-- A Halt waits while a cluster holds the instruction of a running DCP (R377). -/
theorem storedOrder_of_waits (stored : s.stored = some .halt) (wait : s.clusterWait = true) (run : s.run = true) :
    storedOrder s = none := by
  simp [storedOrder, stored, wait, run]

theorem storedOrder_halt (stored : s.stored = some .halt) (boundary : s.clusterWait = false ∨ s.run = false) :
    storedOrder s = some { s with stored := none, run := false, ex := false } := by
  have atBoundary : (s.clusterWait && s.run) = false := Bool.and_eq_false_iff.2 boundary
  simp [storedOrder, stored, atBoundary, haltAtBoundary]

theorem storedOrder_setAttention (stored : s.stored = some .setAttention) :
    storedOrder s = some { s with stored := none, cf := 1#1 ++ s.cf.extractLsb' 0 7 } := by
  rw [storedOrder, stored]
  exact congrArg some (setAttention_eq { s with stored := none })

/-- A stored Initialize has the base address 3 (R375). -/
theorem storedOrder_initialise (stored : s.stored = some .initialise) (idle : s.pending = none) :
    storedOrder s = some { initialise s 3 with stored := none } := by
  rw [storedOrder, stored, initialise_of_idle 3 idle]
  exact congrArg some (initialise_of_idle (s := { s with stored := none }) 3 idle)

/-- An order is dialled at a DCP that is on line and holds none (R374; D31). -/
theorem dial_of_free (host : s.cfg.mainframe = .b5700) (free : s.stored = none) (onLine : s.env.panel.onLine = true)
    (o : Order) : dial s o = if s.run = true ∨ o ≠ .setAttention then { s with stored := some o } else s := by
  simp [dial, host, free, onLine]

theorem dial_of_notFree (host : s.cfg.mainframe = .b5700) (h : s.stored.isSome = true ∨ s.env.panel.onLine = false)
    (o : Order) : dial s o = s := by
  obtain stored | offLine := h
  · simp [dial, host, Option.isSome_iff_ne_none.1 stored]
  · simp [dial, host, offLine]

/-- A Halt that waits leaves an ARWN where it is that is held with neither attention (R221, R377). -/
theorem step_heldArwn {b c : Byte} (inputs : s.env.inputs = []) (waits : storedOrder s = none) (run : s.run = true)
    (flt : s.flt = false) (ex : s.ex = true) (idle : s.pending = none) (write : s.adapterWrite = none)
    (hp : wordLeft s.p = encode (.arwn b c)) (quiet : ∀ j, ¬ calls s j) (off : i23 s = false) (wait : s.clusterWait = true) :
    step s = .next (settleTimers s) := by
  have held : runInstruction s = .next s := by
    rw [runInstruction_of_idle idle hp rfl, settleAdapterWrite_of_none write,
      exec_arwn_held (pickCluster_of_none quiet) off, ← wait]
  simp only [step, cycle, dcpStep, inputs, waits, run, flt, ex, held, Bool.not_true, Bool.false_and, Bool.false_eq_true,
    if_false, if_true]
  rfl

end StoredOrders

/-- A Halt of a B 6700 saves nothing (R373). -/
theorem placesKept_haltNow (s : State) : PlacesKept s (haltNow s) nowhere := fun p hp _ => by
  cases p with
  | cf | ia1 | ia0 => cases hp
  | _ => rfl

theorem placesKept_reply (s : State) (r : ScanReply) : PlacesKept s (reply s r) nowhere := fun p _ _ =>
  value_congr p rfl rfl rfl rfl rfl rfl rfl rfl rfl rfl rfl rfl rfl rfl

/-- Settles O59: the replies and orders of a B 6700 that is ready and of one that is not, an order dialled at a B 5700, and the step
that performs it. -/
theorem hostOrders : Obligations.HostOrders := by
  intro s word
  refine ⟨fun host onLine hold stop => ?_,
    fun host silent => ⟨fun code => scanOut_of_notReady host (notReady_of_silent silent code),
      scanIn_of_notReady host (notReady_of_silent silent 0)⟩,
    fun host o => ⟨fun h => dial_of_notFree host h o, fun free onLine => dial_of_free host free onLine o⟩,
    fun inputs => ⟨fun stored idle => ?_, fun stored => ?_, fun stored boundary => ?_,
      fun b c stored wait run flt ex idle write hp quiet off => ?_⟩⟩
  · have answers (code : BitVec 3) : notReady s code = (code == 4 && !s.run) := notReady_of_answers onLine hold stop code
    have running (run : s.run = true) : notReady s 4 = false := by rw [answers, run]; rfl
    refine ⟨fun run => ?_, fun stopped ok => ?_, ?_, fun code ok hcode wrong => ?_, fun run => ?_,
      fun code ok hcode => ?_, ?_⟩
    · rw [scanOut_setAttention host (running run) rfl, setAttention_eq]
      rfl
    · exact scanOut_of_notReady host (by rw [answers, stopped]; rfl) ok
    · dsimp only
      rw [scanOut_halt host (answers 2) rfl]
      exact ⟨rfl, rfl, rfl, cfNoted_eq s, rfl, rfl,
        fun p hp h => (placesKept_reply _ _ p hp h).trans (placesKept_haltNow s p hp h), memoryKept_of rfl rfl, rfl⟩
    · rw [wrong]
      exact scanOut_of_wrongParity host (by rw [answers]; fin_cases hcode <;> rfl)
    · exact scanOut_of_wrongParity host (running run)
    · exact scanOut_of_otherCode host (by rw [answers]; fin_cases hcode <;> rfl) hcode ok
    · exact scanIn_of_ready host (answers 0)
  · refine ⟨_, step_storedOrder inputs (storedOrder_initialise stored idle), initialised_initialise s 3 idle _ none, rfl, ?_⟩
    rw [initialise_of_idle 3 idle]
    rfl
  · exact step_storedOrder inputs (storedOrder_setAttention stored)
  · exact step_storedOrder inputs (storedOrder_halt stored boundary)
  · exact step_heldArwn inputs (storedOrder_of_waits stored wait run) run flt ex idle write hp quiet off wait

end Sys2Proof.Machine
end

section
/-! PROOF. The fields of an adapter word, written by the codes of Table 5-13 and read back by those of Table 5-14. -/

namespace Sys2Proof.Machine

/-! ### The information bits -/

section Bits
variable (v : BitVec 9)

/-- The six type bits with zeros in front (R430, R431). -/
theorem typeBits : 0#3 ++ (v.extractLsb' 0 8).extractLsb' 0 6 = (v.extractLsb' 0 6).setWidth 9 := by
  revert v
  decide +kernel

/-- BC and BI together are the seven command bits (R430, R431). -/
theorem commandBits : 0#2 ++ (v.extractLsb' 0 8).extractLsb' 4 3 ++ (v.extractLsb' 0 8).extractLsb' 0 4 =
    (v.extractLsb' 0 7).setWidth 9 := by
  revert v
  decide +kernel

/-- The two ends of C1, SC and SA together are the seven bits of the line fields (R430, R431). -/
theorem lineBits : 0#2 ++ (v.extractLsb' 0 8).extractLsb' 6 1 ++ (v.extractLsb' 0 8).extractLsb' 5 1 ++
    (v.extractLsb' 0 8).extractLsb' 3 2 ++ (v.extractLsb' 0 8).extractLsb' 0 3 = (v.extractLsb' 0 7).setWidth 9 := by
  revert v
  decide +kernel

end Bits

theorem getLsbD_ofBool_append (x : Bool) (v : BitVec 9) : (BitVec.ofBool x ++ v).getLsbD 9 = x := by
  rw [BitVec.getLsbD_append]
  simp

/-! ### The interrogate codes of the fields with ten bits -/

section Fields
variable {c : Cluster} {a a' : Adapter} {v : BitVec 9}

/-- C2 is answered with its nine bits, and its occupied bit in the returned code (R431). -/
theorem answer_c2 {occupied : Bool} (h : a.c2 = BitVec.ofBool occupied ++ v) :
    answer c a 17 = some (if occupied then 25 else 17, v) := by
  have answered : answer c a 17 =
      some (0b10001#5 ||| (BitVec.ofBool (a.c2.getLsbD 9)).setWidth 5 <<< 3, a.c2.extractLsb' 0 9) := rfl
  rw [answered, h, getLsbD_ofBool_append, extractLsb'_append_low]
  cases occupied <;> rfl

/-- IR is answered with its low nine bits, and the tenth in the returned code (R431). -/
theorem answer_ir {high : Bool} (h : a.ir = BitVec.ofBool high ++ v) :
    answer c a 22 = some (if high then 30 else 22, v) := by
  have answered : answer c a 22 =
      some (0b10110#5 ||| (BitVec.ofBool (a.ir.getLsbD 9)).setWidth 5 <<< 3, a.ir.extractLsb' 0 9) := rfl
  rw [answered, h, getLsbD_ofBool_append, extractLsb'_append_low]
  cases high <;> rfl

/-! ### A field written and read back -/

theorem type_reads_back (h : applyWrite a 0 v = some a') : answer c a' 16 = some (16, (v.extractLsb' 0 6).setWidth 9) := by
  obtain rfl := Option.some.inj h
  exact congrArg (fun info => some (16#5, info)) (typeBits v)

theorem command_reads_back (h : applyWrite a 2 v = some a') :
    answer c a' 18 = some (18, (v.extractLsb' 0 7).setWidth 9) := by
  obtain rfl := Option.some.inj h
  exact congrArg (fun info => some (18#5, info)) (commandBits v)

theorem line_reads_back (h : applyWrite a 3 v = some a') :
    answer c a' 19 = some (19, (v.extractLsb' 0 7).setWidth 9) := by
  obtain rfl := Option.some.inj h
  refine congrArg (fun info => some (19#5, info)) (Eq.trans ?_ (lineBits v))
  dsimp only
  rw [extractLsb'_append_low, extractLsb'_append_top (k := 1) (n := 9)]

theorem bits_read_back (h : applyWrite a 4 v = some a') : answer c a' 20 = some (20, v) := by
  obtain rfl := Option.some.inj h
  exact congrArg (fun info => some (20#5, info)) (append_extractLsb' (m := 2) (n := 7) v)

theorem character_reads_back (h : applyWrite a 5 v = some a') : answer c a' 21 = some (21, v) := by
  obtain rfl := Option.some.inj h
  exact congrArg (fun info => some (21#5, info)) (middle_of_append _ _ v)

end Fields

/-- Settles O25: each field as its write code leaves it. -/
theorem clusterFieldsReadBack : Obligations.ClusterFieldsReadBack := by
  refine fun c a a' v => ⟨type_reads_back, fun h => ?_, fun h => ?_, command_reads_back, line_reads_back, bits_read_back,
    character_reads_back, fun h => ?_, fun h => ?_⟩ <;> obtain rfl := Option.some.inj h
  · exact answer_c2 (occupied := false) rfl
  · exact answer_c2 (occupied := true) rfl
  · exact answer_ir (high := false) rfl
  · exact answer_ir (high := true) rfl

end Sys2Proof.Machine
end

section
/-! PROOF. Bootstrap mode: the bytes of a group accumulate in P-L; with four of them the data byte is stored and the
instruction runs. -/

namespace Sys2Proof.Machine

/-! ### The bytes of a group -/

/-- The state with bytes of a group put into P-L (R496). -/
def accumulated (s : State) (bytes : List Byte) : State := bytes.foldl accumulate s

/-- The byte of its group that a state puts into P-L, by its place in the instruction. -/
theorem halfRow_accumulate {s : State} (v : Byte) (seq : s.seq.toNat < 3) {n : Nat} (hn : n < 3) :
    halfRow (pLeft (accumulate s v)) (2 - n) = if n = s.seq.toNat then v else halfRow (pLeft s) (2 - n) := by
  have group : s.seq = 0 ∨ s.seq = 1 ∨ s.seq = 2 := by bv_omega
  have place : n = 0 ∨ n = 1 ∨ n = 2 := by omega
  obtain e | e | e := group <;> obtain rfl | rfl | rfl := place <;>
    simp [accumulate, pLeft, e, halfRow_zero, halfRow_one, halfRow_two]

theorem seq_accumulate {s : State} (v : Byte) (seq : s.seq.toNat < 3) : (accumulate s v).seq.toNat = s.seq.toNat + 1 := by
  change (s.seq + 1).toNat = _
  bv_omega

theorem putLeft_accumulate (s : State) (v : Byte) (h : Half) : putLeft (accumulate s v).p h = putLeft s.p h := by
  simp [accumulate, putLeft]

/-- Accumulating changes P-L and the sequence count only. -/
theorem accumulated_changes (s : State) (bytes : List Byte) :
    ∃ h seq, accumulated s bytes = { s with p := putLeft s.p h, seq := seq } := by
  induction bytes generalizing s with
  | nil => exact ⟨wordLeft s.p, s.seq, by rw [putLeft, makeWord_eta]; rfl⟩
  | cons v rest ih =>
    obtain ⟨h, seq, e⟩ := ih (accumulate s v)
    exact ⟨h, seq, e.trans (by rw [putLeft_accumulate]; rfl)⟩

theorem seq_accumulated {s : State} {bytes : List Byte} (room : s.seq.toNat + bytes.length ≤ 3) :
    (accumulated s bytes).seq.toNat = s.seq.toNat + bytes.length := by
  induction bytes generalizing s with
  | nil => rfl
  | cons v rest ih =>
    rw [List.length_cons] at room
    have counted := seq_accumulate v (s := s) (by omega)
    have := ih (s := accumulate s v) (by omega)
    rw [List.length_cons]
    change (accumulated (accumulate s v) rest).seq.toNat = _
    omega

theorem halfRow_accumulated {s : State} {bytes : List Byte} (room : s.seq.toNat + bytes.length ≤ 3) {n : Nat} (hn : n < 3) :
    halfRow (pLeft (accumulated s bytes)) (2 - n) =
      if n < s.seq.toNat then halfRow (pLeft s) (2 - n)
      else bytes.getD (n - s.seq.toNat) (halfRow (pLeft s) (2 - n)) := by
  induction bytes generalizing s with
  | nil => simp [accumulated]
  | cons v rest ih =>
    rw [List.length_cons] at room
    have counted := seq_accumulate v (s := s) (by omega)
    have later := ih (s := accumulate s v) (by omega)
    rw [counted, halfRow_accumulate v (by omega) hn] at later
    refine Eq.trans later ?_
    obtain before | here | after := Nat.lt_trichotomy n s.seq.toNat
    · rw [if_pos (by omega), if_neg (by omega), if_pos before]
    · subst here
      simp
    · rw [if_neg (by omega), if_neg (by omega), if_neg (by omega), show n - s.seq.toNat = (n - (s.seq.toNat + 1)) + 1 by omega]
      rfl

/-! ### The source -/

/-- The fourth byte of a group is the data byte (R496). -/
theorem bootTake_of_full {s : State} {bytes rest : List Byte} {v : Byte} (full : s.seq.toNat + bytes.length = 3) :
    bootTake s (bytes ++ v :: rest) =
      ({ accumulated s bytes with seq := 0, env := { s.env with bootIn := rest } }, some v) := by
  induction bytes generalizing s with
  | nil =>
    have third : s.seq = 3 := BitVec.eq_of_toNat_eq full
    exact if_pos third
  | cons w bytes ih =>
    rw [List.length_cons] at full
    have counted := seq_accumulate w (s := s) (by omega)
    have earlier : s.seq ≠ 3 := fun e => by simp [e] at full
    rw [List.cons_append, bootTake, if_neg earlier, ih (s := accumulate s w) (by omega)]
    rfl

/-- With fewer bytes the step takes those there are (R496). -/
theorem bootTake_of_short {s : State} {bytes : List Byte} (short : s.seq.toNat + bytes.length ≤ 3) :
    bootTake s bytes = ({ accumulated s bytes with env := { s.env with bootIn := [] } }, none) := by
  induction bytes generalizing s with
  | nil => rfl
  | cons w bytes ih =>
    rw [List.length_cons] at short
    have counted := seq_accumulate w (s := s) (by omega)
    have earlier : s.seq ≠ 3 := fun e => by simp [e] at short
    rw [bootTake, if_neg earlier, ih (s := accumulate s w) (by omega)]
    rfl

/-- The state with a half-word in P-L, a sequence count, and what is left at the source. -/
def collected (s : State) (h : Half) (seq : BitVec 4) (rest : List Byte) : State :=
  { s with p := putLeft s.p h, seq := seq, env := { s.env with bootIn := rest } }

section Collected
variable (s : State) (h : Half) (seq : BitVec 4) (rest : List Byte)

theorem value_collected (p : Place) : p.value (collected s h seq rest) = p.value s :=
  value_congr p rfl rfl rfl rfl rfl rfl rfl rfl rfl rfl rfl rfl rfl rfl

theorem untouched_collected : Untouched s { collected s h seq rest with p := s.p } where
  places := fun p _ _ => value_congr p rfl rfl rfl rfl rfl rfl rfl rfl rfl rfl rfl rfl rfl rfl
  cf := rfl
  ia := rfl
  p := rfl
  ex := rfl
  run := rfl

theorem restKept_collected : RestKept s { collected s h seq rest with seq := s.seq, env := s.env } :=
  ⟨rfl, rfl, rfl, rfl, rfl, rfl, rfl, rfl, rfl, rfl, rfl, rfl, rfl, rfl, rfl, rfl, rfl, rfl, memoryKept_of rfl rfl⟩

end Collected

/-- The bytes of an incomplete group (R496). -/
theorem bootTake_short {s : State} {bytes : List Byte} (short : s.seq.toNat + bytes.length ≤ 3) : ∃ h seq,
    bootTake s bytes = (collected s h seq [], none) ∧ seq.toNat = s.seq.toNat + bytes.length ∧
      ∀ n, n < 3 → halfRow h (2 - n) = if n < s.seq.toNat then halfRow (wordLeft s.p) (2 - n)
        else bytes.getD (n - s.seq.toNat) (halfRow (wordLeft s.p) (2 - n)) := by
  obtain ⟨h, seq, e⟩ := accumulated_changes s bytes
  have counted := seq_accumulated short
  have rows := fun n hn => halfRow_accumulated short (n := n) hn
  rw [e] at counted rows
  refine ⟨h, seq, ?_, counted, fun n hn => ?_⟩
  · rw [bootTake_of_short short, e]
    rfl
  · rw [← wordLeft_putLeft s.p h]
    exact rows n hn

/-! ### A group that is complete -/

theorem half_eq_of_rows {h k : Half} (rows : ∀ n, n < 3 → halfRow h (2 - n) = halfRow k (2 - n)) : h = k :=
  half_eq (rows 0 (by decide)) (rows 1 (by decide)) (rows 2 (by decide))

/-- The bytes of an instruction, OP and A first (R121). -/
theorem encodeBytes_getD (i : Instr) (w : Byte) {n : Nat} (hn : n < 3) :
    (encodeBytes i).getD n w = halfRow (encode i) (2 - n) := by
  have place : n = 0 ∨ n = 1 ∨ n = 2 := by omega
  obtain rfl | rfl | rfl := place <;> rfl

/-- The bytes that earlier steps have put into P-L and those that come now are an instruction (R496). -/
theorem bootTake_instruction {s : State} {i : Instr} {v : Byte} {rest : List Byte} (seq : s.seq.toNat ≤ 3)
    (before : ∀ n, n < s.seq.toNat → halfRow (wordLeft s.p) (2 - n) = (encodeBytes i).getD n 0) :
    bootTake s ((encodeBytes i).drop s.seq.toNat ++ v :: rest) = (collected s (encode i) 0 rest, some v) := by
  have full : s.seq.toNat + ((encodeBytes i).drop s.seq.toNat).length = 3 := by
    rw [List.length_drop, show (encodeBytes i).length = 3 from rfl]
    omega
  obtain ⟨h, count, e⟩ := accumulated_changes s ((encodeBytes i).drop s.seq.toNat)
  have made : h = encode i := half_eq_of_rows fun n hn => by
    have row := halfRow_accumulated full.le hn
    rw [e] at row
    rw [← wordLeft_putLeft s.p h]
    refine row.trans ?_
    split
    next earlier => exact (before n earlier).trans (encodeBytes_getD i 0 hn)
    next later =>
      rw [List.getD_eq_getElem?_getD, List.getElem?_drop, ← List.getD_eq_getElem?_getD,
        show s.seq.toNat + (n - s.seq.toNat) = n by omega]
      exact encodeBytes_getD i _ hn
  rw [bootTake_of_full full, e, made]
  rfl

/-! ### The instruction starts -/

/-- The state in which the accumulated instruction runs, its data byte stored (R496, R499, D38). -/
def groupStarted (s : State) (i : Instr) (l : ByteLoc) (v : Byte) (rest : List Byte) : State :=
  startAccumulated (writeByte (collected s (encode i) 0 rest) l v)

section Started
variable {s : State} {i : Instr} {l : ByteLoc} {v : Byte} {rest : List Byte}

theorem p_groupStarted : (groupStarted s i l v rest).p = putLeft s.p (encode i) := by
  simp [groupStarted, collected]

/-- A place before IA is counted and I20 set holds what the data byte leaves in it (R499). -/
theorem value_groupStarted (valid : l.valid) {p : Place} :
    p.value (writeByte (collected s (encode i) 0 rest) l v) = byteStored s l v p (p.value s) := by
  rw [value_writeByte _ _ valid, value_collected]
  rfl

theorem cfIs_groupStarted (valid : l.valid) : CfIs (groupStarted s i l v rest) (byteStored s l v .cf s.cf) := by
  intro k hk
  have stored : (writeByte (collected s (encode i) 0 rest) l v).cf = byteStored s l v .cf s.cf :=
    value_groupStarted (p := .cf) valid
  rw [groupStarted, startAccumulated_cf, stored, getLsbD_setBit, if_neg (by simp [hk])]

theorem ia_groupStarted (valid : l.valid) :
    ia (groupStarted s i l v rest) = (byteStored s l v .ia1 s.ia1 ++ byteStored s l v .ia0 s.ia0) + 1 := by
  have stored : ia (writeByte (collected s (encode i) 0 rest) l v) =
      byteStored s l v .ia1 s.ia1 ++ byteStored s l v .ia0 s.ia0 := by
    rw [ia_eq_places, value_groupStarted valid, value_groupStarted valid]
    rfl
  rw [← stored]
  exact ia_of_bytes _

theorem places_groupStarted (valid : l.valid) (p : Place) (hp : p.isControl = false) :
    p.value (groupStarted s i l v rest) = byteStored s l v p (p.value s) := by
  rw [← value_groupStarted valid (i := i) (rest := rest)]
  cases p with
  | cf | ia1 | ia0 => cases hp
  | _ => rfl

theorem restKept_groupStarted : RestKept s { groupStarted s i l v rest with seq := s.seq, env := s.env } := by
  constructor <;> simp [groupStarted, collected, memoryKept_of]

/-- The data byte is delivered and the instruction runs, the stop switches off and nothing in progress (R496, R499). -/
theorem bootExecute_of_idle (wf : i.wellFormed = true) (stop : s.env.panel.stop = .off) (idle : s.pending = none)
    (write : s.adapterWrite = none) (dest : byteLoc s.cfg.bootDataDest = .ok l) :
    bootExecute (collected s (encode i) 0 rest) v = exec i (groupStarted s i l v rest) := by
  have runs : runEntered (groupStarted s i l v rest) = exec i (groupStarted s i l v rest) := by
    have inP : wordLeft (groupStarted s i l v rest).p = encode i := by rw [p_groupStarted, wordLeft_putLeft]
    rw [runEntered_of_noStop (by simpa [groupStarted, collected] using stop),
      runInstruction_of_idle (by simpa [groupStarted, collected] using idle) inP wf,
      settleAdapterWrite_of_none (by simpa [groupStarted, collected] using write)]
  have done : completeAccess (collected s (encode i) 0 rest) = (collected s (encode i) 0 rest, none) :=
    completeAccess_idle idle
  have resolved : byteLoc (collected s (encode i) 0 rest).cfg.bootDataDest = .ok l := dest
  rw [bootExecute, withByte, resolved, ← runs]
  dsimp only
  split
  · rw [withAccessDone_of_noFault (.inl (by rw [done])), done]
    rfl
  · rfl

end Started

/-! ### The step -/

/-- The step of a running DCP in bootstrap mode that has no instruction in P-L (R185, R495). -/
theorem step_bootstrap {s : State} (r : Running s) (ex : s.ex = false) (bstm : s.bstm = true)
    (hold : s.env.panel.hold = .off) : step s = mapNext settleTimers (bootstrap s) := by
  have free : holdPL s = false := (holdPL_eq_false_iff s).2 (by simp [hold])
  simp only [step_running r, ex, free, bstm, Bool.false_eq_true, if_false, if_true]

/-- Settles O17: a group that the source completes, and one that it does not. -/
theorem bootstrapStep : Obligations.BootstrapStep := by
  intro s r ex bstm hold
  rw [step_bootstrap r ex bstm hold]
  refine ⟨rfl, fun i v rest l stop idle write seq wf before source dest => ?_, fun short => ?_⟩
  · have valid := byteLoc_valid dest
    have runs : bootstrap s = exec i (groupStarted s i l v rest) := by
      rw [bootstrap, source, bootTake_instruction seq before]
      exact bootExecute_of_idle wf stop idle write dest
    have p := p_groupStarted (s := s) (i := i) (l := l) (v := v) (rest := rest)
    refine ⟨groupStarted s i l v rest, by rw [runs], by rw [p, wordLeft_putLeft], by rw [p, wordRight_putLeft],
      by rw [p, wordTag_putLeft], rfl, ?_, ?_, cfIs_groupStarted valid, ia_groupStarted valid, places_groupStarted valid,
      ?_, ?_, restKept_groupStarted⟩
    · simpa [groupStarted, collected] using r.run
    · rw [groupStarted, startAccumulated_cf, getLsbD_setBit, if_pos (by decide)]
    · simp [groupStarted, collected]
    · simp [groupStarted, collected]
  · obtain ⟨h, seq, taken, counted, rows⟩ := bootTake_short (s := s) (bytes := s.env.bootIn) (by omega)
    have waits : bootstrap s = .next (collected s h seq []) := by
      rw [bootstrap, taken]
    rw [waits]
    exact ⟨collected s h seq [], rfl, counted, fun n hn => by rw [collected, wordLeft_putLeft]; exact rows n hn,
      wordRight_putLeft s.p h, untouched_collected s h seq [], rfl, restKept_collected s h seq []⟩

end Sys2Proof.Machine
end
